-- ==== Sys2Proof/Word.lean ====
section
/-! DEFINITION. The words of the K240: 32-bit words, bytes, 24-bit addresses and the four byte enables of a transfer. -/

namespace Sys2Proof

/-- A byte of memory. -/
abbrev Byte := BitVec 8

/-- A word is 32 bits (00, "Words and addresses"). -/
abbrev Word := BitVec 32

/-- Addresses are 24-bit byte addresses into a 16 MiB space (00, "Words and addresses"). -/
abbrev Addr := BitVec 24

/-- Four byte enables, one per byte of the word: bit `i` is the enable of bits `8i+7 .. 8i` (00; R51). -/
abbrev Enables := BitVec 4

end Sys2Proof
end

