-- ==== Sys2Proof/Config.lean ====
section
/-! DEFINITION. What is fixed for every K240, and the values the manual leaves open. -/

namespace Sys2Proof.Config

/-- The size of the address space in bytes, 16 MiB (00, "Words and addresses"). -/
def spaceSize : Nat := 0x1000000

/-- What a byte of memory that nothing has written reads as.
DESIGN CHOICE (log entry 1, unsafe): the manual gives the SRAM no contents at power-on. -/
def unwrittenByte : Byte := 0

/-- The number of entries a port queue holds (R82). -/
def queueSize : Nat := 16

/-- The number of reports the internal queue holds (R149). -/
def reportQueueSize : Nat := 16

/-- The number of claims one port may own (R64, R69). -/
def claimsPerPort : Nat := 4

/-- The largest 32-bit number: H and W do not go beyond it (R9, R151), and the dropped count stops at it (R149). -/
def maxWord : Nat := 4294967295

/-- The largest 16-bit number, at which the overflow count, the fault count and the quiet count stop (R35, R142, R158). -/
def maxHalf : Nat := 65535

/-- The pass-over count from which a waiting requester is preferred (R87). -/
def passLimit : Nat := 8

/-- FREE VALUE (log entry 6): which of the blocks that produced reports at one event offers its next report first.
R147: "Two reports produced together, by one block or by two, are offered to the queue one after the other, in either
order." Nothing can be proved of it. -/
opaque reportPick : Nat → Nat

/-- FREE VALUE (log entry 28): the number that stands for RESYNC in the detail of a CURSOR_RESYNC report. R44 names the detail
and gives it no number. -/
opaque resyncDetail : Word

/-- FREE VALUE (log entry 28): the number that stands for HELD_DROPPED in the detail of a CURSOR_RESYNC report (R44). -/
opaque heldDroppedDetail : Word

/-- FREE VALUE (log entry 28): the detail of a STREAM_OVERFLOW report, which R39 does not give. -/
opaque streamOverflowDetail : Word

end Sys2Proof.Config
end

