-- ==== Sys2Proof/Syntax.lean ====
section
/-! DEFINITION. The commands of the K240: one constructor per row of spec/opcode_table.json. -/

namespace Sys2Proof

/-- The two upstream ports. Port A is the line controller's, Port B the inspection computer's (00). -/
inductive Port where
  | a | b
deriving DecidableEq, Repr

/-- How much of a unit of work a command covers (log entries 3 and 4).
The manual's steps are whole and indivisible (95); a unit of work lasts from its grant to the answer of its last access,
and events that take no access may come while it is under its hold (R85, R88, R89).
`error` is the memory's answer: the position, from 0, of the access of the unit that is answered ERROR, if any. -/
inductive Span where
  /-- The grant, the accesses and the end of the hold, with nothing between. -/
  | whole (error : Option Nat)
  /-- The grant alone: the unit stays under its hold. -/
  | grant
  /-- The accesses and the end of the hold of the unit that is under its hold. For APPLY_PROFILE_READ after word 255, the
  checks on the candidate (log entry 20). -/
  | finish (error : Option Nat)
deriving DecidableEq, Repr

/-- An arrival on ABORTA or ABORTB: the port, and whether the arrival falls together with the decision of the port's VIEW or
STREAM entry, whose grant comes before the arrival and whose decision comes after the tears (R77; log entry 33). -/
structure Abort where
  port : Port
  deciding : Bool
deriving DecidableEq, Repr

/-- One constructor per row of the table of operations and events. -/
inductive Instr where
  /-- WRITE_ACCEPTANCE (R82): a write transfer is presented on port `p`, and accepted once it can be. -/
  | writeAcceptance (p : Port) (address : Addr) (enables : Enables) (data : Word)
  /-- READ_ACCEPTANCE (R83): a read transfer is presented on port `p`, and accepted once it can be. -/
  | readAcceptance (p : Port) (address : Addr) (enables : Enables)
  /-- VIEW_ENTRY_PERFORMANCE (R65): the VIEW entry at the head of port `p`'s queue. -/
  | viewEntryPerformance (p : Port) (span : Span)
  /-- STREAM_ENTRY_PERFORMANCE (R40): the STREAM entry at the head of port `p`'s queue. -/
  | streamEntryPerformance (p : Port) (span : Span)
  /-- ENTRY_WITHOUT_HOLD (R85): a head entry that needs no access of its own. -/
  | entryWithoutHold (p : Port)
  /-- DEMAND_INITIALISATION (R103): for the head entry or the pending view read of port `p`. -/
  | demandInitialisation (p : Port) (span : Span)
  /-- PLAIN_WRITE (R86): the PLAIN entry at the head of port `p`'s queue. -/
  | plainWrite (p : Port) (span : Span)
  /-- PROFILE_WRITE (R86): a PROFILE head entry whose word is not watched. -/
  | profileWrite (p : Port) (span : Span)
  /-- PENDING_PLAIN_READ (R84). -/
  | pendingPlainRead (p : Port) (span : Span)
  /-- PENDING_VIEW_READ (R31). -/
  | pendingViewRead (p : Port) (span : Span)
  /-- APPLY (R133): the head entry of port `p` writes a command word with code 1. -/
  | apply (p : Port) (span : Span)
  /-- APPLY_PROFILE_READ (R133): one word of the profile block into the candidate profile, and the checks after word 255,
  made in the step of that read or in a step of their own (log entry 20). -/
  | applyProfileRead (span : Span)
  /-- START_FRESH (R137): a command word with code 2 whose parameter is not CARRY. -/
  | startFresh (p : Port) (span : Span)
  /-- START_CARRY (R138): a command word with code 2 and parameter CARRY. -/
  | startCarry (p : Port) (span : Span)
  /-- STOP (R139): a command word with code 3. -/
  | stop (p : Port) (span : Span)
  /-- RECOVER (R140): a command word with code 4. -/
  | recover (p : Port) (span : Span)
  /-- QUIET (R141): a command word with code 5. -/
  | quiet (p : Port) (span : Span)
  /-- UNKNOWN_COMMAND (R130): a command word with code 6..255. -/
  | unknownCommand (p : Port) (span : Span)
  /-- COMMAND_CODE_NONE (R129): a command word with code 0. -/
  | commandCodeNone (p : Port) (span : Span)
  /-- RESULT_WORD_WRITE (R131). -/
  | resultWordWrite (span : Span)
  /-- READ_POINTER_WRITE (R154): the head entry of port `p` writes the read-pointer word. -/
  | readPointerWrite (p : Port) (span : Span)
  /-- QUIET_EXTEND_WRITE (R158): the head entry of port `p` writes the quiet-extend word. -/
  | quietExtendWrite (p : Port) (span : Span)
  /-- INDEX_ARRIVAL (R97). -/
  | indexArrival
  /-- CARD_INITIALISATION (R102). -/
  | cardInitialisation (span : Span)
  /-- DRAIN_WAIT_END (R105). -/
  | drainWaitEnd
  /-- CARD_CHECK (R106). -/
  | cardCheck (span : Span)
  /-- JUDGEMENT (R118). -/
  | judgement (span : Span)
  /-- ROWSTEP_ARRIVAL (R124). -/
  | rowstepArrival
  /-- ABORT_ARRIVAL (R92): ABORTA for port `a`, ABORTB for port `b`, on its own or together with a decision (R77). -/
  | abortArrival (p : Abort)
  /-- DEADLINE_EXPIRY (R113): of station slot `slot`. -/
  | deadlineExpiry (slot : Fin 8)
  /-- LATE_SCAN_READ (R115). -/
  | lateScanRead (span : Span)
  /-- MARKING_INITIALISATION (R144, first phase). -/
  | markingInitialisation (span : Span)
  /-- MARKING_CARD_CHECK (R144, second phase). -/
  | markingCardCheck (span : Span)
  /-- REPORT_RECORD_WRITE (R153). -/
  | reportRecordWrite (span : Span)
  /-- STATUS_WORD_WRITE (R161). -/
  | statusWordWrite (span : Span)
  /-- READ_POINTER_RESET_WRITE (R156). -/
  | readPointerResetWrite (span : Span)
  /-- DEVICE_RESET (R146): RESET is asserted; `completed` accesses of a unit under its hold are completed by memory (R89). -/
  | deviceReset (completed : Nat)
  /-- RESET_RELEASE (R165): RESET is released with `straps` on the PSEL inputs. -/
  | resetRelease (straps : BitVec 4)
  /-- MICROSECOND_COUNTER_TICK (R111). -/
  | microsecondCounterTick
deriving DecidableEq, Repr

end Sys2Proof
end

