-- ==== Sys2Proof/WellFormed.lean ====
section
/-! DEFINITION. Which commands are well formed: the memory answers only accesses that a unit of work can have (R88). -/

namespace Sys2Proof

/-- The position of an ERROR answer lies among the unit's at most `most` accesses. -/
def Span.within (most : Nat) : Span → Bool
  | .whole (some n) => decide (n < most)
  | .finish (some n) => decide (n < most)
  | .whole none => true
  | .finish none => true
  | .grant => true

/-- The most accesses that the unit of work of a command can have (R88's table; 0 for a command without a unit). -/
def Instr.mostAccesses : Instr → Nat
  | .writeAcceptance _ _ _ _ => 0
  | .readAcceptance _ _ _ => 0
  | .viewEntryPerformance _ _ => 8
  | .streamEntryPerformance _ _ => 4
  | .entryWithoutHold _ => 0
  | .demandInitialisation _ _ => 4
  | .plainWrite _ _ => 2
  | .profileWrite _ _ => 2
  | .pendingPlainRead _ _ => 1
  | .pendingViewRead _ _ => 1
  | .apply _ _ => 2
  | .applyProfileRead _ => 1
  | .startFresh _ _ => 2
  | .startCarry _ _ => 2
  | .stop _ _ => 2
  | .recover _ _ => 2
  | .quiet _ _ => 2
  | .unknownCommand _ _ => 2
  | .commandCodeNone _ _ => 2
  | .resultWordWrite _ => 1
  | .readPointerWrite _ _ => 2
  | .quietExtendWrite _ _ => 2
  | .indexArrival => 0
  | .cardInitialisation _ => 4
  | .drainWaitEnd => 0
  | .cardCheck _ => 2
  | .judgement _ => 2
  | .rowstepArrival => 0
  | .abortArrival _ => 0
  | .deadlineExpiry _ => 0
  | .lateScanRead _ => 1
  | .markingInitialisation _ => 4
  | .markingCardCheck _ => 2
  | .reportRecordWrite _ => 8
  | .statusWordWrite _ => 1
  | .readPointerResetWrite _ => 1
  | .deviceReset _ => 8
  | .resetRelease _ => 0
  | .microsecondCounterTick => 0

/-- The span of a command that makes a unit of work. -/
def Instr.span : Instr → Option Span
  | .writeAcceptance _ _ _ _ => none
  | .readAcceptance _ _ _ => none
  | .viewEntryPerformance _ sp => some sp
  | .streamEntryPerformance _ sp => some sp
  | .entryWithoutHold _ => none
  | .demandInitialisation _ sp => some sp
  | .plainWrite _ sp => some sp
  | .profileWrite _ sp => some sp
  | .pendingPlainRead _ sp => some sp
  | .pendingViewRead _ sp => some sp
  | .apply _ sp => some sp
  | .applyProfileRead sp => some sp
  | .startFresh _ sp => some sp
  | .startCarry _ sp => some sp
  | .stop _ sp => some sp
  | .recover _ sp => some sp
  | .quiet _ sp => some sp
  | .unknownCommand _ sp => some sp
  | .commandCodeNone _ sp => some sp
  | .resultWordWrite sp => some sp
  | .readPointerWrite _ sp => some sp
  | .quietExtendWrite _ sp => some sp
  | .indexArrival => none
  | .cardInitialisation sp => some sp
  | .drainWaitEnd => none
  | .cardCheck sp => some sp
  | .judgement sp => some sp
  | .rowstepArrival => none
  | .abortArrival _ => none
  | .deadlineExpiry _ => none
  | .lateScanRead sp => some sp
  | .markingInitialisation sp => some sp
  | .markingCardCheck sp => some sp
  | .reportRecordWrite sp => some sp
  | .statusWordWrite sp => some sp
  | .readPointerResetWrite sp => some sp
  | .deviceReset _ => none
  | .resetRelease _ => none
  | .microsecondCounterTick => none

/-- A command is well formed when the memory answers in it belong to accesses its unit of work can have. A unit cut by
device reset has completed fewer accesses than it has, at most eight (R88, R89). -/
def Instr.wf (i : Instr) : Bool :=
  match i with
  | .deviceReset completed => decide (completed ≤ i.mostAccesses)
  | _ => match i.span with
    | some sp => sp.within i.mostAccesses
    | none => true

end Sys2Proof
end

