-- ==== Sys2Proof/Machine/State.lean ====
section
/-! DEFINITION. The state of the K240: one structure per block, as the blocks own their state, and the state at reset. -/

namespace Sys2Proof.Machine

/-- No step of the K240 ends in a fault of the model: every row of the table has an effect in every state in which it can
come. The part's own faults (INDEX_OVERRUN, MEMORY) are state (R142). -/
inductive Fault
deriving DecidableEq, Repr

/-- Why a command has no meaning. -/
inductive Refusal where
  /-- Raised by `exec` alone, for a command that has no meaning yet. Safe: nothing can be proved of it. -/
  | notModelled (mnemonic : String)
deriving DecidableEq, Repr

/-! ## Small containers -/

/-- One value for each of the eight station slots (R17). -/
structure Eight (α : Type) where
  s0 : α
  s1 : α
  s2 : α
  s3 : α
  s4 : α
  s5 : α
  s6 : α
  s7 : α
deriving DecidableEq, Repr

/-- Memory: byte cells in rising order of address, none equal to what an unlisted address reads as. -/
abbrev Memory := List Host.Cell

/-! ## The active profile (R17, chapter 11) -/

/-- The order in which a stream cursor crosses its window (R36). -/
inductive CursorOrder where
  | laneMajor | rowMajor
deriving DecidableEq, Repr

/-- A direction of lanes or rows (R36). -/
inductive Direction where
  | increasing | decreasing
deriving DecidableEq, Repr

/-- The commit mode of a slot (R17, R63). -/
inductive CommitMode where
  | word | record
deriving DecidableEq, Repr

/-- The writable field set (R17, R51). -/
structure FieldSet where
  state : Bool
  cause : Bool
  count : Bool
  lot : Bool
  score : Bool
  reading : Bool
  serial : Bool
deriving DecidableEq, Repr

/-- The exit condition (R17, R106). -/
inductive ExitCondition where
  | none | rank (r : Nat) | mark
deriving DecidableEq, Repr

/-- The limit field (R17, R57). -/
inductive LimitField where
  | none | count | score | reading
deriving DecidableEq, Repr

/-- The settings of one station slot (R17). -/
structure SlotSettings where
  enabled : Bool
  port : Port
  offset : Nat
  mode : CommitMode
  apertureBase : Nat
  firstLane : Nat
  lastLane : Nat
  firstRow : Nat
  lastRow : Nat
  order : CursorOrder
  laneDirection : Direction
  rowDirection : Direction
  streamWord : Fin 4
  sync : Bool
  syncValue : Word
  fields : FieldSet
  exit : ExitCondition
  missCause : BitVec 4
  limit : LimitField
  low : Nat
  high : Nat
  deadline : Nat
deriving DecidableEq, Repr

/-- The settings held in the profile block (11.4, 11.5). -/
structure Profile where
  lanes : Nat
  rows : Nat
  depth : Nat
  ringBase : Nat
  dischargeOffset : Nat
  goodState : BitVec 4
  idleHold : Bool
  irqThreshold : Nat
  reportBase : Nat
  capacity : Nat
  divider : Nat
  holdOn : Nat
  holdOff : Nat
  /-- The levels of report kinds 1..16, in that order. -/
  levels : List Nat
  slots : Eight SlotSettings
deriving DecidableEq, Repr

/-! ## Ports (chapter 6) -/

/-- A transfer presented on a port (R80). The two lowest address bits are treated as 0 where it is used. -/
structure Transfer where
  isWrite : Bool
  address : Addr
  enables : Enables
  data : Word
deriving DecidableEq, Repr

/-- A response of a port (R80). -/
inductive Answer where
  | ok | data (w : Word) | error
deriving DecidableEq, Repr

/-- What a view access is mapped to (R27, R30). -/
structure Target where
  slot : Fin 8
  frame : Nat
  card : Nat
  word : Fin 4
deriving DecidableEq, Repr

/-- A port's pending read (R83). The address is that of the whole word. -/
inductive PendingRead where
  | plain (address : Nat)
  | view (target : Target)
deriving DecidableEq, Repr

/-- An accepted write (R82). The address is that of the whole word. -/
inductive Entry where
  | plain (address : Nat) (data : Word) (enables : Enables)
  | profile (address : Nat) (data : Word) (enables : Enables)
  | view (target : Target) (data : Word) (enables : Enables)
  | stream (target : Target) (data : Word) (enables : Enables)
deriving DecidableEq, Repr

/-- A port interface, its queue (oldest first) and the latest response given on the port. -/
structure PortState where
  transfer : Option Transfer
  pending : Option PendingRead
  queue : List Entry
  answer : Option Answer
deriving DecidableEq, Repr

/-! ## View Unit (chapters 2 and 3) -/

/-- A stream cursor (R35). -/
inductive Cursor where
  | none | step (k : Nat) | exhausted
deriving DecidableEq, Repr

/-- What the View Unit holds for one slot (R18, R35). -/
structure Station where
  currentFrame : Option Nat
  cursor : Cursor
  held : Nat
  overflow : Nat
  lastDropped : Word
deriving DecidableEq, Repr

/-! ## Group Unit (chapter 5) -/

/-- A staged word with its byte enables (R64, R70). -/
structure StagedWord where
  data : Word
  enables : Enables
deriving DecidableEq, Repr

/-- The words of one card record, each absent or present. -/
structure Staged where
  w0 : Option StagedWord
  w1 : Option StagedWord
  w2 : Option StagedWord
  w3 : Option StagedWord
deriving DecidableEq, Repr

/-- A claim: one open record group (R64). Its port is the owning slot's; its age is its place in the claim table. -/
structure Claim where
  frame : Nat
  card : Nat
  slot : Fin 8
  port : Port
  staged : Staged
deriving DecidableEq, Repr

/-! ## Arbiter (section 6.5) -/

/-- The five requesters (R87). -/
inductive Requester where
  | sequencer | report | command | portA | portB
deriving DecidableEq, Repr

/-- What a waiting request is for (R85, R102, R115, R131, R161). -/
inductive Request where
  | cardInit | cardCheck | judge | lateScan | markInit | markCheck
  | record | status | readPointer
  | outcome | profileRead
  | demandInit | own
deriving DecidableEq, Repr

/-- One requester's side of the arbiter: its waiting request and its pass-over count (R87). -/
structure Desk where
  request : Option Request
  passed : Nat
deriving DecidableEq, Repr

/-- Outcomes of commands (11.2). -/
inductive OutcomeCode where
  | inProgress | done | busy | wrongState | invalidProfile | invalidParameter | unknownCommand | memoryError
deriving DecidableEq, Repr

/-- An outcome waiting to be written (R131). -/
structure CommandOutcome where
  tag : Byte
  code : OutcomeCode
  detail : BitVec 16
deriving DecidableEq, Repr

/-- What a demand initialisation was made for, or that this has been discarded since its grant (R85, R103). -/
inductive InitFor where
  | entry | read | gone
deriving DecidableEq, Repr

/-- A unit of work under its hold, with what it took at its grant (R88). -/
inductive Work where
  | cardInit (frame card : Nat)
  | cardCheck (slot : Fin 8) (frame card : Nat)
  | judge (frame card : Nat)
  | lateRead (slot : Fin 8) (frame card : Nat)
  | markInit (frame card : Nat)
  | markCheck (frame card : Nat)
  | record
  | status (index : Nat) (value : Word)
  | readPointer
  | outcome (o : CommandOutcome)
  | profileRead (index : Nat)
  | demandInit (p : Port) (frame card : Nat) (purpose : InitFor)
  | pass (p : Port) (slot : Fin 8) (frame card : Nat) (carried : Staged) (data : Word)
  | write (p : Port) (address : Nat) (data : Word) (enables : Enables) (isProfile : Bool)
  | plainRead (p : Port) (address : Nat)
  | viewRead (p : Port) (target : Target) (staged : Option StagedWord)
deriving DecidableEq, Repr

/-- The arbiter: the current hold and the five requesters' desks (R87, R88). `sequencerMet` says that the Ring Sequencer has
presented a request with own work and a scan read both ready since device reset (R115), and `reportMet` that the Report Unit
has with a record write and a due status word both ready (R161). -/
structure Arbiter where
  hold : Option Work
  sequencer : Desk
  report : Desk
  command : Desk
  portA : Desk
  portB : Desk
  sequencerMet : Bool
  reportMet : Bool
deriving DecidableEq, Repr

/-! ## Ring Sequencer (chapters 1, 7, 8, 9) -/

/-- The tracking state (R128). -/
inductive Tracking where
  | unconfigured | idle | running | advancing | marking | lost | halted
deriving DecidableEq, Repr

/-- The kind of a fault (R142). -/
inductive FaultKind where
  | indexOverrun | memory
deriving DecidableEq, Repr

/-- Kind of an advance (R100). -/
inductive AdvanceKind where
  | index | start
deriving DecidableEq, Repr

/-- Stage of an advance (R100). -/
inductive Stage where
  | initialising | checking | judging
deriving DecidableEq, Repr

/-- Progress of one pair of the departure list (R100). -/
inductive PairStatus where
  | waiting | draining | checking | done
deriving DecidableEq, Repr

/-- One pair of the departure list (R104). -/
structure Departure where
  slot : Fin 8
  frame : Nat
  status : PairStatus
deriving DecidableEq, Repr

/-- Check progress (R100): the cards still to be examined, ascending (the next card first), how many were written
REJECTED, and the first such card. -/
structure CheckProgress where
  todo : List Nat
  written : Nat
  first : Option Nat
deriving DecidableEq, Repr

/-- Judgement progress (R117): the cards still to be judged, ascending, and what R119 keeps.
Bit `n` of `causes` stands for cause `n`; bit `l - 1` of a row set stands for lane `l`. -/
structure JudgeProgress where
  todo : List Nat
  good : Nat
  rejected : Nat
  void : Nat
  causes : BitVec 16
  first : Option Nat
  rowSets : List (BitVec 8)
deriving DecidableEq, Repr

/-- The advance record (R99, R100, R117). -/
structure Advance where
  kind : AdvanceKind
  stage : Stage
  acceptedAt : Word
  departures : List Departure
  check : Option CheckProgress
  judgeFrame : Option Nat
  judge : Option JudgeProgress
deriving DecidableEq, Repr

/-- The two phases of the marking pass (R144). -/
inductive MarkingPhase where
  | initialising | cards
deriving DecidableEq, Repr

/-- The marking set (R143) and the marking progress (R144): the cards of it still to be examined, in their order. -/
structure Marking where
  frames : List Nat
  phase : MarkingPhase
  todo : List (Nat × Nat)
deriving DecidableEq, Repr

/-- The Ring Sequencer (R9, R98, R100, R101, R128, R142). -/
structure Sequencer where
  tracking : Tracking
  head : Nat
  firstFrame : Nat
  ringValid : Bool
  pendingIndex : Nat
  underInit : Option Nat
  initSet : List Nat
  advance : Option Advance
  marking : Option Marking
  faultCause : Option FaultKind
  faultCount : Nat
  /-- The latest grant of the sequencer's requester was for a scan read (R115). -/
  lastWasScan : Bool
deriving DecidableEq, Repr

/-! ## Time Base (section 7.6) -/

/-- A station deadline (R112). -/
inductive Deadline where
  | disarmed | armed (frame : Nat) (expiry : Word)
deriving DecidableEq, Repr

/-- A LATE scan on the scan list (R114). -/
structure WaitingScan where
  slot : Fin 8
  frame : Nat
  expiry : Word
deriving DecidableEq, Repr

/-- The running LATE scan (R115, R116): cards still to be read, late cards counted, the first of them. -/
structure RunningScan where
  slot : Fin 8
  frame : Nat
  expiry : Word
  todo : List Nat
  late : Nat
  first : Option Nat
deriving DecidableEq, Repr

/-- The Time Base (R111, R112, R114). -/
structure TimeBase where
  counter : Word
  divider : Nat
  cycles : Nat
  deadlines : Eight Deadline
  scans : List WaitingScan
  running : Option RunningScan
deriving DecidableEq, Repr

/-! ## Discharge Unit (section 8.2) -/

/-- The Discharge Unit's rows (R122). The levels of REJ1 to REJ8 are pins. -/
structure Discharge where
  loaded : Option Nat
  rowCount : Nat
  rowSets : List (BitVec 8)
  pointer : Nat
deriving DecidableEq, Repr

/-! ## Command Unit (chapter 9) -/

/-- A command in progress, with its tag (R129). -/
inductive RunningCommand where
  | apply (tag : Byte)
  | startFresh (tag : Byte)
deriving DecidableEq, Repr

/-- The Command Unit (R129, R131, R133, R146). `candidate` holds the profile words read so far, word 0 first. -/
structure CommandUnit where
  profile : Option Profile
  running : Option RunningCommand
  candidate : List Word
  waitingBusy : Option CommandOutcome
  waitingResult : Option CommandOutcome
  /-- The latest grant of the Command Unit was for an outcome write (R131). -/
  lastWasOutcome : Bool
deriving DecidableEq, Repr

/-! ## Report Unit (chapter 10) -/

/-- The sixteen report kinds (R147). -/
inductive ReportKind where
  | fault | undischarged | missed | writeLost | abandoned | collision | stageTorn | guardRefused
  | limitReject | late | streamOverflow | cursorResync | discharge | indexIgnored | rowstepExtra
  | readPointerInvalid
deriving DecidableEq, Repr

/-- The side of the part that produced a report (R148). -/
inductive Source where
  | portA | portB | sequencer | discharge | timebase
deriving DecidableEq, Repr

/-- A produced report (R147, R148) before it has a sequence number. `ofStatusW` marks the FAULT report of a failed write of
the status word of W, whose admission does not make that word due again (R162). -/
structure Report where
  kind : ReportKind
  level : Nat
  source : Source
  slot : Option (Fin 8)
  frame : Nat
  lane : Nat
  row : Nat
  count : Nat
  detail : Word
  data : Word
  timestamp : Word
  head : Nat
  ofStatusW : Bool
deriving DecidableEq, Repr

/-- A record write under its hold (R153, R156): the report, the address and sequence number it was given at the grant,
whether it still stands at the head of the queue, and whether an APPLY has succeeded since the grant. -/
structure RecordWrite where
  report : Report
  address : Nat
  sequence : Nat
  queued : Bool
  superseded : Bool
deriving DecidableEq, Repr

/-- The Report Unit (R149, R151, R155, R156, R157, R159, R161). -/
structure ReportUnit where
  queue : List Report
  writeSeq : Nat
  readSeq : Nat
  markA : Option Nat
  markA7 : Option Nat
  quiet : Nat
  fillLatch : Bool
  dropped : Nat
  /-- The due status words (0 for offset 0x040, 1 for 0x044, ...), the one that became due first at the head. -/
  due : List Nat
  /-- A value of the status word under its write has changed since the grant. -/
  changedAgain : Bool
  /-- The write of 1 into the read-pointer word is waiting. -/
  readPointerDue : Bool
  writing : Option RecordWrite
  /-- The latest grant for a record or status write was for a status write. -/
  lastWasStatus : Bool
deriving DecidableEq, Repr

/-- The output lines (R125, R155, R160). Bit `l - 1` of `rej` is REJl. -/
structure Pins where
  hold : Bool
  irq : Bool
  rej : BitVec 8
deriving DecidableEq, Repr

/-! ## The whole part -/

/-- The state of the K240, with the queue of commands that wait (first in, first out). -/
structure State where
  mem : Memory
  psel : BitVec 4
  /-- RESET is asserted. -/
  inReset : Bool
  portA : PortState
  portB : PortState
  view : Eight Station
  /-- The claim table, the oldest claim first. -/
  claims : List Claim
  arb : Arbiter
  seq : Sequencer
  time : TimeBase
  disch : Discharge
  cmd : CommandUnit
  rep : ReportUnit
  pins : Pins
  /-- The model's own counter of free choices (log entry 6). -/
  choices : Nat
  pending : List Instr
deriving DecidableEq, Repr

/-! ## Reset values -/

/-- A port after device reset (R82, R95). -/
def PortState.reset : PortState := { transfer := none, pending := none, queue := [], answer := none }

/-- A slot's stream state after device reset (R18, R35). -/
def Station.reset : Station := { currentFrame := none, cursor := .none, held := 0, overflow := 0, lastDropped := 0 }

/-- A desk with no request and no pass-over (R87, R89). -/
def Desk.reset : Desk := { request := none, passed := 0 }

/-- The arbiter after device reset (R89, R95). -/
def Arbiter.reset : Arbiter :=
  { hold := none, sequencer := .reset, report := .reset, command := .reset, portA := .reset, portB := .reset,
    sequencerMet := false, reportMet := false }

/-- The Ring Sequencer after device reset (R9, R98, R100, R101, R115, R146). -/
def Sequencer.reset : Sequencer :=
  { tracking := .unconfigured, head := 0, firstFrame := 0, ringValid := false, pendingIndex := 0, underInit := none,
    initSet := [], advance := none, marking := none, faultCause := none, faultCount := 0, lastWasScan := true }

/-- The Time Base after device reset (R111, R112, R114). -/
def TimeBase.reset : TimeBase :=
  { counter := 0, divider := 32, cycles := 0,
    deadlines := ⟨.disarmed, .disarmed, .disarmed, .disarmed, .disarmed, .disarmed, .disarmed, .disarmed⟩,
    scans := [], running := none }

/-- The Discharge Unit after device reset (R122). -/
def Discharge.reset : Discharge := { loaded := none, rowCount := 0, rowSets := [], pointer := 0 }

/-- The Command Unit after device reset (R129, R131, R146). -/
def CommandUnit.reset : CommandUnit :=
  { profile := none, running := none, candidate := [], waitingBusy := none, waitingResult := none, lastWasOutcome := false }

/-- The Report Unit after device reset (R163). -/
def ReportUnit.reset : ReportUnit :=
  { queue := [], writeSeq := 1, readSeq := 1, markA := none, markA7 := none, quiet := 0, fillLatch := false, dropped := 0,
    due := [], changedAgain := false, readPointerDue := false, writing := none, lastWasStatus := true }

/-- The lines after device reset (R122, R163). -/
def Pins.reset : Pins := { hold := true, irq := false, rej := 0 }

/-- What device reset makes of a state: every block at its reset value, with the memory `mem` that the last completed
accesses left, and the sampled straps, the model's counter and the command queue kept (R89, R95, R146, R163, R165). -/
def State.afterReset (s : State) (mem : Memory) : State :=
  { mem := mem, psel := s.psel, inReset := true, portA := .reset, portB := .reset,
    view := ⟨.reset, .reset, .reset, .reset, .reset, .reset, .reset, .reset⟩, claims := [], arb := .reset, seq := .reset,
    time := .reset, disch := .reset, cmd := .reset, rep := .reset, pins := .reset, choices := s.choices,
    pending := s.pending }

/-- The machine at device reset: RESET is asserted (00, "Device reset" means assertion of RESET), memory lists nothing,
no command waits. The straps are read at the release of RESET; until then `psel` is 0 (DESIGN CHOICE, log entry 8). -/
def State.reset : State :=
  { mem := [], psel := 0, inReset := true, portA := .reset, portB := .reset,
    view := ⟨.reset, .reset, .reset, .reset, .reset, .reset, .reset, .reset⟩, claims := [], arb := .reset, seq := .reset,
    time := .reset, disch := .reset, cmd := .reset, rep := .reset, pins := .reset, choices := 0, pending := [] }

end Sys2Proof.Machine
end

