-- ==== Sys2Proof/Machine/Ops.lean ====
section
/-! DEFINITION. Named operations over memory, the eight slots, the two ports, the five desks, and words. -/

namespace Sys2Proof.Machine

/-! ## The eight slots -/

/-- The slot numbers in ascending order (R17). -/
def slotNumbers : List (Fin 8) := [0, 1, 2, 3, 4, 5, 6, 7]

variable {α β : Type}

/-- The value of slot `i`. -/
def Eight.get (t : Eight α) (i : Fin 8) : α :=
  match i.val with
  | 0 => t.s0
  | 1 => t.s1
  | 2 => t.s2
  | 3 => t.s3
  | 4 => t.s4
  | 5 => t.s5
  | 6 => t.s6
  | _ => t.s7

/-- The eight values with that of slot `i` replaced. -/
def Eight.set (t : Eight α) (i : Fin 8) (x : α) : Eight α :=
  match i.val with
  | 0 => { t with s0 := x }
  | 1 => { t with s1 := x }
  | 2 => { t with s2 := x }
  | 3 => { t with s3 := x }
  | 4 => { t with s4 := x }
  | 5 => { t with s5 := x }
  | 6 => { t with s6 := x }
  | _ => { t with s7 := x }

/-- The eight values made by `f` from slot numbers. -/
def Eight.make (f : Fin 8 → α) : Eight α := ⟨f 0, f 1, f 2, f 3, f 4, f 5, f 6, f 7⟩

/-! ## Staged words -/

/-- Word `w` of a staging buffer (R64). -/
def Staged.get (g : Staged) (w : Fin 4) : Option StagedWord :=
  match w.val with
  | 0 => g.w0
  | 1 => g.w1
  | 2 => g.w2
  | _ => g.w3

/-- A staging buffer with word `w` present (R70): an earlier word `w` and its enables are gone. -/
def Staged.put (g : Staged) (w : Fin 4) (x : StagedWord) : Staged :=
  match w.val with
  | 0 => { g with w0 := some x }
  | 1 => { g with w1 := some x }
  | 2 => { g with w2 := some x }
  | _ => { g with w3 := some x }

/-- The empty staging buffer. -/
def Staged.empty : Staged := ⟨none, none, none, none⟩

/-- How many words are present (R75). -/
def Staged.count (g : Staged) : Nat :=
  g.w0.isSome.toNat + g.w1.isSome.toNat + g.w2.isSome.toNat + g.w3.isSome.toNat

/-! ## Words -/

/-- Byte `i` of a word, bits `8i+7 .. 8i`, as a number. -/
def byteOf (w : Word) (i : Nat) : Nat := w.toNat / 2 ^ (8 * i) % 256

/-- Half `i` of a word, bits `16i+15 .. 16i`, as a number. -/
def halfOf (w : Word) (i : Nat) : Nat := w.toNat / 2 ^ (16 * i) % 65536

/-- The word with ones in the enabled bytes. -/
def enableMask (enables : Enables) : Word :=
  (if enables.getLsbD 0 then 0x000000FF else 0) ||| (if enables.getLsbD 1 then 0x0000FF00 else 0) |||
  (if enables.getLsbD 2 then 0x00FF0000 else 0) ||| (if enables.getLsbD 3 then 0xFF000000 else 0)

/-- The bits of `new` where `mask` has ones, and those of `old` elsewhere. -/
def overlay (mask old new : Word) : Word := (new &&& mask) ||| (old &&& ~~~mask)

/-- Byte-enable merge (R50, R86): enabled bytes from the write data, the others from memory. -/
def mergeBytes (enables : Enables) (old new : Word) : Word := overlay (enableMask enables) old new

/-! ## Memory -/

/-- The byte at an address. -/
def Memory.readByte : Memory → Nat → Byte
  | [], _ => Config.unwrittenByte
  | (a, b) :: m, x => if x = a then b else Memory.readByte m x

/-- Memory with byte `v` at address `x`, in canonical form. -/
def Memory.writeByte : Memory → Nat → Byte → Memory
  | [], x, v => if v = Config.unwrittenByte then [] else [(x, v)]
  | (a, b) :: m, x, v =>
    if x < a then (if v = Config.unwrittenByte then (a, b) :: m else (x, v) :: (a, b) :: m)
    else if x = a then (if v = Config.unwrittenByte then m else (x, v) :: m)
    else (a, b) :: Memory.writeByte m x v

/-- No listed address lies below `low`, addresses rise strictly, and no listed byte is what an unlisted address reads as. -/
def Memory.wfAbove : Nat → Memory → Bool
  | _, [] => true
  | low, (a, b) :: m =>
    decide (low ≤ a) && decide (b ≠ Config.unwrittenByte) && Memory.wfAbove (a + 1) m

/-- The canonical form of memory. -/
def Memory.wf (m : Memory) : Bool := Memory.wfAbove 0 m

/-- The word at a word address; byte `i` of it lies at address `+ i` (log entry 2). -/
def Memory.readWord (m : Memory) (a : Nat) : Word :=
  m.readByte (a + 3) ++ m.readByte (a + 2) ++ m.readByte (a + 1) ++ m.readByte a

/-- Memory with word `v` at a word address. -/
def Memory.writeWord (m : Memory) (a : Nat) (v : Word) : Memory :=
  (((m.writeByte a (v.extractLsb' 0 8)).writeByte (a + 1) (v.extractLsb' 8 8)).writeByte (a + 2)
    (v.extractLsb' 16 8)).writeByte (a + 3) (v.extractLsb' 24 8)

/-- The word address of a transfer: the two lowest bits are treated as 0 (R80). -/
def wordAddress (a : Addr) : Nat := a.toNat / 4 * 4

/-! ## The Memory Port under one hold (R88) -/

/-- The accesses of one unit of work: memory as they leave it, how many accesses are still answered OK before the ERROR, and
the address whose access was answered ERROR, after which the unit makes no further access (R60, R88). -/
structure Bus where
  mem : Memory
  left : Option Nat
  failed : Option Nat
deriving DecidableEq, Repr

/-- The Memory Port at a grant; `error` is the position of the access that memory answers ERROR. -/
def Bus.start (mem : Memory) (error : Option Nat) : Bus := { mem := mem, left := error, failed := none }

/-- One access at address `a`, answered OK or ERROR. -/
def Bus.answer (b : Bus) (a : Nat) : Bus :=
  if b.failed.isSome then b
  else match b.left with
    | some 0 => { b with failed := some a }
    | some (n + 1) => { b with left := some n }
    | none => b

/-- A read of a word. After an ERROR the value is not used. -/
def Bus.read (b : Bus) (a : Nat) : Word × Bus := (b.mem.readWord a, b.answer a)

/-- A write of a word. -/
def Bus.write (b : Bus) (a : Nat) (v : Word) : Bus :=
  let b' := b.answer a
  if b'.failed.isSome then b' else { b' with mem := b'.mem.writeWord a v }

/-- A list of writes in their order. -/
def Bus.writes (b : Bus) : List (Nat × Word) → Bus
  | [] => b
  | (a, v) :: rest => (b.write a v).writes rest

/-! ## Ports and desks -/

/-- The state of port `p`. -/
def State.port (s : State) : Port → PortState
  | .a => s.portA
  | .b => s.portB

/-- The state with port `p` replaced. -/
def State.setPort (s : State) (p : Port) (x : PortState) : State :=
  match p with
  | .a => { s with portA := x }
  | .b => { s with portB := x }

/-- The executor of a port, as a requester (R87). -/
def portRequester : Port → Requester
  | .a => .portA
  | .b => .portB

/-- The source of a report of a port (R148). -/
def portSource : Port → Source
  | .a => .portA
  | .b => .portB

/-- The requesters in requester order (R87). -/
def requesterOrder : List Requester := [.sequencer, .report, .command, .portA, .portB]

/-- The number of a requester in requester order, 1..5 (R87, R142). -/
def Requester.number : Requester → Nat
  | .sequencer => 1
  | .report => 2
  | .command => 3
  | .portA => 4
  | .portB => 5

/-- The desk of a requester. -/
def Arbiter.desk (x : Arbiter) : Requester → Desk
  | .sequencer => x.sequencer
  | .report => x.report
  | .command => x.command
  | .portA => x.portA
  | .portB => x.portB

/-- The arbiter with one desk replaced. -/
def Arbiter.setDesk (x : Arbiter) (r : Requester) (d : Desk) : Arbiter :=
  match r with
  | .sequencer => { x with sequencer := d }
  | .report => { x with report := d }
  | .command => { x with command := d }
  | .portA => { x with portA := d }
  | .portB => { x with portB := d }

/-- The requester that makes a unit of work (R88). -/
def Work.requester : Work → Requester
  | .cardInit _ _ => .sequencer
  | .cardCheck _ _ _ => .sequencer
  | .judge _ _ => .sequencer
  | .lateRead _ _ _ => .sequencer
  | .markInit _ _ => .sequencer
  | .markCheck _ _ => .sequencer
  | .record => .report
  | .status _ _ => .report
  | .readPointer => .report
  | .outcome _ => .command
  | .profileRead _ => .command
  | .demandInit p _ _ _ => portRequester p
  | .pass p _ _ _ _ _ => portRequester p
  | .write p _ _ _ _ => portRequester p
  | .plainRead p _ => portRequester p
  | .viewRead p _ _ => portRequester p

/-- The requester that has the Memory Port (R88). -/
def State.holder (s : State) : Option Requester := s.arb.hold.map Work.requester

/-- The head entry of port `p` is begun: its own unit of work is under its hold (R85). -/
def State.begun (s : State) (p : Port) : Bool :=
  match s.arb.hold with
  | some (.pass q _ _ _ _ _) => decide (q = p)
  | some (.write q _ _ _ _) => decide (q = p)
  | _ => false

/-- The pending read of port `p` is under its hold (R33). -/
def State.reading (s : State) (p : Port) : Bool :=
  match s.arb.hold with
  | some (.plainRead q _) => decide (q = p)
  | some (.viewRead q _ _) => decide (q = p)
  | _ => false

/-- The head entry of port `p` is removed as performed (R82). -/
def State.removeHead (s : State) (p : Port) : State :=
  s.setPort p { s.port p with queue := (s.port p).queue.tail }

/-- The pending read of port `p` is answered and gone (R84). -/
def State.answerRead (s : State) (p : Port) (x : Answer) : State :=
  s.setPort p { s.port p with pending := none, answer := some x }

/-- The waiting request of a requester is withdrawn, with its pass-over count set to 0 (R87). -/
def State.withdraw (s : State) (r : Requester) : State :=
  { s with arb := s.arb.setDesk r .reset }

/-- The Memory Port is free again (R88). -/
def State.release (s : State) : State := { s with arb := { s.arb with hold := none } }

/-! ## Small arithmetic -/

/-- A number that adds 1 and stops at `top` (R35, R142, R149). -/
def addUpTo (top n k : Nat) : Nat := min (n + k) top

/-- A number as a 32-bit word. -/
def wordOf (n : Nat) : Word := BitVec.ofNat 32 n

end Sys2Proof.Machine
end

