-- ==== Sys2Proof/Machine/Operands.lean ====
section
/-! DEFINITION. The card record and its codes, ring geometry, windows and cursors, and the classification of addresses:
what the chapters 1 to 3 and 11 give an access as its operands. -/

namespace Sys2Proof.Machine

/-! ## The card record (R1, R2, R4, 11.6) -/

/-- State code of word 0. -/
def cardState (w : Word) : BitVec 4 := w.extractLsb' 0 4
/-- Cause code of word 0. -/
def cardCause (w : Word) : BitVec 4 := w.extractLsb' 4 4
/-- Count field of word 0. -/
def cardCount (w : Word) : BitVec 8 := w.extractLsb' 8 8
/-- Marks field of word 0: bit `s` is set while slot `s` is in the set. -/
def cardMarks (w : Word) : BitVec 8 := w.extractLsb' 16 8
/-- Generation field of word 0. -/
def cardGeneration (w : Word) : BitVec 8 := w.extractLsb' 24 8

/-- Word 0 of a card record from its five fields. -/
def recordWord0 (state cause : BitVec 4) (count marks generation : BitVec 8) : Word :=
  generation ++ marks ++ count ++ cause ++ state

/-- FORMED (R2). -/
def stFormed : BitVec 4 := 1
/-- LOADED (R2). -/
def stLoaded : BitVec 4 := 2
/-- VERIFIED (R2). -/
def stVerified : BitVec 4 := 3
/-- SEALED (R2). -/
def stSealed : BitVec 4 := 4
/-- CUT (R2). -/
def stCut : BitVec 4 := 5
/-- REJECTED (R2). -/
def stRejected : BitVec 4 := 14
/-- VOID (R2). -/
def stVoid : BitVec 4 := 15

/-- The rank of a state; BLANK and invalid codes count as 0, and REJECTED and VOID take part in no comparison (R2). -/
def rankOf (state : BitVec 4) : Nat := if state.toNat ≤ 5 then state.toNat else 0

/-- A state is an end state, REJECTED or VOID (R2, R3). -/
def isEndState (state : BitVec 4) : Bool := decide (state = stRejected) || decide (state = stVoid)

/-- UNSPECIFIED (R4). -/
def causeUnspecified : BitVec 4 := 1
/-- OUT_OF_LIMIT (R4). -/
def causeOutOfLimit : BitVec 4 := 7
/-- UNFINISHED (R4). -/
def causeUnfinished : BitVec 4 := 8
/-- TRACKING (R4). -/
def causeTracking : BitVec 4 := 9
/-- CORRUPT (R4). -/
def causeCorrupt : BitVec 4 := 10

/-- The generation of a frame: its number modulo 256 (R7). -/
def generationOf (frame : Nat) : BitVec 8 := BitVec.ofNat 8 frame

/-- Word 0 written REJECTED with a cause by the part: count, marks and generation as read (R4). -/
def rejectedWord0 (read : Word) (cause : BitVec 4) : Word :=
  recordWord0 stRejected cause (cardCount read) (cardMarks read) (cardGeneration read)

/-- Word 0 with slot `s` added to the marks (R59). -/
def markBit (slot : Fin 8) : BitVec 8 := 1#8 <<< slot.val

/-- Slot `s` is in the marks of word 0 (R6). -/
def isMarked (read : Word) (slot : Fin 8) : Bool := (cardMarks read).getLsbD slot.val

/-- The writable bits of word `w` under a field set (R1, R51). marks and generation are never among them. -/
def fieldMask (f : FieldSet) (w : Fin 4) : Word :=
  match w.val with
  | 0 => (if f.state then 0x0000000F else 0) ||| (if f.cause then 0x000000F0 else 0) ||| (if f.count then 0x0000FF00 else 0)
  | 1 => if f.lot then 0xFFFFFFFF else 0
  | 2 => (if f.score then 0x0000FFFF else 0) ||| (if f.reading then 0xFFFF0000 else 0)
  | _ => if f.serial then 0xFFFFFFFF else 0

/-- Word `w` holds a writable field: it belongs to the group word set (R51, R63). -/
def holdsWritable (f : FieldSet) (w : Fin 4) : Bool :=
  match w.val with
  | 0 => f.state || f.cause || f.count
  | 1 => f.lot
  | 2 => f.score || f.reading
  | _ => f.serial

/-- The words of the record, in ascending order. -/
def recordWords : List (Fin 4) := [0, 1, 2, 3]

/-- The number of words in the group word set (R63). -/
def groupWordCount (f : FieldSet) : Nat := (recordWords.filter (holdsWritable f)).length

/-- Every word of the group word set is present (R72). -/
def groupComplete (f : FieldSet) (g : Staged) : Bool :=
  recordWords.all fun w => !holdsWritable f w || (g.get w).isSome

/-! ## Geometry (R11, R12, R21) -/

/-- The lane of a card index, 1..8 (R24). -/
def laneOf (card : Nat) : Nat := card % 8 + 1
/-- The row of a card index, 1..6 (R24). -/
def rowOf (card : Nat) : Nat := card / 8 + 1
/-- The card index of a lane and row (R11). -/
def cardAt (lane row : Nat) : Nat := (row - 1) * 8 + (lane - 1)

/-- The card is a used card slot of the profile's geometry (R12). -/
def isUsed (p : Profile) (card : Nat) : Bool :=
  decide (card < 48) && decide (laneOf card ≤ p.lanes) && decide (rowOf card ≤ p.rows)

/-- The used cards of a frame, ascending (R12). -/
def usedCards (p : Profile) : List Nat := (List.range 48).filter (isUsed p)

/-- The card lies in the slot's window (R21). -/
def inWindow (x : SlotSettings) (card : Nat) : Bool :=
  decide (x.firstLane ≤ laneOf card) && decide (laneOf card ≤ x.lastLane) &&
  decide (x.firstRow ≤ rowOf card) && decide (rowOf card ≤ x.lastRow)

/-- The cards of a slot's window, ascending (R106, R115). -/
def windowCards (p : Profile) (x : SlotSettings) : List Nat := (usedCards p).filter (inWindow x)

/-- The lanes of a window (R36). -/
def windowLanes (x : SlotSettings) : Nat := x.lastLane + 1 - x.firstLane
/-- The rows of a window (R36). -/
def windowRows (x : SlotSettings) : Nat := x.lastRow + 1 - x.firstRow
/-- N, the number of cards in a window (R21). -/
def windowSize (x : SlotSettings) : Nat := windowLanes x * windowRows x

/-- `k` places from the start in a direction (R36). -/
def moved (d : Direction) (first last k : Nat) : Nat :=
  match d with
  | .increasing => first + k
  | .decreasing => last - k

/-- The card that step `k` of a slot's cursor reaches (R36). -/
def stepCard (x : SlotSettings) (k : Nat) : Nat :=
  match x.order with
  | .laneMajor =>
    cardAt (moved x.laneDirection x.firstLane x.lastLane (k % windowLanes x))
      (moved x.rowDirection x.firstRow x.lastRow (k / windowLanes x))
  | .rowMajor =>
    cardAt (moved x.laneDirection x.firstLane x.lastLane (k / windowRows x))
      (moved x.rowDirection x.firstRow x.lastRow (k % windowRows x))

/-- The cursor at step `k` of a window of N cards: EXHAUSTED from step N on (R36). -/
def cursorAt (x : SlotSettings) (k : Nat) : Cursor := if k < windowSize x then .step k else .exhausted

/-- The address of word `w` of card `c` of frame `f` (R11). -/
def ringAddress (p : Profile) (frame card : Nat) (word : Fin 4) : Nat :=
  p.ringBase + frame % p.depth * 1024 + card * 16 + word.val * 4

/-! ## Regions and classes (R14, R22, R25, R165) -/

/-- The address `a` lies in the `size` bytes from `base`. -/
def inRange (base size a : Nat) : Bool := decide (base ≤ a) && decide (a < base + size)

/-- Where the profile block begins (R165). -/
def State.blockBase (s : State) : Nat := s.psel.toNat * 0x100000

/-- The address of word `n` of the profile block (R165). -/
def State.blockWord (s : State) (n : Nat) : Nat := s.blockBase + 4 * n

/-- The ring is held (R14). -/
def Tracking.ringHeld : Tracking → Bool
  | .running => true
  | .advancing => true
  | .marking => true
  | .lost => true
  | .unconfigured => false
  | .idle => false
  | .halted => false

/-- The address lies in the raw ring region of the active profile (R14). -/
def State.inRawRing (s : State) (a : Nat) : Bool :=
  match s.cmd.profile with
  | some p => inRange p.ringBase (p.depth * 1024) a
  | none => false

/-- The slot whose aperture holds the address, among the given ones (R22). -/
def apertureSlot (p : Profile) (a : Nat) : List (Fin 8) → Option (Fin 8)
  | [] => none
  | i :: rest =>
    if (p.slots.get i).enabled && inRange (p.slots.get i).apertureBase 4096 a then some i else apertureSlot p a rest

/-- The classes of R25. -/
inductive AccessClass where
  | profileBlock
  | view (slot : Fin 8) (offset : Nat)
  | rawRing
  | reportRing
  | plain
deriving DecidableEq, Repr

/-- Classification at acceptance: the first matching class (R25). -/
def State.classify (s : State) (a : Nat) : AccessClass :=
  if inRange s.blockBase 1024 a then .profileBlock
  else match s.cmd.profile with
    | none => .plain
    | some p =>
      match apertureSlot p a slotNumbers with
      | some i => .view i (a - (p.slots.get i).apertureBase)
      | none =>
        if s.inRawRing a then .rawRing
        else if inRange p.reportBase (p.capacity * 32) a then .reportRing
        else .plain

/-- The settings of a slot in the active profile. -/
def State.settings (s : State) (i : Fin 8) : Option SlotSettings := s.cmd.profile.map fun p => p.slots.get i

/-- The slot is enabled in the active profile (R17). -/
def State.enabled (s : State) (i : Fin 8) : Bool :=
  match s.settings i with
  | some x => x.enabled
  | none => false

/-- A view access is answered ERROR at acceptance (R26, the six cases). -/
def State.viewRefused (s : State) (p : Port) (isWrite : Bool) (slot : Fin 8) (offset : Nat) : Bool :=
  match s.cmd.profile with
  | none => true
  | some pr =>
    let x := pr.slots.get slot
    decide (x.port ≠ p) ||
    !(decide (s.seq.tracking = .running) || decide (s.seq.tracking = .advancing)) ||
    (s.view.get slot).currentFrame.isNone ||
    (decide (offset < 0x400) && !(isUsed pr (offset / 16) && inWindow x (offset / 16))) ||
    (decide (offset = 0x400) && !isWrite) ||
    decide (offset > 0x400)

/-- The word that a direct card area offset names (R24). -/
def offsetWord (offset : Nat) : Fin 4 := Fin.ofNat 4 (offset % 16 / 4)

/-! ## Frames (R10, R18) -/

/-- A frame exists (R10). -/
def State.frameExists (s : State) (frame : Nat) : Bool :=
  s.seq.ringValid && decide (s.seq.firstFrame ≤ frame) && decide (frame ≤ s.seq.head)

/-- A frame exists and its ring slot is not under initialisation for a newer one: its position is below D (R31, R115). -/
def State.resident (s : State) (frame : Nat) : Bool :=
  match s.cmd.profile with
  | some p => s.frameExists frame && decide (s.seq.head - frame < p.depth)
  | none => false

/-- The frame `head - offset` if it is at least the first frame (R18). -/
def frameAtOffset (head first offset : Nat) : Option Nat :=
  if first + offset ≤ head then some (head - offset) else none

/-- A card of a frame needs initialising (R101). -/
def State.needsInit (s : State) (frame card : Nat) : Bool :=
  decide (s.seq.underInit = some frame) && !(s.seq.initSet.contains card)

/-- The next card to initialise: the lowest used card not in the init set (R102). -/
def State.nextInit (s : State) : Option (Nat × Nat) :=
  match s.cmd.profile, s.seq.underInit with
  | some p, some f => ((usedCards p).find? fun c => !(s.seq.initSet.contains c)).map fun c => (f, c)
  | _, _ => none

/-- The entry's word holds no field of its slot's writable field set (R51). -/
def State.withoutEffect (s : State) (t : Target) : Bool :=
  match s.settings t.slot with
  | some x => !holdsWritable x.fields t.word
  | none => true

/-- The exit condition of a slot is met by a stored word 0, or the card is REJECTED or VOID (R106, R115). -/
def meetsExit (x : SlotSettings) (slot : Fin 8) (read : Word) : Bool :=
  isEndState (cardState read) ||
  match x.exit with
  | .none => true
  | .rank r => decide (r ≤ rankOf (cardState read))
  | .mark => isMarked read slot

end Sys2Proof.Machine
end

