-- ==== Sys2Proof/Machine/Profile.lean ====
section
/-! DEFINITION. The profile block as APPLY reads it: the settings of 11.4 and 11.5, and the twenty checks of R134. -/

namespace Sys2Proof.Machine

/-- Word `n` of a candidate profile. -/
def profileWord (ws : List Word) (n : Nat) : Word := ws.getD n 0

/-- Word `n` of the record of station slot `i` (11.5). -/
def slotWord (ws : List Word) (i : Fin 8) (n : Nat) : Word := profileWord ws (128 + 16 * i.val + n)

/-- The 24-bit address in a word; bits 31:24 are ignored (11.4). -/
def addressOf (w : Word) : Nat := w.toNat % 0x1000000

/-- A code in the state or cause field. -/
def nibble (n : Nat) : BitVec 4 := BitVec.ofNat 4 n

/-- The writable field set of its word (11.5). -/
def fieldsOf (w : Word) : FieldSet :=
  { state := w.getLsbD 0, cause := w.getLsbD 1, count := w.getLsbD 2, lot := w.getLsbD 3, score := w.getLsbD 4,
    reading := w.getLsbD 5, serial := w.getLsbD 6 }

/-- The direction of its byte (11.5). -/
def directionOf (n : Nat) : Direction := if n = 1 then .decreasing else .increasing

/-- The settings of station slot `i` (11.5). -/
def slotSettingsOf (ws : List Word) (i : Fin 8) : SlotSettings :=
  let w := slotWord ws i
  { enabled := decide (byteOf (w 0) 0 = 1)
    port := if byteOf (w 0) 1 = 1 then .b else .a
    offset := byteOf (w 0) 2
    mode := if byteOf (w 0) 3 = 1 then .record else .word
    apertureBase := addressOf (w 1)
    firstLane := byteOf (w 2) 0
    lastLane := byteOf (w 2) 1
    firstRow := byteOf (w 2) 2
    lastRow := byteOf (w 2) 3
    order := if byteOf (w 3) 0 = 1 then .rowMajor else .laneMajor
    laneDirection := directionOf (byteOf (w 3) 1)
    rowDirection := directionOf (byteOf (w 3) 2)
    streamWord := Fin.ofNat 4 (byteOf (w 3) 3)
    sync := decide (byteOf (w 4) 0 = 1)
    syncValue := w 5
    fields := fieldsOf (w 6)
    exit := if byteOf (w 7) 0 = 1 then .rank (byteOf (w 7) 1) else if byteOf (w 7) 0 = 2 then .mark else .none
    missCause := nibble (byteOf (w 7) 2)
    limit := match byteOf (w 8) 0 with
      | 1 => .count
      | 2 => .score
      | 3 => .reading
      | _ => .none
    low := halfOf (w 9) 0
    high := halfOf (w 9) 1
    deadline := halfOf (w 10) 0 }

/-- The level of report kind `k`, 1..16 (11.4). -/
def levelField (ws : List Word) (k : Nat) : Nat :=
  (profileWord ws (38 + (k - 1) / 8)).toNat / 2 ^ (4 * ((k - 1) % 8)) % 16

/-- The profile that a candidate's 256 words give (11.4, 11.5). -/
def profileOf (ws : List Word) : Profile :=
  let w := profileWord ws
  { lanes := byteOf (w 32) 0
    rows := byteOf (w 32) 1
    depth := halfOf (w 32) 1
    ringBase := addressOf (w 33)
    dischargeOffset := byteOf (w 34) 0
    goodState := nibble (byteOf (w 34) 1)
    idleHold := decide (byteOf (w 34) 2 = 1)
    irqThreshold := byteOf (w 34) 3
    reportBase := addressOf (w 35)
    capacity := halfOf (w 36) 0
    divider := byteOf (w 36) 2
    holdOn := halfOf (w 37) 0
    holdOff := halfOf (w 37) 1
    levels := (List.range 16).map fun k => levelField ws (k + 1)
    slots := Eight.make (slotSettingsOf ws) }

/-- The number lies in `low .. high`. -/
def between (low high n : Nat) : Bool := decide (low ≤ n) && decide (n ≤ high)

/-- Two address ranges have no byte in common. -/
def disjoint (a sizeA b sizeB : Nat) : Bool := decide (a + sizeA ≤ b) || decide (b + sizeB ≤ a)

/-- Checks 1 to 13 of R134, in order; `block` is where the profile block begins. -/
def lineChecks (block : Nat) (ws : List Word) : List (Nat × Bool) :=
  let p := profileOf ws
  [ (1, between 1 8 p.lanes),
    (2, between 1 6 p.rows),
    (3, between 4 256 p.depth),
    (4, decide (p.ringBase % 1024 = 0) && decide (p.ringBase + p.depth * 1024 ≤ Config.spaceSize)),
    (5, between 1 (p.depth - 2) p.dischargeOffset),
    (6, decide (byteOf (profileWord ws 34) 1 = 4) || decide (byteOf (profileWord ws 34) 1 = 5)),
    (7, decide (p.reportBase % 32 = 0) && between 16 2048 p.capacity &&
        decide (p.reportBase + p.capacity * 32 ≤ Config.spaceSize)),
    (8, p.levels.all (fun l => decide (l ≤ 7)) && decide (levelField ws 1 = 7)),
    (9, between 1 7 p.irqThreshold),
    (10, decide (4 ≤ p.holdOn) && decide (p.holdOn < p.holdOff) && decide (p.holdOff ≤ p.capacity)),
    (11, between 1 255 p.divider),
    (12, decide (byteOf (profileWord ws 34) 2 ≤ 1) &&
         slotNumbers.all fun i => decide (byteOf (slotWord ws i 0) 0 ≤ 1)),
    (13, disjoint block 1024 p.ringBase (p.depth * 1024) && disjoint block 1024 p.reportBase (p.capacity * 32) &&
         disjoint p.ringBase (p.depth * 1024) p.reportBase (p.capacity * 32)) ]

/-- Checks 14 to 20 of R134 for one slot, in order. -/
def slotChecks (block : Nat) (ws : List Word) (i : Fin 8) : List (Nat × Bool) :=
  let p := profileOf ws
  let x := p.slots.get i
  let w := slotWord ws i
  [ (14, decide (x.offset < p.dischargeOffset)),
    (15, decide (x.apertureBase % 4096 = 0)),
    (16, decide (1 ≤ x.firstLane) && decide (x.firstLane ≤ x.lastLane) && decide (x.lastLane ≤ p.lanes) &&
         decide (1 ≤ x.firstRow) && decide (x.firstRow ≤ x.lastRow) && decide (x.lastRow ≤ p.rows)),
    (17, decide (byteOf (w 0) 1 ≤ 1) && decide (byteOf (w 0) 3 ≤ 1) && decide (byteOf (w 3) 0 ≤ 1) &&
         decide (byteOf (w 3) 1 ≤ 1) && decide (byteOf (w 3) 2 ≤ 1) && decide (byteOf (w 3) 3 ≤ 3) &&
         decide (byteOf (w 4) 0 ≤ 1) && decide ((w 6).toNat < 128)),
    (18, decide (byteOf (w 7) 0 ≤ 2) && (!decide (byteOf (w 7) 0 = 1) || between 1 5 (byteOf (w 7) 1)) &&
         (between 2 6 (byteOf (w 7) 2) || between 11 15 (byteOf (w 7) 2))),
    (19, decide (byteOf (w 8) 0 ≤ 3) && decide (x.low ≤ x.high)),
    (20, disjoint x.apertureBase 4096 block 1024 && disjoint x.apertureBase 4096 p.ringBase (p.depth * 1024) &&
         disjoint x.apertureBase 4096 p.reportBase (p.capacity * 32) &&
         slotNumbers.all fun j => !(decide (j.val < i.val) && (p.slots.get j).enabled) ||
           disjoint x.apertureBase 4096 (p.slots.get j).apertureBase 4096) ]

/-- The number of the first check that fails. -/
def firstFailure : List (Nat × Bool) → Option Nat
  | [] => none
  | (n, ok) :: rest => if ok then firstFailure rest else some n

/-- The first failing check among the enabled slots, slot by slot (R134). -/
def firstSlotFailure (block : Nat) (ws : List Word) : List (Fin 8) → Option (Nat × Nat)
  | [] => none
  | i :: rest =>
    if (slotSettingsOf ws i).enabled then
      match firstFailure (slotChecks block ws i) with
      | some n => some (n, i.val)
      | none => firstSlotFailure block ws rest
    else firstSlotFailure block ws rest

/-- The first check of R134 that fails, with the slot it failed in, 255 for checks 1 to 13 (11.2). -/
def profileFailure (block : Nat) (ws : List Word) : Option (Nat × Nat) :=
  match firstFailure (lineChecks block ws) with
  | some n => some (n, 255)
  | none => firstSlotFailure block ws slotNumbers

/-- The level of a report kind in a profile (R147); `number` is the kind's, 1..16. -/
def Profile.level (p : Profile) (number : Nat) : Nat := p.levels.getD (number - 1) 0

end Sys2Proof.Machine
end

