-- ==== Sys2Proof/Machine/Reporting.lean ====
section
/-! DEFINITION. Producing reports: what a block hands over, the fields the Report Unit adds, the internal queue and its
displacement rule (R147 to R149). -/

namespace Sys2Proof.Machine

/-- The number of a report kind, its natural order (R147). -/
def kindNumber : ReportKind → Nat
  | .fault => 1
  | .undischarged => 2
  | .missed => 3
  | .writeLost => 4
  | .abandoned => 5
  | .collision => 6
  | .stageTorn => 7
  | .guardRefused => 8
  | .limitReject => 9
  | .late => 10
  | .streamOverflow => 11
  | .cursorResync => 12
  | .discharge => 13
  | .indexIgnored => 14
  | .rowstepExtra => 15
  | .readPointerInvalid => 16

/-- The code of a report source (11.7). -/
def sourceCode : Source → Nat
  | .portA => 1
  | .portB => 2
  | .sequencer => 3
  | .discharge => 4
  | .timebase => 6

/-- What a block hands over: kind and content fields (R147). A field that a producing rule gives none is 0 or none. -/
structure Content where
  kind : ReportKind
  source : Source
  slot : Option (Fin 8) := none
  frame : Nat := 0
  lane : Nat := 0
  row : Nat := 0
  count : Nat := 0
  detail : Word := 0
  data : Word := 0
  ofStatusW : Bool := false
deriving DecidableEq, Repr

/-- The report made of a content at the producing event: timestamp, head and level are added (R147). -/
def State.reportOf (s : State) (level : Nat) (c : Content) : Report :=
  { kind := c.kind, level := level, source := c.source, slot := c.slot, frame := c.frame, lane := c.lane, row := c.row,
    count := c.count, detail := c.detail, data := c.data, timestamp := s.time.counter, head := s.seq.head,
    ofStatusW := c.ofStatusW }

/-- `b` is at least as weak as the older report `a`: lower level, or equal level and no lower kind number, the newer of two
alike (R149). -/
def weakerOrNewer (a b : Report) : Bool :=
  decide (b.level < a.level) || (decide (b.level = a.level) && decide (kindNumber a.kind ≤ kindNumber b.kind))

/-- The place and the report of the weakest queued report, given the weakest so far and the place of the next (R149). -/
def weakestFrom : Nat × Report → Nat → List Report → Nat × Report
  | best, _, [] => best
  | best, n, r :: rest => weakestFrom (if weakerOrNewer best.2 r then (n, r) else best) (n + 1) rest

/-- The place and the report of the weakest queued report (R149). -/
def weakest : List Report → Option (Nat × Report)
  | [] => none
  | r :: rest => some (weakestFrom (0, r) 1 rest)

/-- One report is dropped and counted; the count stops at its largest value (R149). -/
def ReportUnit.drop (u : ReportUnit) (n : Nat) : ReportUnit := { u with dropped := addUpTo Config.maxWord u.dropped n }

/-- The report under its record write no longer stands in the queue. -/
def RecordWrite.unqueue (w : RecordWrite) : RecordWrite := { w with queued := false }

/-- The queue with the report at place `n` removed; if it is the one under its record write, that one no longer stands in
the queue (log entry 18). -/
def ReportUnit.removeAt (u : ReportUnit) (n : Nat) : ReportUnit :=
  { u with
    queue := u.queue.eraseIdx n
    writing := if n = 0 then u.writing.map RecordWrite.unqueue else u.writing }

/-- A report is offered to the internal queue (R149). -/
def ReportUnit.offer (u : ReportUnit) (r : Report) : ReportUnit :=
  if u.queue.length < Config.reportQueueSize then { u with queue := u.queue ++ [r] }
  else match weakest u.queue with
    | some (n, w) =>
      if w.level < r.level then
        let v := (u.removeAt n).drop 1
        { v with queue := v.queue ++ [r] }
      else u.drop 1
    | none => u.drop 1

/-- A block produces a report (R147): dropped and counted with no active profile and in HALTED, suppressed at level 0,
otherwise offered to the internal queue. -/
def ReportUnit.produced (u : ReportUnit) (s : State) (c : Content) : ReportUnit :=
  match s.cmd.profile with
  | none => u.drop 1
  | some p =>
    if s.seq.tracking = .halted then u.drop 1
    else if p.level (kindNumber c.kind) = 0 then u
    else u.offer (s.reportOf (p.level (kindNumber c.kind)) c)

/-- The state after one report has been produced. -/
def State.produce (s : State) (c : Content) : State := { s with rep := s.rep.produced s c }

/-- The batches that still hold a report. -/
def liveBatches (bs : List (List Content)) : List (List Content) := bs.filter fun b => !b.isEmpty

/-- The batches with the first report of batch `n` taken. -/
def takeFrom (bs : List (List Content)) (n : Nat) : List (List Content) := bs.modify n List.tail

/-- Reports produced together (R147). Each batch holds the reports whose order its block's own rule gives; between batches
the order is free, and every choice between two or more is `Config.reportPick` of the counter (log entry 6). -/
def produceLoop : Nat → State → List (List Content) → State
  | 0, s, _ => s
  | fuel + 1, s, bs =>
    match liveBatches bs with
    | [] => s
    | [b] => b.foldl State.produce s
    | live =>
      let n := Config.reportPick s.choices % live.length
      match live.getD n [] with
      | [] => s
      | c :: _ => produceLoop fuel { s.produce c with choices := s.choices + 1 } (takeFrom live n)

/-- Reports produced together, the order between batches left open (R147). -/
def State.produceAll (s : State) (bs : List (List Content)) : State :=
  produceLoop (bs.foldl (fun n b => n + b.length) 0) s bs

/-! ## The reports of the chapters that several rules share -/

/-- WRITE_LOST (R90): reason 1 MEMORY_ERROR, 2 RING_HELD, 3 INIT_FAILED. -/
def writeLostPlain (p : Port) (reason address : Nat) (data : Word) : Content :=
  { kind := .writeLost, source := portSource p, count := reason, detail := wordOf address, data := data }

/-- WRITE_LOST for a VIEW or STREAM entry or a record commit (R90). -/
def writeLostView (p : Port) (slot : Fin 8) (frame card reason address : Nat) (data : Word) : Content :=
  { kind := .writeLost, source := portSource p, slot := some slot, frame := frame, lane := laneOf card, row := rowOf card,
    count := reason, detail := wordOf address, data := data }

/-- STAGE_TORN (R75). -/
def stageTorn (c : Claim) (reason : Nat) (data : Nat) : Content :=
  { kind := .stageTorn, source := portSource c.port, slot := some c.slot, frame := c.frame, lane := laneOf c.card,
    row := rowOf c.card, count := c.staged.count, detail := wordOf reason, data := wordOf data }

/-- ABANDONED (R94): event 1 ABORTED, 2 STOPPED, 3 FAULT. No report when nothing was discarded. -/
def abandoned (p : Port) (discarded plain event : Nat) : List Content :=
  if discarded = 0 then []
  else [{ kind := .abandoned, source := portSource p, count := discarded, detail := wordOf event, data := wordOf plain }]

end Sys2Proof.Machine
end

