-- ==== Sys2Proof/Machine/Flags.lean ====
section
/-! DEFINITION. The output lines, the fill latch, the room in the report ring, the status words and their due marks, and the
packing of result words and report records (R125, R155, R159 to R162, chapter 11). -/

namespace Sys2Proof.Machine

/-! ## Codes (11.2) -/

/-- Tracking state codes (11.2). -/
def trackingCode : Tracking → Nat
  | .unconfigured => 0
  | .idle => 1
  | .running => 2
  | .advancing => 3
  | .marking => 4
  | .lost => 5
  | .halted => 6

/-- Fault kinds and causes (11.2, R142): 0 NONE, 1 INDEX_OVERRUN, 2 MEMORY. -/
def faultCode : Option FaultKind → Nat
  | none => 0
  | some .indexOverrun => 1
  | some .memory => 2

/-- Outcome codes (11.2). -/
def outcomeCode : OutcomeCode → Nat
  | .inProgress => 1
  | .done => 2
  | .busy => 3
  | .wrongState => 4
  | .invalidProfile => 5
  | .invalidParameter => 6
  | .unknownCommand => 7
  | .memoryError => 8

/-- The result word of an outcome (11.2). -/
def resultWord (o : CommandOutcome) : Word := o.detail ++ BitVec.ofNat 8 (outcomeCode o.code) ++ o.tag

/-! ## Room in the report ring (R151, R159) -/

/-- The room left in the ring: free = C − (W − Rs) (R151). -/
def State.free (s : State) : Nat :=
  match s.cmd.profile with
  | some p => p.capacity - (s.rep.writeSeq - s.rep.readSeq)
  | none => 0

/-- The fill latch brought up to date (R159). -/
def State.updateLatch (s : State) : State :=
  match s.cmd.profile with
  | some p =>
    { s with rep := { s.rep with
        fillLatch := if s.free ≤ p.holdOn then true else if p.holdOff ≤ s.free then false else s.rep.fillLatch } }
  | none => s

/-! ## Output lines -/

/-- A sequence number is unread (R155); a mark that is none is not. -/
def isUnread (mark : Option Nat) (readSeq : Nat) : Bool :=
  match mark with
  | some n => decide (readSeq ≤ n)
  | none => false

/-- IRQ (R155). -/
def State.irqLevel (s : State) : Bool :=
  (isUnread s.rep.markA s.rep.readSeq && decide (s.rep.quiet = 0)) || isUnread s.rep.markA7 s.rep.readSeq

/-- The idle-hold option of the active profile is set. -/
def State.idleHold (s : State) : Bool :=
  match s.cmd.profile with
  | some p => p.idleHold
  | none => false

/-- HOLD (R160). -/
def State.holdLevel (s : State) : Bool :=
  (match s.seq.tracking with
   | .unconfigured => true
   | .idle => s.idleHold
   | .running => false
   | .advancing => true
   | .marking => true
   | .lost => true
   | .halted => true) || decide (s.seq.pendingIndex = 1) || s.rep.fillLatch

/-- The row set of the row being presented, empty with k = 0 or k = n + 1 (R125). -/
def Discharge.presented (d : Discharge) : BitVec 8 :=
  if 1 ≤ d.pointer ∧ d.pointer ≤ d.rowCount then d.rowSets.getD (d.pointer - 1) 0 else 0

/-- REJ1 to REJ8 (R125). -/
def State.rejLevels (s : State) : BitVec 8 :=
  match s.seq.tracking with
  | .unconfigured => 0
  | .idle => s.disch.presented
  | .running => s.disch.presented
  | .advancing => s.disch.presented
  | .marking => 0xFF
  | .lost => 0xFF
  | .halted => 0xFF

/-- The levels that the rules give the output lines. -/
def State.pinLevels (s : State) : Pins := { hold := s.holdLevel, irq := s.irqLevel, rej := s.rejLevels }

/-- The lines are driven to the levels their rules give (R168). -/
def State.drivePins (s : State) : State := { s with pins := s.pinLevels }

/-! ## Status block (R161, R162, 11.3) -/

/-- The number of status words. -/
def statusWords : Nat := 15

/-- The status word of W, at offset 0x058. -/
def statusOfW : Nat := 6

/-- The status word of the claims in use, at offset 0x070. -/
def statusOfClaims : Nat := 12

/-- The value of status word `n`, whose offset is 0x040 + 4 n (11.3). -/
def State.statusValue (s : State) (n : Nat) : Word :=
  match n with
  | 0 => wordOf (trackingCode s.seq.tracking)
  | 1 => wordOf (faultCode s.seq.faultCause)
  | 2 => wordOf s.seq.faultCount
  | 3 => wordOf s.seq.head
  | 4 => wordOf s.seq.firstFrame
  | 5 => wordOf s.seq.pendingIndex
  | 6 => wordOf s.rep.writeSeq
  | 7 => wordOf s.rep.readSeq
  | 8 => wordOf s.rep.dropped
  | 9 => wordOf s.rep.quiet
  | 10 => s.pins.rej.setWidth 32
  | 11 => wordOf s.disch.pointer
  | 12 => wordOf s.claims.length
  | 13 => wordOf s.portA.queue.length
  | _ => wordOf s.portB.queue.length

/-- The frame, card and slot of a claim, which do not change while it is open (R64). -/
def Claim.key (c : Claim) : Nat × Nat × Fin 8 := (c.frame, c.card, c.slot)

/-- The value of status word `n` has changed from `before` to `after`. A tear and an opening in one decision are two changes
of the claims in use, though the number stays (R64, R161; log entry 24). -/
def statusChanged (before after : State) (n : Nat) : Bool :=
  decide (before.statusValue n ≠ after.statusValue n) ||
  (decide (n = statusOfClaims) && decide (before.claims.map Claim.key ≠ after.claims.map Claim.key))

/-- Status block upkeep runs in this state (R162). -/
def Tracking.upkeep : Tracking → Bool
  | .unconfigured => false
  | .idle => true
  | .running => true
  | .advancing => true
  | .marking => true
  | .lost => true
  | .halted => false

/-- Status word `n` is under its write (R161). -/
def State.writingStatus (s : State) (n : Nat) : Bool :=
  match s.arb.hold with
  | some (.status m _) => decide (m = n)
  | _ => false

/-- Status word `n` is marked due; a word already due keeps its place, and a word under its write stays due (R161). -/
def ReportUnit.markDue (u : ReportUnit) (underWrite : Bool) (n : Nat) : ReportUnit :=
  { u with
    due := if u.due.contains n then u.due else u.due ++ [n]
    changedAgain := u.changedAgain || underWrite }

/-- The status words of a list that changed are marked due, in that order. -/
def ReportUnit.markChanged (before after : State) (spare : Option Nat) : List Nat → ReportUnit → ReportUnit
  | [], u => u
  | n :: rest, u =>
    ReportUnit.markChanged before after spare rest
      (if statusChanged before after n && decide (spare ≠ some n) then u.markDue (after.writingStatus n) n else u)

/-- The due marks after a step: the words whose values changed become due, those of lowest offset first (R161), except
`spare`, the word whose failed write led to the change (R162, log entry 17). Nothing becomes due outside upkeep. -/
def State.refreshDue (s : State) (spare : Option Nat) (before : State) : State :=
  if s.seq.tracking.upkeep then
    { s with rep := ReportUnit.markChanged before s spare (List.range statusWords) s.rep }
  else s

/-- Every status word is due (R156); words already due keep their places. -/
def ReportUnit.markAllDue (u : ReportUnit) : ReportUnit :=
  { u with due := u.due ++ (List.range statusWords).filter fun n => !u.due.contains n }

/-! ## Admission (R151, R152) -/

/-- What R152 decides for the head report. -/
inductive HeadDecision where
  | write | drop | stay
deriving DecidableEq, Repr

/-- R152 for a report of a level with `free` places; while W is at its largest, every report is dropped (R151). -/
def headDecision (free writeSeq level : Nat) : HeadDecision :=
  if writeSeq = Config.maxWord then .drop
  else if 5 ≤ free then .write
  else if 6 ≤ level then (if free = 0 then .stay else .write)
  else .drop

/-- Head reports that R152 drops leave the queue and are counted. -/
def dropHeads (free writeSeq : Nat) : List Report → Nat → List Report × Nat
  | [], n => ([], n)
  | r :: rest, n =>
    match headDecision free writeSeq r.level with
    | .drop => dropHeads free writeSeq rest (n + 1)
    | .write => (r :: rest, n)
    | .stay => (r :: rest, n)

/-- The decision of R152 for the reports at the head of the queue, made whenever no record write is in progress and reports
can be written at all. It is made at the end of a step and not between reports that the step offers one after the other
(DESIGN CHOICE, log entry 35). -/
def State.admissionDrops (s : State) : State :=
  if s.rep.writing.isSome || s.cmd.profile.isNone || decide (s.seq.tracking = .halted) then s
  else
    let r := dropHeads s.free s.rep.writeSeq s.rep.queue 0
    { s with rep := { s.rep with queue := r.1, dropped := addUpTo Config.maxWord s.rep.dropped r.2 } }

/-- A report at the head of the queue is to be written (R152). -/
def State.recordReady (s : State) : Bool :=
  match s.rep.queue with
  | r :: _ => decide (headDecision s.free s.rep.writeSeq r.level = .write)
  | [] => false

/-! ## The report record (R153, R167, 11.7) -/

/-- Four bytes as a word, the least significant first. -/
def wordOfBytes (b0 b1 b2 b3 : Nat) : Word :=
  BitVec.ofNat 8 b3 ++ BitVec.ofNat 8 b2 ++ BitVec.ofNat 8 b1 ++ BitVec.ofNat 8 b0

/-- The station slot byte: 255 for none (11.7). -/
def slotByte : Option (Fin 8) → Nat
  | some i => i.val
  | none => 255

/-- Word `n` of the record of a report with its sequence number (11.7). -/
def recordWord (r : Report) (sequence n : Nat) : Word :=
  match n with
  | 0 => wordOf sequence
  | 1 => wordOfBytes (kindNumber r.kind) r.level (sourceCode r.source) (slotByte r.slot)
  | 2 => wordOf r.frame
  | 3 => BitVec.ofNat 16 r.count ++ BitVec.ofNat 8 r.row ++ BitVec.ofNat 8 r.lane
  | 4 => r.detail
  | 5 => r.data
  | 6 => r.timestamp
  | _ => wordOf r.head

/-- The eight writes of a record: words 1 to 7 and then word 0 (R167). -/
def recordWrites (w : RecordWrite) : List (Nat × Word) :=
  [1, 2, 3, 4, 5, 6, 7, 0].map fun n => (w.address + 4 * n, recordWord w.report w.sequence n)

end Sys2Proof.Machine
end

