-- ==== Sys2Proof/Machine/Arbiter.lean ====
section
/-! DEFINITION. The Memory Port arbiter: what each requester asks for, whom the arbiter chooses, what a grant does to the
pass-over counts, and what every step ends with (sections 6.4, 6.5; R115, R131, R161). -/

namespace Sys2Proof.Machine

/-! ## What each requester wants -/

/-- The pair of the departure list that is being checked (R104). -/
def checkingPair (ds : List Departure) : Option Departure := ds.find? fun d => decide (d.status = .checking)

/-- The Ring Sequencer's own unit of work that is ready: of the advance in flight or of the marking pass (R102, R105, R106,
R117, R144). -/
def State.ownWork (s : State) : Option Request :=
  match s.seq.marking with
  | some m =>
    match m.phase with
    | .initialising => if s.nextInit.isSome then some .markInit else none
    | .cards => if m.todo.isEmpty then none else some .markCheck
  | none =>
    match s.seq.advance with
    | none => none
    | some v =>
      match v.stage with
      | .initialising => if s.nextInit.isSome then some .cardInit else none
      | .checking =>
        match checkingPair v.departures, v.check with
        | some _, some c => if c.todo.isEmpty then none else some .cardCheck
        | _, _ => none
      | .judging =>
        match v.judge with
        | some j => if j.todo.isEmpty then none else some .judge
        | none => none

/-- The Ring Sequencer's next request. When own work and a scan read are both ready the first request since device reset is for
own work, and each later one is not for what the latest grant was for (R115; that any grant counts is log entry 34). -/
def State.wantSequencer (s : State) : Option Request :=
  if s.seq.tracking = .halted then none
  else match s.ownWork, s.time.running.isSome with
    | some r, true => if s.seq.lastWasScan || !s.arb.sequencerMet then some r else some .lateScan
    | some r, false => some r
    | none, true => some .lateScan
    | none, false => none

/-- The Report Unit's next request: the write of 1 first. When a record write and a due status word are both ready the first
request since device reset is for the record write, and each later one is not for what the latest grant was for (R161, R162;
that any grant counts is log entry 34). -/
def State.wantReport (s : State) : Option Request :=
  if s.cmd.profile.isNone || !s.seq.tracking.upkeep then none
  else if s.rep.readPointerDue then some .readPointer
  else match s.recordReady, s.rep.due.isEmpty with
    | true, false => if s.rep.lastWasStatus || !s.arb.reportMet then some .record else some .status
    | true, true => some .record
    | false, false => some .status
    | false, true => none

/-- An outcome waits to be written (R131). -/
def CommandUnit.outcomeWaits (c : CommandUnit) : Bool := c.waitingBusy.isSome || c.waitingResult.isSome

/-- APPLY has profile words still to read (R133). -/
def CommandUnit.readsProfile (c : CommandUnit) : Bool :=
  match c.running with
  | some (.apply _) => decide (c.candidate.length < 256)
  | some (.startFresh _) => false
  | none => false

/-- The Command Unit's next request: outcome writes and profile reads alternate when both are ready (R131; that any grant
counts is log entry 34). -/
def State.wantCommand (s : State) : Option Request :=
  if s.seq.tracking = .halted then none
  else match s.cmd.outcomeWaits, s.cmd.readsProfile with
    | true, true => if s.cmd.lastWasOutcome then some .profileRead else some .outcome
    | true, false => some .outcome
    | false, true => some .profileRead
    | false, false => none

/-- A VIEW or STREAM entry's request: its demand initialisation first, none when it is without effect (R85). -/
def State.wantTarget (s : State) (t : Target) : Option Request :=
  if s.needsInit t.frame t.card then some .demandInit
  else if s.withoutEffect t then none
  else some .own

/-- An executor's next request (R83, R85, R31). -/
def State.wantPort (s : State) (p : Port) : Option Request :=
  match (s.port p).queue with
  | .view t _ _ :: _ => s.wantTarget t
  | .stream t _ _ :: _ => s.wantTarget t
  | .plain _ _ e :: _ => if e = 0 then none else some .own
  | .profile _ _ e :: _ => if e = 0 then none else some .own
  | [] =>
    match (s.port p).pending with
    | none => none
    | some (.plain _) => some .own
    | some (.view t) =>
      if s.resident t.frame then (if s.needsInit t.frame t.card then some .demandInit else some .own) else none

/-- What a requester asks the arbiter for next. -/
def State.want (s : State) : Requester → Option Request
  | .sequencer => s.wantSequencer
  | .report => s.wantReport
  | .command => s.wantCommand
  | .portA => s.wantPort .a
  | .portB => s.wantPort .b

/-- A requester with no request waiting presents its next one; while it has the Memory Port it presents none, and a waiting
request stands as it was presented (R85, R87; log entry 7). -/
def State.raised (s : State) (r : Requester) : Desk :=
  if (s.arb.desk r).request.isSome || decide (s.holder = some r) || s.inReset then s.arb.desk r
  else { (s.arb.desk r) with request := s.want r }

/-- The requester presents a request now. -/
def State.presents (s : State) (r : Requester) : Bool :=
  !(s.arb.desk r).request.isSome && (s.raised r).request.isSome

/-- Own work of the Ring Sequencer and a scan read are both ready (R115). -/
def State.ownAndScan (s : State) : Bool := s.ownWork.isSome && s.time.running.isSome

/-- A record write and a due status word are both ready, behind the write of 1 (R161). -/
def State.recordAndStatus (s : State) : Bool := !s.rep.readPointerDue && s.recordReady && !s.rep.due.isEmpty

/-- Every requester presents its next request. -/
def State.raise (s : State) : State :=
  { s with arb :=
    { hold := s.arb.hold, sequencer := s.raised .sequencer, report := s.raised .report, command := s.raised .command,
      portA := s.raised .portA, portB := s.raised .portB
      sequencerMet := s.arb.sequencerMet || (s.presents .sequencer && s.ownAndScan)
      reportMet := s.arb.reportMet || (s.presents .report && s.recordAndStatus) } }

/-! ## The arbiter's choice (R87) -/

/-- A requester waits at the arbiter. -/
def Arbiter.waits (x : Arbiter) (r : Requester) : Bool := (x.desk r).request.isSome

/-- The requester that the next grant goes to: the first waiting one with a pass-over count of 8 or more, otherwise the first
waiting one in requester order (R87). -/
def Arbiter.choose (x : Arbiter) : Option Requester :=
  match requesterOrder.find? fun r => x.waits r && decide (Config.passLimit ≤ (x.desk r).passed) with
  | some r => some r
  | none => requesterOrder.find? x.waits

/-- What a grant to `r` does to a desk: the granted one's request is taken and its count becomes 0, every other waiting one's
count grows by 1 (R87). -/
def Arbiter.granted (x : Arbiter) (r q : Requester) : Desk :=
  if q = r then .reset
  else if x.waits q then { (x.desk q) with passed := (x.desk q).passed + 1 }
  else x.desk q

/-- The arbiter after a grant to `r` (R87). -/
def Arbiter.grant (x : Arbiter) (r : Requester) : Arbiter :=
  { hold := x.hold, sequencer := x.granted r .sequencer, report := x.granted r .report, command := x.granted r .command,
    portA := x.granted r .portA, portB := x.granted r .portB, sequencerMet := x.sequencerMet, reportMet := x.reportMet }

/-- The arbiter now grants requester `r` its waiting request `q`: the Memory Port is free and `r` is its choice. -/
def State.canGrant (s : State) (r : Requester) (q : Request) : Bool :=
  !s.inReset && s.arb.hold.isNone && decide (s.arb.choose = some r) && decide ((s.arb.desk r).request = some q)

/-- The state after a grant to `r` (R87). -/
def State.grantTo (s : State) (r : Requester) : State := { s with arb := s.arb.grant r }

/-- The granted unit of work is under its hold (R88). -/
def State.holds (s : State) (w : Work) : State := { s with arb := { s.arb with hold := some w } }

/-! ## The end of every step -/

/-- What every step ends with: head reports that cannot be admitted are dropped (R152; once, after all reports of the step have
been offered: DESIGN CHOICE, log entry 35), the output lines follow their rules
(R168), the status words that changed are due (R161), and the requesters present their next requests (R87). `spare` is the
status word that is not made due by this step (R162). -/
def State.settle (spare : Option Nat) (before s : State) : State :=
  (s.admissionDrops.drivePins.refreshDue spare before).raise

end Sys2Proof.Machine
end

