-- ==== Sys2Proof/Machine/Views.lean ====
section
/-! DEFINITION. The View Unit's own operations: current frames, stream values at acceptance, the sync hold, and what resets
them (chapter 2, chapter 3). -/

namespace Sys2Proof.Machine

/-- The lane and row of the card of a cursor's step; 0, 0 when the cursor is EXHAUSTED (R44). -/
def cursorPlace (x : SlotSettings) : Cursor → Nat × Nat
  | .step k => (laneOf (stepCard x k), rowOf (stepCard x k))
  | .exhausted => (0, 0)
  | .none => (0, 0)

/-- A CURSOR_RESYNC report for `count` discarded values (R44). -/
def cursorResync (x : SlotSettings) (i : Fin 8) (st : Station) (count : Nat) (detail : Word) : Content :=
  { kind := .cursorResync, source := portSource x.port, slot := some i, frame := st.currentFrame.getD 0,
    lane := (cursorPlace x st.cursor).1, row := (cursorPlace x st.cursor).2, count := count, detail := detail,
    data := x.syncValue }

/-- The HELD_DROPPED report of an event that discards held values: none for a held count of 0 (R44). -/
def heldDropped (x : SlotSettings) (i : Fin 8) (st : Station) : List Content :=
  if st.held = 0 then [] else [cursorResync x i st st.held Config.heldDroppedDetail]

/-- The STREAM_OVERFLOW report of an event that changes the current frame: none for an overflow count of 0 (R39). -/
def streamOverflow (x : SlotSettings) (i : Fin 8) (st : Station) : List Content :=
  if st.overflow = 0 then []
  else [{ kind := .streamOverflow, source := portSource x.port, slot := some i, frame := st.currentFrame.getD 0,
          count := st.overflow, detail := Config.streamOverflowDetail, data := st.lastDropped }]

/-- The settings of the enabled slots, in ascending slot number. -/
def enabledSlots (p : Profile) : List (Fin 8 × SlotSettings) :=
  (slotNumbers.map fun i => (i, p.slots.get i)).filter fun q => q.2.enabled

/-- A slot on a frame: cursor at step 0 for a frame number, none for none (R45, R46). -/
def Station.onFrame (st : Station) (frame : Option Nat) : Station :=
  { st with currentFrame := frame, cursor := if frame.isSome then .step 0 else .none }

/-- The stations of the enabled slots of a profile changed by `f`; those of disabled slots left alone. -/
def State.mapStations (s : State) (p : Profile) (f : Fin 8 → SlotSettings → Station → Station) : State :=
  { s with view := Eight.make fun i =>
      if (p.slots.get i).enabled then f i (p.slots.get i) (s.view.get i) else s.view.get i }

/-- The stream reports of an advance acceptance, slot by slot in ascending order, HELD_DROPPED before STREAM_OVERFLOW
(R45). -/
def State.advanceStreamReports (s : State) (p : Profile) : List Content :=
  (enabledSlots p).flatMap fun q => heldDropped q.2 q.1 (s.view.get q.1) ++ streamOverflow q.2 q.1 (s.view.get q.1)

/-- The stream reports of STOP and of hard fault entry (R46), each a batch of its own: R46 gives them no order. -/
def State.stopStreamReports (s : State) (p : Profile) : List (List Content) :=
  (enabledSlots p).flatMap fun q => [heldDropped q.2 q.1 (s.view.get q.1), streamOverflow q.2 q.1 (s.view.get q.1)]

/-- Current frames, cursors and counts at an advance acceptance with the new head already set (R18, R45). -/
def State.advanceViews (s : State) (p : Profile) : State :=
  s.mapStations p fun _ x st =>
    { (st.onFrame (frameAtOffset s.seq.head s.seq.firstFrame x.offset)) with held := 0, overflow := 0 }

/-- Current frames and cursors at STOP and at hard fault entry (R18, R46). -/
def State.clearViews (s : State) (p : Profile) : State :=
  s.mapStations p fun _ _ st => { (st.onFrame none) with held := 0, overflow := 0 }

/-- Current frames and cursors at START FRESH and START CARRY, with head and first frame already set (R18, R46). -/
def State.startViews (s : State) (p : Profile) : State :=
  s.mapStations p fun _ x st => st.onFrame (frameAtOffset s.seq.head s.seq.firstFrame x.offset)

/-- Current frames, cursors and counts at a successful APPLY (R18, R35). -/
def State.resetViews (s : State) : State :=
  { s with view := Eight.make fun i => { ((s.view.get i).onFrame none) with held := 0, overflow := 0 } }

/-- The HELD_DROPPED reports of an abort of a port (R47). -/
def State.abortStreamReports (s : State) (p : Profile) (q : Port) : List (List Content) :=
  ((enabledSlots p).filter fun e => decide (e.2.port = q)).map fun e => heldDropped e.2 e.1 (s.view.get e.1)

/-- The cursors and held counts at an abort of a port: the current frame and the overflow count stay (R47). -/
def State.abortViews (s : State) (p : Profile) (q : Port) : State :=
  s.mapStations p fun _ x st =>
    if x.port = q then { st with held := 0, cursor := if st.currentFrame.isSome then .step 0 else st.cursor } else st

/-! ## Stream writes at acceptance (R37, R38, R41 to R43) -/

/-- What the View Unit makes of an accepted stream write. -/
inductive StreamOutcome where
  /-- Held aside (R41): the station with one more held value. -/
  | held (st : Station)
  /-- Resync (R43): the station at step 0, and the report. -/
  | resync (st : Station) (report : Content)
  /-- Data (R37, R38, R42): the station afterwards and the entries made, in order. -/
  | data (st : Station) (entries : List Entry)
deriving DecidableEq, Repr

/-- A stream write matches (R41). -/
def matchesSync (x : SlotSettings) (enables : Enables) (data : Word) : Bool :=
  x.sync && decide (enables = 0xF) && decide (data = x.syncValue)

/-- The values a data write gives: the released sync values and then the new one (R42). -/
def streamValues (x : SlotSettings) (held : Nat) (enables : Enables) (data : Word) : List (Word × Enables) :=
  List.replicate held (x.syncValue, 0xF#4) ++ [(data, enables)]

/-- How many of `n` values the cursor gives a card (R42). -/
def streamRoom (x : SlotSettings) (c : Cursor) (n : Nat) : Nat :=
  match c with
  | .step k => min n (windowSize x - k)
  | .exhausted => 0
  | .none => 0

/-- The STREAM entries of the values that received a card, from the cursor's step on (R37, R42). -/
def streamEntries (x : SlotSettings) (i : Fin 8) (frame : Nat) : Nat → List (Word × Enables) → List Entry
  | _, [] => []
  | k, (d, e) :: rest =>
    .stream { slot := i, frame := frame, card := stepCard x k, word := x.streamWord } d e
      :: streamEntries x i frame (k + 1) rest

/-- The step of a cursor. -/
def cursorStep : Cursor → Nat
  | .step k => k
  | .exhausted => 0
  | .none => 0

/-- A stream write that R26 does not refuse, handled by its data and the slot's stream state. -/
def streamWrite (x : SlotSettings) (i : Fin 8) (st : Station) (enables : Enables) (data : Word) : StreamOutcome :=
  if matchesSync x enables data then
    if st.held < 3 then .held { st with held := st.held + 1 }
    else .resync { st with held := 0, cursor := .step 0 } (cursorResync x i st 4 Config.resyncDetail)
  else
    let values := streamValues x st.held enables data
    let made := streamRoom x st.cursor values.length
    let dropped := values.length - made
    .data
      { st with
        held := 0
        cursor := match st.cursor with
          | .step k => cursorAt x (k + made)
          | .exhausted => .exhausted
          | .none => .none
        overflow := addUpTo Config.maxHalf st.overflow dropped
        lastDropped := if dropped = 0 then st.lastDropped else data }
      (streamEntries x i (st.currentFrame.getD 0) (cursorStep st.cursor) (values.take made))

end Sys2Proof.Machine
end

