-- ==== Sys2Proof/Machine/Groups.lean ====
section
/-! DEFINITION. The Group Unit: tearing, and the decision taken for an entry at the grant of its hold (chapter 5). -/

namespace Sys2Proof.Machine

/-- The number of words in the group word set of a claim's slot (R75). -/
def State.claimWords (s : State) (c : Claim) : Nat :=
  match s.settings c.slot with
  | some x => groupWordCount x.fields
  | none => 0

/-- Reasons of STAGE_TORN (R75). -/
def tornDeparted : Nat := 1
/-- EVICTED (R75). -/
def tornEvicted : Nat := 2
/-- PREEMPTED (R75). -/
def tornPreempted : Nat := 3
/-- ABORTED (R75). -/
def tornAborted : Nat := 4
/-- STOPPED (R75). -/
def tornStopped : Nat := 5
/-- FAULT (R75). -/
def tornFault : Nat := 6

/-- The reports of tearing the claims that `torn` picks, oldest first (R75). -/
def State.tearReports (s : State) (reason : Nat) (torn : Claim → Bool) : List Content :=
  (s.claims.filter torn).map fun c => stageTorn c reason (s.claimWords c)

/-- The claim table without the claims that `torn` picks (R75). -/
def State.tear (s : State) (torn : Claim → Bool) : State := { s with claims := s.claims.filter fun c => !torn c }

/-- The claim's frame is its owning slot's departing frame, with the new head already set (R76, R99). -/
def State.onDepartingFrame (s : State) (c : Claim) : Bool :=
  match s.settings c.slot with
  | some x => decide (s.seq.firstFrame + x.offset + 1 ≤ s.seq.head) && decide (c.frame = s.seq.head - 1 - x.offset)
  | none => false

/-- The claim on a card of a frame (R64). -/
def State.claimOn (s : State) (frame card : Nat) : Option Claim :=
  s.claims.find? fun c => decide (c.frame = frame) && decide (c.card = card)

/-- Two claims are the same claim: a card of a frame carries one (R64). -/
def sameCard (c d : Claim) : Bool := decide (c.frame = d.frame) && decide (c.card = d.card)

/-- The COLLISION report of a dropped entry (R67). -/
def collisionReport (p : Port) (t : Target) (owner : Fin 8) (data : Word) : Content :=
  { kind := .collision, source := portSource p, slot := some t.slot, frame := t.frame, lane := laneOf t.card,
    row := rowOf t.card, count := t.word.val, detail := wordOf owner.val, data := data }

/-- The STAGE_TORN report of a group write whose frame has departed (R71). -/
def departedReport (p : Port) (x : SlotSettings) (t : Target) : Content :=
  { kind := .stageTorn, source := portSource p, slot := some t.slot, frame := t.frame, lane := laneOf t.card,
    row := rowOf t.card, count := 1, detail := wordOf tornDeparted, data := wordOf (groupWordCount x.fields) }

/-- What a decision leaves for the hold (R65). -/
inductive Decision where
  /-- No access: the entry was dropped or staged. -/
  | noAccess
  /-- The Rules Unit's pass over the words carried. -/
  | pass (carried : Staged)
deriving DecidableEq, Repr

/-- The oldest claim of a port, when the port owns as many claims as it may (R69). -/
def State.toEvict (s : State) (p : Port) : Option Claim :=
  let own := s.claims.filter fun c => decide (c.port = p)
  if Config.claimsPerPort ≤ own.length then own.head? else none

/-- A group is opened with its first word staged, after an eviction where the port needs room (R68, R69). -/
def State.openGroup (s : State) (p : Port) (t : Target) (word : StagedWord) : State :=
  let opened : Claim :=
    { frame := t.frame, card := t.card, slot := t.slot, port := p, staged := Staged.empty.put t.word word }
  match s.toEvict p with
  | some old =>
    let s1 := (s.tear (sameCard old)).produce (stageTorn old tornEvicted (s.claimWords old))
    { s1 with claims := s1.claims ++ [opened] }
  | none => { s with claims := s.claims ++ [opened] }

/-- A group write staged into its slot's claim; a complete group leaves the table and goes to the Rules Unit (R70, R72). -/
def State.stageInto (s : State) (x : SlotSettings) (c : Claim) (t : Target) (word : StagedWord) : State × Decision :=
  let staged := c.staged.put t.word word
  if groupComplete x.fields staged then (s.tear (sameCard c), .pass staged)
  else
    ({ s with claims := s.claims.map fun d => if sameCard c d then { d with staged := staged } else d }, .noAccess)

/-- An entry on a card that carries no claim of another slot (R63, R68, R70, R71, R73). -/
def State.decideOwn (s : State) (p : Port) (x : SlotSettings) (isStream : Bool) (t : Target) (word : StagedWord) :
    State × Decision :=
  let single := Staged.empty.put t.word word
  if isStream || decide (x.mode = .word) || !holdsWritable x.fields t.word then (s, .pass single)
  else if (s.view.get t.slot).currentFrame ≠ some t.frame then (s.produce (departedReport p x t), .noAccess)
  else if groupWordCount x.fields = 1 then (s, .pass single)
  else match s.claimOn t.frame t.card with
    | some c => s.stageInto x c t word
    | none => (s.openGroup p t word, .noAccess)

/-- The Group Unit's decision for a VIEW or STREAM entry at the grant of its hold (R65 to R73). -/
def State.decideEntry (s : State) (p : Port) (x : SlotSettings) (isStream : Bool) (t : Target) (word : StagedWord) :
    State × Decision :=
  match s.claimOn t.frame t.card with
  | some c =>
    if c.slot = t.slot then s.decideOwn p x isStream t word
    else if p = .a ∧ c.port = .b then
      ((s.tear (sameCard c)).produce (stageTorn c tornPreempted t.slot.val)).decideOwn p x isStream t word
    else (s.produce (collisionReport p t c.slot word.data), .noAccess)
  | none => s.decideOwn p x isStream t word

end Sys2Proof.Machine
end

