-- ==== Sys2Proof/Machine/Rules.lean ====
section
/-! DEFINITION. The Rules Unit: state guard, cause handling, limit check, mark, and the pass that makes the accesses (chapter 4). -/

namespace Sys2Proof.Machine

/-! ## State guard (R52, R53) -/

/-- BLANK or an invalid code (R2). -/
def isNoState (state : BitVec 4) : Bool := decide (state.toNat = 0) || (decide (6 ≤ state.toNat) && decide (state.toNat ≤ 13))

/-- Refusal detail BACKWARD (R55). -/
def refusedBackward : Nat := 1
/-- Refusal detail STICKY (R55). -/
def refusedSticky : Nat := 2
/-- Refusal detail INVALID_STATE (R55). -/
def refusedInvalid : Nat := 3
/-- Refusal detail VOID_LATE (R55). -/
def refusedVoidLate : Nat := 4

/-- The table of R53 for a stored and a requested state: none when allowed, otherwise the refusal detail. Equal states are
allowed without the table (R52). -/
def guardRefusal (stored requested : BitVec 4) : Option Nat :=
  if requested = stored then none
  else if isNoState requested then some refusedInvalid
  else if isEndState stored then some refusedSticky
  else if requested = stRejected then none
  else if requested = stVoid then (if rankOf stored ≤ 1 then none else some refusedVoidLate)
  else if rankOf stored < rankOf requested then none
  else some refusedBackward

/-! ## Cause handling (R56) -/

/-- A cause sent with a change to REJECTED, as it is stored: NONE, TRACKING and CORRUPT become UNSPECIFIED. -/
def sentCause (cause : BitVec 4) : BitVec 4 :=
  if cause = 0 ∨ cause = causeTracking ∨ cause = causeCorrupt then causeUnspecified else cause

/-- The cause after R56. -/
def settledCause (read masked : Word) : BitVec 4 :=
  if cardState masked = stRejected ∧ cardState read ≠ stRejected then sentCause (cardCause masked) else cardCause read

/-! ## One record's words -/

/-- The four words of a record, as read or as composed. -/
structure Record where
  w0 : Word
  w1 : Word
  w2 : Word
  w3 : Word
deriving DecidableEq, Repr

/-- Word `w` of a record. -/
def Record.get (r : Record) (w : Fin 4) : Word :=
  match w.val with
  | 0 => r.w0
  | 1 => r.w1
  | 2 => r.w2
  | _ => r.w3

/-- The masked word of a carried word, and the word as read of a word that is not carried (R50, R51). -/
def maskedWord (x : SlotSettings) (w : Fin 4) (carried : Option StagedWord) (read : Word) : Word :=
  match carried with
  | none => read
  | some c => overlay (fieldMask x.fields w) read (mergeBytes c.enables read c.data)

/-- The masked words of a pass (R51). -/
def maskedRecord (x : SlotSettings) (carried : Staged) (read : Record) : Record :=
  { w0 := maskedWord x 0 carried.w0 read.w0, w1 := maskedWord x 1 carried.w1 read.w1,
    w2 := maskedWord x 2 carried.w2 read.w2, w3 := maskedWord x 3 carried.w3 read.w3 }

/-! ## Limit check (R57, R58) -/

/-- A carried word has at least one of the two enables set. -/
def anyEnabled (carried : Option StagedWord) (i j : Nat) : Bool :=
  match carried with
  | some c => c.enables.getLsbD i || c.enables.getLsbD j
  | none => false

/-- The value of the slot's limit field in the masked words, when the pass writes that field (R51, R57). -/
def limitValue (x : SlotSettings) (carried : Staged) (masked : Record) : Option Nat :=
  match x.limit with
  | .none => none
  | .count => if x.fields.count && anyEnabled carried.w0 1 1 then some (byteOf masked.w0 1) else none
  | .score => if x.fields.score && anyEnabled carried.w2 0 1 then some (halfOf masked.w2 0) else none
  | .reading => if x.fields.reading && anyEnabled carried.w2 2 3 then some (halfOf masked.w2 1) else none

/-- The number of a limit field in a LIMIT_REJECT report (R58). -/
def limitNumber : LimitField → Nat
  | .none => 0
  | .count => 1
  | .score => 2
  | .reading => 3

/-- The violating value, when the limit is violated (R57). -/
def limitViolation (x : SlotSettings) (carried : Staged) (masked : Record) : Option Nat :=
  match limitValue x carried masked with
  | some v => if x.low ≤ v ∧ v ≤ x.high then none else some v
  | none => none

/-! ## The outcome of a pass (R48, R54, R59) -/

/-- What the Rules Unit makes of the words it read. -/
inductive PassOutcome where
  /-- Refused by the state guard, with the detail (R54). -/
  | refused (detail : Nat)
  /-- Performed: the words to write, and the violating value when the card was forced (R58, R59). -/
  | performed (words : Record) (forced : Option Nat)
deriving DecidableEq, Repr

/-- Word 0 as a performed pass writes it (R59). -/
def composedWord0 (slot : Fin 8) (state cause : BitVec 4) (read masked : Word) : Word :=
  recordWord0 state cause (cardCount masked) (cardMarks read ||| markBit slot) (cardGeneration read)

/-- Guard, cause handling, limit check and mark on the words read (R52 to R59). -/
def passOutcome (x : SlotSettings) (slot : Fin 8) (carried : Staged) (read : Record) : PassOutcome :=
  let masked := maskedRecord x carried read
  match guardRefusal (cardState read.w0) (cardState masked.w0) with
  | some detail => .refused detail
  | none =>
    let cause := settledCause read.w0 masked.w0
    match limitViolation x carried masked with
    | some v =>
      if isEndState (cardState masked.w0) then
        .performed { masked with w0 := composedWord0 slot (cardState masked.w0) cause read.w0 masked.w0 } none
      else .performed { masked with w0 := composedWord0 slot stRejected causeOutOfLimit read.w0 masked.w0 } (some v)
    | none => .performed { masked with w0 := composedWord0 slot (cardState masked.w0) cause read.w0 masked.w0 } none

/-! ## The accesses of a pass (R49, R60) -/

/-- A word is read when the pass carries it. -/
def readCarried (b : Bus) (carried : Option StagedWord) (a : Nat) : Word × Bus :=
  if carried.isSome then b.read a else (0, b)

/-- The reads of a pass: word 0, then each other carried word in ascending order (R49). -/
def passReads (b : Bus) (p : Profile) (frame card : Nat) (carried : Staged) : Record × Bus :=
  let a0 := b.read (ringAddress p frame card 0)
  let a1 := readCarried a0.2 carried.w1 (ringAddress p frame card 1)
  let a2 := readCarried a1.2 carried.w2 (ringAddress p frame card 2)
  let a3 := readCarried a2.2 carried.w3 (ringAddress p frame card 3)
  (⟨a0.1, a1.1, a2.1, a3.1⟩, a3.2)

/-- The writes of a performed pass: each carried word other than 0 in ascending order, then word 0 (R49). -/
def passWrites (p : Profile) (frame card : Nat) (carried : Staged) (words : Record) : List (Nat × Word) :=
  (([1, 2, 3, 0] : List (Fin 4)).filter fun w => decide (w = 0) || (carried.get w).isSome).map fun w =>
    (ringAddress p frame card w, words.get w)

/-- GUARD_REFUSED (R55). -/
def guardRefusedReport (x : SlotSettings) (slot : Fin 8) (frame card : Nat) (stored requested : BitVec 4) (detail : Nat) :
    Content :=
  { kind := .guardRefused, source := portSource x.port, slot := some slot, frame := frame, lane := laneOf card,
    row := rowOf card, count := stored.toNat, detail := wordOf detail, data := wordOf requested.toNat }

/-- LIMIT_REJECT (R58). -/
def limitRejectReport (x : SlotSettings) (slot : Fin 8) (frame card value : Nat) : Content :=
  { kind := .limitReject, source := portSource x.port, slot := some slot, frame := frame, lane := laneOf card,
    row := rowOf card, count := value, detail := wordOf causeOutOfLimit.toNat, data := wordOf (limitNumber x.limit) }

/-- The reports of a pass: WRITE_LOST when an access was answered ERROR, otherwise those of its outcome (R60). -/
def passReports (port : Port) (x : SlotSettings) (slot : Fin 8) (frame card : Nat) (data : Word) (read masked : Record)
    (failed : Option Nat) (outcome : PassOutcome) : List Content :=
  match failed with
  | some a => [writeLostView port slot frame card 1 a data]
  | none =>
    match outcome with
    | .refused detail => [guardRefusedReport x slot frame card (cardState read.w0) (cardState masked.w0) detail]
    | .performed _ (some v) => [limitRejectReport x slot frame card v]
    | .performed _ none => []

/-- The accesses of a pass with its outcome: a refused pass makes its reads and no write. -/
def passAccesses (b : Bus) (p : Profile) (slot : Fin 8) (frame card : Nat) (carried : Staged) : Record × PassOutcome × Bus :=
  let reads := passReads b p frame card carried
  let outcome := passOutcome (p.slots.get slot) slot carried reads.1
  match outcome with
  | .refused _ => (reads.1, outcome, reads.2)
  | .performed words _ => (reads.1, outcome, reads.2.writes (passWrites p frame card carried words))

/-- A pass under its hold: a view write handed on as a WORD-mode write, or a group commit (R48, R49, R60). -/
def State.makePass (s : State) (port : Port) (slot : Fin 8) (frame card : Nat) (carried : Staged) (data : Word)
    (error : Option Nat) : State :=
  match s.cmd.profile with
  | none => s
  | some p =>
    let x := p.slots.get slot
    let a := passAccesses (Bus.start s.mem error) p slot frame card carried
    (passReports port x slot frame card data a.1 (maskedRecord x carried a.1) a.2.2.failed a.2.1).foldl State.produce
      { s with mem := a.2.2.mem }

end Sys2Proof.Machine
end

