-- ==== Sys2Proof/Machine/Sequencer.lean ====
section
/-! DEFINITION. The Ring Sequencer, the Time Base and the Discharge Unit as their events change them: faults, acceptance and
completion of an advance, its stages, the marking pass, deadlines and scans, reject rows (chapters 7 to 9). -/

namespace Sys2Proof.Machine

/-! ## Commands' outcomes (R131) -/

/-- An outcome other than BUSY is produced: it replaces the waiting result (R131). -/
def State.produceResult (s : State) (o : CommandOutcome) : State := { s with cmd := { s.cmd with waitingResult := some o } }

/-- A BUSY outcome is produced: it replaces the waiting BUSY (R131). -/
def State.produceBusy (s : State) (o : CommandOutcome) : State := { s with cmd := { s.cmd with waitingBusy := some o } }

/-- START FRESH ends with an outcome when it is in progress (R109, R143). -/
def State.endStart (s : State) (code : OutcomeCode) (detail : BitVec 16) : State :=
  match s.cmd.running with
  | some (.startFresh tag) =>
    { s with cmd := { s.cmd with running := none, waitingResult := some { tag := tag, code := code, detail := detail } } }
  | some (.apply _) => s
  | none => s

/-! ## Discards (R33, R92, R93) -/

/-- A VIEW or STREAM entry. -/
def Entry.isView : Entry → Bool
  | .view _ _ _ => true
  | .stream _ _ _ => true
  | .plain _ _ _ => false
  | .profile _ _ _ => false

/-- The entries of a queue that an event may reach: all but the begun one (R85). -/
def notBegun (begun : Bool) (q : List Entry) : List Entry := if begun then q.tail else q

/-- The begun entry of a queue. -/
def begunPart (begun : Bool) (q : List Entry) : List Entry := if begun then q.take 1 else []

/-- How many entries of port `p` an event that discards view entries discards (R93). -/
def State.viewEntries (s : State) (p : Port) : Nat :=
  ((notBegun (s.begun p) (s.port p).queue).filter Entry.isView).length

/-- The demand initialisation under its hold no longer has the entry or read it was made for (R85). -/
def Work.orphaned (w : Work) (p : Port) : Work :=
  match w with
  | .demandInit q f c _ => if q = p then .demandInit q f c .gone else w
  | _ => w

/-- The work of the executor of port `p` that has not reached its own grant is abandoned: its waiting request is withdrawn
and a demand initialisation under its hold goes on for nothing (R85, R87). -/
def State.abandonWork (s : State) (p : Port) : State :=
  let s1 := s.withdraw (portRequester p)
  { s1 with arb := { s1.arb with hold := s1.arb.hold.map fun w => w.orphaned p } }

/-- The next work of the executor of port `p` is a VIEW or STREAM entry that is not begun, or a pending view read that is not
under its hold. -/
def State.worksOnView (s : State) (p : Port) : Bool :=
  match (s.port p).queue with
  | e :: _ => e.isView && !s.begun p
  | [] =>
    match (s.port p).pending with
    | some (.view _) => !s.reading p
    | some (.plain _) => false
    | none => false

/-- A port at STOP or hard fault entry: its VIEW and STREAM entries not begun are gone, and its pending view read is
answered ERROR (R33, R93). -/
def State.portWithoutViews (s : State) (p : Port) : PortState :=
  let x := s.port p
  let queue := begunPart (s.begun p) x.queue ++ (notBegun (s.begun p) x.queue).filter fun e => !e.isView
  match x.pending with
  | some (.view _) =>
    if s.reading p then { x with queue := queue } else { x with queue := queue, pending := none, answer := some .error }
  | some (.plain _) => { x with queue := queue }
  | none => { x with queue := queue }

/-- STOP and hard fault entry at one port. -/
def State.dropViews (s : State) (p : Port) : State :=
  let s1 := if s.worksOnView p then s.abandonWork p else s
  s1.setPort p (s.portWithoutViews p)

/-- The ABANDONED reports of STOP (event 2) or hard fault entry (event 3), one batch a port (R94). -/
def State.abandonedReports (s : State) (event : Nat) : List (List Content) :=
  [abandoned .a (s.viewEntries .a) 0 event, abandoned .b (s.viewEntries .b) 0 event]

/-! ## Time Base (R112, R114) -/

/-- All deadlines DISARMED. -/
def allDisarmed : Eight Deadline :=
  ⟨.disarmed, .disarmed, .disarmed, .disarmed, .disarmed, .disarmed, .disarmed, .disarmed⟩

/-- The deadlines at an acceptance or START, with the current frames already moved (R112). -/
def State.armDeadlines (s : State) (p : Profile) : State :=
  { s with time := { s.time with
      deadlines := Eight.make fun i =>
        match (p.slots.get i).enabled, (s.view.get i).currentFrame with
        | true, some f =>
          if (p.slots.get i).deadline = 0 then .disarmed
          else .armed f (s.time.counter + wordOf (p.slots.get i).deadline)
        | true, none => .disarmed
        | false, _ => .disarmed } }

/-- Deadlines and scans at STOP, hard fault entry and a successful APPLY (R112, R114). -/
def TimeBase.cleared (t : TimeBase) : TimeBase := { t with deadlines := allDisarmed, scans := [], running := none }

/-- The oldest waiting scan starts to run when none runs (R114). -/
def State.startScan (s : State) : State :=
  match s.time.running, s.time.scans, s.cmd.profile with
  | none, w :: rest, some p =>
    { s with time := { s.time with
        scans := rest
        running := some { slot := w.slot, frame := w.frame, expiry := w.expiry,
                          todo := windowCards p (p.slots.get w.slot), late := 0, first := none } } }
  | _, _, _ => s

/-- A scan is placed on the scan list; a waiting scan of its slot takes the new frame and keeps its place (R114; log entry
19). -/
def placeScan (n : WaitingScan) : List WaitingScan → List WaitingScan
  | [] => [n]
  | w :: rest => if w.slot = n.slot then n :: rest else w :: placeScan n rest

/-- The running scan has ended (R114 to R116). -/
def State.endScan (s : State) : State := { s with time := { s.time with running := none } }.startScan

/-- LATE (R116). -/
def lateReport (p : Profile) (n : RunningScan) : Content :=
  { kind := .late, source := .timebase, slot := some n.slot, frame := n.frame, lane := laneOf (n.first.getD 0),
    row := rowOf (n.first.getD 0), count := n.late, detail := wordOf (p.slots.get n.slot).missCause.toNat, data := n.expiry }

/-- A scan has read its last card: a LATE report when it counted a late card (R116). -/
def State.finishScan (s : State) (p : Profile) (n : RunningScan) : State :=
  (if n.late = 0 then s else s.produce (lateReport p n)).endScan

/-! ## Discharge Unit (R122, R123, R126, R127) -/

/-- There are rows left (R122). -/
def Discharge.rowsLeft (d : Discharge) : Bool := d.loaded.isSome && decide (d.pointer ≤ d.rowCount)

/-- How many lanes a row set holds. -/
def laneCount (x : BitVec 8) : Nat := ((List.range 8).filter fun i => x.getLsbD i).length

/-- The rejects among the rows left (R122). -/
def Discharge.rejectsLeft (d : Discharge) : Nat :=
  ((d.rowSets.drop (d.pointer - 1)).map laneCount).foldl (· + ·) 0

/-- UNDISCHARGED (R127): detail 1 REPLACED, 2 RECOVERED, 3 APPLIED; nothing when no rows are left. -/
def Discharge.undischarged (d : Discharge) (detail : Nat) : List Content :=
  if d.rowsLeft then
    [{ kind := .undischarged, source := .discharge, frame := d.loaded.getD 0, row := d.pointer,
       count := d.rowCount - d.pointer + 1, detail := wordOf detail, data := wordOf d.rejectsLeft }]
  else []

/-- Clearing the rows (R126). -/
def Discharge.clear (d : Discharge) : Discharge :=
  if d.loaded.isSome then { d with pointer := d.rowCount + 1 } else d

/-! ## Faults (R142, R143, R145) -/

/-- A fault as it is signalled: kind, the requester that met the error (0 for INDEX_OVERRUN), the failed address, and whether
the failed access was the write of the status word of W (R162). -/
structure FaultSignal where
  kind : FaultKind
  lane : Nat
  address : Nat
  ofStatusW : Bool
deriving DecidableEq, Repr

/-- INDEX_OVERRUN (R97, R109). -/
def overrunSignal : FaultSignal := { kind := .indexOverrun, lane := 0, address := 0, ofStatusW := false }

/-- A MEMORY fault of a requester at an address (R91). -/
def memorySignal (r : Requester) (address : Nat) : FaultSignal :=
  { kind := .memory, lane := r.number, address := address, ofStatusW := false }

/-- The number of the stage of the advance in flight (R142). -/
def stageNumber : Option Advance → Nat
  | none => 0
  | some v =>
    match v.stage with
    | .initialising => 1
    | .checking => 2
    | .judging => 3

/-- FAULT (R142), with the fault count already risen. -/
def faultReport (s : State) (f : FaultSignal) : Content :=
  { kind := .fault, source := .sequencer, frame := s.seq.head, lane := f.lane, row := stageNumber s.seq.advance,
    count := s.seq.faultCount, detail := wordOf (faultCode (some f.kind)), data := wordOf f.address,
    ofStatusW := f.ofStatusW }

/-- The marking set: every existing frame at positions 0 to Q, the oldest first (R143, R144). -/
def State.markingFrames (s : State) (p : Profile) : List Nat :=
  if s.seq.ringValid then
    (List.range (p.dischargeOffset + 1)).filterMap fun n =>
      frameAtOffset s.seq.head s.seq.firstFrame (p.dischargeOffset - n)
  else []

/-- The cards of the marking set in their order (R144). -/
def markingCards (p : Profile) (frames : List Nat) : List (Nat × Nat) :=
  frames.flatMap fun f => (usedCards p).map fun c => (f, c)

/-- The marking pass at its next unit of work, or LOST when there is none (R144). -/
def State.progressMarking (s : State) : State :=
  match s.seq.marking with
  | none => s
  | some m =>
    if s.nextInit.isSome then s
    else if m.todo.isEmpty then { s with seq := { s.seq with marking := none, tracking := .lost } }
    else { s with seq := { s.seq with marking := some { m with phase := .cards } } }

/-- The Ring Sequencer at hard fault entry (R143). -/
def State.enterMarking (s : State) (p : Profile) (kind : FaultKind) : State :=
  let frames := s.markingFrames p
  { s with seq := { s.seq with
      advance := none, pendingIndex := 0, faultCause := some kind, tracking := .marking
      marking := some { frames := frames, phase := .initialising, todo := markingCards p frames } } }

/-- How START FRESH ends at hard fault entry (R143). -/
def State.endStartAtFault (s : State) (kind : FaultKind) : State :=
  match kind with
  | .memory => s.endStart .memoryError 0
  | .indexOverrun => s.endStart .wrongState (BitVec.ofNat 16 (trackingCode .marking))

/-- Hard fault entry at every block (R143). The reports of the blocks are produced together, with those of `extra`. -/
def State.hardFault (s : State) (p : Profile) (f : FaultSignal) (extra : List (List Content)) : State :=
  let reports := [faultReport s f] :: s.tearReports tornFault (fun _ => true) :: s.abandonedReports 3
    ++ s.stopStreamReports p ++ extra
  let s1 := (s.enterMarking p f.kind).withdraw .sequencer
  let s2 := (((s1.tear fun _ => true).dropViews .a).dropViews .b).clearViews p
  let s3 := ({ s2 with time := s2.time.cleared }).endStartAtFault f.kind
  (s3.produceAll reports).progressMarking

/-- The internal queue at entry into HALTED: every report is dropped but one whose record write is under its hold (R164). -/
def ReportUnit.halted (u : ReportUnit) : ReportUnit :=
  let kept := match u.writing with
    | some w => if w.queued then u.queue.take 1 else []
    | none => []
  { u.drop (u.queue.length - kept.length) with queue := kept }

/-- Entry into HALTED (R145, R164). The FAULT report of this fault is dropped and counted. -/
def State.enterHalted (s : State) : State :=
  let s1 := ((s.withdraw .sequencer).withdraw .report).withdraw .command
  { s1 with
    seq := { s1.seq with tracking := .halted, marking := none }
    cmd := { s1.cmd with waitingBusy := none, waitingResult := none }
    rep := s1.rep.halted.drop 1 }

/-- A fault is taken in the tracking state of the moment (R142). -/
def State.fault (s : State) (f : FaultSignal) (extra : List (List Content)) : State :=
  let s1 := { s with seq := { s.seq with faultCount := addUpTo Config.maxHalf s.seq.faultCount 1 } }
  match s.seq.tracking, s.cmd.profile with
  | .running, some p => s1.hardFault p f extra
  | .advancing, some p => s1.hardFault p f extra
  | .marking, _ => (s1.produceAll extra).enterHalted
  | .halted, _ => s1.produceAll extra
  | .unconfigured, _ => s1.produceAll ([faultReport s1 f] :: extra)
  | .idle, _ => s1.produceAll ([faultReport s1 f] :: extra)
  | .lost, _ => s1.produceAll ([faultReport s1 f] :: extra)
  | .running, none => s1
  | .advancing, none => s1

/-! ## Acceptance of an advance (R99, R104) -/

/-- A pair takes its place in ascending order of offset, before pairs of equal offset that stand already (R104). -/
def placePair (p : Profile) (n : Departure) : List Departure → List Departure
  | [] => [n]
  | d :: rest =>
    if (p.slots.get d.slot).offset < (p.slots.get n.slot).offset then d :: placePair p n rest else n :: d :: rest

/-- The departing frame of an offset, for the new head (R99). -/
def departingFrame (head first offset : Nat) : Option Nat :=
  if first + offset + 1 ≤ head then some (head - 1 - offset) else none

/-- The departure list of an advance with the new head and the first frame (R104). -/
def departureList (p : Profile) (head first : Nat) : List Departure :=
  ((enabledSlots p).filterMap fun q =>
    (departingFrame head first q.2.offset).map fun f => ({ slot := q.1, frame := f, status := .waiting } : Departure)).foldr
      (placePair p) []

/-- The Ring Sequencer at the acceptance of an advance (R99). -/
def State.beginAdvance (s : State) (p : Profile) : State :=
  let head := s.seq.head + 1
  { s with seq := { s.seq with
      head := head, tracking := .advancing, initSet := [], underInit := some head
      advance := some { kind := .index, stage := .initialising, acceptedAt := s.time.counter
                        departures := departureList p head s.seq.firstFrame, check := none
                        judgeFrame := frameAtOffset head s.seq.firstFrame p.dischargeOffset, judge := none } } }

/-- Every block at the acceptance of an advance (R18, R45, R76, R99, R112, R157). -/
def State.advanceAll (s : State) (p : Profile) : State :=
  let s1 := s.beginAdvance p
  let s2 := s1.produceAll [s1.tearReports tornDeparted s1.onDepartingFrame, s1.advanceStreamReports p]
  let s3 := ((s2.tear s2.onDepartingFrame).advanceViews p).armDeadlines p
  { s3 with rep := { s3.rep with quiet := s3.rep.quiet - 1 } }

/-- An advance is accepted, or INDEX_OVERRUN is taken in its place when H is at its largest (R9, R99). -/
def State.acceptAdvance (s : State) : State :=
  match s.cmd.profile with
  | none => s
  | some p => if s.seq.head = Config.maxWord then s.fault overrunSignal [] else s.advanceAll p

/-! ## Stages and completion (R102, R104, R105, R107 to R109) -/

/-- An advance completes (R109). -/
def State.completeAdvance (s : State) : State :=
  let s1 := ({ s with seq := { s.seq with advance := none } }).endStart .done 0
  if s.seq.pendingIndex = 1 then ({ s1 with seq := { s1.seq with pendingIndex := 0 } }).acceptAdvance
  else { s1 with seq := { s1.seq with tracking := .running } }

/-- Judgement progress at the moment stage JUDGING begins (R117). -/
def JudgeProgress.start (p : Profile) : JudgeProgress :=
  { todo := usedCards p, good := 0, rejected := 0, void := 0, causes := 0, first := none,
    rowSets := List.replicate p.rows 0 }

/-- Stage JUDGING, complete at once with no judgement frame (R108). -/
def State.enterJudging (s : State) (p : Profile) (v : Advance) : State :=
  match v.judgeFrame with
  | some _ =>
    { s with seq := { s.seq with
        advance := some { v with stage := .judging, check := none, judge := some (JudgeProgress.start p) } } }
  | none => s.completeAdvance

/-- The first waiting pair is begun: its drain wait starts (R104, R105). -/
def beginPair : List Departure → List Departure
  | [] => []
  | d :: rest => if d.status = .waiting then { d with status := .draining } :: rest else d :: beginPair rest

/-- A pair waits to be begun. -/
def anyWaiting (ds : List Departure) : Bool := ds.any fun d => decide (d.status = .waiting)

/-- The next pair is begun, or stage CHECKING is complete (R104). -/
def State.nextPair (s : State) (p : Profile) (v : Advance) : State :=
  if anyWaiting v.departures then
    { s with seq := { s.seq with
        advance := some { v with stage := .checking, departures := beginPair v.departures, check := none } } }
  else s.enterJudging p v

/-- Stage INITIALISING is complete (R102). -/
def State.initialised (s : State) (p : Profile) (v : Advance) : State :=
  match v.kind with
  | .start => s.completeAdvance
  | .index => s.nextPair p v

/-- What follows once every used card of the frame under initialisation is in the set (R101, R102, R144). -/
def State.afterInitSet (s : State) (p : Profile) : State :=
  if s.seq.marking.isSome then s.progressMarking
  else match s.seq.advance with
    | some v => if v.stage = .initialising then s.initialised p v else s
    | none => s

/-- A card is added to the init set; with the last used card there is no frame under initialisation (R101). -/
def State.addToInitSet (s : State) (frame card : Nat) : State :=
  match s.cmd.profile with
  | none => s
  | some p =>
    if s.needsInit frame card then
      let s1 := { s with seq := { s.seq with initSet := s.seq.initSet ++ [card] } }
      if s1.nextInit.isSome then s1
      else ({ s1 with seq := { s1.seq with underInit := none } }).afterInitSet p
    else s

/-- The pair that is being checked, or drains, is done. -/
def pairDone (status : PairStatus) : List Departure → List Departure
  | [] => []
  | d :: rest => if d.status = status then { d with status := .done } :: rest else d :: pairDone status rest

/-- The draining pair moves to its card check. -/
def pairChecking : List Departure → List Departure
  | [] => []
  | d :: rest => if d.status = .draining then { d with status := .checking } :: rest else d :: pairChecking rest

/-- MISSED (R107). -/
def missedReport (p : Profile) (d : Departure) (c : CheckProgress) : Content :=
  let x := p.slots.get d.slot
  { kind := .missed, source := .sequencer, slot := some d.slot, frame := d.frame, lane := laneOf (c.first.getD 0),
    row := rowOf (c.first.getD 0), count := c.written, detail := wordOf x.missCause.toNat, data := wordOf (windowSize x) }

/-- The card check of a pair has examined its last card (R107). -/
def State.pairExamined (s : State) (p : Profile) (v : Advance) (d : Departure) (c : CheckProgress) : State :=
  let s1 := if c.written = 0 then s else s.produce (missedReport p d c)
  s1.nextPair p { v with departures := pairDone .checking v.departures, check := none }

/-- A card of the pair being checked has been examined (R106). -/
def State.cardExamined (s : State) (p : Profile) (card : Nat) (written : Bool) : State :=
  match s.seq.advance with
  | none => s
  | some v =>
    match checkingPair v.departures, v.check with
    | some d, some c =>
      let c1 : CheckProgress :=
        { todo := c.todo.tail, written := c.written + written.toNat,
          first := if written && c.first.isNone then some card else c.first }
      if c1.todo.isEmpty then s.pairExamined p v d c1
      else { s with seq := { s.seq with advance := some { v with check := some c1 } } }
    | _, _ => s

/-! ## Judgement (R118 to R120, R123) -/

/-- What judgement counts a card as. -/
inductive Verdict where
  | good | void | rejected (cause : BitVec 4)
deriving DecidableEq, Repr

/-- The table of R118: the word to write, if any, and the verdict. -/
def judged (goodState : BitVec 4) (frame : Nat) (read : Word) : Option Word × Verdict :=
  if cardState read = stVoid then (none, .void)
  else if cardState read = stRejected then (none, .rejected (cardCause read))
  else if cardGeneration read ≠ generationOf frame then (some (rejectedWord0 read causeCorrupt), .rejected causeCorrupt)
  else if cardState read = goodState then (none, .good)
  else (some (rejectedWord0 read causeUnfinished), .rejected causeUnfinished)

/-- The judgement progress after a card (R119). -/
def JudgeProgress.count (j : JudgeProgress) (card : Nat) (v : Verdict) : JudgeProgress :=
  match v with
  | .good => { j with todo := j.todo.tail, good := j.good + 1 }
  | .void => { j with todo := j.todo.tail, void := j.void + 1 }
  | .rejected cause =>
    { j with
      todo := j.todo.tail
      rejected := j.rejected + 1
      causes := j.causes ||| (1#16 <<< cause.toNat)
      first := if j.first.isNone then some card else j.first
      rowSets := j.rowSets.modify (rowOf card - 1) fun x => x ||| (1#8 <<< (laneOf card - 1)) }

/-- The first rejected card's lane and row, 0 and 0 for none (R120). -/
def placeOf : Option Nat → Nat × Nat
  | some c => (laneOf c, rowOf c)
  | none => (0, 0)

/-- DISCHARGE (R120, R167). -/
def dischargeReport (frame : Nat) (j : JudgeProgress) : Content :=
  { kind := .discharge, source := .sequencer, frame := frame, lane := (placeOf j.first).1, row := (placeOf j.first).2,
    count := j.rejected, detail := j.causes.setWidth 32,
    data := BitVec.ofNat 16 j.void ++ BitVec.ofNat 16 j.good }

/-- The reject rows of a judged frame are loaded (R123). -/
def loadRows (p : Profile) (frame : Nat) (j : JudgeProgress) : Discharge :=
  { loaded := some frame, rowCount := p.rows, rowSets := j.rowSets, pointer := 1 }

/-- The judgement completion, and with it the completion of the advance (R109, R120, R123). -/
def State.judgementComplete (s : State) (p : Profile) (frame : Nat) (j : JudgeProgress) : State :=
  let s1 := s.produceAll [[dischargeReport frame j], s.disch.undischarged 1]
  ({ s1 with disch := loadRows p frame j }).completeAdvance

/-- A card of the judgement frame has been judged (R117, R119). -/
def State.cardJudged (s : State) (p : Profile) (frame card : Nat) (x : Verdict) : State :=
  match s.seq.advance with
  | none => s
  | some v =>
    match v.judge with
    | none => s
    | some j =>
      let j1 := j.count card x
      if j1.todo.isEmpty then s.judgementComplete p frame j1
      else { s with seq := { s.seq with advance := some { v with judge := some j1 } } }

end Sys2Proof.Machine
end

