-- ==== Sys2Proof/Machine/Control.lean ====
section
/-! DEFINITION. The Command Unit: taking a command word, each command's effect at every block, the end of APPLY, and the two
watched words of the Report Unit (chapter 9; R154 to R158, R166). -/

namespace Sys2Proof.Machine

/-! ## The command word (R129, 11.2) -/

/-- Code of a command word. -/
def commandCode (v : Word) : Nat := byteOf v 0
/-- Tag of a command word. -/
def commandTag (v : Word) : Byte := v.extractLsb' 8 8
/-- Parameter of a command word. -/
def commandParameter (v : Word) : BitVec 16 := v.extractLsb' 16 16

/-- The commands that a code names (11.2). -/
inductive Command where
  | apply | start | stop | recover | quiet
deriving DecidableEq, Repr

/-- The command of a code, none for 0 and 6 to 255. -/
def commandOf (code : Nat) : Option Command :=
  match code with
  | 1 => some .apply
  | 2 => some .start
  | 3 => some .stop
  | 4 => some .recover
  | 5 => some .quiet
  | _ => none

/-- The code of the command in progress (R130 line 1). -/
def runningCode : RunningCommand → Nat
  | .apply _ => 1
  | .startFresh _ => 2

/-- The parameter FRESH of START (11.2). -/
def paramFresh : Nat := 1
/-- The parameter CARRY of START (11.2). -/
def paramCarry : Nat := 2

/-- The states in which a command is allowed (R130). -/
def Command.allowed (c : Command) (t : Tracking) : Bool :=
  match c with
  | .apply => decide (t = .unconfigured) || decide (t = .idle)
  | .start => decide (t = .idle)
  | .stop => decide (t = .running)
  | .recover => decide (t = .lost)
  | .quiet => decide (t ≠ .halted)

/-- The parameter is valid for the command (R130 line 5, R137, R138, R141). -/
def State.validParameter (s : State) (c : Command) (n : Nat) : Bool :=
  match c with
  | .start =>
    (decide (n = paramFresh) && decide (s.seq.head < Config.maxWord)) || (decide (n = paramCarry) && s.seq.ringValid)
  | .quiet => decide (n ≠ 0)
  | .apply => true
  | .stop => true
  | .recover => true

/-- What R130 decides for a command word with a code other than 0. -/
inductive Ruling where
  | refused (code : OutcomeCode) (detail : BitVec 16)
  | taken (c : Command)
deriving DecidableEq, Repr

/-- Lines 2 to 6 of R130. -/
def State.ruleIdle (s : State) (v : Word) : Ruling :=
  match commandOf (commandCode v) with
  | none => .refused .unknownCommand (BitVec.ofNat 16 (commandCode v))
  | some c =>
    if c = .stop ∧ s.seq.tracking = .advancing then .refused .busy 0
    else if !c.allowed s.seq.tracking then .refused .wrongState (BitVec.ofNat 16 (trackingCode s.seq.tracking))
    else if !s.validParameter c (commandParameter v).toNat then .refused .invalidParameter (commandParameter v)
    else .taken c

/-- The table of R130. -/
def State.rule (s : State) (v : Word) : Ruling :=
  match s.cmd.running with
  | some r => .refused .busy (BitVec.ofNat 16 (runningCode r))
  | none => s.ruleIdle v

/-- An outcome waits to be written, in its own place (R131). -/
def State.produceOutcome (s : State) (o : CommandOutcome) : State :=
  if o.code = .busy then s.produceBusy o else s.produceResult o

/-- DONE for a command that ends at its take (R131). -/
def State.done (s : State) (tag : Byte) : State := s.produceResult { tag := tag, code := .done, detail := 0 }

/-! ## The commands (R133, R137 to R141) -/

/-- APPLY is taken (R133). IN_PROGRESS is requested before the first profile word (R131). -/
def State.takeApply (s : State) (tag : Byte) : State :=
  { s with cmd := { s.cmd with
      running := some (.apply tag), candidate := [], lastWasOutcome := false
      waitingResult := some { tag := tag, code := .inProgress, detail := 0 } } }

/-- The Ring Sequencer and the Command Unit at the take of START FRESH (R9, R100, R137). -/
def State.beginStart (s : State) (tag : Byte) : State :=
  let head := s.seq.head + 1
  { s with
    seq := { s.seq with
      head := head, firstFrame := head, ringValid := true, tracking := .advancing, initSet := [], underInit := some head
      advance := some { kind := .start, stage := .initialising, acceptedAt := s.time.counter, departures := []
                        check := none, judgeFrame := none, judge := none } }
    cmd := { s.cmd with
      running := some (.startFresh tag), waitingResult := some { tag := tag, code := .inProgress, detail := 0 } } }

/-- START FRESH is taken (R137; R18, R46, R112). -/
def State.takeStartFresh (s : State) (tag : Byte) : State :=
  match s.cmd.profile with
  | none => s
  | some p => ((s.beginStart tag).startViews p).armDeadlines p

/-- START CARRY is taken (R138; R18, R46, R112). -/
def State.takeStartCarry (s : State) (tag : Byte) : State :=
  match s.cmd.profile with
  | none => s
  | some p =>
    (({ s with seq := { s.seq with tracking := .running } }).startViews p).armDeadlines p |>.done tag

/-- The request for a scan read is withdrawn, when it is that that waits (R87, R114). -/
def State.withdrawScan (s : State) : State :=
  if s.arb.sequencer.request = some .lateScan then s.withdraw .sequencer else s

/-- STOP is taken (R139; R18, R33, R46, R78, R93, R112, R114). -/
def State.takeStop (s : State) (tag : Byte) : State :=
  match s.cmd.profile with
  | none => s
  | some p =>
    let reports := s.tearReports tornStopped (fun _ => true) :: s.abandonedReports 2 ++ s.stopStreamReports p
    let s1 := ({ s with seq := { s.seq with tracking := .idle } }).withdrawScan
    let s2 := (((s1.tear fun _ => true).dropViews .a).dropViews .b).clearViews p
    let s3 := ({ s2 with time := s2.time.cleared }).done tag
    s3.produceAll reports

/-- RECOVER is taken (R140; R126). -/
def State.takeRecover (s : State) (tag : Byte) : State :=
  let s1 := { s with seq := { s.seq with faultCause := none, tracking := .idle }, disch := s.disch.clear }
  (s1.done tag).produceAll [s.disch.undischarged 2]

/-- QUIET is taken (R141). -/
def State.takeQuiet (s : State) (tag : Byte) (n : Nat) : State :=
  ({ s with rep := { s.rep with quiet := n } }).done tag

/-- A command is taken and runs as its rule states (R130 line 6). -/
def State.runCommand (s : State) (c : Command) (tag : Byte) (n : Nat) : State :=
  match c with
  | .apply => s.takeApply tag
  | .start => if n = paramCarry then s.takeStartCarry tag else s.takeStartFresh tag
  | .stop => s.takeStop tag
  | .recover => s.takeRecover tag
  | .quiet => s.takeQuiet tag n

/-- A command word is handed over with the value the write left in memory (R129, R130). -/
def State.takeCommand (s : State) (v : Word) : State :=
  if s.seq.tracking = .halted ∨ commandCode v = 0 then s
  else match s.rule v with
    | .refused code detail => s.produceOutcome { tag := commandTag v, code := code, detail := detail }
    | .taken c => s.runCommand c (commandTag v) (commandParameter v).toNat

/-! ## The end of APPLY (R133 to R136) -/

/-- APPLY ends with an outcome; the candidate is discarded. -/
def State.endApply (s : State) (tag : Byte) (code : OutcomeCode) (detail : BitVec 16) : State :=
  { s with cmd := { s.cmd with
      running := none, candidate := [], waitingResult := some { tag := tag, code := code, detail := detail } } }

/-- A record write under its hold when APPLY succeeds is not admitted in the new numbering (R156). -/
def RecordWrite.supersede (w : RecordWrite) : RecordWrite := { w with superseded := true }

/-- The Report Unit at a successful APPLY (R151, R155, R156, R159). Every status word becomes due; one that is under its
write, which `statusWrite` says, is written again (R161). -/
def ReportUnit.applied (u : ReportUnit) (statusWrite : Bool) : ReportUnit :=
  { u.markAllDue with
    writeSeq := 1, readSeq := 1, markA := none, markA7 := none, readPointerDue := true, fillLatch := false
    changedAgain := u.changedAgain || statusWrite
    writing := u.writing.map RecordWrite.supersede }

/-- The Ring Sequencer at a successful APPLY (R9, R101, R128). -/
def Sequencer.applied (q : Sequencer) : Sequencer :=
  { q with tracking := .idle, ringValid := false, initSet := [], underInit := none }

/-- The Time Base at a successful APPLY (R111, R112, R114). -/
def TimeBase.applied (t : TimeBase) (p : Profile) : TimeBase := { t.cleared with divider := p.divider, cycles := 0 }

/-- APPLY succeeds with profile `p` (R135). -/
def State.applySucceeds (s : State) (tag : Byte) (p : Profile) : State :=
  let s1 := (s.endApply tag .done 0).resetViews
  let s2 := { s1 with
    cmd := { s1.cmd with profile := some p }, seq := s1.seq.applied, time := s1.time.applied p, disch := s1.disch.clear
    rep := s1.rep.applied ((List.range statusWords).any s.writingStatus) }
  s2.produceAll [s.disch.undischarged 3]

/-- The checks of R134 are made on the candidate, and APPLY ends as R135 or R136 states. -/
def State.checkProfile (s : State) (tag : Byte) : State :=
  match profileFailure s.blockBase s.cmd.candidate with
  | some n => s.endApply tag .invalidProfile (BitVec.ofNat 8 n.2 ++ BitVec.ofNat 8 n.1)
  | none => s.applySucceeds tag (profileOf s.cmd.candidate)

/-- A profile word has been read into the candidate (R133). -/
def State.profileWordRead (s : State) (v : Word) : State :=
  match s.cmd.running with
  | some (.apply _) => { s with cmd := { s.cmd with candidate := s.cmd.candidate ++ [v] } }
  | some (.startFresh _) => s
  | none => s

/-- The tag of the APPLY that has read word 255 and has its checks still to make (R133). -/
def State.checksWait (s : State) : Option Byte :=
  match s.cmd.running with
  | some (.apply tag) => if s.cmd.candidate.length < 256 then none else some tag
  | some (.startFresh _) => none
  | none => none

/-- The checks are made, and APPLY ends, once word 255 has been read (R133). -/
def State.makeChecks (s : State) : State :=
  match s.checksWait with
  | some tag => s.checkProfile tag
  | none => s

/-- A profile word's read was answered ERROR (R133). -/
def State.profileWordLost (s : State) (index : Nat) : State :=
  match s.cmd.running with
  | some (.apply tag) => s.endApply tag .memoryError (BitVec.ofNat 16 index)
  | some (.startFresh _) => s
  | none => s

/-! ## The read-pointer word and the quiet-extend word (R154, R158, R166) -/

/-- READ_POINTER_INVALID (R154). -/
def readPointerInvalid (p : Port) (u : ReportUnit) (v : Word) : Content :=
  { kind := .readPointerInvalid, source := portSource p, count := u.writeSeq - u.readSeq, detail := wordOf u.writeSeq,
    data := v }

/-- A performed write of the read-pointer word by port `p` (R154, R164). -/
def State.takeReadPointer (s : State) (p : Port) (v : Word) : State :=
  if s.seq.tracking = .halted then s
  else if s.rep.readSeq ≤ v.toNat ∧ v.toNat ≤ s.rep.writeSeq then
    ({ s with rep := { s.rep with readSeq := v.toNat } }).updateLatch
  else s.produce (readPointerInvalid p s.rep v)

/-- A performed write of the quiet-extend word (R158, R164). -/
def State.takeQuietExtend (s : State) (v : Word) : State :=
  if s.seq.tracking = .halted ∨ s.rep.quiet = 0 then s
  else { s with rep := { s.rep with quiet := min v.toNat Config.maxHalf } }

/-! ## Watched words (R86, R166) -/

/-- A performed write of a word of the profile block is handed to the unit that watches it (R86). -/
def State.handOver (s : State) (p : Port) (address : Nat) (v : Word) : State :=
  if address = s.blockWord 0 then s.takeCommand v
  else if address = s.blockWord 2 then s.takeReadPointer p v
  else if address = s.blockWord 3 then s.takeQuietExtend v
  else s

/-- The rows of the table that a write of the profile block can be. -/
inductive ProfileRow where
  | plain | readPointer | quietExtend
  | none | apply | startFresh | startCarry | stop | recover | quiet | unknown
deriving DecidableEq, Repr

/-- The row of a command word (11.2; log entry 16). -/
def commandRow (v : Word) : ProfileRow :=
  match commandOf (commandCode v) with
  | some .apply => .apply
  | some .start => if (commandParameter v).toNat = paramCarry then .startCarry else .startFresh
  | some .stop => .stop
  | some .recover => .recover
  | some .quiet => .quiet
  | Option.none => if commandCode v = 0 then .none else .unknown

/-- The row of a PROFILE entry, by the value its write would leave in memory (R86, R129). -/
def State.profileRow (s : State) (address : Nat) (data : Word) (enables : Enables) : ProfileRow :=
  if address = s.blockWord 0 then commandRow (mergeBytes enables (s.mem.readWord address) data)
  else if address = s.blockWord 2 then .readPointer
  else if address = s.blockWord 3 then .quietExtend
  else .plain

end Sys2Proof.Machine
end

