-- ==== Sys2Proof/Machine/Finish.lean ====
section
/-! DEFINITION. The end of a hold: the accesses of each unit of work and what comes of their answers (R88 to R91), and how a
command covers the phases of its unit. -/

namespace Sys2Proof.Machine

/-! ## The part's own units of work -/

/-- The four words of an initialised record (R8). -/
def initWords (frame : Nat) : List Word := [recordWord0 stFormed 0 0 0 (generationOf frame), 0, 0, 0]

/-- The four writes of a card initialisation, in ascending order of word (R8; log entry 13). -/
def initWrites (p : Profile) (frame card : Nat) : List (Nat × Word) :=
  recordWords.map fun w => (ringAddress p frame card w, (initWords frame).getD w.val 0)

/-- A unit of the part's own work: memory as its accesses leave it, and then a MEMORY fault of requester `r` when one was
answered ERROR, otherwise `ok` (R91). -/
def State.ownUnit (s : State) (r : Requester) (b : Bus) (ok : State → State) : State :=
  let s1 := { s with mem := b.mem }
  match b.failed with
  | some a => s1.fault (memorySignal r a) []
  | none => ok s1

/-- A card initialisation by the Ring Sequencer (R102, R144). -/
def State.finishInit (s : State) (p : Profile) (frame card : Nat) (error : Option Nat) : State :=
  s.ownUnit .sequencer ((Bus.start s.mem error).writes (initWrites p frame card)) fun t => t.addToInitSet frame card

/-- One read of word 0, then one write of it when `change` gives a new value (R88, "card check"). -/
def checkAccesses (b : Bus) (a : Nat) (change : Word → Option Word) : Word × Bus :=
  let r := b.read a
  match change r.1 with
  | some v => (r.1, r.2.write a v)
  | none => r

/-- What a departure check writes (R106). -/
def departureChange (x : SlotSettings) (slot : Fin 8) (read : Word) : Option Word :=
  if meetsExit x slot read then none else some (rejectedWord0 read x.missCause)

/-- A card check of a departure (R106). -/
def State.finishCheck (s : State) (p : Profile) (slot : Fin 8) (frame card : Nat) (error : Option Nat) : State :=
  let x := p.slots.get slot
  let a := checkAccesses (Bus.start s.mem error) (ringAddress p frame card 0) (departureChange x slot)
  s.ownUnit .sequencer a.2 fun t => t.cardExamined p card (departureChange x slot a.1).isSome

/-- A card's judgement (R118). -/
def State.finishJudge (s : State) (p : Profile) (frame card : Nat) (error : Option Nat) : State :=
  let a := checkAccesses (Bus.start s.mem error) (ringAddress p frame card 0) fun r => (judged p.goodState frame r).1
  s.ownUnit .sequencer a.2 fun t => t.cardJudged p frame card (judged p.goodState frame a.1).2

/-- What the marking pass writes (R144). -/
def markingChange (read : Word) : Option Word :=
  if isEndState (cardState read) then none else some (rejectedWord0 read causeTracking)

/-- The marking progress after a card (R144). -/
def State.cardMarked (s : State) : State :=
  match s.seq.marking with
  | some m => ({ s with seq := { s.seq with marking := some { m with todo := m.todo.tail } } }).progressMarking
  | none => s

/-- A card check of the marking pass (R144). -/
def State.finishMark (s : State) (p : Profile) (frame card : Nat) (error : Option Nat) : State :=
  let a := checkAccesses (Bus.start s.mem error) (ringAddress p frame card 0) markingChange
  s.ownUnit .sequencer a.2 State.cardMarked

/-- A card that the running scan has read (R115). -/
def State.cardScanned (s : State) (p : Profile) (slot : Fin 8) (frame card : Nat) (read : Word) : State :=
  match s.time.running with
  | none => s
  | some n =>
    if n.slot = slot ∧ n.frame = frame then
      let late := !meetsExit (p.slots.get slot) slot read
      let n1 : RunningScan :=
        { n with todo := n.todo.tail, late := n.late + late.toNat,
                 first := if late && n.first.isNone then some card else n.first }
      if n1.todo.isEmpty then s.finishScan p n1 else { s with time := { s.time with running := some n1 } }
    else s

/-- A read of a LATE scan; a memory ERROR ends the scan without a report (R115). -/
def State.finishScanRead (s : State) (p : Profile) (slot : Fin 8) (frame card : Nat) (error : Option Nat) : State :=
  let r := (Bus.start s.mem error).read (ringAddress p frame card 0)
  match r.2.failed with
  | some a => s.endScan.fault (memorySignal .sequencer a) []
  | none => s.cardScanned p slot frame card r.1

/-! ## The Report Unit's units of work -/

/-- The report of a record write leaves the queue, when it still stands there. -/
def ReportUnit.leave (u : ReportUnit) (w : RecordWrite) : ReportUnit :=
  { u with queue := if w.queued then u.queue.tail else u.queue, writing := none }

/-- The interrupt marks at an admission (R155). -/
def ReportUnit.mark (u : ReportUnit) (threshold : Nat) (w : RecordWrite) : ReportUnit :=
  { u with
    markA := if threshold ≤ w.report.level then some w.sequence else u.markA
    markA7 := if w.report.level = 7 then some w.sequence else u.markA7 }

/-- A record is admitted (R153, R155, R159), unless APPLY has succeeded since its grant (R156). -/
def State.recordWritten (s : State) (p : Profile) (w : RecordWrite) : State :=
  if w.superseded then { s with rep := s.rep.leave w }
  else ({ s with rep := { (s.rep.leave w).mark p.irqThreshold w with writeSeq := s.rep.writeSeq + 1 } }).updateLatch

/-- A record write that met an ERROR: the report is dropped and counted, unless it was already (R153; log entry 18). It is
counted also when APPLY has succeeded since its grant (DESIGN CHOICE, log entry 36). -/
def State.recordLost (s : State) (w : RecordWrite) : State :=
  { s with rep := if w.queued then (s.rep.leave w).drop 1 else s.rep.leave w }

/-- A record write (R153). -/
def State.finishRecord (s : State) (p : Profile) (error : Option Nat) : State :=
  match s.rep.writing with
  | none => s
  | some w =>
    let b := (Bus.start s.mem error).writes (recordWrites w)
    let s1 := { s with mem := b.mem }
    match b.failed with
    | some a => (s1.recordLost w).fault (memorySignal .report a) []
    | none => s1.recordWritten p w

/-- The due mark of a status word is cleared, unless its value has changed again since the grant (R161, R162). That the word
stays due then also when its write is answered ERROR is the model's choice (DESIGN CHOICE, log entry 37). -/
def ReportUnit.statusDone (u : ReportUnit) (index : Nat) : ReportUnit :=
  { u with due := if u.changedAgain then u.due else u.due.filter (fun n => decide (n ≠ index)), changedAgain := false }

/-- The address of status word `n` (11.3). -/
def State.statusAddress (s : State) (n : Nat) : Nat := s.blockWord (16 + n)

/-- A status write (R161, R162). -/
def State.finishStatus (s : State) (index : Nat) (value : Word) (error : Option Nat) : State :=
  let b := (Bus.start s.mem error).write (s.statusAddress index) value
  let s1 := { s with mem := b.mem, rep := s.rep.statusDone index }
  match b.failed with
  | some a => s1.fault { memorySignal .report a with ofStatusW := decide (index = statusOfW) } []
  | none => s1

/-- The write of 1 into the read-pointer word (R156). -/
def State.finishReadPointer (s : State) (error : Option Nat) : State :=
  s.ownUnit .report ((Bus.start s.mem error).write (s.blockWord 2) 1) fun t => t

/-! ## The Command Unit's units of work -/

/-- An outcome's write to the result word (R131). -/
def State.finishOutcome (s : State) (o : CommandOutcome) (error : Option Nat) : State :=
  s.ownUnit .command ((Bus.start s.mem error).write (s.blockWord 1) (resultWord o)) fun t => t

/-- A read of a profile word (R133). -/
def State.finishProfileRead (s : State) (index : Nat) (error : Option Nat) : State :=
  let r := (Bus.start s.mem error).read (s.blockWord index)
  match r.2.failed with
  | some a => (s.profileWordLost index).fault (memorySignal .command a) []
  | none => s.profileWordRead r.1

/-! ## The executors' units of work -/

/-- What a failed demand initialisation leaves of the entry or read that needed it, with the reports (R91). -/
def State.initFailed (s : State) (p : Port) (purpose : InitFor) (address : Nat) : State × List (List Content) :=
  match purpose with
  | .gone => (s, [])
  | .read => (s.answerRead p .error, [])
  | .entry =>
    match (s.port p).queue with
    | .view t data _ :: _ => (s.removeHead p, [[writeLostView p t.slot t.frame t.card 3 address data]])
    | .stream t data _ :: _ => (s.removeHead p, [[writeLostView p t.slot t.frame t.card 3 address data]])
    | .plain _ _ _ :: _ => (s, [])
    | .profile _ _ _ :: _ => (s, [])
    | [] => (s, [])

/-- A demand initialisation (R91, R103). -/
def State.finishDemandInit (s : State) (pr : Profile) (p : Port) (frame card : Nat) (purpose : InitFor)
    (error : Option Nat) : State :=
  let b := (Bus.start s.mem error).writes (initWrites pr frame card)
  let s1 := { s with mem := b.mem }
  match b.failed with
  | some a =>
    let r := s1.initFailed p purpose a
    r.1.fault (memorySignal (portRequester p) a) r.2
  | none => s1.addToInitSet frame card

/-- The accesses of a PLAIN or PROFILE write: a single access or a merge (R86), with the value the write leaves. -/
def writeAccesses (b : Bus) (address : Nat) (data : Word) (enables : Enables) : Word × Bus :=
  if enables = 0xF then (data, b.write address data)
  else
    let r := b.read address
    let v := mergeBytes enables r.1 data
    (v, r.2.write address v)

/-- A PLAIN or PROFILE write (R86, R90). -/
def State.finishWrite (s : State) (p : Port) (address : Nat) (data : Word) (enables : Enables) (isProfile : Bool)
    (error : Option Nat) : State :=
  let a := writeAccesses (Bus.start s.mem error) address data enables
  let s1 := ({ s with mem := a.2.mem }).removeHead p
  match a.2.failed with
  | some f => s1.produce (writeLostPlain p 1 f data)
  | none => if isProfile then s1.handOver p address a.1 else s1

/-- A pending PLAIN read (R84). -/
def State.finishPlainRead (s : State) (p : Port) (address : Nat) (error : Option Nat) : State :=
  let r := (Bus.start s.mem error).read address
  if r.2.failed.isSome then s.answerRead p .error else s.answerRead p (.data r.1)

/-- The word that a view read answers: memory, composed byte by byte with the staged word (R32, R74). -/
def composedWord (staged : Option StagedWord) (read : Word) : Word :=
  match staged with
  | some g => mergeBytes g.enables read g.data
  | none => read

/-- A pending VIEW read (R31, R74). -/
def State.finishViewRead (s : State) (pr : Profile) (p : Port) (t : Target) (staged : Option StagedWord)
    (error : Option Nat) : State :=
  let r := (Bus.start s.mem error).read (ringAddress pr t.frame t.card t.word)
  if r.2.failed.isSome then s.answerRead p .error else s.answerRead p (.data (composedWord staged r.1))

/-! ## Any unit of work -/

/-- The end of a unit of work that reaches records or the report ring, which exist with an active profile only. -/
def State.finishWith (s : State) (f : Profile → State) : State :=
  match s.cmd.profile with
  | some p => f p
  | none => s

/-- The accesses of a unit of work and what follows from their answers. The Memory Port is already free. -/
def State.finishWork (s : State) (w : Work) (error : Option Nat) : State :=
  match w with
  | .cardInit f c => s.finishWith fun p => s.finishInit p f c error
  | .cardCheck i f c => s.finishWith fun p => s.finishCheck p i f c error
  | .judge f c => s.finishWith fun p => s.finishJudge p f c error
  | .lateRead i f c => s.finishWith fun p => s.finishScanRead p i f c error
  | .markInit f c => s.finishWith fun p => s.finishInit p f c error
  | .markCheck f c => s.finishWith fun p => s.finishMark p f c error
  | .record => s.finishWith fun p => s.finishRecord p error
  | .status n v => s.finishStatus n v error
  | .readPointer => s.finishReadPointer error
  | .outcome o => s.finishOutcome o error
  | .profileRead n => s.finishProfileRead n error
  | .demandInit q f c purpose => s.finishWith fun p => s.finishDemandInit p q f c purpose error
  | .pass q i f c carried data => (s.removeHead q).makePass q i f c carried data error
  | .write q a data enables isProfile => s.finishWrite q a data enables isProfile error
  | .plainRead q a => s.finishPlainRead q a error
  | .viewRead q t staged => s.finishWith fun p => s.finishViewRead p q t staged error

/-- The unit of work under its hold ends (R88). -/
def State.endHold (s : State) (error : Option Nat) : State :=
  match s.arb.hold with
  | some w => s.release.finishWork w error
  | none => s

/-- The status word that the end of the unit under its hold does not make due: the word whose own write failed, and the word
of W for the admission of the FAULT report of its failed write (R162). -/
def State.sparedWord (s : State) (error : Option Nat) : Option Nat :=
  match s.arb.hold with
  | some (.status n _) => if error = some 0 then some n else none
  | some .record =>
    match s.rep.writing with
    | some w => if w.report.ofStatusW then some statusOfW else none
    | none => none
  | _ => none

/-! ## Commands over the phases of a unit of work (log entries 3 and 5) -/

/-- The outcome of a step that has done something. -/
def State.conclude (before after : State) (spare : Option Nat) : Host.Outcome State Fault Refusal :=
  .next (State.settle spare before after)

/-- The outcome of a step without accesses: nothing when it does not apply. -/
def State.concludeIf (s : State) (after : Option State) : Host.Outcome State Fault Refusal :=
  match after with
  | some t => s.conclude t none
  | none => .next s

/-- The unit of work under its hold is one of those `mine` picks. -/
def State.holdIs (s : State) (mine : Work → Bool) : Bool := (s.arb.hold.map mine).getD false

/-- A command over a unit of work. `granted` is the state after the grant, when the arbiter now grants the command's request,
with the unit under its hold or, for a unit without access, already at its end; `mine` says that the unit under its hold is
the command's. A command whose phase cannot come now changes nothing. -/
def State.runSpan (s : State) (span : Span) (granted : Option State) (mine : Work → Bool) :
    Host.Outcome State Fault Refusal :=
  match span with
  | .grant => s.concludeIf granted
  | .whole error =>
    match granted with
    | some t =>
      if t.holdIs mine then s.conclude (t.endHold error) (t.sparedWord error) else s.conclude t none
    | none => .next s
  | .finish error =>
    if s.holdIs mine then s.conclude (s.endHold error) (s.sparedWord error) else .next s

end Sys2Proof.Machine
end

