-- ==== Sys2Proof/Machine/Acceptance.lean ====
section
/-! DEFINITION. WRITE_ACCEPTANCE and READ_ACCEPTANCE (R80 to R83; R15, R25 to R27, R37 to R43). -/

namespace Sys2Proof.Machine

/-- The port answers its transfer (R80). -/
def State.answer (s : State) (p : Port) (x : Answer) : State :=
  s.setPort p { s.port p with transfer := none, answer := some x }

/-- Entries join the tail of the port queue, and the write is answered OK (R82). -/
def State.enqueue (s : State) (p : Port) (es : List Entry) : State :=
  s.setPort p { s.port p with transfer := none, queue := (s.port p).queue ++ es, answer := some .ok }

/-- The transfer is held in acceptance without an answer (R80). -/
def State.holdTransfer (s : State) (p : Port) (t : Transfer) : State :=
  s.setPort p { s.port p with transfer := some t }

/-- A transfer can be presented: it is the one that the master keeps presented, or none is (R80; log entry 11). While RESET is
held a presentation gets no response, and another may replace it (R81). -/
def State.mayPresent (s : State) (p : Port) (t : Transfer) : Bool :=
  match (s.port p).transfer with
  | some u => s.inReset || decide (u = t)
  | none => true

/-- The part takes no transfer of the port now: RESET is held or the port has a pending read (R80, R81, R83). -/
def State.portWaits (s : State) (p : Port) : Bool := s.inReset || (s.port p).pending.isSome

/-- What becomes of a write at acceptance. -/
inductive WritePlan where
  | refuse
  /-- Entries join the queue, in the state given. -/
  | queue (after : State) (entries : List Entry)
deriving DecidableEq, Repr

/-- The station of one slot replaced. -/
def State.setStation (s : State) (i : Fin 8) (st : Station) : State := { s with view := s.view.set i st }

/-- A stream write that R26 does not refuse (R37, R38, R41 to R43). -/
def State.planStream (s : State) (x : SlotSettings) (i : Fin 8) (enables : Enables) (data : Word) : WritePlan :=
  match streamWrite x i (s.view.get i) enables data with
  | .held st => .queue (s.setStation i st) []
  | .resync st report => .queue ((s.setStation i st).produce report) []
  | .data st entries => .queue (s.setStation i st) entries

/-- A view write that R26 does not refuse (R27, R37). -/
def State.planView (s : State) (x : SlotSettings) (i : Fin 8) (offset : Nat) (enables : Enables) (data : Word) :
    WritePlan :=
  if offset < 0x400 then
    .queue s [.view { slot := i, frame := (s.view.get i).currentFrame.getD 0, card := offset / 16, word := offsetWord offset }
      data enables]
  else s.planStream x i enables data

/-- A write at acceptance: classified, mapped, and refused or turned into entries (R15, R25 to R27, R82). -/
def State.planWrite (s : State) (p : Port) (a : Nat) (enables : Enables) (data : Word) : WritePlan :=
  match s.classify a with
  | .profileBlock => .queue s [.profile a data enables]
  | .view i offset =>
    if s.viewRefused p true i offset then .refuse
    else match s.settings i with
      | some x => s.planView x i offset enables data
      | none => .refuse
  | .rawRing => if s.seq.tracking.ringHeld then .refuse else .queue s [.plain a data enables]
  | .reportRing => .queue s [.plain a data enables]
  | .plain => .queue s [.plain a data enables]

/-- The port queue has room for the entries (R82); a write that makes none needs no room. -/
def State.hasRoom (s : State) (p : Port) (es : List Entry) : Bool :=
  es.isEmpty || decide ((s.port p).queue.length + es.length ≤ Config.queueSize)

/-- A write presented to a port that takes transfers now. -/
def State.acceptWrite (s : State) (p : Port) (t : Transfer) : State :=
  match s.planWrite p (wordAddress t.address) t.enables t.data with
  | .refuse => s.answer p .error
  | .queue after es => if s.hasRoom p es then after.enqueue p es else s.holdTransfer p t

/-- WRITE_ACCEPTANCE (R80 to R82). -/
def execWriteAcceptance (p : Port) (address : Addr) (enables : Enables) (data : Word) (s : State) :
    Host.Outcome State Fault Refusal :=
  let t : Transfer := { isWrite := true, address := address, enables := enables, data := data }
  if !s.mayPresent p t then .next s
  else if s.portWaits p then s.conclude (s.holdTransfer p t) none
  else s.conclude (s.acceptWrite p t) none

/-- The pending read of a transfer, none when it is refused (R14, R26, R30, R83). -/
def State.planRead (s : State) (p : Port) (a : Nat) : Option PendingRead :=
  match s.classify a with
  | .profileBlock => some (.plain a)
  | .view i offset =>
    if s.viewRefused p false i offset then none
    else some (.view { slot := i, frame := (s.view.get i).currentFrame.getD 0, card := offset / 16,
                       word := offsetWord offset })
  | .rawRing => some (.plain a)
  | .reportRing => some (.plain a)
  | .plain => some (.plain a)

/-- A read becomes the port's pending read (R83). -/
def State.setPending (s : State) (p : Port) (r : PendingRead) : State :=
  s.setPort p { s.port p with transfer := none, pending := some r }

/-- A read presented to a port that takes transfers now. -/
def State.acceptRead (s : State) (p : Port) (t : Transfer) : State :=
  match s.planRead p (wordAddress t.address) with
  | some r => s.setPending p r
  | none => s.answer p .error

/-- READ_ACCEPTANCE (R80, R81, R83). -/
def execReadAcceptance (p : Port) (address : Addr) (enables : Enables) (s : State) : Host.Outcome State Fault Refusal :=
  let t : Transfer := { isWrite := false, address := address, enables := enables, data := 0 }
  if !s.mayPresent p t then .next s
  else if s.portWaits p then s.conclude (s.holdTransfer p t) none
  else s.conclude (s.acceptRead p t) none

end Sys2Proof.Machine
end

