-- ==== Sys2Proof/Machine/Advancing.lean ====
section
/-! DEFINITION. The Ring Sequencer's commands: initialisation, the end of a drain wait, card checks, judgement, the marking
pass, and the reads of LATE scans (R102, R105, R106, R115, R118, R144). -/

namespace Sys2Proof.Machine

/-- The grant of the Ring Sequencer's requester for work of its own or for a scan read. Every grant counts for the
alternation of R115, also one made while only one of the two was ready (DESIGN CHOICE, log entry 34). -/
def State.grantSequencer (s : State) (scan : Bool) : State :=
  let s1 := s.grantTo .sequencer
  { s1 with seq := { s1.seq with lastWasScan := scan } }

/-- The unit of work of a grant, or none: the hold then ends with no access. -/
def State.holdsSome (s : State) (w : Option Work) : State :=
  match w with
  | some u => s.holds u
  | none => s

/-- The Ring Sequencer's grant for a request of its own, with the unit of work chosen at the grant (R102). -/
def State.sequencerGranted (s : State) (q : Request) (w : Option Work) : Option State :=
  if s.canGrant .sequencer q then some ((s.grantSequencer false).holdsSome w) else none

/-! ## Initialisation (R102) -/

/-- The unit is a card initialisation of an advance. -/
def isCardInit (w : Work) : Bool :=
  match w with
  | .cardInit _ _ => true
  | _ => false

/-- The card chosen at the grant: the lowest used card not in the init set (R102). -/
def State.cardInitWork (s : State) : Option Work := s.nextInit.map fun n => .cardInit n.1 n.2

/-- CARD_INITIALISATION (R102). -/
def execCardInitialisation (span : Span) (s : State) : Host.Outcome State Fault Refusal :=
  s.runSpan span (s.sequencerGranted .cardInit s.cardInitWork) isCardInit

/-! ## Drain wait (R105) -/

/-- The draining pair of a departure list. -/
def drainingPair (ds : List Departure) : Option Departure := ds.find? fun d => decide (d.status = .draining)

/-- The entry is mapped to the slot and frame of the pair (R105). -/
def Entry.mappedTo (e : Entry) (slot : Fin 8) (frame : Nat) : Bool :=
  match e with
  | .view t _ _ => decide (t.slot = slot) && decide (t.frame = frame)
  | .stream t _ _ => decide (t.slot = slot) && decide (t.frame = frame)
  | .plain _ _ _ => false
  | .profile _ _ _ => false

/-- Neither port queue holds an entry of the pair (R105). -/
def State.drained (s : State) (d : Departure) : Bool :=
  !((s.portA.queue ++ s.portB.queue).any fun e => e.mappedTo d.slot d.frame)

/-- The drain wait of a pair ends: its card check begins, or it is done with exit condition NONE (R105). -/
def State.endDrain (s : State) (p : Profile) (v : Advance) (d : Departure) : State :=
  let x := p.slots.get d.slot
  match x.exit with
  | .none => s.nextPair p { v with departures := pairDone .draining v.departures }
  | _ =>
    { s with seq := { s.seq with
        advance := some { v with
          departures := pairChecking v.departures
          check := some { todo := windowCards p x, written := 0, first := none } } } }

/-- The state after the end of the drain wait, when a pair drains and nothing of it is queued (R105). -/
def State.drainEnded (s : State) : Option State :=
  match s.cmd.profile, s.seq.advance with
  | some p, some v =>
    if v.stage = .checking then
      match drainingPair v.departures with
      | some d => if s.drained d then some (s.endDrain p v d) else none
      | none => none
    else none
  | _, _ => none

/-- DRAIN_WAIT_END (R105). -/
def execDrainWaitEnd (s : State) : Host.Outcome State Fault Refusal :=
  s.concludeIf (if s.inReset then none else s.drainEnded)

/-! ## Card check (R106) -/

/-- The unit is a card check of a departure. -/
def isCardCheck (w : Work) : Bool :=
  match w with
  | .cardCheck _ _ _ => true
  | _ => false

/-- The next card of the pair being checked (R106). -/
def State.cardCheckWork (s : State) : Option Work :=
  match s.seq.advance with
  | none => none
  | some v =>
    match checkingPair v.departures, v.check with
    | some d, some c => c.todo.head?.map fun card => .cardCheck d.slot d.frame card
    | _, _ => none

/-- CARD_CHECK (R106). -/
def execCardCheck (span : Span) (s : State) : Host.Outcome State Fault Refusal :=
  s.runSpan span (s.sequencerGranted .cardCheck s.cardCheckWork) isCardCheck

/-! ## Judgement (R118) -/

/-- The unit is judgement of a card. -/
def isJudge (w : Work) : Bool :=
  match w with
  | .judge _ _ => true
  | _ => false

/-- The next card to judge (R117). -/
def State.judgeWork (s : State) : Option Work :=
  match s.seq.advance with
  | none => none
  | some v =>
    match v.judgeFrame, v.judge with
    | some f, some j => j.todo.head?.map fun card => .judge f card
    | _, _ => none

/-- JUDGEMENT (R118). -/
def execJudgement (span : Span) (s : State) : Host.Outcome State Fault Refusal :=
  s.runSpan span (s.sequencerGranted .judge s.judgeWork) isJudge

/-! ## Marking (R144) -/

/-- The unit is a card initialisation of the marking pass. -/
def isMarkInit (w : Work) : Bool :=
  match w with
  | .markInit _ _ => true
  | _ => false

/-- The card chosen at the grant in the first phase (R144). -/
def State.markInitWork (s : State) : Option Work := s.nextInit.map fun n => .markInit n.1 n.2

/-- MARKING_INITIALISATION (R144). -/
def execMarkingInitialisation (span : Span) (s : State) : Host.Outcome State Fault Refusal :=
  s.runSpan span (s.sequencerGranted .markInit s.markInitWork) isMarkInit

/-- The unit is a card check of the marking pass. -/
def isMarkCheck (w : Work) : Bool :=
  match w with
  | .markCheck _ _ => true
  | _ => false

/-- The next card of the marking set (R144). -/
def State.markCheckWork (s : State) : Option Work :=
  match s.seq.marking with
  | none => none
  | some m => m.todo.head?.map fun n => .markCheck n.1 n.2

/-- MARKING_CARD_CHECK (R144). -/
def execMarkingCardCheck (span : Span) (s : State) : Host.Outcome State Fault Refusal :=
  s.runSpan span (s.sequencerGranted .markCheck s.markCheckWork) isMarkCheck

/-! ## LATE scan (R115) -/

/-- The unit is a scan read. -/
def isLateRead (w : Work) : Bool :=
  match w with
  | .lateRead _ _ _ => true
  | _ => false

/-- The read of the running scan (R115). -/
def State.lateReadWork (s : State) : Option Work :=
  match s.time.running with
  | none => none
  | some n => n.todo.head?.map fun card => .lateRead n.slot n.frame card

/-- A scan read is under its hold. -/
def State.scanReads (s : State) : Bool := s.holdIs isLateRead

/-- A scan read at its grant; a scan whose frame is gone ends without a report and without a grant (R115; log entry 22). -/
def State.lateGranted (s : State) : Option State :=
  match s.time.running with
  | none => if s.canGrant .sequencer .lateScan then some (s.grantSequencer true) else none
  | some n =>
    if s.inReset || s.scanReads then none
    else if !s.resident n.frame then some s.withdrawScan.endScan
    else if s.canGrant .sequencer .lateScan then some ((s.grantSequencer true).holdsSome s.lateReadWork)
    else none

/-- LATE_SCAN_READ (R115). -/
def execLateScanRead (span : Span) (s : State) : Host.Outcome State Fault Refusal :=
  s.runSpan span s.lateGranted isLateRead

end Sys2Proof.Machine
end

