-- ==== Sys2Proof/Machine/Performance.lean ====
section
/-! DEFINITION. The executors' commands: entries, demand initialisation, plain and profile writes, pending reads (R65, R84 to
R86, R29 to R32, R103). -/

namespace Sys2Proof.Machine

/-! ## Whose unit of work is under its hold -/

/-- The unit is a pass of port `p`. -/
def isPass (p : Port) (w : Work) : Bool :=
  match w with
  | .pass q _ _ _ _ _ => decide (q = p)
  | _ => false

/-- The unit is a demand initialisation of port `p`. -/
def isDemandInit (p : Port) (w : Work) : Bool :=
  match w with
  | .demandInit q _ _ _ => decide (q = p)
  | _ => false

/-- The unit is the write of a PLAIN entry of port `p`. -/
def isPlainWrite (p : Port) (w : Work) : Bool :=
  match w with
  | .write q _ _ _ isProfile => decide (q = p) && !isProfile
  | _ => false

/-- The unit is the write of a PROFILE entry of port `p` of a given row. -/
def State.isProfileWrite (s : State) (p : Port) (row : ProfileRow) (w : Work) : Bool :=
  match w with
  | .write q a data enables isProfile => decide (q = p) && isProfile && decide (s.profileRow a data enables = row)
  | _ => false

/-- The unit is the pending PLAIN read of port `p`. -/
def isPlainRead (p : Port) (w : Work) : Bool :=
  match w with
  | .plainRead q _ => decide (q = p)
  | _ => false

/-- The unit is the pending VIEW read of port `p`. -/
def isViewRead (p : Port) (w : Work) : Bool :=
  match w with
  | .viewRead q _ _ => decide (q = p)
  | _ => false

/-! ## VIEW and STREAM entries (R40, R65) -/

/-- The decision for an entry that has its grant, and a pass goes on under the hold (R65). -/
def State.decideGranted (s : State) (p : Port) (isStream : Bool) (t : Target) (data : Word) (enables : Enables) : State :=
  match s.settings t.slot with
  | none => s.removeHead p
  | some x =>
    let r := s.decideEntry p x isStream t { data := data, enables := enables }
    match r.2 with
    | .noAccess => r.1.removeHead p
    | .pass carried => r.1.holds (.pass p t.slot t.frame t.card carried data)

/-- An entry at its grant: the Group Unit decides (R65). -/
def State.grantEntry (s : State) (p : Port) (isStream : Bool) (t : Target) (data : Word) (enables : Enables) : State :=
  (s.grantTo (portRequester p)).decideGranted p isStream t data enables

/-- The grant of the VIEW entry at the head of a queue. -/
def State.viewGranted (s : State) (p : Port) : Option State :=
  match (s.port p).queue with
  | .view t data enables :: _ =>
    if s.canGrant (portRequester p) .own then some (s.grantEntry p false t data enables) else none
  | _ => none

/-- VIEW_ENTRY_PERFORMANCE (R65). -/
def execViewEntryPerformance (p : Port) (span : Span) (s : State) : Host.Outcome State Fault Refusal :=
  s.runSpan span (s.viewGranted p) (isPass p)

/-- The grant of the STREAM entry at the head of a queue. -/
def State.streamGranted (s : State) (p : Port) : Option State :=
  match (s.port p).queue with
  | .stream t data enables :: _ =>
    if s.canGrant (portRequester p) .own then some (s.grantEntry p true t data enables) else none
  | _ => none

/-- STREAM_ENTRY_PERFORMANCE (R40). -/
def execStreamEntryPerformance (p : Port) (span : Span) (s : State) : Host.Outcome State Fault Refusal :=
  s.runSpan span (s.streamGranted p) (isPass p)

/-! ## Entries without a hold (R85 step 2) -/

/-- The head entry is removed as performed without a hold; a PLAIN one ends with WRITE_LOST when it falls in the held ring
(R16, R85). None when the head entry needs an access. -/
def State.withoutHold (s : State) (p : Port) : Option State :=
  match (s.port p).queue with
  | .view t _ _ :: _ => if s.withoutEffect t && !s.needsInit t.frame t.card then some (s.removeHead p) else none
  | .stream t _ _ :: _ => if s.withoutEffect t && !s.needsInit t.frame t.card then some (s.removeHead p) else none
  | .profile _ _ enables :: _ => if enables = 0 then some (s.removeHead p) else none
  | .plain a data enables :: _ =>
    if enables = 0 then
      some (if s.inRawRing a && s.seq.tracking.ringHeld then (s.removeHead p).produce (writeLostPlain p 2 a data)
            else s.removeHead p)
    else none
  | [] => none

/-- The executor of port `p` neither waits at the arbiter nor has the Memory Port. -/
def State.executorIdle (s : State) (p : Port) : Bool :=
  (s.arb.desk (portRequester p)).request.isNone && decide (s.holder ≠ some (portRequester p))

/-- ENTRY_WITHOUT_HOLD (R85 step 2). -/
def execEntryWithoutHold (p : Port) (s : State) : Host.Outcome State Fault Refusal :=
  s.concludeIf (if !s.inReset && s.executorIdle p then s.withoutHold p else none)

/-! ## Demand initialisation (R103) -/

/-- The card that the executor's next work reaches, and whether for an entry or a read. -/
def State.demandTarget (s : State) (p : Port) : Option (Target × InitFor) :=
  match (s.port p).queue with
  | .view t _ _ :: _ => some (t, .entry)
  | .stream t _ _ :: _ => some (t, .entry)
  | .plain _ _ _ :: _ => none
  | .profile _ _ _ :: _ => none
  | [] =>
    match (s.port p).pending with
    | some (.view t) => some (t, .read)
    | some (.plain _) => none
    | none => none

/-- A demand initialisation at its grant: the need is judged again, and without it the hold ends with no access (R103). -/
def State.demandGranted (s : State) (p : Port) : Option State :=
  if s.canGrant (portRequester p) .demandInit then
    match s.demandTarget p with
    | some (t, purpose) =>
      if s.needsInit t.frame t.card then
        some ((s.grantTo (portRequester p)).holds (.demandInit p t.frame t.card purpose))
      else some (s.grantTo (portRequester p))
    | none => some (s.grantTo (portRequester p))
  else none

/-- DEMAND_INITIALISATION (R103). -/
def execDemandInitialisation (p : Port) (span : Span) (s : State) : Host.Outcome State Fault Refusal :=
  s.runSpan span (s.demandGranted p) (isDemandInit p)

/-! ## PLAIN and PROFILE writes (R86) -/

/-- A PLAIN write at its grant: WRITE_LOST without an access when it falls in the held ring (R16, R86). -/
def State.plainWriteGranted (s : State) (p : Port) : Option State :=
  match (s.port p).queue with
  | .plain a data enables :: _ =>
    if s.canGrant (portRequester p) .own then
      if s.inRawRing a && s.seq.tracking.ringHeld then
        some (((s.grantTo (portRequester p)).removeHead p).produce (writeLostPlain p 2 a data))
      else some ((s.grantTo (portRequester p)).holds (.write p a data enables false))
    else none
  | _ => none

/-- PLAIN_WRITE (R86). -/
def execPlainWrite (p : Port) (span : Span) (s : State) : Host.Outcome State Fault Refusal :=
  s.runSpan span (s.plainWriteGranted p) (isPlainWrite p)

/-- The grant of a PROFILE entry whose write is the given row of the table. -/
def State.profileGranted (s : State) (p : Port) (row : ProfileRow) : Option State :=
  match (s.port p).queue with
  | .profile a data enables :: _ =>
    if s.canGrant (portRequester p) .own && decide (s.profileRow a data enables = row) then
      some ((s.grantTo (portRequester p)).holds (.write p a data enables true))
    else none
  | _ => none

/-- A write of the profile block over its phases (R86). -/
def State.runProfile (s : State) (p : Port) (span : Span) (row : ProfileRow) : Host.Outcome State Fault Refusal :=
  s.runSpan span (s.profileGranted p row) (s.isProfileWrite p row)

/-- PROFILE_WRITE (R86). -/
def execProfileWrite (p : Port) (span : Span) (s : State) : Host.Outcome State Fault Refusal := s.runProfile p span .plain

/-! ## Pending reads (R31, R32, R84) -/

/-- The grant of a pending PLAIN read, once the queue is empty (R83, R84). -/
def State.plainReadGranted (s : State) (p : Port) : Option State :=
  match (s.port p).queue, (s.port p).pending with
  | [], some (.plain a) =>
    if s.canGrant (portRequester p) .own then some ((s.grantTo (portRequester p)).holds (.plainRead p a)) else none
  | _, _ => none

/-- PENDING_PLAIN_READ (R84). -/
def execPendingPlainRead (p : Port) (span : Span) (s : State) : Host.Outcome State Fault Refusal :=
  s.runSpan span (s.plainReadGranted p) (isPlainRead p)

/-- The staged word that a view read of port `p` is to return: the card's claim is of a slot of that port and holds the word
(R32). -/
def State.stagedFor (s : State) (p : Port) (t : Target) : Option StagedWord :=
  match s.claimOn t.frame t.card with
  | some c => if c.port = p then c.staged.get t.word else none
  | none => none

/-- A pending view read whose frame is gone is answered ERROR without a hold (R31 step 1; log entry 25). -/
def State.viewReadGone (s : State) (p : Port) : State :=
  (s.withdraw (portRequester p)).answerRead p .error

/-- The performance of a pending view read up to its grant, once the queue is empty (R31). -/
def State.viewReadGranted (s : State) (p : Port) : Option State :=
  match (s.port p).queue, (s.port p).pending with
  | [], some (.view t) =>
    if s.inReset || decide (s.holder = some (portRequester p)) then none
    else if !s.resident t.frame then some (s.viewReadGone p)
    else if s.canGrant (portRequester p) .own then
      some ((s.grantTo (portRequester p)).holds (.viewRead p t (s.stagedFor p t)))
    else none
  | _, _ => none

/-- PENDING_VIEW_READ (R31). -/
def execPendingViewRead (p : Port) (span : Span) (s : State) : Host.Outcome State Fault Refusal :=
  s.runSpan span (s.viewReadGranted p) (isViewRead p)

end Sys2Proof.Machine
end

