-- ==== Sys2Proof/Machine/Arrivals.lean ====
section
/-! DEFINITION. The arrivals of input lines: INDEX, ROWSTEP, ABORTA, ABORTB, RESET and its release; and the events of the Time
Base (R97, R124, R92, R146, R165, R113, R111). -/

namespace Sys2Proof.Machine

/-! ## INDEX (R97) -/

/-- INDEX_IGNORED (R97). -/
def indexIgnored (s : State) : Content :=
  { kind := .indexIgnored, source := .sequencer, detail := wordOf (trackingCode s.seq.tracking), data := wordOf s.seq.head }

/-- An INDEX arrival in ADVANCING: it waits, or overruns (R97). -/
def State.indexWaits (s : State) : State :=
  if s.seq.pendingIndex = 0 then { s with seq := { s.seq with pendingIndex := 1 } } else s.fault overrunSignal []

/-- The table of R97. -/
def State.takeIndex (s : State) : State :=
  match s.seq.tracking with
  | .running => s.acceptAdvance
  | .advancing => s.indexWaits
  | .unconfigured => s.produce (indexIgnored s)
  | .idle => s.produce (indexIgnored s)
  | .marking => s.produce (indexIgnored s)
  | .lost => s.produce (indexIgnored s)
  | .halted => s.produce (indexIgnored s)

/-- INDEX_ARRIVAL (R97). -/
def execIndexArrival (s : State) : Host.Outcome State Fault Refusal :=
  s.concludeIf (if s.inReset then none else some s.takeIndex)

/-! ## ROWSTEP (R124) -/

/-- ROWSTEP_EXTRA (R124): detail 1 NO_FRAME, 2 EXHAUSTED. -/
def rowstepExtra (s : State) : Content :=
  { kind := .rowstepExtra, source := .discharge, frame := s.disch.loaded.getD 0,
    row := if s.disch.loaded.isSome then s.disch.rowCount + 1 else 0, count := 1,
    detail := if s.disch.loaded.isSome then 2 else 1, data := wordOf (trackingCode s.seq.tracking) }

/-- The table of R124. -/
def State.takeRowstep (s : State) : State :=
  if s.disch.rowsLeft then { s with disch := { s.disch with pointer := s.disch.pointer + 1 } }
  else s.produce (rowstepExtra s)

/-- ROWSTEP_ARRIVAL (R124). -/
def execRowstepArrival (s : State) : Host.Outcome State Fault Refusal :=
  s.concludeIf (if s.inReset then none else some s.takeRowstep)

/-! ## ABORTA and ABORTB (R92; R47, R77, R94) -/

/-- A port at its abort: transfer, pending read and entries not begun are gone; a begun entry and a read under its hold
complete (R92, R33). -/
def State.abortedPort (s : State) (p : Port) : PortState :=
  let x := s.port p
  { x with transfer := none, queue := begunPart (s.begun p) x.queue, pending := if s.reading p then x.pending else none }

/-- The ABANDONED report of an abort (R94). -/
def State.abortReport (s : State) (p : Port) : List Content :=
  let gone := notBegun (s.begun p) (s.port p).queue
  abandoned p gone.length (gone.filter fun e => !e.isView).length 1

/-- The reports of the View Unit at an abort, with no active profile none (R47). -/
def State.abortStream (s : State) (p : Port) : List (List Content) :=
  match s.cmd.profile with
  | some pr => s.abortStreamReports pr p
  | none => []

/-- The View Unit at an abort (R47). -/
def State.abortCursors (s : State) (p : Port) : State :=
  match s.cmd.profile with
  | some pr => s.abortViews pr p
  | none => s

/-- Every block at the abort of a port (R92). -/
def State.takeAbort (s : State) (p : Port) : State :=
  let reports := s.abortReport p :: s.tearReports tornAborted (fun c => decide (c.port = p)) :: s.abortStream p
  let s1 := (s.abandonWork p).setPort p (s.abortedPort p)
  ((s1.tear fun c => decide (c.port = p)).abortCursors p).produceAll reports

/-- An abort that arrives between the grant of an entry and its decision: the entry is begun, so the abort leaves it, and its
decision meets the claim table after the tears (R77). The status words that the abort changed are due from then on, also when
the decision brings a value back: a group torn and opened again are two changes of the claims in use (R64, R161). -/
def State.abortAtDecision (s : State) (p : Port) (isStream : Bool) (t : Target) (data : Word) (enables : Enables) : State :=
  let begun := (s.grantTo (portRequester p)).holds (.pass p t.slot t.frame t.card Staged.empty data)
  let torn := (begun.takeAbort p).release
  (torn.refreshDue none s).decideGranted p isStream t data enables

/-- An abort with the decision of the port's entry after its tears, when the arbiter now grants a VIEW or STREAM entry (R77). -/
def State.abortDeciding (s : State) (p : Port) : Option State :=
  if s.canGrant (portRequester p) .own then
    match (s.port p).queue with
    | .view t data enables :: _ => some (s.abortAtDecision p false t data enables)
    | .stream t data enables :: _ => some (s.abortAtDecision p true t data enables)
    | _ => none
  else none

/-- ABORT_ARRIVAL (R92), with `deciding` between the grant of the port's entry and its decision (R77; log entry 33). -/
def execAbortArrival (p : Abort) (s : State) : Host.Outcome State Fault Refusal :=
  s.concludeIf (if s.inReset then none else if p.deciding then s.abortDeciding p.port else some (s.takeAbort p.port))

/-! ## The Time Base (R111, R113) -/

/-- The deadline of a slot expires when the counter has reached its expiry time: it is disarmed and its scan placed (R113,
R114). -/
def State.expire (s : State) (i : Fin 8) : State :=
  match s.time.deadlines.get i with
  | .armed f e =>
    if e = s.time.counter then
      ({ s with time := { s.time with
          deadlines := s.time.deadlines.set i .disarmed
          scans := placeScan { slot := i, frame := f, expiry := e } s.time.scans } }).startScan
    else s
  | .disarmed => s

/-- DEADLINE_EXPIRY (R113). -/
def execDeadlineExpiry (slot : Fin 8) (s : State) : Host.Outcome State Fault Refusal :=
  s.concludeIf (if s.inReset then none else some (s.expire slot))

/-- The counter adds 1 (R111); deadlines that are due and have not expired expire before, in ascending slot number (log entry
10). -/
def State.tick (s : State) : State :=
  let s1 := slotNumbers.foldl State.expire s
  { s1 with time := { s1.time with counter := s1.time.counter + 1, cycles := 0 } }

/-- MICROSECOND_COUNTER_TICK (R111). -/
def execMicrosecondCounterTick (s : State) : Host.Outcome State Fault Refusal :=
  s.concludeIf (if s.inReset then none else some s.tick)

/-- One cycle of the part's clock: a tick at the divider's number of cycles (R111; log entry 9). -/
def State.clock (s : State) : State :=
  if s.inReset then s
  else if s.time.cycles + 1 < s.time.divider then
    { s with time := { s.time with cycles := s.time.cycles + 1 } }
  else State.settle none s s.tick

/-! ## RESET (R89, R95, R146, R163, R165) -/

/-- Memory after the first `completed` accesses of the unit of work under its hold (R89). -/
def State.cutMemory (s : State) (completed : Nat) : Memory := (s.endHold (some completed)).mem

/-- DEVICE_RESET (R146): RESET is asserted. -/
def execDeviceReset (completed : Nat) (s : State) : Host.Outcome State Fault Refusal :=
  .next (if s.inReset then s else s.afterReset (s.cutMemory completed))

/-- A port at the release of RESET: what was presented under RESET has no response, and the transfer then presented is taken as
a new one (R81). -/
def PortState.released (x : PortState) : PortState := { x with transfer := none }

/-- RESET_RELEASE (R81, R165): PSEL is sampled. -/
def execResetRelease (straps : BitVec 4) (s : State) : Host.Outcome State Fault Refusal :=
  .next (if s.inReset then
      { s with inReset := false, psel := straps, portA := s.portA.released, portB := s.portB.released }
    else s)

end Sys2Proof.Machine
end

