-- ==== Sys2Proof/Machine/Commands.lean ====
section
/-! DEFINITION. The commands of software: writes of the command word, the read-pointer word and the quiet-extend word, the
profile reads of APPLY and the writes of the result word (chapter 9, R154, R158). -/

namespace Sys2Proof.Machine

/-- APPLY (R133): a command word with code 1 is written and decided. -/
def execApply (p : Port) (span : Span) (s : State) : Host.Outcome State Fault Refusal := s.runProfile p span .apply

/-- START_FRESH (R137). -/
def execStartFresh (p : Port) (span : Span) (s : State) : Host.Outcome State Fault Refusal := s.runProfile p span .startFresh

/-- START_CARRY (R138). -/
def execStartCarry (p : Port) (span : Span) (s : State) : Host.Outcome State Fault Refusal := s.runProfile p span .startCarry

/-- STOP (R139). -/
def execStop (p : Port) (span : Span) (s : State) : Host.Outcome State Fault Refusal := s.runProfile p span .stop

/-- RECOVER (R140). -/
def execRecover (p : Port) (span : Span) (s : State) : Host.Outcome State Fault Refusal := s.runProfile p span .recover

/-- QUIET (R141). -/
def execQuiet (p : Port) (span : Span) (s : State) : Host.Outcome State Fault Refusal := s.runProfile p span .quiet

/-- UNKNOWN_COMMAND (R130). -/
def execUnknownCommand (p : Port) (span : Span) (s : State) : Host.Outcome State Fault Refusal :=
  s.runProfile p span .unknown

/-- COMMAND_CODE_NONE (R129). -/
def execCommandCodeNone (p : Port) (span : Span) (s : State) : Host.Outcome State Fault Refusal := s.runProfile p span .none

/-- READ_POINTER_WRITE (R154). -/
def execReadPointerWrite (p : Port) (span : Span) (s : State) : Host.Outcome State Fault Refusal :=
  s.runProfile p span .readPointer

/-- QUIET_EXTEND_WRITE (R158). -/
def execQuietExtendWrite (p : Port) (span : Span) (s : State) : Host.Outcome State Fault Refusal :=
  s.runProfile p span .quietExtend

/-- The unit is a read of the profile block by the Command Unit. -/
def isProfileRead (w : Work) : Bool :=
  match w with
  | .profileRead _ => true
  | _ => false

/-- The unit is an outcome write. -/
def isOutcome (w : Work) : Bool :=
  match w with
  | .outcome _ => true
  | _ => false

/-- A profile read at its grant: the next word of the block (R133). Every such grant counts for the alternation of R131, also
one made while no outcome waits (DESIGN CHOICE, log entry 34). -/
def State.profileReadGranted (s : State) : Option State :=
  if s.canGrant .command .profileRead then
    let s1 := s.grantTo .command
    let s2 := { s1 with cmd := { s1.cmd with lastWasOutcome := false } }
    some (if s.cmd.readsProfile then s2.holds (.profileRead s.cmd.candidate.length) else s2)
  else none

/-- The end of a read of a profile word, or the checks on the candidate when word 255 has been read before (R133). -/
def State.profileReadEnded (s : State) (error : Option Nat) : Option State :=
  if s.holdIs isProfileRead then some (s.endHold error)
  else if s.inReset || s.checksWait.isNone then none
  else some s.makeChecks

/-- APPLY_PROFILE_READ (R133). A whole read of word 255 makes the checks in the same step. In parts, `finish` ends the read
under its hold, and after word 255 one more `finish` makes the checks, so that other units of work may be granted between the
two (R156; log entry 20). -/
def execApplyProfileRead (span : Span) (s : State) : Host.Outcome State Fault Refusal :=
  match span with
  | .grant => s.concludeIf s.profileReadGranted
  | .whole error =>
    s.concludeIf (s.profileReadGranted.map fun t => if t.holdIs isProfileRead then (t.endHold error).makeChecks else t)
  | .finish error => s.concludeIf (s.profileReadEnded error)

/-- An outcome write at its grant: the waiting BUSY first, otherwise the waiting result (R131). Every such grant counts for the
alternation of R131, also one made while no profile read is ready (DESIGN CHOICE, log entry 34). -/
def State.outcomeGranted (s : State) : Option State :=
  if s.canGrant .command .outcome then
    let s1 := s.grantTo .command
    let s2 := { s1 with cmd := { s1.cmd with lastWasOutcome := true } }
    some (match s.cmd.waitingBusy, s.cmd.waitingResult with
      | some o, _ => { s2 with cmd := { s2.cmd with waitingBusy := none } }.holds (.outcome o)
      | none, some o => { s2 with cmd := { s2.cmd with waitingResult := none } }.holds (.outcome o)
      | none, none => s2)
  else none

/-- RESULT_WORD_WRITE (R131). -/
def execResultWordWrite (span : Span) (s : State) : Host.Outcome State Fault Refusal :=
  s.runSpan span s.outcomeGranted isOutcome

end Sys2Proof.Machine
end

