-- ==== Sys2Proof/Machine/ReportWrites.lean ====
section
/-! DEFINITION. The Report Unit's commands: record writes, status writes, and the write of 1 into the read-pointer word (R153,
R156, R161). -/

namespace Sys2Proof.Machine

/-- The grant of the Report Unit for a record write or a status write (R161). Every grant counts for the alternation of R161,
also one made while only one of the two was ready (DESIGN CHOICE, log entry 34). -/
def State.grantReport (s : State) (status : Bool) : State :=
  let s1 := s.grantTo .report
  { s1 with rep := { s1.rep with lastWasStatus := status } }

/-- The unit is a record write. -/
def isRecordWrite (w : Work) : Bool :=
  match w with
  | .record => true
  | _ => false

/-- The address of record number `n` in the report ring (R150). -/
def recordAddress (p : Profile) (n : Nat) : Nat := p.reportBase + (n - 1) % p.capacity * 32

/-- The record of the head report with the number W, under its hold (R153). -/
def State.beginRecord (s : State) (p : Profile) (r : Report) : State :=
  ({ s with rep := { s.rep with
      writing := some { report := r, address := recordAddress p s.rep.writeSeq, sequence := s.rep.writeSeq
                        queued := true, superseded := false } } }).holds .record

/-- A record write at its grant: the head report, if it is still one to be written (R152, R153). -/
def State.recordGranted (s : State) : Option State :=
  if s.canGrant .report .record then
    some (match s.cmd.profile, s.rep.queue with
      | some p, r :: _ => if s.recordReady then (s.grantReport false).beginRecord p r else s.grantReport false
      | _, _ => s.grantReport false)
  else none

/-- REPORT_RECORD_WRITE (R153). -/
def execReportRecordWrite (span : Span) (s : State) : Host.Outcome State Fault Refusal :=
  s.runSpan span s.recordGranted isRecordWrite

/-- The unit is a status write. -/
def isStatusWrite (w : Work) : Bool :=
  match w with
  | .status _ _ => true
  | _ => false

/-- A status write at its grant: the word that became due first, with its value at the grant (R161). -/
def State.statusGranted (s : State) : Option State :=
  if s.canGrant .report .status then
    let s1 := s.grantReport true
    some (match s.rep.due with
      | n :: _ => { s1 with rep := { s1.rep with changedAgain := false } }.holds (.status n (s.statusValue n))
      | [] => s1)
  else none

/-- STATUS_WORD_WRITE (R161). -/
def execStatusWordWrite (span : Span) (s : State) : Host.Outcome State Fault Refusal :=
  s.runSpan span s.statusGranted isStatusWrite

/-- The unit is the write of 1 into the read-pointer word. -/
def isPointerWrite (w : Work) : Bool :=
  match w with
  | .readPointer => true
  | _ => false

/-- The write of 1 at its grant (R156). -/
def State.pointerGranted (s : State) : Option State :=
  if s.canGrant .report .readPointer then
    let s1 := s.grantTo .report
    some ({ s1 with rep := { s1.rep with readPointerDue := false } }.holds .readPointer)
  else none

/-- READ_POINTER_RESET_WRITE (R156). -/
def execReadPointerResetWrite (span : Span) (s : State) : Host.Outcome State Fault Refusal :=
  s.runSpan span s.pointerGranted isPointerWrite

end Sys2Proof.Machine
end

