-- ==== Sys2Proof/Machine/Dispatch.lean ====
section
/-! DEFINITION. Each command's meaning: one arm per row of the table. -/

namespace Sys2Proof.Machine

/-- The effect of a command on everything but the queue of waiting commands. -/
def exec (i : Instr) (s : State) : Host.Outcome State Fault Refusal :=
  match i with
  | .writeAcceptance p address enables data => Sys2Proof.Machine.execWriteAcceptance p address enables data s
  | .readAcceptance p address enables => Sys2Proof.Machine.execReadAcceptance p address enables s
  | .viewEntryPerformance p span => Sys2Proof.Machine.execViewEntryPerformance p span s
  | .streamEntryPerformance p span => Sys2Proof.Machine.execStreamEntryPerformance p span s
  | .entryWithoutHold p => Sys2Proof.Machine.execEntryWithoutHold p s
  | .demandInitialisation p span => Sys2Proof.Machine.execDemandInitialisation p span s
  | .plainWrite p span => Sys2Proof.Machine.execPlainWrite p span s
  | .profileWrite p span => Sys2Proof.Machine.execProfileWrite p span s
  | .pendingPlainRead p span => Sys2Proof.Machine.execPendingPlainRead p span s
  | .pendingViewRead p span => Sys2Proof.Machine.execPendingViewRead p span s
  | .apply p span => Sys2Proof.Machine.execApply p span s
  | .applyProfileRead span => Sys2Proof.Machine.execApplyProfileRead span s
  | .startFresh p span => Sys2Proof.Machine.execStartFresh p span s
  | .startCarry p span => Sys2Proof.Machine.execStartCarry p span s
  | .stop p span => Sys2Proof.Machine.execStop p span s
  | .recover p span => Sys2Proof.Machine.execRecover p span s
  | .quiet p span => Sys2Proof.Machine.execQuiet p span s
  | .unknownCommand p span => Sys2Proof.Machine.execUnknownCommand p span s
  | .commandCodeNone p span => Sys2Proof.Machine.execCommandCodeNone p span s
  | .resultWordWrite span => Sys2Proof.Machine.execResultWordWrite span s
  | .readPointerWrite p span => Sys2Proof.Machine.execReadPointerWrite p span s
  | .quietExtendWrite p span => Sys2Proof.Machine.execQuietExtendWrite p span s
  | .indexArrival => Sys2Proof.Machine.execIndexArrival s
  | .cardInitialisation span => Sys2Proof.Machine.execCardInitialisation span s
  | .drainWaitEnd => Sys2Proof.Machine.execDrainWaitEnd s
  | .cardCheck span => Sys2Proof.Machine.execCardCheck span s
  | .judgement span => Sys2Proof.Machine.execJudgement span s
  | .rowstepArrival => Sys2Proof.Machine.execRowstepArrival s
  | .abortArrival p => Sys2Proof.Machine.execAbortArrival p s
  | .deadlineExpiry slot => Sys2Proof.Machine.execDeadlineExpiry slot s
  | .lateScanRead span => Sys2Proof.Machine.execLateScanRead span s
  | .markingInitialisation span => Sys2Proof.Machine.execMarkingInitialisation span s
  | .markingCardCheck span => Sys2Proof.Machine.execMarkingCardCheck span s
  | .reportRecordWrite span => Sys2Proof.Machine.execReportRecordWrite span s
  | .statusWordWrite span => Sys2Proof.Machine.execStatusWordWrite span s
  | .readPointerResetWrite span => Sys2Proof.Machine.execReadPointerResetWrite span s
  | .deviceReset completed => Sys2Proof.Machine.execDeviceReset completed s
  | .resetRelease straps => Sys2Proof.Machine.execResetRelease straps s
  | .microsecondCounterTick => Sys2Proof.Machine.execMicrosecondCounterTick s

end Sys2Proof.Machine
end

