-- ==== Sys2Proof/Machine/Step.lean ====
section
/-! DEFINITION. One step of the K240: the command at the front of the queue, or one clock cycle. -/

namespace Sys2Proof.Machine

/-- A step: the command at the front is taken and run with the queue's rest; with no command waiting, one cycle of the part's
clock passes (R111; log entry 9). -/
def step (s : State) : Host.Outcome State Fault Refusal :=
  match s.pending with
  | i :: rest => exec i { s with pending := rest }
  | [] => .next s.clock

/-- The state with the command that a word spells put at the front of the queue. The table gives no row bits, so no word
spells a command. -/
def State.withFetchWord (s : State) (nbits w : Nat) : State :=
  match decodeTableWord nbits w with
  | some i => { s with pending := i :: s.pending }
  | none => s

end Sys2Proof.Machine
end

