-- ==== Sys2Proof/Safety.lean ====
section
/-! DEFINITION. What the statements speak of: the invariants of the K240 as decidable conditions on a state, and what a step
leaves alone. -/

namespace Sys2Proof.Machine

/-! ## Invariants -/

/-- Memory keeps its canonical form. -/
def State.memoryCanonical (s : State) : Prop := s.mem.wf = true

/-- The output lines stand at the levels that R125, R155 and R160 give them. -/
def State.linesFollowRules (s : State) : Prop := s.pins = s.pinLevels

/-- Each port queue holds at most 16 entries (R82). -/
def State.queuesBounded (s : State) : Prop :=
  s.portA.queue.length ≤ Config.queueSize ∧ s.portB.queue.length ≤ Config.queueSize

/-- The internal report queue holds at most 16 reports (R149). -/
def State.reportsBounded (s : State) : Prop := s.rep.queue.length ≤ Config.reportQueueSize

/-- The claims of a port. -/
def claimsOf (cs : List Claim) (p : Port) : List Claim := cs.filter fun c => decide (c.port = p)

/-- The card that a claim names (R64). -/
def Claim.card? (c : Claim) : Nat × Nat := (c.frame, c.card)

/-- At most four claims a port, and no two claims on one card of a frame (R64). -/
def State.claimsBounded (s : State) : Prop :=
  (claimsOf s.claims .a).length ≤ Config.claimsPerPort ∧ (claimsOf s.claims .b).length ≤ Config.claimsPerPort ∧
  (s.claims.map Claim.card?).Nodup

/-- There is a record being written while a record write is under its hold, with a profile active; when it is still to be
admitted it finds a free place and takes the number W (R152, R153). -/
def State.recordHasRoom (s : State) : Prop :=
  (s.rep.writing.isSome ↔ s.arb.hold = some .record) ∧ (s.rep.writing.isSome → s.cmd.profile.isSome) ∧
  ∀ w, s.rep.writing = some w → w.superseded = false →
    w.sequence = s.rep.writeSeq ∧ s.rep.writeSeq < Config.maxWord ∧ 0 < s.free

/-- Rs ≤ W ≤ 4,294,967,295, and at most C records are unread; with no active profile there are none (R151). -/
def State.sequencesOrdered (s : State) : Prop :=
  s.rep.readSeq ≤ s.rep.writeSeq ∧ s.rep.writeSeq ≤ Config.maxWord ∧
  match s.cmd.profile with
  | some p => s.rep.writeSeq ≤ s.rep.readSeq + p.capacity
  | none => s.rep.writeSeq = s.rep.readSeq

/-- The requesters before `r` in requester order (R87). -/
def requestersBefore (r : Requester) : List Requester := requesterOrder.filter fun q => decide (q.number < r.number)

/-- How many requesters before `r` have been granted since `r`'s count stood at 8: their counts lie 9 or more below. -/
def Arbiter.servedBefore (x : Arbiter) (r : Requester) : Nat :=
  ((requestersBefore r).filter fun q => decide ((x.desk q).passed + 9 ≤ (x.desk r).passed)).length

/-- The arbiter's counts: a requester that does not wait has 0, and one that has passed 8 has seen one requester before it
granted for each count beyond (R87). -/
def State.waitsBounded (s : State) : Prop :=
  ∀ r : Requester,
    ((s.arb.desk r).request = none → (s.arb.desk r).passed = 0) ∧
    (s.arb.desk r).passed ≤ Config.passLimit + s.arb.servedBefore r

/-- The tracking state agrees with the advance record, the marking progress, the pending index, the active profile and the
command in progress, and while RESET is held it is UNCONFIGURED with the Memory Port free (R98, R100, R128, R129, R133, R137,
R144, R146). -/
def State.modesAgree (s : State) : Prop :=
  (s.seq.tracking = .advancing ↔ s.seq.advance.isSome) ∧
  (s.seq.tracking = .marking ↔ s.seq.marking.isSome) ∧
  (s.seq.tracking = .unconfigured ↔ s.cmd.profile = none) ∧
  s.seq.pendingIndex ≤ 1 ∧
  (s.seq.pendingIndex = 1 → s.seq.tracking = .advancing) ∧
  (∀ tag, s.cmd.running = some (.apply tag) → s.seq.tracking = .unconfigured ∨ s.seq.tracking = .idle) ∧
  (∀ tag, s.cmd.running = some (.startFresh tag) →
    s.seq.tracking = .advancing ∧ (s.seq.advance.map Advance.kind) = some .start) ∧
  (s.inReset = true → s.seq.tracking = .unconfigured ∧ s.arb.hold = none)

/-- The counters stay in their ranges (R35, R142, R149, R157). -/
def State.countersBounded (s : State) : Prop :=
  s.seq.faultCount ≤ Config.maxHalf ∧ s.rep.quiet ≤ Config.maxHalf ∧ s.rep.dropped ≤ Config.maxWord ∧
  ∀ i : Fin 8, (s.view.get i).held ≤ 3 ∧ (s.view.get i).overflow ≤ Config.maxHalf

/-- H and the first frame stay 32-bit numbers, and the first frame is at most H (R9). -/
def State.framesOrdered (s : State) : Prop := s.seq.firstFrame ≤ s.seq.head ∧ s.seq.head ≤ Config.maxWord

/-- An exit rank lies in 1..5 (R134 check 18). -/
def ExitCondition.rankDefined : ExitCondition → Bool
  | .none => true
  | .rank r => between 1 5 r
  | .mark => true

/-- What checks 14 to 20 of R134 leave true of the settings of a slot of the profile, with the profile block at `block`; the
defined values of check 17 are those that the types of the settings have. -/
def Profile.slotChecked (p : Profile) (block : Nat) (i : Fin 8) : Prop :=
  let x := p.slots.get i
  x.offset < p.dischargeOffset ∧ x.apertureBase % 4096 = 0 ∧
  1 ≤ x.firstLane ∧ x.firstLane ≤ x.lastLane ∧ x.lastLane ≤ p.lanes ∧
  1 ≤ x.firstRow ∧ x.firstRow ≤ x.lastRow ∧ x.lastRow ≤ p.rows ∧
  x.exit.rankDefined = true ∧ (between 2 6 x.missCause.toNat || between 11 15 x.missCause.toNat) = true ∧ x.low ≤ x.high ∧
  disjoint x.apertureBase 4096 block 1024 = true ∧ disjoint x.apertureBase 4096 p.ringBase (p.depth * 1024) = true ∧
  disjoint x.apertureBase 4096 p.reportBase (p.capacity * 32) = true ∧
  ∀ j : Fin 8, j < i → (p.slots.get j).enabled = true →
    disjoint x.apertureBase 4096 (p.slots.get j).apertureBase 4096 = true

/-- What the checks of R134 leave true of a profile, with the profile block at `block`; the defined values of check 12 are those
that the types of the settings have. -/
def Profile.checked (p : Profile) (block : Nat) : Prop :=
  1 ≤ p.lanes ∧ p.lanes ≤ 8 ∧ 1 ≤ p.rows ∧ p.rows ≤ 6 ∧ 4 ≤ p.depth ∧ p.depth ≤ 256 ∧ p.ringBase % 1024 = 0 ∧
  p.ringBase + p.depth * 1024 ≤ Config.spaceSize ∧ 1 ≤ p.dischargeOffset ∧ p.dischargeOffset + 2 ≤ p.depth ∧
  (p.goodState = stSealed ∨ p.goodState = stCut) ∧ p.reportBase % 32 = 0 ∧ 16 ≤ p.capacity ∧ p.capacity ≤ 2048 ∧
  p.reportBase + p.capacity * 32 ≤ Config.spaceSize ∧ (∀ k : Fin 16, p.level (k.val + 1) ≤ 7) ∧
  p.level 1 = 7 ∧ 1 ≤ p.irqThreshold ∧ p.irqThreshold ≤ 7 ∧
  4 ≤ p.holdOn ∧ p.holdOn < p.holdOff ∧ p.holdOff ≤ p.capacity ∧ 1 ≤ p.divider ∧ p.divider ≤ 255 ∧
  disjoint block 1024 p.ringBase (p.depth * 1024) = true ∧ disjoint block 1024 p.reportBase (p.capacity * 32) = true ∧
  disjoint p.ringBase (p.depth * 1024) p.reportBase (p.capacity * 32) = true ∧
  ∀ i : Fin 8, (p.slots.get i).enabled = true → p.slotChecked block i

/-- The active profile meets the checks of R134. -/
def State.profileChecked (s : State) : Prop := ∀ p, s.cmd.profile = some p → p.checked s.blockBase

/-! ## What a command leaves alone -/

/-- Memory, the straps and the level of RESET are as before. -/
def SameMemory (s t : State) : Prop := t.mem = s.mem ∧ t.psel = s.psel ∧ t.inReset = s.inReset

/-- The blocks behind the ports are as before: views, claims, Ring Sequencer, Time Base, Discharge Unit, Command Unit. -/
def SameInner (s t : State) : Prop :=
  t.view = s.view ∧ t.claims = s.claims ∧ t.seq = s.seq ∧ t.time = s.time ∧ t.disch = s.disch ∧ t.cmd = s.cmd

/-- The registers of the Report Unit are as before: all of it but its queue, its dropped count and its due marks. -/
def SameReportRegisters (s t : State) : Prop :=
  t.rep.writeSeq = s.rep.writeSeq ∧ t.rep.readSeq = s.rep.readSeq ∧ t.rep.markA = s.rep.markA ∧
  t.rep.markA7 = s.rep.markA7 ∧ t.rep.quiet = s.rep.quiet ∧ t.rep.fillLatch = s.rep.fillLatch ∧
  t.rep.readPointerDue = s.rep.readPointerDue

/-- The blocks other than the Ring Sequencer and the Time Base are as before: views, claims, Discharge Unit, Command Unit and the
registers of the Report Unit. -/
def SameBlocks (s t : State) : Prop :=
  t.view = s.view ∧ t.claims = s.claims ∧ t.disch = s.disch ∧ t.cmd = s.cmd ∧ SameReportRegisters s t

/-- The other port. -/
def otherPort : Port → Port
  | .a => .b
  | .b => .a

/-- Everything but port `p` is as before, up to what every step ends with. -/
def SameButPort (p : Port) (s t : State) : Prop :=
  SameMemory s t ∧ t.port (otherPort p) = s.port (otherPort p) ∧ SameInner s t ∧ SameReportRegisters s t

/-- Everything but port `p` and the station of slot `i` is as before, up to what every step ends with. -/
def SameButStation (p : Port) (i : Fin 8) (s t : State) : Prop :=
  SameMemory s t ∧ t.port (otherPort p) = s.port (otherPort p) ∧ (∀ j, j ≠ i → t.view.get j = s.view.get j) ∧
  t.claims = s.claims ∧ t.seq = s.seq ∧ t.time = s.time ∧ t.disch = s.disch ∧ t.cmd = s.cmd ∧ SameReportRegisters s t

/-- The port queue of `p` has lost its head and the rest of both ports is as before. -/
def HeadGone (p : Port) (rest : List Entry) (s t : State) : Prop :=
  t.port p = { s.port p with queue := rest } ∧ t.port (otherPort p) = s.port (otherPort p)

/-- The ports are as before. -/
def SamePorts (s t : State) : Prop := t.portA = s.portA ∧ t.portB = s.portB

/-- The advance that ended has been followed by the acceptance of the index that waited, or, with H at its largest, by the
fault INDEX_OVERRUN (R99, R109). -/
def WaitingIndexTaken (s t : State) (pr : Profile) : Prop :=
  t.seq.pendingIndex = 0 ∧ t.seq.firstFrame = s.seq.firstFrame ∧
  (s.seq.head < Config.maxWord →
    SamePorts s t ∧ t.seq.head = s.seq.head + 1 ∧ t.seq.tracking = .advancing ∧ t.seq.initSet = [] ∧
    t.seq.underInit = some (s.seq.head + 1) ∧ t.rep.quiet = s.rep.quiet - 1 ∧
    (∃ w, t.seq.advance = some w ∧ w.kind = .index ∧ w.stage = .initialising ∧ w.acceptedAt = s.time.counter) ∧
    ∀ i, (pr.slots.get i).enabled = true → s.seq.firstFrame + (pr.slots.get i).offset ≤ s.seq.head + 1 →
      (t.view.get i).currentFrame = some (s.seq.head + 1 - (pr.slots.get i).offset) ∧ (t.view.get i).cursor = .step 0) ∧
  (s.seq.head = Config.maxWord →
    t.seq.head = s.seq.head ∧ (t.seq.tracking = .marking ∨ t.seq.tracking = .lost) ∧ t.seq.advance = none ∧
    t.seq.faultCause = some .indexOverrun ∧ t.seq.faultCount = min (s.seq.faultCount + 1) 65535 ∧ t.claims = [] ∧
    t.pins.rej = 0xFF)

/-- The fill latch after free has changed to `free` (R159). -/
def LatchFollows (pr : Profile) (free : Nat) (s t : State) : Prop :=
  (free ≤ pr.holdOn → t.rep.fillLatch = true) ∧
  (pr.holdOn < free → pr.holdOff ≤ free → t.rep.fillLatch = false) ∧
  (pr.holdOn < free → free < pr.holdOff → t.rep.fillLatch = s.rep.fillLatch)

/-- A command does not make status word `n` due by its step: it is the write of that word, answered ERROR, or, for the word
of W, the record write of the FAULT report of that word's failed write (R162). -/
def Spares (i : Instr) (s : State) (n : Nat) : Prop :=
  (i = .statusWordWrite (.whole (some 0)) ∧ s.rep.due.head? = some n) ∨
  (i = .statusWordWrite (.finish (some 0)) ∧ ∃ v, s.arb.hold = some (.status n v)) ∨
  (n = 6 ∧ (∃ error, i = .reportRecordWrite (.whole error)) ∧ ∃ r, s.rep.queue.head? = some r ∧ r.ofStatusW = true) ∨
  (n = 6 ∧ (∃ error, i = .reportRecordWrite (.finish error)) ∧ ∃ w, s.rep.writing = some w ∧ w.report.ofStatusW = true)

/-! ## Reports, field by field -/

/-- STAGE_TORN for a claim of the table, with a reason other than PREEMPTED (R75). -/
def tornOf (pr : Profile) (reason : Word) (c : Claim) : Content :=
  { kind := .stageTorn, source := portSource c.port, slot := some c.slot, frame := c.frame, lane := laneOf c.card
    row := rowOf c.card, count := c.staged.count, detail := reason
    data := wordOf (groupWordCount (pr.slots.get c.slot).fields) }

/-- CURSOR_RESYNC, HELD_DROPPED, for the held values of a slot (R44). -/
def heldDroppedOf (pr : Profile) (i : Fin 8) (st : Station) : Content :=
  { kind := .cursorResync, source := portSource (pr.slots.get i).port, slot := some i, frame := st.currentFrame.getD 0
    lane := (match st.cursor with | .step k => laneOf (stepCard (pr.slots.get i) k) | .exhausted => 0 | .none => 0)
    row := (match st.cursor with | .step k => rowOf (stepCard (pr.slots.get i) k) | .exhausted => 0 | .none => 0)
    count := st.held, detail := Config.heldDroppedDetail, data := (pr.slots.get i).syncValue }

/-- STREAM_OVERFLOW for the dropped values of a slot (R39). -/
def overflowOf (pr : Profile) (i : Fin 8) (st : Station) : Content :=
  { kind := .streamOverflow, source := portSource (pr.slots.get i).port, slot := some i, frame := st.currentFrame.getD 0
    lane := 0, row := 0, count := st.overflow, detail := Config.streamOverflowDetail, data := st.lastDropped }

/-- UNDISCHARGED for the rows that are left, with the event that took them (R122, R127). -/
def undischargedOf (d : Discharge) (event : Word) : List Content :=
  if d.loaded.isSome = true ∧ d.pointer ≤ d.rowCount then
    [{ kind := .undischarged, source := .discharge, frame := d.loaded.getD 0, row := d.pointer
       count := d.rowCount - d.pointer + 1, detail := event
       data := wordOf ((d.rowSets.drop (d.pointer - 1)).map fun x =>
         ((List.range 8).filter fun n => x.getLsbD n).length).sum }]
  else []

/-- What an abort of port `p` leaves, but for its queue and the claim table: the port has no transfer and no pending read, the
cursors of its slots stand at step 0 with nothing held, and all else is as before (R47, R92). -/
def AbortedPort (p : Port) (pr : Profile) (s t : State) : Prop :=
  SameMemory s t ∧ t.port (otherPort p) = s.port (otherPort p) ∧ (t.port p).transfer = none ∧ (t.port p).pending = none ∧
  (t.port p).answer = (s.port p).answer ∧
  (∀ i, (pr.slots.get i).enabled = true → (pr.slots.get i).port = p →
    t.view.get i = { s.view.get i with
      held := 0, cursor := if (s.view.get i).currentFrame.isSome then .step 0 else (s.view.get i).cursor }) ∧
  (∀ i, (pr.slots.get i).enabled = false ∨ (pr.slots.get i).port ≠ p → t.view.get i = s.view.get i) ∧
  t.seq = s.seq ∧ t.time = s.time ∧ t.disch = s.disch ∧ t.cmd = s.cmd ∧ SameReportRegisters s t

/-! ## Memory -/

/-- Memory after a list of word writes in their order. -/
def writesTo (m : Memory) (ws : List (Nat × Word)) : Memory := ws.foldl (fun m w => m.writeWord w.1 w.2) m

/-- The value that a write with enables leaves in the word at `a` (R86). -/
def leftInMemory (m : Memory) (a : Nat) (enables : Enables) (data : Word) : Word := mergeBytes enables (m.readWord a) data

/-- The words of a record that a pass reads (R49). -/
def recordRead (m : Memory) (p : Profile) (frame card : Nat) (carried : Staged) : Record :=
  (passReads (Bus.start m none) p frame card carried).1

/-- One word carried by a pass. -/
def carriedWord (w : Fin 4) (data : Word) (enables : Enables) : Staged := Staged.empty.put w { data := data, enables := enables }

/-- The outcome of a pass on memory as it stands (R52 to R59). -/
def passOn (m : Memory) (p : Profile) (slot : Fin 8) (frame card : Nat) (carried : Staged) : PassOutcome :=
  passOutcome (p.slots.get slot) slot carried (recordRead m p frame card carried)

/-- The address and the new word 0 of a card that is read, for a card that is then written. -/
def checkedCard (s : State) (a : Nat) (change : Word → Option Word) : List (Option (Nat × Word)) :=
  none :: match change (s.mem.readWord a) with
    | some w => [some (a, w)]
    | none => []

/-- The accesses of a unit of work under its hold when memory answers each of them OK, in their order: the address and the word
of a write, none for a read (R88). -/
def heldAccesses (s : State) (w : Work) : List (Option (Nat × Word)) :=
  match w, s.cmd.profile with
  | .cardInit f c, some p => (initWrites p f c).map some
  | .markInit f c, some p => (initWrites p f c).map some
  | .demandInit _ f c _, some p => (initWrites p f c).map some
  | .cardCheck i f c, some p => checkedCard s (ringAddress p f c 0) fun read =>
      if meetsExit (p.slots.get i) i read then none
      else some (recordWord0 14 (p.slots.get i).missCause (cardCount read) (cardMarks read) (cardGeneration read))
  | .judge f c, some p => checkedCard s (ringAddress p f c 0) fun read => (judged p.goodState f read).1
  | .markCheck f c, some p => checkedCard s (ringAddress p f c 0) fun read =>
      if cardState read = 14 ∨ cardState read = 15 then none
      else some (recordWord0 14 9 (cardCount read) (cardMarks read) (cardGeneration read))
  | .record, some _ => (s.rep.writing.toList.flatMap recordWrites).map some
  | .pass _ i f c carried _, some p =>
    List.replicate (1 + carried.w1.isSome.toNat + carried.w2.isSome.toNat + carried.w3.isSome.toNat) none ++
      match passOn s.mem p i f c carried with
      | .performed words _ => (passWrites p f c carried words).map some
      | .refused _ => []
  | .status n v, _ => [some (s.blockBase + 0x40 + 4 * n, v)]
  | .readPointer, _ => [some (s.blockBase + 8, 1)]
  | .outcome o, _ => [some (s.blockBase + 4, resultWord o)]
  | .write _ a data enables _, _ =>
    if enables = 0xF then [some (a, data)] else [none, some (a, leftInMemory s.mem a enables data)]
  | _, _ => [none]

/-- The command word in the head entry of port `p`: the entry is granted its own unit of work, it writes the command word in
the row `row`, and it leaves the value `v` there. -/
def WritesRow (s : State) (p : Port) (a : Nat) (data : Word) (enables : Enables) (rest : List Entry) (row : ProfileRow)
    (v : Word) : Prop :=
  (s.port p).queue = .profile a data enables :: rest ∧ s.canGrant (portRequester p) .own = true ∧
  s.profileRow a data enables = row ∧ v = leftInMemory s.mem a enables data

/-- What a performed write of a watched word does to memory and to the ports. -/
def RowWritten (s t : State) (p : Port) (a : Nat) (rest : List Entry) (v : Word) : Prop :=
  t.mem = s.mem.writeWord a v ∧ HeadGone p rest s t ∧ t.psel = s.psel ∧ t.inReset = s.inReset

/-- The command that performs a write of the command word in a row of the table, whole and with every access answered OK. -/
def commandOfRow (row : ProfileRow) (p : Port) : Option Instr :=
  match row with
  | .apply => some (.apply p (.whole none))
  | .startFresh => some (.startFresh p (.whole none))
  | .startCarry => some (.startCarry p (.whole none))
  | .stop => some (.stop p (.whole none))
  | .recover => some (.recover p (.whole none))
  | .quiet => some (.quiet p (.whole none))
  | .unknown => some (.unknownCommand p (.whole none))
  | .none => none
  | .plain => none
  | .readPointer => none
  | .quietExtend => none

/-- The tracking states in which the command of a row is allowed (R130); a code that names no command has none to be refused
in. -/
def rowAllowedIn (row : ProfileRow) (t : Tracking) : Prop :=
  match row with
  | .apply => t = .unconfigured ∨ t = .idle
  | .startFresh => t = .idle
  | .startCarry => t = .idle
  | .stop => t = .running
  | .recover => t = .lost
  | .quiet => t ≠ .halted
  | .unknown => True
  | .none => True
  | .plain => True
  | .readPointer => True
  | .quietExtend => True

/-- A command word was answered with an outcome that is not BUSY, and nothing else came of it. -/
def OnlyResult (s t : State) (o : CommandOutcome) : Prop :=
  t.cmd = { s.cmd with waitingResult := some o } ∧ t.seq = s.seq ∧ t.view = s.view ∧ t.claims = s.claims ∧ t.time = s.time ∧
  t.disch = s.disch ∧ SameReportRegisters s t

/-- A command word was answered BUSY, and nothing else came of it. -/
def OnlyBusy (s t : State) (o : CommandOutcome) : Prop :=
  t.cmd = { s.cmd with waitingBusy := some o } ∧ t.seq = s.seq ∧ t.view = s.view ∧ t.claims = s.claims ∧ t.time = s.time ∧
  t.disch = s.disch ∧ SameReportRegisters s t

/-- The byte at `a` reads as before. -/
def SameByte (s t : State) (a : Nat) : Prop := t.mem.readByte a = s.mem.readByte a

end Sys2Proof.Machine
end

