-- ==== Sys2Proof/Certificates/Slice0/Obligations.lean ====
section
/-! DEFINITION. The statements for the provers. -/

open Sys2Proof Sys2Proof.Machine

/-! ## Steps -/

/-- A step takes the command at the front of the queue and runs it with the queue's rest. -/
def Obligations.StepRunsFrontCommand : Prop :=
  ∀ (c : Instr) (rest : List Instr) (s : State),
    step { s with pending := c :: rest } = exec c { s with pending := rest }

/-- With no command waiting a step is one clock cycle, the tick at the divider's number of cycles (R111). That such a step is
a clock cycle is the model's choice (log entry 9), and so is that none passes while RESET is held (log entry 23). -/
def Obligations.EmptyQueueClocks : Prop :=
  ∀ s : State, s.pending = [] →
    (s.inReset = true → step s = .next s) ∧
    (s.inReset = false → s.time.cycles + 1 < s.time.divider →
      step s = .next { s with time := { s.time with cycles := s.time.cycles + 1 } }) ∧
    (s.inReset = false → s.time.divider ≤ s.time.cycles + 1 → step s = exec .microsecondCounterTick s)

/-- Every command answers a next state in every state: none ends in a fault or a refusal of the model. That a command answers a
next state where the part is not ready for it is the model's choice (log entry 5, and log entry 23 while RESET is held). -/
def Obligations.EveryCommandAnswersNext : Prop := ∀ (i : Instr) (s : State), ∃ t, exec i s = .next t

/-! ## Invariants -/

/-- The reset state satisfies every invariant that the statements about every step keep. -/
def Obligations.ResetMeetsInvariants : Prop :=
  State.reset.memoryCanonical ∧ State.reset.linesFollowRules ∧ State.reset.queuesBounded ∧ State.reset.reportsBounded ∧
  State.reset.claimsBounded ∧ State.reset.waitsBounded ∧ State.reset.modesAgree ∧ State.reset.sequencesOrdered ∧
  State.reset.recordHasRoom ∧ State.reset.countersBounded ∧ State.reset.framesOrdered ∧ State.reset.profileChecked

/-- Every step keeps memory's canonical form, which is the model's own way to write memory down: byte cells with rising
addresses, and none that holds what an unlisted address reads as (the model's choice, log entry 1). -/
def Obligations.StepKeepsMemoryCanonical : Prop :=
  ∀ s t : State, s.memoryCanonical → step s = .next t → t.memoryCanonical

/-- Every step leaves the output lines at the levels their rules give: the reject lines (R125), IRQ (R155) and HOLD (R160). -/
def Obligations.StepKeepsLines : Prop :=
  ∀ s t : State, s.linesFollowRules → step s = .next t →
    t.linesFollowRules ∧
    (t.seq.tracking = .marking ∨ t.seq.tracking = .lost ∨ t.seq.tracking = .halted → t.pins.rej = 0xFF) ∧
    (t.seq.tracking = .unconfigured → t.pins.rej = 0) ∧
    (t.seq.tracking = .idle ∨ t.seq.tracking = .running ∨ t.seq.tracking = .advancing →
      (1 ≤ t.disch.pointer → t.disch.pointer ≤ t.disch.rowCount →
        t.pins.rej = t.disch.rowSets.getD (t.disch.pointer - 1) 0) ∧
      (t.disch.pointer = 0 ∨ t.disch.rowCount < t.disch.pointer → t.pins.rej = 0)) ∧
    (t.pins.irq = true ↔
      (∃ n, t.rep.markA = some n ∧ t.rep.readSeq ≤ n ∧ t.rep.quiet = 0) ∨
      (∃ n, t.rep.markA7 = some n ∧ t.rep.readSeq ≤ n)) ∧
    (t.pins.hold = true ↔
      t.seq.tracking = .unconfigured ∨
      (t.seq.tracking = .idle ∧ ∃ p, t.cmd.profile = some p ∧ p.idleHold = true) ∨
      (t.seq.tracking = .advancing ∨ t.seq.pendingIndex = 1) ∨
      (t.seq.tracking = .marking ∨ t.seq.tracking = .lost ∨ t.seq.tracking = .halted) ∨ t.rep.fillLatch = true)

/-- Every step keeps what has a range inside it: the port queues and the internal queue (R82, R149), the counters (R35, R142,
R149, R157), and the first frame at most H with H at most 4,294,967,295 (R9). -/
def Obligations.StepKeepsRanges : Prop :=
  (∀ s t : State, s.queuesBounded ∧ s.reportsBounded → step s = .next t → t.queuesBounded ∧ t.reportsBounded) ∧
  (∀ s t : State, s.countersBounded → step s = .next t → t.countersBounded) ∧
  (∀ s t : State, s.framesOrdered → step s = .next t → t.framesOrdered)

/-- Every step keeps at most four claims a port and one claim a card (R64). -/
def Obligations.StepKeepsClaimsBounded : Prop :=
  ∀ s t : State, s.claimsBounded → step s = .next t → t.claimsBounded

/-- Every step keeps the order of the arbiter's counts, and with it a waiting requester is passed over at most 12 times in a
row (R87). -/
def Obligations.StepKeepsWaitsBounded : Prop :=
  ∀ s t : State, s.waitsBounded → step s = .next t →
    t.waitsBounded ∧ ∀ r : Requester, (t.arb.desk r).passed ≤ 12

/-- Every step keeps the tracking state in agreement with the advance record, the marking progress, the pending index, the
active profile, the command in progress and RESET. -/
def Obligations.StepKeepsModesAgree : Prop := ∀ s t : State, s.modesAgree → step s = .next t → t.modesAgree

/-- Every step keeps Rs ≤ W ≤ 4,294,967,295 and at most C unread records (R151), with what a record write under its hold
needs for it. -/
def Obligations.StepKeepsSequencesOrdered : Prop :=
  ∀ s t : State, s.sequencesOrdered ∧ s.recordHasRoom → step s = .next t → t.sequencesOrdered ∧ t.recordHasRoom

/-- Every step keeps an active profile that meets the twenty checks of R134. The defined values that checks 6, 12, 17, 18 and 19
ask of codes hold by the types of the settings, except the good state, the levels, the exit rank and the miss cause, which
are named. -/
def Obligations.StepKeepsProfileChecked : Prop :=
  ∀ s t : State, s.modesAgree ∧ s.profileChecked → step s = .next t → t.profileChecked

/-! ## Reset and time -/

/-- Device reset: every block at its reset values (R18, R35, R64, R89, R95, R111, R112, R114, R122, R146, R163), the first turn
of the alternations of R115 and R161 own work and a record write. Memory keeps the writes among the accesses that the unit of
work under its hold had completed, and is untouched when there is none (R89). Which writes of an initialisation those are rests
on their order, the model's choice (log entry 13). Its release samples PSEL, after which the profile block begins at PSEL × 1 MiB (R165), ends what was presented under
RESET without a response (R81), and changes nothing else. -/
def Obligations.ResetAndRelease : Prop :=
  (∀ (straps : BitVec 4) (s : State), s.inReset = true →
    ∃ t, exec (.resetRelease straps) s = .next t ∧
      t = { s with
        inReset := false, psel := straps, portA := { s.portA with transfer := none }
        portB := { s.portB with transfer := none } } ∧
      t.blockBase = straps.toNat * 0x100000) ∧
  ∀ (n : Nat) (s : State), s.inReset = false →
    ∃ t, exec (.deviceReset n) s = .next t ∧
      (s.arb.hold = none → t.mem = s.mem) ∧
      (∀ w, s.arb.hold = some w → t.mem = writesTo s.mem (((heldAccesses s w).take n).filterMap id)) ∧ t.inReset = true ∧
      t.seq.tracking = .unconfigured ∧ t.seq.head = 0 ∧ t.seq.firstFrame = 0 ∧ t.seq.ringValid = false ∧
      t.seq.pendingIndex = 0 ∧ t.seq.faultCause = none ∧ t.seq.faultCount = 0 ∧ t.seq.initSet = [] ∧
      t.seq.underInit = none ∧ t.seq.advance = none ∧ t.seq.marking = none ∧ t.seq.lastWasScan = true ∧
      (∀ i, (t.view.get i).currentFrame = none ∧ (t.view.get i).cursor = .none ∧ (t.view.get i).held = 0 ∧
        (t.view.get i).overflow = 0) ∧
      t.cmd.profile = none ∧ t.cmd.candidate = [] ∧ t.cmd.running = none ∧ t.cmd.waitingBusy = none ∧ t.cmd.waitingResult = none ∧
      t.claims = [] ∧ t.portA.queue = [] ∧ t.portB.queue = [] ∧ t.portA.pending = none ∧ t.portB.pending = none ∧
      t.portA.transfer = none ∧ t.portB.transfer = none ∧
      t.arb.hold = none ∧ (∀ r : Requester, t.arb.desk r = { request := none, passed := 0 }) ∧
      t.arb.sequencerMet = false ∧ t.arb.reportMet = false ∧
      t.rep.queue = [] ∧ t.rep.writeSeq = 1 ∧ t.rep.readSeq = 1 ∧ t.rep.markA = none ∧ t.rep.markA7 = none ∧
      t.rep.quiet = 0 ∧ t.rep.fillLatch = false ∧ t.rep.dropped = 0 ∧ t.rep.due = [] ∧
      t.rep.readPointerDue = false ∧ t.rep.writing = none ∧ t.rep.lastWasStatus = true ∧
      t.disch.loaded = none ∧ t.disch.pointer = 0 ∧ t.disch.rowSets = [] ∧
      t.time.counter = 0 ∧ t.time.divider = 32 ∧ (∀ i, t.time.deadlines.get i = .disarmed) ∧ t.time.scans = [] ∧
      t.time.running = none ∧
      t.pins.irq = false ∧ t.pins.hold = true ∧ t.pins.rej = 0

/-- A tick with no deadline due adds 1 to the counter modulo 2^32 and starts the count of cycles afresh (R111). A deadline
whose expiry time the counter has reached is disarmed and its LATE scan placed: at the tail of the scan list behind a running
scan when no scan of its slot waits, and running at once when the Time Base has no scan (R113, R114). -/
def Obligations.TickAndDeadline : Prop :=
  (∀ s : State, s.inReset = false → (∀ i f e, s.time.deadlines.get i = .armed f e → e ≠ s.time.counter) →
    exec .microsecondCounterTick s =
      .next (State.settle none s { s with time := { s.time with counter := s.time.counter + 1, cycles := 0 } })) ∧
  ∀ (s : State) (i : Fin 8) (f : Nat) (p : Profile), s.inReset = false → s.cmd.profile = some p →
    s.time.deadlines.get i = .armed f s.time.counter →
    ∃ t, exec (.deadlineExpiry i) s = .next t ∧ SameMemory s t ∧ SamePorts s t ∧ SameBlocks s t ∧ t.seq = s.seq ∧
      t.time.counter = s.time.counter ∧ t.time.deadlines.get i = .disarmed ∧
      (∀ j, j ≠ i → t.time.deadlines.get j = s.time.deadlines.get j) ∧
      (∀ n, s.time.running = some n → (∀ w ∈ s.time.scans, w.slot ≠ i) →
        t.time.running = some n ∧
        t.time.scans = s.time.scans ++ [{ slot := i, frame := f, expiry := s.time.counter }]) ∧
      (s.time.running = none → s.time.scans = [] →
        t.time.scans = [] ∧
        t.time.running = some { slot := i, frame := f, expiry := s.time.counter, todo := windowCards p (p.slots.get i),
                                late := 0, first := none })

/-! ## Rules Unit -/

/-- The table of R53, line by line, for a stored and a requested state that differ: stored BLANK and stored codes 6 to 13
count as rank 0, and the details are those of R55. -/
def Obligations.GuardTable : Prop :=
  ∀ stored requested : BitVec 4, requested ≠ stored →
    (stored = 0 ∨ (6 ≤ stored.toNat ∧ stored.toNat ≤ 13) → rankOf stored = 0) ∧
    (1 ≤ stored.toNat → stored.toNat ≤ 5 → rankOf stored = stored.toNat) ∧
    (requested = 0 ∨ (6 ≤ requested.toNat ∧ requested.toNat ≤ 13) → guardRefusal stored requested = some 3) ∧
    (¬(requested = 0 ∨ (6 ≤ requested.toNat ∧ requested.toNat ≤ 13)) →
      (stored = 14 ∨ stored = 15 → guardRefusal stored requested = some 2) ∧
      (¬(stored = 14 ∨ stored = 15) →
        (requested = 14 → guardRefusal stored requested = none) ∧
        (requested = 15 → rankOf stored = 0 ∨ stored = 1 → guardRefusal stored requested = none) ∧
        (requested = 15 → 2 ≤ rankOf stored → guardRefusal stored requested = some 4) ∧
        (1 ≤ requested.toNat → requested.toNat ≤ 5 → rankOf stored < requested.toNat →
          guardRefusal stored requested = none) ∧
        (1 ≤ requested.toNat → requested.toNat ≤ 5 → requested.toNat < rankOf stored →
          guardRefusal stored requested = some 1)))

/-- The cause an allowed pass stores: when the pass rejects the card it is the cause of the masked word 0, with NONE, TRACKING
and CORRUPT stored as UNSPECIFIED, and in any other case the cause that was read (R56). -/
def Obligations.CauseHandling : Prop :=
  ∀ read masked : Word,
    (cardState masked = 14 → cardState read ≠ 14 →
      (cardCause masked = 0 ∨ cardCause masked = 9 ∨ cardCause masked = 10 → settledCause read masked = 1) ∧
      (cardCause masked ≠ 0 → cardCause masked ≠ 9 → cardCause masked ≠ 10 →
        settledCause read masked = cardCause masked)) ∧
    (¬(cardState masked = 14 ∧ cardState read ≠ 14) → settledCause read masked = cardCause read)

/-- A pass is refused when the state guard refuses the requested state for the stored one, with the guard's detail, and only then;
without a write of the state the requested state is the stored one, and the pass is allowed (R52, R54). A performed pass: word 0
keeps the generation and adds the slot's mark; a violating limit on a card that is neither REJECTED nor VOID forces REJECTED with
OUT_OF_LIMIT, whatever was requested, and the violating value is stored (R57 to R59). The limit value is the count in word 0, or
the score or the reading in word 2, of the masked words, when the limit field is writable, its word carried and one of its bytes
enabled (R51, R57). -/
def Obligations.PassComposesWordZero : Prop :=
  ∀ (x : SlotSettings) (slot : Fin 8) (carried : Staged) (read : Record),
    let masked := maskedRecord x carried read
    (∀ d, passOutcome x slot carried read = .refused d ↔
      guardRefusal (cardState read.w0) (cardState masked.w0) = some d) ∧
    (∀ d, (carried.w0 = none ∨ x.fields.state = false ∨ (∃ c, carried.w0 = some c ∧ c.enables.getLsbD 0 = false) ∨
        cardState masked.w0 = cardState read.w0) →
      passOutcome x slot carried read ≠ .refused d) ∧
    (∀ v, limitValue x carried masked = some v ↔
      (x.limit = .count ∧ x.fields.count = true ∧ (∃ c, carried.w0 = some c ∧ c.enables.getLsbD 1 = true) ∧
        v = (masked.w0.extractLsb' 8 8).toNat) ∨
      (x.limit = .score ∧ x.fields.score = true ∧
        (∃ c, carried.w2 = some c ∧ (c.enables.getLsbD 0 = true ∨ c.enables.getLsbD 1 = true)) ∧
        v = (masked.w2.extractLsb' 0 16).toNat) ∨
      (x.limit = .reading ∧ x.fields.reading = true ∧
        (∃ c, carried.w2 = some c ∧ (c.enables.getLsbD 2 = true ∨ c.enables.getLsbD 3 = true)) ∧
        v = (masked.w2.extractLsb' 16 16).toNat)) ∧
    ∀ (words : Record) (forced : Option Nat), passOutcome x slot carried read = .performed words forced →
      cardGeneration words.w0 = cardGeneration read.w0 ∧
      cardMarks words.w0 = cardMarks read.w0 ||| markBit slot ∧
      cardCount words.w0 = cardCount masked.w0 ∧
      words.w1 = masked.w1 ∧ words.w2 = masked.w2 ∧ words.w3 = masked.w3 ∧
      (∀ v, limitValue x carried masked = some v → (v < x.low ∨ x.high < v) →
        cardState masked.w0 ≠ 14 → cardState masked.w0 ≠ 15 →
        cardState words.w0 = 14 ∧ cardCause words.w0 = 7 ∧ forced = some v) ∧
      (∀ v, limitValue x carried masked = some v → (v < x.low ∨ x.high < v) →
        (cardState masked.w0 = 14 ∨ cardState masked.w0 = 15) →
        cardState words.w0 = cardState masked.w0 ∧ cardCause words.w0 = settledCause read.w0 masked.w0 ∧ forced = none) ∧
      ((∀ v, limitValue x carried masked = some v → x.low ≤ v ∧ v ≤ x.high) →
        cardState words.w0 = cardState masked.w0 ∧ cardCause words.w0 = settledCause read.w0 masked.w0 ∧ forced = none)

/-- The field mask keeps every bit of a word that is not in a writable field, takes every bit of an enabled byte that is, and
never takes the marks or the generation (R50, R51). -/
def Obligations.MaskKeepsProtectedBits : Prop :=
  ∀ (x : SlotSettings) (w : Fin 4) (data read : Word) (enables : Enables),
    let masked := maskedWord x w (some { data := data, enables := enables }) read
    (∀ i, i < 32 → (fieldMask x.fields w).getLsbD i = false → masked.getLsbD i = read.getLsbD i) ∧
    (∀ i, i < 32 → enables.getLsbD (i / 8) = false → masked.getLsbD i = read.getLsbD i) ∧
    (∀ i, i < 32 → (fieldMask x.fields w).getLsbD i = true → enables.getLsbD (i / 8) = true →
      masked.getLsbD i = data.getLsbD i) ∧
    (w = 0 → cardMarks masked = cardMarks read ∧ cardGeneration masked = cardGeneration read)

/-- The address of word `w` of card `c` of frame F (R11). -/
def Obligations.RingAddressFormula : Prop :=
  ∀ (p : Profile) (frame lane row : Nat) (w : Fin 4), 1 ≤ lane → lane ≤ 8 → 1 ≤ row → row ≤ 6 →
    ringAddress p frame (cardAt lane row) w =
      p.ringBase + (frame % p.depth) * 1024 + ((row - 1) * 8 + (lane - 1)) * 16 + w.val * 4 ∧
    laneOf (cardAt lane row) = lane ∧ rowOf (cardAt lane row) = row

/-- Step k of a cursor reaches the lane and row of the table of R36, in the order and from the start lane and start row that
the settings give; every step reaches a card of the window, two steps reach two cards, and every card of the window is
reached (R36). -/
def Obligations.CursorFollowsTable : Prop :=
  ∀ x : SlotSettings, 1 ≤ x.firstLane → x.firstLane ≤ x.lastLane → x.lastLane ≤ 8 → 1 ≤ x.firstRow →
    x.firstRow ≤ x.lastRow → x.lastRow ≤ 6 →
    (∀ k, k < windowSize x → inWindow x (stepCard x k) = true) ∧
    (∀ j k, j < windowSize x → k < windowSize x → stepCard x j = stepCard x k → j = k) ∧
    (∀ c, c < 48 → inWindow x c = true → ∃ k, k < windowSize x ∧ stepCard x k = c) ∧
    ∀ k, k < windowSize x →
      let wl := x.lastLane - x.firstLane + 1
      let wr := x.lastRow - x.firstRow + 1
      let l := if x.order = .laneMajor then k % wl else k / wr
      let r := if x.order = .laneMajor then k / wl else k % wr
      windowSize x = wl * wr ∧
      (x.laneDirection = .increasing → laneOf (stepCard x k) = x.firstLane + l) ∧
      (x.laneDirection = .decreasing → laneOf (stepCard x k) + l = x.lastLane) ∧
      (x.rowDirection = .increasing → rowOf (stepCard x k) = x.firstRow + r) ∧
      (x.rowDirection = .decreasing → rowOf (stepCard x k) + r = x.lastRow)

/-- The table of R118, line by line: what is written into word 0 of a card and as what the card is counted. -/
def Obligations.JudgementTable : Prop :=
  ∀ (good : BitVec 4) (frame : Nat) (read : Word), good = 4 ∨ good = 5 →
    (cardState read = 15 → judged good frame read = (none, .void)) ∧
    (cardState read = 14 → judged good frame read = (none, .rejected (cardCause read))) ∧
    (cardState read ≠ 14 → cardState read ≠ 15 →
      (cardGeneration read ≠ BitVec.ofNat 8 frame →
        judged good frame read =
          (some (recordWord0 14 10 (cardCount read) (cardMarks read) (cardGeneration read)), .rejected 10)) ∧
      (cardGeneration read = BitVec.ofNat 8 frame →
        (cardState read = good → judged good frame read = (none, .good)) ∧
        (cardState read ≠ good →
          judged good frame read =
            (some (recordWord0 14 8 (cardCount read) (cardMarks read) (cardGeneration read)), .rejected 8))))

/-! ## Arbiter and reports -/

/-- The arbiter's choice and what a grant does to the counts (R87). -/
def Obligations.ArbiterChoosesAndCounts : Prop :=
  ∀ x : Arbiter,
    ((∃ q, x.waits q = true) → ∃ r, x.choose = some r) ∧
    ∀ r, x.choose = some r →
      x.waits r = true ∧
      ((∃ q, x.waits q = true ∧ 8 ≤ (x.desk q).passed) →
        8 ≤ (x.desk r).passed ∧ ∀ q, q.number < r.number → x.waits q = true → (x.desk q).passed < 8) ∧
      ((∀ q, x.waits q = true → (x.desk q).passed < 8) → ∀ q, q.number < r.number → x.waits q = false) ∧
      (x.grant r).desk r = { request := none, passed := 0 } ∧
      (∀ q, q ≠ r → x.waits q = true →
        (x.grant r).desk q = { request := (x.desk q).request, passed := (x.desk q).passed + 1 }) ∧
      (∀ q, q ≠ r → x.waits q = false → (x.grant r).desk q = x.desk q)

/-- Producing a report: dropped and counted with no active profile and in HALTED, suppressed at level 0, and otherwise
offered to the internal queue with its timestamp, head and level. In a full queue it displaces the weakest report when that is
of a lower level: the report of lowest level, among those of highest kind number, among those the newest (R147, R149). -/
def Obligations.ReportOffered : Prop :=
  ∀ (s : State) (c : Content),
    (s.cmd.profile = none ∨ s.seq.tracking = .halted →
      (s.produce c).rep.queue = s.rep.queue ∧ (s.produce c).rep.dropped = min (s.rep.dropped + 1) 4294967295) ∧
    (∀ p, s.cmd.profile = some p → s.seq.tracking ≠ .halted → p.level (kindNumber c.kind) = 0 → s.produce c = s) ∧
    (∀ p r, s.cmd.profile = some p → s.seq.tracking ≠ .halted → p.level (kindNumber c.kind) ≠ 0 →
      r = s.reportOf (p.level (kindNumber c.kind)) c →
      (r.timestamp = s.time.counter ∧ r.head = s.seq.head ∧ r.kind = c.kind) ∧
      (s.rep.queue.length < 16 → (s.produce c).rep.queue = s.rep.queue ++ [r] ∧
        (s.produce c).rep.dropped = s.rep.dropped) ∧
      (16 ≤ s.rep.queue.length → (∀ q ∈ s.rep.queue, r.level ≤ q.level) →
        (s.produce c).rep.queue = s.rep.queue ∧ (s.produce c).rep.dropped = min (s.rep.dropped + 1) 4294967295) ∧
      (16 ≤ s.rep.queue.length → (∃ q ∈ s.rep.queue, q.level < r.level) →
        (s.produce c).rep.dropped = min (s.rep.dropped + 1) 4294967295 ∧
        ∃ older weak newer, s.rep.queue = older ++ weak :: newer ∧ (s.produce c).rep.queue = older ++ newer ++ [r] ∧
          weak.level < r.level ∧
          (∀ q ∈ older ++ newer, weak.level < q.level ∨
            (q.level = weak.level ∧ kindNumber q.kind ≤ kindNumber weak.kind)) ∧
          ∀ q ∈ newer, ¬(q.level = weak.level ∧ kindNumber q.kind = kindNumber weak.kind)))

/-! ## Acceptance -/

/-- WRITE_ACCEPTANCE of a write outside the apertures: it becomes one entry at the tail of its port queue and is answered OK
(R82; R15 for the raw ring region while the ring is not held). A write of the direct card area that R26 does not refuse becomes
a VIEW entry for the slot's current frame and the card and word of its offset (R24, R27). -/
def Obligations.WriteBecomesEntry : Prop :=
  (∀ (p : Port) (address : Addr) (enables : Enables) (data : Word) (s : State) (e : Entry),
    s.mayPresent p { isWrite := true, address := address, enables := enables, data := data } = true →
    s.portWaits p = false → (s.port p).queue.length < 16 →
    (s.classify (wordAddress address) = .profileBlock ∧ e = .profile (wordAddress address) data enables ∨
     s.classify (wordAddress address) = .rawRing ∧ s.seq.tracking.ringHeld = false ∧
       e = .plain (wordAddress address) data enables ∨
     (s.classify (wordAddress address) = .reportRing ∨ s.classify (wordAddress address) = .plain) ∧
       e = .plain (wordAddress address) data enables) →
    ∃ t, exec (.writeAcceptance p address enables data) s = .next t ∧
      t.port p = { s.port p with transfer := none, queue := (s.port p).queue ++ [e], answer := some .ok } ∧
      SameButPort p s t) ∧
  ∀ (p : Port) (address : Addr) (enables : Enables) (data : Word) (s : State) (i : Fin 8) (offset frame : Nat),
    s.mayPresent p { isWrite := true, address := address, enables := enables, data := data } = true →
    s.portWaits p = false → (s.port p).queue.length < 16 →
    s.classify (wordAddress address) = .view i offset → s.viewRefused p true i offset = false → offset < 0x400 →
    (s.view.get i).currentFrame = some frame →
    ∃ t, exec (.writeAcceptance p address enables data) s = .next t ∧
      t.port p = { s.port p with
        transfer := none
        queue := (s.port p).queue ++
          [.view { slot := i, frame := frame, card := offset / 16, word := Fin.ofNat 4 (offset % 16 / 4) } data enables]
        answer := some .ok } ∧
      SameButPort p s t

/-- A write of the raw ring region while the ring is held, and a view access in one of the six cases of R26, is answered
ERROR, and nothing else comes of it (R15, R26). -/
def Obligations.RefusedAtAcceptance : Prop :=
  (∀ (p : Port) (address : Addr) (enables : Enables) (data : Word) (s : State),
    s.mayPresent p { isWrite := true, address := address, enables := enables, data := data } = true →
    s.portWaits p = false →
    (s.classify (wordAddress address) = .rawRing ∧ s.seq.tracking.ringHeld = true ∨
     ∃ i offset, s.classify (wordAddress address) = .view i offset ∧ s.viewRefused p true i offset = true) →
    ∃ t, exec (.writeAcceptance p address enables data) s = .next t ∧
      t.port p = { s.port p with transfer := none, answer := some .error } ∧ SameButPort p s t) ∧
  (∀ (p : Port) (address : Addr) (enables : Enables) (s : State) (i : Fin 8) (offset : Nat),
    s.mayPresent p { isWrite := false, address := address, enables := enables, data := 0 } = true →
    s.portWaits p = false →
    s.classify (wordAddress address) = .view i offset → s.viewRefused p false i offset = true →
    ∃ t, exec (.readAcceptance p address enables) s = .next t ∧
      t.port p = { s.port p with transfer := none, answer := some .error } ∧ SameButPort p s t) ∧
  (∀ (s : State) (p : Port) (isWrite : Bool) (i : Fin 8) (offset : Nat) (pr : Profile), s.cmd.profile = some pr →
    (s.viewRefused p isWrite i offset = true ↔
      (pr.slots.get i).port ≠ p ∨ (s.seq.tracking ≠ .running ∧ s.seq.tracking ≠ .advancing) ∨
      (s.view.get i).currentFrame = none ∨
      (offset < 0x400 ∧ ¬(isUsed pr (offset / 16) = true ∧ inWindow (pr.slots.get i) (offset / 16) = true)) ∨
      (offset = 0x400 ∧ isWrite = false) ∨ 0x400 < offset))

/-- A transfer is held unanswered while RESET is held and while the port has a pending read, and a write that is not refused and
makes one entry also while the port's queue is full: of the profile block, the report ring or no region, of the raw ring
region while the ring is not held, and of the direct card area of an aperture. Nothing else changes (R80, R81, R82, R83). -/
def Obligations.TransferHeld : Prop :=
  (∀ (p : Port) (address : Addr) (enables : Enables) (data : Word) (s : State),
    s.mayPresent p { isWrite := true, address := address, enables := enables, data := data } = true →
    (s.inReset = true ∨ (s.port p).pending.isSome = true ∨
     (16 ≤ (s.port p).queue.length ∧
      (s.classify (wordAddress address) = .profileBlock ∨ s.classify (wordAddress address) = .plain ∨
       s.classify (wordAddress address) = .reportRing ∨
       (s.classify (wordAddress address) = .rawRing ∧ s.seq.tracking.ringHeld = false) ∨
       ∃ i offset, s.classify (wordAddress address) = .view i offset ∧ offset < 0x400 ∧
        s.viewRefused p true i offset = false))) →
    ∃ t, exec (.writeAcceptance p address enables data) s = .next t ∧
      t.port p = { s.port p with
        transfer := some { isWrite := true, address := address, enables := enables, data := data } } ∧
      SameButPort p s t) ∧
  ∀ (p : Port) (address : Addr) (enables : Enables) (s : State),
    s.mayPresent p { isWrite := false, address := address, enables := enables, data := 0 } = true →
    (s.inReset = true ∨ (s.port p).pending.isSome = true) →
    ∃ t, exec (.readAcceptance p address enables) s = .next t ∧
      t.port p = { s.port p with
        transfer := some { isWrite := false, address := address, enables := enables, data := 0 } } ∧
      SameButPort p s t

/-- A stream write that R26 does not refuse: a sync value is held, the fourth one resets the cursor with a CURSOR_RESYNC report of
the card of the cursor's step (the number that stands for RESYNC is free, log entry 28), a value with the cursor
exhausted is dropped with the values held before it, and with the cursor at a step the values held and the new one make entries
as far as the window has cards, the rest is dropped, and without room for the entries the transfer is held (R37, R38, R41 to
R44). -/
def Obligations.StreamWriteOutcomes : Prop :=
  ∀ (p : Port) (address : Addr) (enables : Enables) (data : Word) (s : State) (i : Fin 8) (frame : Nat)
    (x : SlotSettings) (st : Station),
    s.mayPresent p { isWrite := true, address := address, enables := enables, data := data } = true →
    s.portWaits p = false → s.classify (wordAddress address) = .view i 0x400 →
    s.viewRefused p true i 0x400 = false → s.settings i = some x → s.view.get i = st → st.currentFrame = some frame →
    st.held ≤ 3 →
    let matching := x.sync = true ∧ enables = 0xF ∧ data = x.syncValue
    (matching → st.held < 3 →
      ∃ t, exec (.writeAcceptance p address enables data) s = .next t ∧
        t.view.get i = { st with held := st.held + 1 } ∧
        t.port p = { s.port p with transfer := none, answer := some .ok } ∧ SameButStation p i s t) ∧
    (matching → st.held = 3 →
      ∃ t, exec (.writeAcceptance p address enables data) s = .next t ∧
        t.view.get i = { st with held := 0, cursor := .step 0 } ∧
        t.port p = { s.port p with transfer := none, answer := some .ok } ∧ SameButStation p i s t ∧
        ∃ lane row, (∀ k, st.cursor = .step k → lane = laneOf (stepCard x k) ∧ row = rowOf (stepCard x k)) ∧
          (st.cursor = .exhausted → lane = 0 ∧ row = 0) ∧
          t = State.settle none s ((({ s with view := s.view.set i { st with held := 0, cursor := .step 0 } }).produce
            { kind := .cursorResync, source := portSource x.port, slot := some i, frame := frame, lane := lane, row := row
              count := 4, detail := Config.resyncDetail, data := x.syncValue }).setPort p
                { s.port p with transfer := none, answer := some .ok })) ∧
    (¬matching → st.cursor = .exhausted →
      ∃ t, exec (.writeAcceptance p address enables data) s = .next t ∧
        t.view.get i = { st with held := 0, overflow := min (st.overflow + (st.held + 1)) 65535, lastDropped := data } ∧
        t.port p = { s.port p with transfer := none, answer := some .ok } ∧ SameButStation p i s t) ∧
    (∀ k, ¬matching → st.cursor = .step k → k + st.held + 1 ≤ windowSize x → st.overflow ≤ 65535 →
      (s.port p).queue.length + st.held + 1 ≤ 16 →
      ∃ t, exec (.writeAcceptance p address enables data) s = .next t ∧
        t.view.get i = { st with held := 0, cursor := cursorAt x (k + st.held + 1) } ∧
        (t.port p).answer = some .ok ∧
        (t.port p).queue = (s.port p).queue ++
          ((List.range st.held).map fun n =>
            .stream { slot := i, frame := frame, card := stepCard x (k + n), word := x.streamWord } x.syncValue 0xF) ++
          [.stream { slot := i, frame := frame, card := stepCard x (k + st.held), word := x.streamWord } data enables] ∧
        SameButStation p i s t) ∧
    (∀ k, ¬matching → st.cursor = .step k → k < windowSize x → windowSize x < k + st.held + 1 →
      (s.port p).queue.length + (windowSize x - k) ≤ 16 →
      ∃ t, exec (.writeAcceptance p address enables data) s = .next t ∧
        t.view.get i = { st with
          held := 0, cursor := .exhausted, overflow := min (st.overflow + (k + st.held + 1 - windowSize x)) 65535
          lastDropped := data } ∧
        (t.port p).answer = some .ok ∧
        (t.port p).queue = (s.port p).queue ++
          ((List.range (windowSize x - k)).map fun n =>
            .stream { slot := i, frame := frame, card := stepCard x (k + n), word := x.streamWord } x.syncValue 0xF) ∧
        SameButStation p i s t) ∧
    (∀ k, ¬matching → st.cursor = .step k → k < windowSize x →
      16 < (s.port p).queue.length + min (st.held + 1) (windowSize x - k) →
      ∃ t, exec (.writeAcceptance p address enables data) s = .next t ∧
        t.port p = { s.port p with
          transfer := some { isWrite := true, address := address, enables := enables, data := data } } ∧
        SameButPort p s t)

/-- READ_ACCEPTANCE of a read that is not refused: it becomes the port's pending read (R14, R30, R83). -/
def Obligations.ReadBecomesPending : Prop :=
  ∀ (p : Port) (address : Addr) (enables : Enables) (s : State) (r : PendingRead),
    s.mayPresent p { isWrite := false, address := address, enables := enables, data := 0 } = true →
    s.portWaits p = false →
    ((s.classify (wordAddress address) = .profileBlock ∨ s.classify (wordAddress address) = .rawRing ∨
      s.classify (wordAddress address) = .reportRing ∨ s.classify (wordAddress address) = .plain) ∧
      r = .plain (wordAddress address) ∨
     ∃ i offset frame, s.classify (wordAddress address) = .view i offset ∧ s.viewRefused p false i offset = false ∧
      (s.view.get i).currentFrame = some frame ∧
      r = .view { slot := i, frame := frame, card := offset / 16, word := Fin.ofNat 4 (offset % 16 / 4) }) →
    ∃ t, exec (.readAcceptance p address enables) s = .next t ∧
      t.port p = { s.port p with transfer := none, pending := some r } ∧ SameButPort p s t

/-! ## Entries -/

/-- VIEW_ENTRY_PERFORMANCE and STREAM_ENTRY_PERFORMANCE of a WORD-mode write on a card without a claim, when the state guard
allows it: the carried word and then word 0 are written as R59 composes them, and the entry is removed (R40, R49, R65). -/
def Obligations.EntryPassPerformed : Prop :=
  ∀ (p : Port) (g : Target) (data : Word) (enables : Enables) (rest : List Entry) (s : State) (pr : Profile)
    (words : Record) (forced : Option Nat),
    s.cmd.profile = some pr → s.canGrant (portRequester p) .own = true → s.claimOn g.frame g.card = none →
    passOn s.mem pr g.slot g.frame g.card (carriedWord g.word data enables) = .performed words forced →
    ((s.port p).queue = .view g data enables :: rest → (pr.slots.get g.slot).mode = .word →
      ∃ t, exec (.viewEntryPerformance p (.whole none)) s = .next t ∧
        t.mem = writesTo s.mem (passWrites pr g.frame g.card (carriedWord g.word data enables) words) ∧
        HeadGone p rest s t ∧ SameInner s t ∧ SameReportRegisters s t) ∧
    ((s.port p).queue = .stream g data enables :: rest →
      ∃ t, exec (.streamEntryPerformance p (.whole none)) s = .next t ∧
        t.mem = writesTo s.mem (passWrites pr g.frame g.card (carriedWord g.word data enables) words) ∧
        HeadGone p rest s t ∧ SameInner s t ∧ SameReportRegisters s t)

/-- The same entries when the state guard refuses: no word is written, the entry is removed, and GUARD_REFUSED is produced
(R54, R55). -/
def Obligations.EntryPassRefused : Prop :=
  ∀ (p : Port) (g : Target) (data : Word) (enables : Enables) (rest : List Entry) (s : State) (pr : Profile)
    (detail : Nat),
    s.cmd.profile = some pr → s.canGrant (portRequester p) .own = true → s.claimOn g.frame g.card = none →
    passOn s.mem pr g.slot g.frame g.card (carriedWord g.word data enables) = .refused detail →
    let carried := carriedWord g.word data enables
    let read := recordRead s.mem pr g.frame g.card carried
    let x := pr.slots.get g.slot
    let report := guardRefusedReport x g.slot g.frame g.card (cardState read.w0)
      (cardState (maskedRecord x carried read).w0) detail
    ((s.port p).queue = .view g data enables :: rest → x.mode = .word →
      exec (.viewEntryPerformance p (.whole none)) s =
        .next (State.settle none s (((s.grantTo (portRequester p)).removeHead p).produce report))) ∧
    ((s.port p).queue = .stream g data enables :: rest →
      exec (.streamEntryPerformance p (.whole none)) s =
        .next (State.settle none s (((s.grantTo (portRequester p)).removeHead p).produce report)))

/-- A group write that leaves its group incomplete: it opens a claim with its word staged, after the oldest of four claims of
its port is torn with reason EVICTED, or joins or rewrites the slot's claim, and memory is untouched (R68, R69, R70). A group
write whose frame has departed is dropped with STAGE_TORN, reason DEPARTED (R71). -/
def Obligations.GroupWriteStaged : Prop :=
  ∀ (p : Port) (g : Target) (data : Word) (enables : Enables) (rest : List Entry) (s : State) (pr : Profile),
    s.cmd.profile = some pr → s.canGrant (portRequester p) .own = true →
    (s.port p).queue = .view g data enables :: rest → (pr.slots.get g.slot).mode = .record →
    holdsWritable (pr.slots.get g.slot).fields g.word = true →
    let opened : Claim :=
      { frame := g.frame, card := g.card, slot := g.slot, port := p, staged := carriedWord g.word data enables }
    ((s.view.get g.slot).currentFrame = some g.frame → 2 ≤ groupWordCount (pr.slots.get g.slot).fields →
      (s.claimOn g.frame g.card = none → (claimsOf s.claims p).length < 4 →
        ∃ t, exec (.viewEntryPerformance p (.whole none)) s = .next t ∧ t.claims = s.claims ++ [opened] ∧
          SameMemory s t ∧ HeadGone p rest s t ∧ t.seq = s.seq ∧ t.view = s.view ∧
          t.time = s.time ∧ t.disch = s.disch ∧ t.cmd = s.cmd ∧ SameReportRegisters s t) ∧
      (∀ old more, s.claimOn g.frame g.card = none → claimsOf s.claims p = old :: more → 3 ≤ more.length →
        exec (.viewEntryPerformance p (.whole none)) s = .next (State.settle none s
          ((({ s.grantTo (portRequester p) with
            claims := s.claims.filter (fun d => !sameCard old d) ++ [opened] }).produce
              { kind := .stageTorn, source := portSource old.port, slot := some old.slot, frame := old.frame
                lane := laneOf old.card, row := rowOf old.card, count := old.staged.count, detail := 2
                data := wordOf (groupWordCount (pr.slots.get old.slot).fields) }).removeHead p))) ∧
      (∀ c, s.claimOn g.frame g.card = some c → c.slot = g.slot →
        groupComplete (pr.slots.get g.slot).fields (c.staged.put g.word { data := data, enables := enables }) = false →
        ∃ t, exec (.viewEntryPerformance p (.whole none)) s = .next t ∧
          t.claims = s.claims.map (fun d =>
            if sameCard c d then { d with staged := c.staged.put g.word { data := data, enables := enables } } else d) ∧
          SameMemory s t ∧ HeadGone p rest s t ∧ t.seq = s.seq ∧ t.view = s.view ∧
          t.time = s.time ∧ t.disch = s.disch ∧ t.cmd = s.cmd ∧ SameReportRegisters s t)) ∧
    ((s.view.get g.slot).currentFrame ≠ some g.frame → (∀ c, s.claimOn g.frame g.card = some c → c.slot = g.slot) →
      exec (.viewEntryPerformance p (.whole none)) s = .next (State.settle none s
        (((s.grantTo (portRequester p)).produce
          { kind := .stageTorn, source := portSource p, slot := some g.slot, frame := g.frame, lane := laneOf g.card
            row := rowOf g.card, count := 1, detail := 1
            data := wordOf (groupWordCount (pr.slots.get g.slot).fields) }).removeHead p)))

/-- The group write that supplies the last word: the claim leaves the table, and every word of the group is written under the
one hold, word 0 last, when the state guard allows it, or no word with GUARD_REFUSED when it refuses (R54, R72). A group write
of a slot with one word in its group word set commits at once and opens no claim (R63). -/
def Obligations.GroupCommitted : Prop :=
  ∀ (p : Port) (g : Target) (data : Word) (enables : Enables) (rest : List Entry) (s : State) (pr : Profile),
    s.cmd.profile = some pr → s.canGrant (portRequester p) .own = true →
    (s.port p).queue = .view g data enables :: rest → (pr.slots.get g.slot).mode = .record →
    holdsWritable (pr.slots.get g.slot).fields g.word = true →
    (s.view.get g.slot).currentFrame = some g.frame →
    (∀ c, 2 ≤ groupWordCount (pr.slots.get g.slot).fields → s.claimOn g.frame g.card = some c → c.slot = g.slot →
      let staged := c.staged.put g.word { data := data, enables := enables }
      groupComplete (pr.slots.get g.slot).fields staged = true →
      (∀ words forced, passOn s.mem pr g.slot g.frame g.card staged = .performed words forced →
        ∃ t, exec (.viewEntryPerformance p (.whole none)) s = .next t ∧
          t.claims = s.claims.filter (fun d => !sameCard c d) ∧
          t.mem = writesTo s.mem (passWrites pr g.frame g.card staged words) ∧
          HeadGone p rest s t ∧ t.seq = s.seq ∧ t.view = s.view ∧
          t.time = s.time ∧ t.disch = s.disch ∧ t.cmd = s.cmd ∧ SameReportRegisters s t) ∧
      (∀ detail, passOn s.mem pr g.slot g.frame g.card staged = .refused detail →
        exec (.viewEntryPerformance p (.whole none)) s = .next (State.settle none s
          ((({ s.grantTo (portRequester p) with claims := s.claims.filter (fun d => !sameCard c d) }).removeHead p).produce
            (guardRefusedReport (pr.slots.get g.slot) g.slot g.frame g.card
              (cardState (recordRead s.mem pr g.frame g.card staged).w0)
              (cardState (maskedRecord (pr.slots.get g.slot) staged (recordRead s.mem pr g.frame g.card staged)).w0)
              detail))))) ∧
    (∀ words forced, groupWordCount (pr.slots.get g.slot).fields = 1 →
      (∀ c, s.claimOn g.frame g.card = some c → c.slot = g.slot) →
      passOn s.mem pr g.slot g.frame g.card (carriedWord g.word data enables) = .performed words forced →
      ∃ t, exec (.viewEntryPerformance p (.whole none)) s = .next t ∧
        t.mem = writesTo s.mem (passWrites pr g.frame g.card (carriedWord g.word data enables) words) ∧
        HeadGone p rest s t ∧ SameInner s t ∧ SameReportRegisters s t)

/-- An entry on a card that carries a claim. On a claim of another slot it is dropped with a COLLISION report and without an
access, unless the writer's port is A and the owner's B: then the owner's group is torn with reason PREEMPTED and the entry
proceeds in its slot's own mode, as a WORD-mode write whatever the guard says, or as a group write that opens its group, with
an eviction where Port A owns four claims (R66, R67, R69). A STREAM entry on its own slot's claim is a WORD-mode write, and the
claim stays as it is (R73). -/
def Obligations.CollisionDropsEntry : Prop :=
  (∀ (p : Port) (g : Target) (data : Word) (enables : Enables) (rest : List Entry) (s : State) (pr : Profile) (c : Claim),
    s.cmd.profile = some pr → s.canGrant (portRequester p) .own = true → s.claimOn g.frame g.card = some c →
    c.slot ≠ g.slot → ¬(p = .a ∧ c.port = .b) →
    let t := State.settle none s (((s.grantTo (portRequester p)).produce
      { kind := .collision, source := portSource p, slot := some g.slot, frame := g.frame, lane := laneOf g.card,
        row := rowOf g.card, count := g.word.val, detail := wordOf c.slot.val, data := data }).removeHead p)
    ((s.port p).queue = .view g data enables :: rest →
      exec (.viewEntryPerformance p (.whole none)) s = .next t) ∧
    ((s.port p).queue = .stream g data enables :: rest →
      exec (.streamEntryPerformance p (.whole none)) s = .next t)) ∧
  (∀ (g : Target) (data : Word) (enables : Enables) (rest : List Entry) (s : State) (pr : Profile) (c : Claim),
    s.cmd.profile = some pr → s.canGrant .portA .own = true → s.claimOn g.frame g.card = some c → c.slot ≠ g.slot →
    c.port = .b →
    let x := pr.slots.get g.slot
    let carried := carriedWord g.word data enables
    let kept := s.claims.filter fun d => !sameCard c d
    let preempted : Content :=
      { kind := .stageTorn, source := .portB, slot := some c.slot, frame := c.frame, lane := laneOf c.card,
        row := rowOf c.card, count := c.staged.count, detail := 3, data := wordOf g.slot.val }
    let torn := (({ s.grantTo .portA with claims := kept }).produce preempted).removeHead .a
    let opened : Claim := { frame := g.frame, card := g.card, slot := g.slot, port := .a, staged := carried }
    (∀ i words forced,
      ((s.portA.queue = .view g data enables :: rest ∧ x.mode = .word ∧ i = .viewEntryPerformance .a (.whole none)) ∨
       (s.portA.queue = .stream g data enables :: rest ∧ i = .streamEntryPerformance .a (.whole none))) →
      passOn s.mem pr g.slot g.frame g.card carried = .performed words forced →
      let after := { torn with mem := writesTo s.mem (passWrites pr g.frame g.card carried words) }
      (forced = none → exec i s = .next (State.settle none s after)) ∧
      (∀ v, forced = some v →
        exec i s = .next (State.settle none s (after.produce (limitRejectReport x g.slot g.frame g.card v))))) ∧
    (∀ i detail,
      ((s.portA.queue = .view g data enables :: rest ∧ x.mode = .word ∧ i = .viewEntryPerformance .a (.whole none)) ∨
       (s.portA.queue = .stream g data enables :: rest ∧ i = .streamEntryPerformance .a (.whole none))) →
      passOn s.mem pr g.slot g.frame g.card carried = .refused detail →
      exec i s = .next (State.settle none s (torn.produce
        (guardRefusedReport x g.slot g.frame g.card (cardState (recordRead s.mem pr g.frame g.card carried).w0)
          (cardState (maskedRecord x carried (recordRead s.mem pr g.frame g.card carried)).w0) detail)))) ∧
    (s.portA.queue = .view g data enables :: rest → x.mode = .record → holdsWritable x.fields g.word = true →
      2 ≤ groupWordCount x.fields → (s.view.get g.slot).currentFrame = some g.frame →
      ((claimsOf kept .a).length < 4 →
        exec (.viewEntryPerformance .a (.whole none)) s =
          .next (State.settle none s { torn with claims := kept ++ [opened] })) ∧
      (∀ old more, claimsOf kept .a = old :: more → 3 ≤ more.length →
        exec (.viewEntryPerformance .a (.whole none)) s =
          .next (State.settle none s (({ torn with claims := kept.filter (fun d => !sameCard old d) ++ [opened] }).produce
            { kind := .stageTorn, source := .portA, slot := some old.slot, frame := old.frame, lane := laneOf old.card
              row := rowOf old.card, count := old.staged.count, detail := 2
              data := wordOf (groupWordCount (pr.slots.get old.slot).fields) }))))) ∧
  ∀ (p : Port) (g : Target) (data : Word) (enables : Enables) (rest : List Entry) (s : State) (pr : Profile) (c : Claim)
    (words : Record) (forced : Option Nat),
    s.cmd.profile = some pr → s.canGrant (portRequester p) .own = true → s.claimOn g.frame g.card = some c →
    c.slot = g.slot → (s.port p).queue = .stream g data enables :: rest →
    passOn s.mem pr g.slot g.frame g.card (carriedWord g.word data enables) = .performed words forced →
    ∃ t, exec (.streamEntryPerformance p (.whole none)) s = .next t ∧
      t.mem = writesTo s.mem (passWrites pr g.frame g.card (carriedWord g.word data enables) words) ∧
      HeadGone p rest s t ∧ SameInner s t ∧ SameReportRegisters s t

/-- Whatever becomes of a VIEW or STREAM entry, and whichever access memory answers ERROR, no byte outside the card's record
changes (R59, R60). -/
def Obligations.EntryKeepsOtherBytes : Prop :=
  ∀ (p : Port) (g : Target) (data : Word) (enables : Enables) (rest : List Entry) (s t : State) (pr : Profile)
    (error : Option Nat) (a : Nat),
    s.cmd.profile = some pr →
    (a < ringAddress pr g.frame g.card 0 ∨ ringAddress pr g.frame g.card 0 + 16 ≤ a) →
    ((s.port p).queue = .view g data enables :: rest ∧ exec (.viewEntryPerformance p (.whole error)) s = .next t ∨
     (s.port p).queue = .stream g data enables :: rest ∧
       exec (.streamEntryPerformance p (.whole error)) s = .next t) →
    SameByte s t a

/-- ENTRY_WITHOUT_HOLD: an entry without effect on a card that needs no initialising, and a PLAIN or PROFILE entry with all
enables clear, leave the queue as performed; such a PLAIN entry in the held ring ends with WRITE_LOST, reason RING_HELD
(R16, R51, R85, R90). -/
def Obligations.EntryRemovedWithoutHold : Prop :=
  ∀ (p : Port) (s : State) (e : Entry) (rest : List Entry), s.inReset = false → s.executorIdle p = true →
    (s.port p).queue = e :: rest →
    ((∃ g data enables, (e = .view g data enables ∨ e = .stream g data enables) ∧ s.withoutEffect g = true ∧
        s.needsInit g.frame g.card = false) ∨
     (∃ a data, e = .profile a data 0) ∨
     (∃ a data, e = .plain a data 0 ∧ (s.inRawRing a && s.seq.tracking.ringHeld) = false) →
      exec (.entryWithoutHold p) s = .next (State.settle none s (s.removeHead p))) ∧
    (∀ a data, e = .plain a data 0 → (s.inRawRing a && s.seq.tracking.ringHeld) = true →
      exec (.entryWithoutHold p) s =
        .next (State.settle none s ((s.removeHead p).produce
          { kind := .writeLost, source := portSource p, count := 2, detail := wordOf a, data := data })))

/-- CARD_INITIALISATION, DEMAND_INITIALISATION and MARKING_INITIALISATION: the four words of the record are written as R8
gives them, and the card joins the init set while another card is still missing (R8, R102, R103, R144). That the words are
written in ascending order is the model's choice (log entry 13), and so is that each grant of the Ring Sequencer counts for the
alternation of R115 (log entry 34). -/
def Obligations.InitialisationWritesRecord : Prop :=
  (∀ (pr : Profile) (f c : Nat), initWrites pr f c =
    [(ringAddress pr f c 0, recordWord0 1 0 0 0 (BitVec.ofNat 8 f)), (ringAddress pr f c 1, 0),
     (ringAddress pr f c 2, 0), (ringAddress pr f c 3, 0)]) ∧
  (∀ (s : State) (pr : Profile) (f c : Nat), s.cmd.profile = some pr → s.canGrant .sequencer .cardInit = true →
    s.nextInit = some (f, c) →
    ∃ t, exec (.cardInitialisation (.whole none)) s = .next t ∧ t.mem = writesTo s.mem (initWrites pr f c) ∧
      ((∃ d ∈ usedCards pr, d ≠ c ∧ d ∉ s.seq.initSet) →
        t.seq = { s.seq with initSet := s.seq.initSet ++ [c], lastWasScan := false } ∧ SamePorts s t ∧ SameBlocks s t ∧
        t.time = s.time)) ∧
  (∀ (s : State) (pr : Profile) (f c : Nat), s.cmd.profile = some pr → s.canGrant .sequencer .markInit = true →
    s.nextInit = some (f, c) →
    ∃ t, exec (.markingInitialisation (.whole none)) s = .next t ∧ t.mem = writesTo s.mem (initWrites pr f c) ∧
      ((∃ d ∈ usedCards pr, d ≠ c ∧ d ∉ s.seq.initSet) →
        t.seq = { s.seq with initSet := s.seq.initSet ++ [c], lastWasScan := false } ∧ SamePorts s t ∧ SameBlocks s t ∧
        t.time = s.time)) ∧
  (∀ (s : State) (pr : Profile) (p : Port) (g : Target) (purpose : InitFor), s.cmd.profile = some pr →
    s.canGrant (portRequester p) .demandInit = true → s.demandTarget p = some (g, purpose) →
    s.needsInit g.frame g.card = true →
    ∃ t, exec (.demandInitialisation p (.whole none)) s = .next t ∧
      t.mem = writesTo s.mem (initWrites pr g.frame g.card) ∧
      ((∃ d ∈ usedCards pr, d ≠ g.card ∧ d ∉ s.seq.initSet) →
        t.seq = { s.seq with initSet := s.seq.initSet ++ [g.card] } ∧ SamePorts s t ∧ SameBlocks s t ∧ t.time = s.time))

/-- PLAIN_WRITE, and PROFILE_WRITE of a word that is not watched: enabled bytes from the data, the others from memory, and
nothing else in memory (R86). A PLAIN write that finds its address in the held ring at its grant makes no access and ends with
WRITE_LOST, reason RING_HELD (R16, R86, R90). -/
def Obligations.PlainAndProfileWritesStore : Prop :=
  ∀ (p : Port) (a : Nat) (data : Word) (enables : Enables) (rest : List Entry) (s : State),
    s.canGrant (portRequester p) .own = true →
    ((s.port p).queue = .plain a data enables :: rest → (s.inRawRing a && s.seq.tracking.ringHeld) = false →
      ∃ t, exec (.plainWrite p (.whole none)) s = .next t ∧
        t.mem = s.mem.writeWord a (leftInMemory s.mem a enables data) ∧
        (∀ x, (x < a ∨ a + 4 ≤ x) → SameByte s t x) ∧ HeadGone p rest s t ∧ SameInner s t ∧ SameReportRegisters s t) ∧
    ((s.port p).queue = .profile a data enables :: rest → s.profileRow a data enables = .plain →
      ∃ t, exec (.profileWrite p (.whole none)) s = .next t ∧
        t.mem = s.mem.writeWord a (leftInMemory s.mem a enables data) ∧
        (∀ x, (x < a ∨ a + 4 ≤ x) → SameByte s t x) ∧ HeadGone p rest s t ∧ SameInner s t ∧ SameReportRegisters s t) ∧
    (∀ error, (s.port p).queue = .plain a data enables :: rest → (s.inRawRing a && s.seq.tracking.ringHeld) = true →
      exec (.plainWrite p (.whole error)) s =
        .next (State.settle none s (((s.grantTo (portRequester p)).removeHead p).produce
          { kind := .writeLost, source := portSource p, count := 2, detail := wordOf a, data := data })))

/-- A memory ERROR: a PLAIN write ends with WRITE_LOST, reason MEMORY_ERROR, and leaves memory alone (R90), a pending PLAIN read is
answered ERROR (R84), and on a status write, an access of the part's own, it is a MEMORY fault: in UNCONFIGURED, IDLE and LOST it
is counted and makes a FAULT report and changes nothing else, in RUNNING and ADVANCING it is a hard fault, and in MARKING it is the
entry into HALTED (R91, R142, R143, R145). The failed status word is not made due by that fault, and the FAULT report of the
word of W is marked so that its admission does not make that word due (R162) (log entries 17 and 30). That the grant of a status write alone counts for the alternation of R161 is the model's choice
(log entry 34). -/
def Obligations.MemoryErrorsEndUnits : Prop :=
  (∀ (p : Port) (a : Nat) (data : Word) (enables : Enables) (rest : List Entry) (s : State),
    s.canGrant (portRequester p) .own = true → (s.port p).queue = .plain a data enables :: rest →
    (s.inRawRing a && s.seq.tracking.ringHeld) = false →
    exec (.plainWrite p (.whole (some 0))) s =
      .next (State.settle none s (((s.grantTo (portRequester p)).removeHead p).produce
        { kind := .writeLost, source := portSource p, count := 1, detail := wordOf a, data := data }))) ∧
  (∀ (p : Port) (a : Nat) (s : State),
    s.canGrant (portRequester p) .own = true → (s.port p).queue = [] → (s.port p).pending = some (.plain a) →
    ∃ t, exec (.pendingPlainRead p (.whole (some 0))) s = .next t ∧
      t.port p = { s.port p with pending := none, answer := some .error } ∧ SameButPort p s t) ∧
  (∀ (s : State) (n : Nat) (rest : List Nat), s.canGrant .report .status = true → s.rep.due = n :: rest →
    ∃ t, exec (.statusWordWrite (.whole (some 0))) s = .next t ∧ t.mem = s.mem ∧
      t.seq.faultCount = min (s.seq.faultCount + 1) 65535 ∧ t.seq.head = s.seq.head ∧
      (s.seq.tracking = .unconfigured ∨ s.seq.tracking = .idle ∨ s.seq.tracking = .lost →
        t = State.settle (some n) s (({ s.grantTo .report with
          seq := { s.seq with faultCount := min (s.seq.faultCount + 1) 65535 }
          rep := { s.rep with
            due := s.rep.due.filter (fun m => decide (m ≠ n)), changedAgain := false, lastWasStatus := true } }).produce
              { kind := .fault, source := .sequencer, frame := s.seq.head, lane := 2, row := stageNumber s.seq.advance
                count := min (s.seq.faultCount + 1) 65535, detail := 2, data := wordOf (s.blockBase + 0x40 + 4 * n)
                ofStatusW := decide (n = 6) })) ∧
      (∀ pr, s.cmd.profile = some pr → s.seq.tracking = .running ∨ s.seq.tracking = .advancing →
        (t.seq.tracking = .marking ∨ t.seq.tracking = .lost) ∧ t.seq.faultCause = some .memory ∧ t.seq.advance = none ∧
        t.seq.pendingIndex = 0 ∧ t.claims = [] ∧ t.time.running = none ∧ t.pins.rej = 0xFF) ∧
      (s.seq.tracking = .marking →
        t.seq.tracking = .halted ∧ t.seq.marking = none ∧ t.seq.faultCause = s.seq.faultCause ∧
        t.cmd.waitingBusy = none ∧ t.cmd.waitingResult = none ∧ (s.rep.writing = none → t.rep.queue = []) ∧ t.pins.rej = 0xFF ∧
        SamePorts s t))

/-- PENDING_PLAIN_READ answers memory's word, PENDING_VIEW_READ the record's word composed with the staged word of a claim of
the same port, and a view read whose frame is gone is answered ERROR (R31, R32, R74, R84). That the last needs no grant is
the model's choice (log entry 25). -/
def Obligations.PendingReadsAnswer : Prop :=
  ∀ (p : Port) (s : State), (s.port p).queue = [] →
    (∀ a, (s.port p).pending = some (.plain a) → s.canGrant (portRequester p) .own = true →
      ∃ t, exec (.pendingPlainRead p (.whole none)) s = .next t ∧
        t.port p = { s.port p with pending := none, answer := some (.data (s.mem.readWord a)) } ∧ SameButPort p s t) ∧
    (∀ g pr, s.cmd.profile = some pr → (s.port p).pending = some (.view g) → s.resident g.frame = true →
      s.canGrant (portRequester p) .own = true →
      ∃ t, exec (.pendingViewRead p (.whole none)) s = .next t ∧ SameButPort p s t ∧
        (t.port p).pending = none ∧
        ((∀ c, s.claimOn g.frame g.card = some c → c.port ≠ p ∨ c.staged.get g.word = none) →
          (t.port p).answer = some (.data (s.mem.readWord (ringAddress pr g.frame g.card g.word)))) ∧
        (∀ c w, s.claimOn g.frame g.card = some c → c.port = p → c.staged.get g.word = some w →
          (t.port p).answer =
            some (.data (mergeBytes w.enables (s.mem.readWord (ringAddress pr g.frame g.card g.word)) w.data)))) ∧
    (∀ g, (s.port p).pending = some (.view g) → s.resident g.frame = false → s.inReset = false →
      s.holder ≠ some (portRequester p) →
      ∃ t, exec (.pendingViewRead p (.whole none)) s = .next t ∧
        t.port p = { s.port p with pending := none, answer := some .error } ∧ SameButPort p s t)

/-! ## Commands of software -/

/-- APPLY taken in UNCONFIGURED or IDLE: IN_PROGRESS waits, the candidate is empty and the profile reads begin; each
APPLY_PROFILE_READ before the last adds the next word of the profile block to the candidate, and so does the end of a read under
its hold, after which the checks are still to be made (R133). That they may come in a step of their own is the model's choice
(log entry 20), and so is that the grant of a profile read alone counts for the alternation of R131 (log entry 34). -/
def Obligations.ApplyReadsProfile : Prop :=
  (∀ (p : Port) (a : Nat) (data v : Word) (enables : Enables) (rest : List Entry) (s : State),
    WritesRow s p a data enables rest .apply v → s.cmd.running = none →
    (s.seq.tracking = .unconfigured ∨ s.seq.tracking = .idle) →
    ∃ t, exec (.apply p (.whole none)) s = .next t ∧ RowWritten s t p a rest v ∧
      t.cmd = { s.cmd with
        running := some (.apply (commandTag v)), candidate := [], lastWasOutcome := false
        waitingResult := some { tag := commandTag v, code := .inProgress, detail := 0 } } ∧
      t.seq = s.seq ∧ t.time = s.time ∧ t.view = s.view ∧ t.claims = s.claims ∧ t.disch = s.disch ∧ SameReportRegisters s t) ∧
  (∀ (s : State) (tag : Byte), s.canGrant .command .profileRead = true → s.cmd.running = some (.apply tag) →
    s.cmd.candidate.length < 255 →
    ∃ t, exec (.applyProfileRead (.whole none)) s = .next t ∧ SameMemory s t ∧ SamePorts s t ∧
      t.cmd = { s.cmd with
        candidate := s.cmd.candidate ++ [s.mem.readWord (s.blockBase + 4 * s.cmd.candidate.length)]
        lastWasOutcome := false } ∧
      t.seq = s.seq ∧ t.view = s.view ∧ t.disch = s.disch ∧ SameReportRegisters s t) ∧
  (∀ (s : State) (tag : Byte) (n : Nat), s.arb.hold = some (.profileRead n) → s.cmd.running = some (.apply tag) →
    ∃ t, exec (.applyProfileRead (.finish none)) s = .next t ∧ SameMemory s t ∧ SamePorts s t ∧
      t.cmd = { s.cmd with candidate := s.cmd.candidate ++ [s.mem.readWord (s.blockBase + 4 * n)] } ∧
      t.seq = s.seq ∧ t.view = s.view ∧ t.disch = s.disch ∧ SameReportRegisters s t)

/-- The checks on the candidate, made with the last profile read or in a step of their own after it (the model's choice, log
entry 20): a failed check discards the candidate and changes nothing but the outcome (R136); with every check passed the
candidate is the active profile, every block takes the values of R135, and a record write then under its hold is not admitted
in the new numbering (R156), whether or not its report is displaced from the queue (R149) (log entry 18). An UNDISCHARGED report,
detail APPLIED, is made for the rows that were left (R126, R127), at the level of the new profile (log entry 21). That the grant
of the last profile read counts for the alternation of R131 is the model's choice (log entry 34). -/
def Obligations.ApplyEnds : Prop :=
  ∀ (s : State) (tag : Byte) (ws : List Word) (i : Instr) (last : Bool), s.cmd.running = some (.apply tag) →
    ((i = .applyProfileRead (.whole none) ∧ s.canGrant .command .profileRead = true ∧ s.cmd.candidate.length = 255 ∧
        ws = s.cmd.candidate ++ [s.mem.readWord (s.blockBase + 4 * 255)] ∧ last = false) ∨
     (i = .applyProfileRead (.finish none) ∧ s.inReset = false ∧ s.holdIs isProfileRead = false ∧
        s.cmd.candidate.length = 256 ∧ ws = s.cmd.candidate ∧ last = s.cmd.lastWasOutcome)) →
    (∀ check slot, profileFailure s.blockBase ws = some (check, slot) →
      ∃ t, exec i s = .next t ∧ SameMemory s t ∧ SamePorts s t ∧
        t.cmd = { s.cmd with
          running := none, candidate := [], lastWasOutcome := last
          waitingResult := some { tag := tag, code := .invalidProfile
                                  detail := BitVec.ofNat 8 slot ++ BitVec.ofNat 8 check } } ∧
        t.seq = s.seq ∧ t.view = s.view ∧ t.time = s.time ∧ t.disch = s.disch ∧ t.claims = s.claims ∧
        t.rep.writing = s.rep.writing ∧ SameReportRegisters s t) ∧
    (profileFailure s.blockBase ws = none →
      ∃ t u : State, exec i s = .next t ∧ t = State.settle none s (u.produceAll [undischargedOf s.disch 3]) ∧
        u.rep.queue = s.rep.queue ∧ u.rep.dropped = s.rep.dropped ∧
        u.rep.writing = s.rep.writing.map (fun w => { w with superseded := true }) ∧
        u.choices = s.choices ∧ u.seq = t.seq ∧ u.time = t.time ∧ u.cmd = t.cmd ∧ SameMemory s t ∧ SamePorts s t ∧
        t.cmd = { s.cmd with
          profile := some (profileOf ws), running := none, candidate := [], lastWasOutcome := last
          waitingResult := some { tag := tag, code := .done, detail := 0 } } ∧
        t.seq = { s.seq with tracking := .idle, ringValid := false, initSet := [], underInit := none } ∧
        (∀ i, (t.view.get i).currentFrame = none ∧ (t.view.get i).cursor = .none ∧ (t.view.get i).held = 0 ∧
          (t.view.get i).overflow = 0) ∧
        t.time = { s.time with
          divider := (profileOf ws).divider, cycles := 0
          deadlines := ⟨.disarmed, .disarmed, .disarmed, .disarmed, .disarmed, .disarmed, .disarmed, .disarmed⟩
          scans := [], running := none } ∧
        (s.disch.loaded = none → t.disch = s.disch) ∧
        (s.disch.loaded.isSome = true → t.disch = { s.disch with pointer := s.disch.rowCount + 1 }) ∧
        t.rep.writeSeq = 1 ∧ t.rep.readSeq = 1 ∧ t.rep.markA = none ∧ t.rep.markA7 = none ∧
        t.rep.fillLatch = false ∧ t.rep.readPointerDue = true ∧ t.rep.quiet = s.rep.quiet ∧
        (∀ n, n < 15 → n ∈ t.rep.due) ∧ (∀ n v, s.arb.hold = some (.status n v) → n < 15 → t.rep.changedAgain = true) ∧
        (s.rep.writing = none → t.rep.writing = none) ∧
        (∀ w, s.rep.writing = some w → ∃ queued, t.rep.writing = some { w with superseded := true, queued := queued }))

/-- START FRESH taken in IDLE: the new H is the first frame, ring-valid is set, a START initialisation begins, and only slots
of offset 0 get a current frame, with their cursor at step 0 and their deadline armed (R9, R18, R46, R100, R112, R137). -/
def Obligations.StartFreshTaken : Prop :=
  ∀ (p : Port) (a : Nat) (data v : Word) (enables : Enables) (rest : List Entry) (s : State) (pr : Profile),
    WritesRow s p a data enables rest .startFresh v → s.cmd.running = none → s.seq.tracking = .idle →
    s.cmd.profile = some pr → (commandParameter v).toNat = 1 → s.seq.head < 4294967295 →
    ∃ t, exec (.startFresh p (.whole none)) s = .next t ∧ RowWritten s t p a rest v ∧
      t.seq = { s.seq with
        head := s.seq.head + 1, firstFrame := s.seq.head + 1, ringValid := true, tracking := .advancing, initSet := []
        underInit := some (s.seq.head + 1)
        advance := some { kind := .start, stage := .initialising, acceptedAt := s.time.counter, departures := []
                          check := none, judgeFrame := none, judge := none } } ∧
      t.cmd = { s.cmd with
        running := some (.startFresh (commandTag v))
        waitingResult := some { tag := commandTag v, code := .inProgress, detail := 0 } } ∧
      (∀ i, (pr.slots.get i).enabled = true → (pr.slots.get i).offset = 0 →
        (t.view.get i).currentFrame = some (s.seq.head + 1) ∧ (t.view.get i).cursor = .step 0 ∧
        ((pr.slots.get i).deadline ≠ 0 →
          t.time.deadlines.get i = .armed (s.seq.head + 1) (s.time.counter + wordOf (pr.slots.get i).deadline))) ∧
      (∀ i, (pr.slots.get i).enabled = true → (pr.slots.get i).offset ≠ 0 →
        (t.view.get i).currentFrame = none ∧ (t.view.get i).cursor = .none ∧ t.time.deadlines.get i = .disarmed) ∧
      t.claims = s.claims ∧ t.disch = s.disch ∧ SameReportRegisters s t

/-- START CARRY: with ring-valid true the ring is taken up as it stands, the deadlines are armed and DONE is produced, with
ring-valid false it is refused INVALID_PARAMETER and changes nothing else (R18, R46, R112, R138). -/
def Obligations.StartCarryTaken : Prop :=
  ∀ (p : Port) (a : Nat) (data v : Word) (enables : Enables) (rest : List Entry) (s : State) (pr : Profile),
    WritesRow s p a data enables rest .startCarry v → s.cmd.running = none → s.seq.tracking = .idle →
    s.cmd.profile = some pr →
    ∃ t, exec (.startCarry p (.whole none)) s = .next t ∧ RowWritten s t p a rest v ∧ t.claims = s.claims ∧
      t.disch = s.disch ∧ SameReportRegisters s t ∧
      (s.seq.ringValid = true →
        t.seq = { s.seq with tracking := .running } ∧
        t.cmd = { s.cmd with waitingResult := some { tag := commandTag v, code := .done, detail := 0 } } ∧
        t.time = { s.time with deadlines := t.time.deadlines } ∧
        (∀ i, (pr.slots.get i).enabled = false → t.view.get i = s.view.get i ∧ t.time.deadlines.get i = .disarmed) ∧
        ∀ i, (pr.slots.get i).enabled = true →
          (s.seq.firstFrame + (pr.slots.get i).offset ≤ s.seq.head →
            t.view.get i = { s.view.get i with
              currentFrame := some (s.seq.head - (pr.slots.get i).offset), cursor := .step 0 } ∧
            ((pr.slots.get i).deadline = 0 → t.time.deadlines.get i = .disarmed) ∧
            ((pr.slots.get i).deadline ≠ 0 →
              t.time.deadlines.get i = .armed (s.seq.head - (pr.slots.get i).offset)
                (s.time.counter + wordOf (pr.slots.get i).deadline))) ∧
          (s.seq.head < s.seq.firstFrame + (pr.slots.get i).offset →
            t.view.get i = { s.view.get i with currentFrame := none, cursor := .none } ∧
            t.time.deadlines.get i = .disarmed)) ∧
      (s.seq.ringValid = false →
        t.seq = s.seq ∧ t.view = s.view ∧ t.time = s.time ∧
        t.cmd = { s.cmd with waitingResult := some { tag := commandTag v, code := .invalidParameter, detail := 2 } })

/-- STOP taken in RUNNING: IDLE, DONE, every current frame none, every group torn, the view entries of both ports and a
pending view read gone, deadlines disarmed and scans ended (R18, R33, R46, R78, R93, R112, R114, R139). The reports of it are
produced together on the part as the event leaves it: STAGE_TORN for each group, oldest first, with reason STOPPED, ABANDONED
for each port that lost entries, and for each enabled slot CURSOR_RESYNC of its held values and STREAM_OVERFLOW of its dropped
ones (R39, R44, R75, R94; the free numbers of two details are log entry 28). -/
def Obligations.StopTaken : Prop :=
  ∀ (p : Port) (a : Nat) (data v : Word) (enables : Enables) (rest : List Entry) (s : State) (pr : Profile),
    WritesRow s p a data enables rest .stop v → s.cmd.running = none → s.seq.tracking = .running →
    s.cmd.profile = some pr →
    let discards (q : Port) : List Content :=
      let gone := ((if q = p then rest else (s.port q).queue).filter fun e => e.isView).length
      if gone = 0 then [] else [{ kind := .abandoned, source := portSource q, count := gone, detail := 2, data := 0 }]
    let held (i : Fin 8) : List Content :=
      if (s.view.get i).held = 0 then [] else [heldDroppedOf pr i (s.view.get i)]
    let overflows (i : Fin 8) : List Content :=
      if (s.view.get i).overflow = 0 then [] else [overflowOf pr i (s.view.get i)]
    let slots := slotNumbers.filter fun i => (pr.slots.get i).enabled
    ∃ t u : State, exec (.stop p (.whole none)) s = .next t ∧
      t = State.settle none s (u.produceAll
        ((s.claims.map (tornOf pr 5)) :: discards .a :: discards .b :: slots.flatMap fun i => [held i, overflows i])) ∧
      u.rep = s.rep ∧ u.choices = s.choices ∧ u.seq = t.seq ∧ u.time = t.time ∧ u.cmd = t.cmd ∧
      t.time.counter = s.time.counter ∧ t.mem = s.mem.writeWord a v ∧
      t.seq = { s.seq with tracking := .idle } ∧
      t.cmd = { s.cmd with waitingResult := some { tag := commandTag v, code := .done, detail := 0 } } ∧
      t.claims = [] ∧ t.disch = s.disch ∧ t.rep.quiet = s.rep.quiet ∧
      (t.port p).queue = rest.filter (fun e => !e.isView) ∧
      (t.port (otherPort p)).queue = (s.port (otherPort p)).queue.filter (fun e => !e.isView) ∧
      (∀ g, (s.port (otherPort p)).pending = some (.view g) →
        (t.port (otherPort p)).pending = none ∧ (t.port (otherPort p)).answer = some .error) ∧
      (∀ b, (s.port (otherPort p)).pending = some (.plain b) → (t.port (otherPort p)).pending = some (.plain b)) ∧
      (∀ g, (s.port p).pending = some (.view g) → (t.port p).pending = none ∧ (t.port p).answer = some .error) ∧
      (∀ b, (s.port p).pending = some (.plain b) → (t.port p).pending = some (.plain b)) ∧
      (∀ i, (pr.slots.get i).enabled = true →
        (t.view.get i).currentFrame = none ∧ (t.view.get i).cursor = .none ∧ (t.view.get i).held = 0 ∧
        (t.view.get i).overflow = 0) ∧
      (∀ i, t.time.deadlines.get i = .disarmed) ∧ t.time.scans = [] ∧ t.time.running = none

/-- RECOVER taken in LOST: fault cause NONE, IDLE, the rows cleared, with an UNDISCHARGED report, detail RECOVERED, when rows were
left, and DONE (R126, R127, R140). -/
def Obligations.RecoverTaken : Prop :=
  ∀ (p : Port) (a : Nat) (data v : Word) (enables : Enables) (rest : List Entry) (s : State),
    WritesRow s p a data enables rest .recover v → s.cmd.running = none → s.seq.tracking = .lost →
    ∃ t u : State, exec (.recover p (.whole none)) s = .next t ∧ RowWritten s t p a rest v ∧
      t = State.settle none s (u.produceAll [undischargedOf s.disch 2]) ∧
      u.rep = s.rep ∧ u.choices = s.choices ∧ u.seq = t.seq ∧ u.time = t.time ∧ u.cmd = t.cmd ∧
      t.seq = { s.seq with faultCause := none, tracking := .idle } ∧
      t.cmd = { s.cmd with waitingResult := some { tag := commandTag v, code := .done, detail := 0 } } ∧
      (s.disch.loaded.isSome = true → t.disch = { s.disch with pointer := s.disch.rowCount + 1 }) ∧
      (s.disch.loaded = none → t.disch = s.disch) ∧
      t.view = s.view ∧ t.claims = s.claims ∧ t.time = s.time ∧ SameReportRegisters s t

/-- QUIET: taken in every state except HALTED, its parameter is the new quiet count, 0 is refused INVALID_PARAMETER, DONE is
produced and nothing else changes (R141). -/
def Obligations.QuietTaken : Prop :=
  ∀ (p : Port) (a : Nat) (data v : Word) (enables : Enables) (rest : List Entry) (s : State),
    WritesRow s p a data enables rest .quiet v → s.cmd.running = none →
    ∃ t, exec (.quiet p (.whole none)) s = .next t ∧ RowWritten s t p a rest v ∧
      t.seq = s.seq ∧ t.view = s.view ∧ t.claims = s.claims ∧ t.time = s.time ∧ t.disch = s.disch ∧
      t.rep.writeSeq = s.rep.writeSeq ∧ t.rep.readSeq = s.rep.readSeq ∧ t.rep.markA = s.rep.markA ∧
      t.rep.markA7 = s.rep.markA7 ∧ t.rep.fillLatch = s.rep.fillLatch ∧ t.rep.queue <:+ s.rep.queue ∧
      (s.seq.tracking ≠ .halted → (commandParameter v).toNat ≠ 0 →
        t.rep.quiet = (commandParameter v).toNat ∧
        t.cmd = { s.cmd with waitingResult := some { tag := commandTag v, code := .done, detail := 0 } }) ∧
      (s.seq.tracking ≠ .halted → (commandParameter v).toNat = 0 →
        t.rep.quiet = s.rep.quiet ∧
        t.cmd = { s.cmd with
          waitingResult := some { tag := commandTag v, code := .invalidParameter, detail := commandParameter v } }) ∧
      (s.seq.tracking = .halted → t.rep.quiet = s.rep.quiet ∧ t.cmd = s.cmd)

/-- A command word that is refused changes an outcome and nothing else, by the first line of R130 that matches: while a command is
in progress it is BUSY with that command's code; a code that names no command is UNKNOWN_COMMAND with the code; STOP in
ADVANCING is BUSY with 0; in a state in which the command is not allowed it is WRONG_STATE with the tracking state; a START
with a parameter other than FRESH and CARRY, or FRESH with H at 4,294,967,295, is INVALID_PARAMETER with the parameter (R130,
R132, R137). That such a START is the row START_FRESH of the table is the model's deduction (log entry 16). In HALTED no command word is taken (R145), and one with code 0 does nothing (R129). -/
def Obligations.CommandsWithoutEffect : Prop :=
  ∀ (p : Port) (a : Nat) (data v : Word) (enables : Enables) (rest : List Entry) (s : State),
    (∀ row i, commandOfRow row p = some i → WritesRow s p a data enables rest row v →
      (s.seq.tracking = .halted →
        ∃ t, exec i s = .next t ∧ RowWritten s t p a rest v ∧ SameInner s t ∧ SameReportRegisters s t) ∧
      (∀ r, s.seq.tracking ≠ .halted → s.cmd.running = some r →
        ∃ t, exec i s = .next t ∧ RowWritten s t p a rest v ∧
          OnlyBusy s t { tag := commandTag v, code := .busy, detail := BitVec.ofNat 16 (runningCode r) }) ∧
      (s.cmd.running = none → s.seq.tracking ≠ .halted → ¬rowAllowedIn row s.seq.tracking →
        ¬(row = .stop ∧ s.seq.tracking = .advancing) →
        ∃ t, exec i s = .next t ∧ RowWritten s t p a rest v ∧
          OnlyResult s t { tag := commandTag v, code := .wrongState
                           detail := BitVec.ofNat 16 (trackingCode s.seq.tracking) })) ∧
    (WritesRow s p a data enables rest .unknown v → s.cmd.running = none → s.seq.tracking ≠ .halted →
      ∃ t, exec (.unknownCommand p (.whole none)) s = .next t ∧ RowWritten s t p a rest v ∧
        OnlyResult s t { tag := commandTag v, code := .unknownCommand, detail := BitVec.ofNat 16 (commandCode v) }) ∧
    (WritesRow s p a data enables rest .none v →
      ∃ t, exec (.commandCodeNone p (.whole none)) s = .next t ∧ RowWritten s t p a rest v ∧ SameInner s t ∧
        SameReportRegisters s t) ∧
    (WritesRow s p a data enables rest .stop v → s.cmd.running = none → s.seq.tracking = .advancing →
      ∃ t, exec (.stop p (.whole none)) s = .next t ∧ RowWritten s t p a rest v ∧
        OnlyBusy s t { tag := commandTag v, code := .busy, detail := 0 }) ∧
    (WritesRow s p a data enables rest .startFresh v → s.cmd.running = none → s.seq.tracking = .idle →
      ((commandParameter v).toNat ≠ 1 ∨ s.seq.head = 4294967295) →
      ∃ t, exec (.startFresh p (.whole none)) s = .next t ∧ RowWritten s t p a rest v ∧
        OnlyResult s t { tag := commandTag v, code := .invalidParameter, detail := commandParameter v })

/-- RESULT_WORD_WRITE writes the waiting BUSY before the waiting result, with the tag, outcome and detail where 11.2 places
them (R131). That each of these grants counts for the alternation of R131, also one made alone, is the model's choice (log
entry 34). -/
def Obligations.ResultWordWritten : Prop :=
  (∀ o : CommandOutcome, (resultWord o).extractLsb' 0 8 = o.tag ∧
    (resultWord o).extractLsb' 8 8 = BitVec.ofNat 8 (outcomeCode o.code) ∧ (resultWord o).extractLsb' 16 16 = o.detail) ∧
  (∀ (s : State) (o : CommandOutcome), s.canGrant .command .outcome = true →
    (s.cmd.waitingBusy = some o →
      ∃ t, exec (.resultWordWrite (.whole none)) s = .next t ∧
        t.mem = s.mem.writeWord (s.blockBase + 4) (resultWord o) ∧
        t.cmd = { s.cmd with waitingBusy := none, lastWasOutcome := true } ∧ SamePorts s t ∧
        t.seq = s.seq ∧ t.view = s.view ∧ t.claims = s.claims ∧ t.time = s.time ∧ t.disch = s.disch ∧
        SameReportRegisters s t) ∧
    (s.cmd.waitingBusy = none → s.cmd.waitingResult = some o →
      ∃ t, exec (.resultWordWrite (.whole none)) s = .next t ∧
        t.mem = s.mem.writeWord (s.blockBase + 4) (resultWord o) ∧
        t.cmd = { s.cmd with waitingResult := none, lastWasOutcome := true } ∧ SamePorts s t ∧
        t.seq = s.seq ∧ t.view = s.view ∧ t.claims = s.claims ∧ t.time = s.time ∧ t.disch = s.disch ∧
        SameReportRegisters s t))

/-- READ_POINTER_WRITE: a value from Rs to W becomes Rs, and the fill latch sets with free at the hold-on mark or below, clears
with free at the hold-off mark or above, and else keeps its value (R154, R159). Any other value is ignored with a
READ_POINTER_INVALID report (R154). In HALTED every value is ignored (R164). -/
def Obligations.ReadPointerMoves : Prop :=
  ∀ (p : Port) (a : Nat) (data v : Word) (enables : Enables) (rest : List Entry) (s : State),
    WritesRow s p a data enables rest .readPointer v →
    ∃ t, exec (.readPointerWrite p (.whole none)) s = .next t ∧ RowWritten s t p a rest v ∧ SameInner s t ∧
      t.rep.writeSeq = s.rep.writeSeq ∧ t.rep.quiet = s.rep.quiet ∧ t.rep.markA = s.rep.markA ∧
      t.rep.markA7 = s.rep.markA7 ∧
      (s.seq.tracking ≠ .halted → s.rep.readSeq ≤ v.toNat → v.toNat ≤ s.rep.writeSeq →
        t.rep.readSeq = v.toNat ∧ (s.cmd.profile = none → t.rep.fillLatch = s.rep.fillLatch) ∧
        ∀ pr, s.cmd.profile = some pr → LatchFollows pr (pr.capacity - (s.rep.writeSeq - v.toNat)) s t) ∧
      (s.seq.tracking ≠ .halted → v.toNat < s.rep.readSeq ∨ s.rep.writeSeq < v.toNat →
        t = State.settle none s ((({ s.grantTo (portRequester p) with mem := s.mem.writeWord a v }).removeHead p).produce
          { kind := .readPointerInvalid, source := portSource p, count := s.rep.writeSeq - s.rep.readSeq
            detail := wordOf s.rep.writeSeq, data := v })) ∧
      (s.seq.tracking = .halted ∨ v.toNat < s.rep.readSeq ∨ s.rep.writeSeq < v.toNat →
        t.rep.readSeq = s.rep.readSeq ∧ t.rep.fillLatch = s.rep.fillLatch)

/-- QUIET_EXTEND_WRITE: while the quiet count is 1 or more the value replaces it, at most 65535; while it is 0 the write is
ignored and makes no report (R158). In HALTED it is ignored (R164). -/
def Obligations.QuietExtendReplaces : Prop :=
  ∀ (p : Port) (a : Nat) (data v : Word) (enables : Enables) (rest : List Entry) (s : State),
    WritesRow s p a data enables rest .quietExtend v →
    ∃ t, exec (.quietExtendWrite p (.whole none)) s = .next t ∧ RowWritten s t p a rest v ∧ SameInner s t ∧
      t.rep.writeSeq = s.rep.writeSeq ∧ t.rep.readSeq = s.rep.readSeq ∧ t.rep.markA = s.rep.markA ∧
      t.rep.markA7 = s.rep.markA7 ∧
      (s.seq.tracking ≠ .halted → 1 ≤ s.rep.quiet → v.toNat ≤ 65535 → t.rep.quiet = v.toNat) ∧
      (s.seq.tracking ≠ .halted → 1 ≤ s.rep.quiet → 65535 < v.toNat → t.rep.quiet = 65535) ∧
      (s.rep.quiet = 0 ∨ s.seq.tracking = .halted → t.rep.quiet = s.rep.quiet ∧ t.rep.queue <:+ s.rep.queue)

/-! ## Advance -/

/-- INDEX_ARRIVAL in RUNNING: an advance is accepted. H grows by one, tracking is ADVANCING, the init set is emptied, every
enabled slot moves to its new frame with its cursor at step 0 and its deadline armed, or DISARMED with a deadline setting of 0;
a slot whose frame would lie below the first frame has no current frame, no cursor and a DISARMED deadline; the groups on
departing frames, and no other, are torn, the quiet count falls by one, and the departure list holds the pairs of the departing
frames in their order and no other (R18, R45, R76, R99, R104, R112, R157). The reports of it are produced together: STAGE_TORN
for each torn group, oldest first, with reason DEPARTED, and for each enabled slot in ascending number CURSOR_RESYNC of its held
values and then STREAM_OVERFLOW of its dropped ones (R39, R44, R45, R75), the free numbers of two details those of log entry 28
(model choice). That these reports carry the new H as their head is the model's deduction (log entry 14). -/
def Obligations.IndexAccepted : Prop :=
  ∀ (s : State) (pr : Profile), s.inReset = false → s.seq.tracking = .running → s.cmd.profile = some pr →
    s.seq.head < 4294967295 →
    let departs (c : Claim) : Prop :=
      s.seq.firstFrame + (pr.slots.get c.slot).offset ≤ s.seq.head ∧ c.frame = s.seq.head - (pr.slots.get c.slot).offset
    let held (i : Fin 8) : List Content :=
      if (s.view.get i).held = 0 then [] else [heldDroppedOf pr i (s.view.get i)]
    let overflows (i : Fin 8) : List Content :=
      if (s.view.get i).overflow = 0 then [] else [overflowOf pr i (s.view.get i)]
    let slots := slotNumbers.filter fun i => (pr.slots.get i).enabled
    ∃ t u : State, exec .indexArrival s = .next t ∧ SameMemory s t ∧ SamePorts s t ∧
      t = State.settle none s (u.produceAll
        [(s.claims.filter fun c => decide (departs c)).map (tornOf pr 1), slots.flatMap fun i => held i ++ overflows i]) ∧
      u.rep = { s.rep with quiet := s.rep.quiet - 1 } ∧ u.choices = s.choices ∧ u.seq = t.seq ∧ u.time = t.time ∧
      u.cmd = t.cmd ∧
      t.seq.head = s.seq.head + 1 ∧ t.seq.firstFrame = s.seq.firstFrame ∧ t.seq.ringValid = s.seq.ringValid ∧
      t.seq.tracking = .advancing ∧ t.seq.initSet = [] ∧ t.seq.underInit = some (s.seq.head + 1) ∧
      t.seq.pendingIndex = s.seq.pendingIndex ∧
      (∃ v, t.seq.advance = some v ∧ v.kind = .index ∧ v.stage = .initialising ∧ v.acceptedAt = s.time.counter ∧
        (s.seq.firstFrame + pr.dischargeOffset ≤ s.seq.head + 1 →
          v.judgeFrame = some (s.seq.head + 1 - pr.dischargeOffset)) ∧
        (s.seq.head + 1 < s.seq.firstFrame + pr.dischargeOffset → v.judgeFrame = none) ∧
        (∀ d, d ∈ v.departures ↔
          d.status = .waiting ∧ (pr.slots.get d.slot).enabled = true ∧
          s.seq.firstFrame + (pr.slots.get d.slot).offset ≤ s.seq.head ∧
          d.frame = s.seq.head - (pr.slots.get d.slot).offset) ∧
        v.departures.Pairwise fun d e =>
          (pr.slots.get d.slot).offset < (pr.slots.get e.slot).offset ∨
          ((pr.slots.get d.slot).offset = (pr.slots.get e.slot).offset ∧ d.slot < e.slot)) ∧
      (∀ i, (pr.slots.get i).enabled = true → s.seq.firstFrame + (pr.slots.get i).offset ≤ s.seq.head + 1 →
        (t.view.get i).currentFrame = some (s.seq.head + 1 - (pr.slots.get i).offset) ∧
        (t.view.get i).cursor = .step 0 ∧ (t.view.get i).held = 0 ∧ (t.view.get i).overflow = 0 ∧
        ((pr.slots.get i).deadline = 0 → t.time.deadlines.get i = .disarmed) ∧
        ((pr.slots.get i).deadline ≠ 0 →
          t.time.deadlines.get i =
            .armed (s.seq.head + 1 - (pr.slots.get i).offset) (s.time.counter + wordOf (pr.slots.get i).deadline))) ∧
      (∀ i, (pr.slots.get i).enabled = true → s.seq.head + 1 < s.seq.firstFrame + (pr.slots.get i).offset →
        (t.view.get i).currentFrame = none ∧ (t.view.get i).cursor = .none ∧ (t.view.get i).held = 0 ∧
        (t.view.get i).overflow = 0 ∧ t.time.deadlines.get i = .disarmed) ∧
      (∀ i, (pr.slots.get i).enabled = false → t.view.get i = s.view.get i ∧ t.time.deadlines.get i = .disarmed) ∧
      t.claims = s.claims.filter (fun c => !decide (departs c)) ∧
      t.time.counter = s.time.counter ∧ t.time.scans = s.time.scans ∧ t.time.running = s.time.running ∧
      t.rep.quiet = s.rep.quiet - 1 ∧ t.rep.writeSeq = s.rep.writeSeq ∧ t.rep.readSeq = s.rep.readSeq ∧
      t.rep.markA = s.rep.markA ∧ t.rep.markA7 = s.rep.markA7 ∧ t.rep.fillLatch = s.rep.fillLatch ∧
      t.disch = s.disch ∧ t.cmd = s.cmd

/-- INDEX_ARRIVAL behind an advance waits, and outside RUNNING and ADVANCING it is ignored and reported (R97, R98). -/
def Obligations.IndexWaitsOrIgnored : Prop :=
  ∀ s : State, s.inReset = false →
    (s.seq.tracking = .advancing → s.seq.pendingIndex = 0 →
      exec .indexArrival s = .next (State.settle none s { s with seq := { s.seq with pendingIndex := 1 } })) ∧
    (s.seq.tracking ≠ .running → s.seq.tracking ≠ .advancing →
      exec .indexArrival s = .next (State.settle none s (s.produce
        { kind := .indexIgnored, source := .sequencer, detail := wordOf (trackingCode s.seq.tracking)
          data := wordOf s.seq.head })))

/-- A second INDEX_ARRIVAL behind an advance, and one in RUNNING with H at 4,294,967,295 (R9), is a hard fault INDEX_OVERRUN: the
advance is abandoned, the pending index is cleared, every group is torn, the view entries not begun are gone, the begun entry
stays at the head of its port, a pending view read not under its hold is answered ERROR, and every reject line is asserted (R33,
R93, R97, R142, R143). START FRESH in progress ends WRONG_STATE with detail MARKING (R143). The reports of it are produced
together: FAULT, STAGE_TORN for each group, oldest first, with reason FAULT, ABANDONED for each port that lost entries, and for
each enabled slot CURSOR_RESYNC of its held values and STREAM_OVERFLOW of its dropped ones (R39, R44, R46, R75, R94, R142), the
free numbers of two details those of log entry 28 (model choice). -/
def Obligations.IndexOverrunEntersMarking : Prop :=
  ∀ (s : State) (pr : Profile), s.inReset = false →
    (s.seq.tracking = .advancing ∧ s.seq.pendingIndex = 1 ∨ s.seq.tracking = .running ∧ s.seq.head = 4294967295) →
    s.cmd.profile = some pr → s.seq.ringValid = true → s.seq.firstFrame ≤ s.seq.head → usedCards pr ≠ [] →
    let fault : Content :=
      { kind := .fault, source := .sequencer, frame := s.seq.head, lane := 0
        row := (match s.seq.advance.map Advance.stage with
          | none => 0
          | some .initialising => 1
          | some .checking => 2
          | some .judging => 3)
        count := min (s.seq.faultCount + 1) 65535, detail := 1, data := 0 }
    let notBegun (q : Port) : List Entry := if s.begun q then (s.port q).queue.tail else (s.port q).queue
    let discards (q : Port) : List Content :=
      let gone := ((notBegun q).filter fun e => e.isView).length
      if gone = 0 then [] else [{ kind := .abandoned, source := portSource q, count := gone, detail := 3, data := 0 }]
    let held (i : Fin 8) : List Content :=
      if (s.view.get i).held = 0 then [] else [heldDroppedOf pr i (s.view.get i)]
    let overflows (i : Fin 8) : List Content :=
      if (s.view.get i).overflow = 0 then [] else [overflowOf pr i (s.view.get i)]
    let slots := slotNumbers.filter fun i => (pr.slots.get i).enabled
    ∃ t u : State, exec .indexArrival s = .next t ∧
      t = State.settle none s (u.produceAll ([fault] :: s.claims.map (tornOf pr 6) :: discards .a :: discards .b ::
        slots.flatMap fun i => [held i, overflows i])) ∧
      u.rep = s.rep ∧ u.choices = s.choices ∧ u.seq = t.seq ∧ u.time = t.time ∧ u.cmd = t.cmd ∧
      t.time.counter = s.time.counter ∧ SameMemory s t ∧ t.seq.tracking = .marking ∧ t.seq.advance = none ∧
      t.seq.pendingIndex = 0 ∧ t.seq.faultCause = some .indexOverrun ∧
      t.seq.faultCount = min (s.seq.faultCount + 1) 65535 ∧
      t.seq.head = s.seq.head ∧ t.seq.firstFrame = s.seq.firstFrame ∧ t.seq.ringValid = s.seq.ringValid ∧
      t.seq.initSet = s.seq.initSet ∧ t.seq.underInit = s.seq.underInit ∧
      (∃ m, t.seq.marking = some m ∧ ∀ f, f ∈ m.frames ↔
        (s.seq.firstFrame ≤ f ∧ f ≤ s.seq.head ∧ s.seq.head ≤ f + pr.dischargeOffset)) ∧
      t.claims = [] ∧
      (∀ p, s.begun p = false → (t.port p).queue = (s.port p).queue.filter (fun e => !e.isView)) ∧
      (∀ p, s.begun p = true →
        (t.port p).queue = (s.port p).queue.take 1 ++ (s.port p).queue.tail.filter (fun e => !e.isView)) ∧
      (∀ p g, (s.port p).pending = some (.view g) → s.reading p = false →
        (t.port p).pending = none ∧ (t.port p).answer = some .error) ∧
      (∀ p g, (s.port p).pending = some (.view g) → s.reading p = true → (t.port p).pending = some (.view g)) ∧
      (∀ p b, (s.port p).pending = some (.plain b) → (t.port p).pending = some (.plain b)) ∧
      (∀ tag, s.cmd.running = some (.startFresh tag) →
        t.cmd = { s.cmd with running := none, waitingResult := some { tag := tag, code := .wrongState, detail := 4 } }) ∧
      ((∀ tag, s.cmd.running ≠ some (.startFresh tag)) → t.cmd = s.cmd) ∧ t.disch = s.disch ∧
      (∀ i, (pr.slots.get i).enabled = true →
        (t.view.get i).currentFrame = none ∧ (t.view.get i).cursor = .none ∧ (t.view.get i).held = 0 ∧
        (t.view.get i).overflow = 0) ∧
      (∀ i, (pr.slots.get i).enabled = false → t.view.get i = s.view.get i) ∧
      (∀ i, t.time.deadlines.get i = .disarmed) ∧ t.time.scans = [] ∧ t.time.running = none ∧
      t.pins.rej = 0xFF ∧ t.pins.hold = true

/-- DRAIN_WAIT_END: once no queued entry is mapped to the pair, its card check begins over the window's cards in ascending
order, or with exit condition NONE the pair is done: the next pair is begun, or after the last pair stage JUDGING begins,
or without a judgement frame the advance completes (R104, R105, R108, R109, R117). That the drain wait of the next pair, which
R105 ends at once when nothing of it is queued, ends in a step of its own is the model's deduction (log entry 29). -/
def Obligations.DrainWaitEnds : Prop :=
  ∀ (s : State) (pr : Profile) (v : Advance) (d : Departure), s.inReset = false → s.cmd.profile = some pr →
    s.seq.advance = some v → v.stage = .checking → drainingPair v.departures = some d →
    (∀ e ∈ s.portA.queue ++ s.portB.queue, e.mappedTo d.slot d.frame = false) →
    ((pr.slots.get d.slot).exit ≠ .none →
      exec .drainWaitEnd s = .next (State.settle none s { s with seq := { s.seq with
        advance := some { v with
          departures := pairChecking v.departures
          check := some { todo := windowCards pr (pr.slots.get d.slot), written := 0, first := none } } } })) ∧
    ((pr.slots.get d.slot).exit = .none → anyWaiting (pairDone .draining v.departures) = true →
      exec .drainWaitEnd s = .next (State.settle none s { s with seq := { s.seq with
        advance := some { v with departures := beginPair (pairDone .draining v.departures), check := none } } })) ∧
    (∀ f before, (pr.slots.get d.slot).exit = .none → v.departures = before ++ [d] → (∀ e ∈ before, e.status = .done) →
      v.judgeFrame = some f →
      exec .drainWaitEnd s = .next (State.settle none s { s with seq := { s.seq with
        advance := some { v with
          stage := .judging, departures := before ++ [{ d with status := .done }], check := none
          judge := some { todo := usedCards pr, good := 0, rejected := 0, void := 0, causes := 0, first := none
                          rowSets := List.replicate pr.rows 0 } } } })) ∧
    (∀ before, (pr.slots.get d.slot).exit = .none → v.departures = before ++ [d] → (∀ e ∈ before, e.status = .done) →
      v.judgeFrame = none → s.seq.pendingIndex = 0 → (∀ tag, s.cmd.running ≠ some (.startFresh tag)) →
      exec .drainWaitEnd s = .next (State.settle none s { s with seq := { s.seq with
        advance := none, tracking := .running } }))

/-- CARD_CHECK, JUDGEMENT and MARKING_CARD_CHECK of a card that is not the last: word 0 is written REJECTED with the cause of
the rule or left alone, no other word is written, and the progress moves to the next card (R106, R118, R119, R144). A card
meets a slot's exit condition when it is REJECTED or VOID, or by the rank or the mark that the condition asks for (R106, R115);
a judged card is counted as good, void or rejected, and a rejected one adds its cause, its lane in the row set of its row, and
the first rejected card (R119). That each of these grants counts for the alternation of R115 is the model's choice (log entry
34). -/
def Obligations.CardUnitsOfWork : Prop :=
  (∀ (x : SlotSettings) (i : Fin 8) (read : Word),
    meetsExit x i read = true ↔
      (cardState read = 14 ∨ cardState read = 15 ∨ x.exit = .none ∨
       (∃ n, x.exit = .rank n ∧ n ≤ (if (cardState read).toNat ≤ 5 then (cardState read).toNat else 0)) ∨
       (x.exit = .mark ∧ (cardMarks read).getLsbD i.val = true))) ∧
  (∀ (j : JudgeProgress) (card : Nat),
    j.count card .good = { j with todo := j.todo.tail, good := j.good + 1 } ∧
    j.count card .void = { j with todo := j.todo.tail, void := j.void + 1 } ∧
    ∀ (cause : BitVec 4), ∃ causes rowSets,
      j.count card (.rejected cause) =
        { j with todo := j.todo.tail, rejected := j.rejected + 1, causes := causes, first := j.first.or (some card)
                 rowSets := rowSets } ∧
      (∀ n, n < 16 → causes.getLsbD n = (j.causes.getLsbD n || decide (n = cause.toNat))) ∧
      rowSets.length = j.rowSets.length ∧
      (∀ lane row, 1 ≤ lane → lane ≤ 8 → 1 ≤ row → row ≤ j.rowSets.length →
        (rowSets.getD (row - 1) 0).getLsbD (lane - 1) =
          ((j.rowSets.getD (row - 1) 0).getLsbD (lane - 1) ||
            (decide (row = card / 8 + 1) && decide (lane = card % 8 + 1))))) ∧
  ∀ (s : State) (pr : Profile) (card next : Nat) (rest : List Nat), s.cmd.profile = some pr →
    (∀ v d c, s.canGrant .sequencer .cardCheck = true → s.seq.advance = some v →
      checkingPair v.departures = some d → v.check = some c → c.todo = card :: next :: rest →
      let a := ringAddress pr d.frame card 0
      let read := s.mem.readWord a
      let x := pr.slots.get d.slot
      ∃ t, exec (.cardCheck (.whole none)) s = .next t ∧ SamePorts s t ∧ SameBlocks s t ∧ t.time = s.time ∧
        (meetsExit x d.slot read = true → t.mem = s.mem ∧
          t.seq = { s.seq with lastWasScan := false, advance := some { v with
            check := some { c with todo := next :: rest } } }) ∧
        (meetsExit x d.slot read = false →
          t.mem = s.mem.writeWord a
            (recordWord0 14 x.missCause (cardCount read) (cardMarks read) (cardGeneration read)) ∧
          t.seq = { s.seq with lastWasScan := false, advance := some { v with
            check := some { todo := next :: rest, written := c.written + 1, first := c.first.or (some card) } } })) ∧
    (∀ v f j, s.canGrant .sequencer .judge = true → s.seq.advance = some v → v.judgeFrame = some f →
      v.judge = some j → j.todo = card :: next :: rest →
      let a := ringAddress pr f card 0
      let outcome := judged pr.goodState f (s.mem.readWord a)
      ∃ t, exec (.judgement (.whole none)) s = .next t ∧ SamePorts s t ∧ SameBlocks s t ∧ t.time = s.time ∧
        (outcome.1 = none → t.mem = s.mem) ∧ (∀ w, outcome.1 = some w → t.mem = s.mem.writeWord a w) ∧
        t.seq = { s.seq with lastWasScan := false, advance := some { v with judge := some (j.count card outcome.2) } }) ∧
    (∀ m f g more, s.canGrant .sequencer .markCheck = true → s.seq.marking = some m → s.nextInit = none →
      m.phase = .cards → m.todo = (f, card) :: (g, next) :: more →
      let a := ringAddress pr f card 0
      let read := s.mem.readWord a
      ∃ t, exec (.markingCardCheck (.whole none)) s = .next t ∧ SamePorts s t ∧ SameBlocks s t ∧ t.time = s.time ∧
        (cardState read = 14 ∨ cardState read = 15 → t.mem = s.mem) ∧
        (cardState read ≠ 14 → cardState read ≠ 15 →
          t.mem = s.mem.writeWord a (recordWord0 14 9 (cardCount read) (cardMarks read) (cardGeneration read))) ∧
        t.seq = { s.seq with lastWasScan := false, marking := some { m with todo := (g, next) :: more } })

/-- The last unit of work of a stage. With the last used card judged, the row sets found go to the Discharge Unit with the
pointer at 1, and the advance completes: with no index waiting the advance record is gone and tracking is RUNNING; with one
waiting a new advance is accepted at once, or INDEX_OVERRUN taken with H at 4,294,967,295 (R99, R109, R120, R123). With the
last card of a pair examined the pair is done, with a MISSED report when its check wrote a card, and the next pair is begun, or
after the last pair stage JUDGING, or without a judgement frame the advance completes (R104, R107, R108, R117). With the last
card of the marking set checked, tracking is LOST (R144). With the last used card in the init set, START ends DONE and its
initialisation completes as an advance does, and an INDEX advance begins its first pair, or stage JUDGING when it has none, or
completes with neither (R101, R102, R104, R108, R109). With the last used card judged and no index waiting a DISCHARGE report
is produced, with one UNDISCHARGED, reason REPLACED, for the rows that were left (R120, R123, R127). That START's DONE comes
before an INDEX_OVERRUN taken at its completion is log entry 15, that the drain wait of a pair begun here ends in a step of its
own, also with nothing of it queued, is log entry 29 (the model's deduction), and that each of these grants counts for the
alternation of R115 is log entry 34. -/
def Obligations.StagesEnd : Prop :=
  (∀ (s : State) (pr : Profile) (card : Nat), s.cmd.profile = some pr → s.seq.pendingIndex = 0 →
    (∀ v f j, s.canGrant .sequencer .judge = true → s.seq.advance = some v → v.judgeFrame = some f →
      v.judge = some j → j.todo = [card] → (∀ tag, s.cmd.running ≠ some (.startFresh tag)) →
      let a := ringAddress pr f card 0
      let outcome := judged pr.goodState f (s.mem.readWord a)
      let found := j.count card outcome.2
      let judgedAll : State := { s.grantTo .sequencer with
        mem := (match outcome.1 with | some w => s.mem.writeWord a w | none => s.mem)
        seq := { s.seq with lastWasScan := false } }
      let discharge : Content :=
        { kind := .discharge, source := .sequencer, frame := f
          lane := (match found.first with | some c => laneOf c | none => 0)
          row := (match found.first with | some c => rowOf c | none => 0)
          count := found.rejected, detail := found.causes.setWidth 32
          data := BitVec.ofNat 16 found.void ++ BitVec.ofNat 16 found.good }
      let undischarged : List Content :=
        if s.disch.loaded.isSome = true ∧ s.disch.pointer ≤ s.disch.rowCount then
          [{ kind := .undischarged, source := .discharge, frame := s.disch.loaded.getD 0, row := s.disch.pointer
             count := s.disch.rowCount - s.disch.pointer + 1, detail := 1
             data := wordOf ((s.disch.rowSets.drop (s.disch.pointer - 1)).map fun x =>
               ((List.range 8).filter fun n => x.getLsbD n).length).sum }]
        else []
      exec (.judgement (.whole none)) s = .next (State.settle none s
        { judgedAll.produceAll [[discharge], undischarged] with
          seq := { s.seq with lastWasScan := false, advance := none, tracking := .running }
          disch := { loaded := some f, rowCount := pr.rows, rowSets := found.rowSets, pointer := 1 } })) ∧
    (∀ m f, s.canGrant .sequencer .markCheck = true → s.seq.marking = some m → s.nextInit = none →
      m.todo = [(f, card)] →
      let a := ringAddress pr f card 0
      let read := s.mem.readWord a
      ∃ t, exec (.markingCardCheck (.whole none)) s = .next t ∧ SamePorts s t ∧ SameBlocks s t ∧ t.time = s.time ∧
        (cardState read = 14 ∨ cardState read = 15 → t.mem = s.mem) ∧
        (cardState read ≠ 14 → cardState read ≠ 15 →
          t.mem = s.mem.writeWord a (recordWord0 14 9 (cardCount read) (cardMarks read) (cardGeneration read))) ∧
        t.seq = { s.seq with lastWasScan := false, marking := none, tracking := .lost }) ∧
    (∀ v f tag, s.canGrant .sequencer .cardInit = true → s.seq.advance = some v → v.kind = .start →
      v.stage = .initialising → s.seq.marking = none → s.cmd.running = some (.startFresh tag) →
      s.nextInit = some (f, card) → (∀ d ∈ usedCards pr, d ≠ card → d ∈ s.seq.initSet) →
      ∃ t, exec (.cardInitialisation (.whole none)) s = .next t ∧ SamePorts s t ∧
        t.mem = writesTo s.mem (initWrites pr f card) ∧
        t.seq = { s.seq with
          lastWasScan := false, initSet := s.seq.initSet ++ [card], underInit := none, advance := none
          tracking := .running } ∧
        t.cmd = { s.cmd with running := none, waitingResult := some { tag := tag, code := .done, detail := 0 } } ∧
        t.view = s.view ∧ t.claims = s.claims ∧ t.time = s.time ∧ t.disch = s.disch ∧ SameReportRegisters s t)) ∧
  (∀ (s : State) (pr : Profile) (card f : Nat) (v : Advance), s.cmd.profile = some pr → s.seq.pendingIndex = 1 →
    s.seq.tracking = .advancing → s.seq.advance = some v →
    (∀ j, s.canGrant .sequencer .judge = true → v.judgeFrame = some f → v.judge = some j → j.todo = [card] →
      (∀ tag, s.cmd.running ≠ some (.startFresh tag)) →
      let a := ringAddress pr f card 0
      let outcome := judged pr.goodState f (s.mem.readWord a)
      ∃ t, exec (.judgement (.whole none)) s = .next t ∧
        (outcome.1 = none → t.mem = s.mem) ∧ (∀ w, outcome.1 = some w → t.mem = s.mem.writeWord a w) ∧
        t.disch = { loaded := some f, rowCount := pr.rows, rowSets := (j.count card outcome.2).rowSets, pointer := 1 } ∧
        t.cmd = s.cmd ∧ WaitingIndexTaken s t pr) ∧
    (∀ tag, s.canGrant .sequencer .cardInit = true → v.kind = .start → v.stage = .initialising → s.seq.marking = none →
      s.cmd.running = some (.startFresh tag) → s.nextInit = some (f, card) →
      (∀ d ∈ usedCards pr, d ≠ card → d ∈ s.seq.initSet) →
      ∃ t, exec (.cardInitialisation (.whole none)) s = .next t ∧ t.mem = writesTo s.mem (initWrites pr f card) ∧
        t.disch = s.disch ∧
        t.cmd = { s.cmd with running := none, waitingResult := some { tag := tag, code := .done, detail := 0 } } ∧
        WaitingIndexTaken s t pr)) ∧
  (∀ (s : State) (pr : Profile) (card : Nat) (v : Advance) (before after : List Departure) (d : Departure)
    (c : CheckProgress), s.cmd.profile = some pr → s.canGrant .sequencer .cardCheck = true →
    s.seq.tracking = .advancing → s.seq.advance = some v → v.departures = before ++ d :: after → (∀ e ∈ before, e.status = .done) → d.status = .checking →
    v.check = some c → c.todo = [card] →
    let a := ringAddress pr d.frame card 0
    let read := s.mem.readWord a
    let x := pr.slots.get d.slot
    let missed := !meetsExit x d.slot read
    let written := c.written + missed.toNat
    let first := if missed then c.first.or (some card) else c.first
    let ended (q : Sequencer) : State :=
      let u := { s.grantTo .sequencer with
        mem := if missed then s.mem.writeWord a
            (recordWord0 14 x.missCause (cardCount read) (cardMarks read) (cardGeneration read)) else s.mem
        seq := { q with lastWasScan := false } }
      if written = 0 then u
      else u.produce { kind := .missed, source := .sequencer, slot := some d.slot, frame := d.frame
                       lane := laneOf (first.getD 0), row := rowOf (first.getD 0), count := written
                       detail := wordOf x.missCause.toNat, data := wordOf (windowSize x) }
    (∀ w more, after = w :: more → w.status = .waiting →
      exec (.cardCheck (.whole none)) s = .next (State.settle none s (ended { s.seq with advance := some { v with
        stage := .checking, check := none
        departures := before ++ { d with status := .done } :: { w with status := .draining } :: more } }))) ∧
    (∀ f, after = [] → v.judgeFrame = some f →
      exec (.cardCheck (.whole none)) s = .next (State.settle none s (ended { s.seq with advance := some { v with
        stage := .judging, check := none, departures := before ++ [{ d with status := .done }]
        judge := some { todo := usedCards pr, good := 0, rejected := 0, void := 0, causes := 0, first := none
                        rowSets := List.replicate pr.rows 0 } } }))) ∧
    (after = [] → v.judgeFrame = none → s.seq.pendingIndex = 0 → (∀ tag, s.cmd.running ≠ some (.startFresh tag)) →
      exec (.cardCheck (.whole none)) s = .next (State.settle none s
        (ended { s.seq with advance := none, tracking := .running })))) ∧
  ∀ (s : State) (pr : Profile) (card f : Nat) (v : Advance), s.cmd.profile = some pr →
    s.canGrant .sequencer .cardInit = true → s.seq.tracking = .advancing → s.seq.advance = some v → v.kind = .index →
    v.stage = .initialising → s.seq.marking = none → s.nextInit = some (f, card) → (∀ d ∈ usedCards pr, d ≠ card → d ∈ s.seq.initSet) →
    let begun (w : Option Advance) (tracking : Tracking) : State := { s.grantTo .sequencer with
      mem := writesTo s.mem (initWrites pr f card)
      seq := { s.seq with
        lastWasScan := false, initSet := s.seq.initSet ++ [card], underInit := none, advance := w, tracking := tracking } }
    (∀ d more, v.departures = d :: more → d.status = .waiting →
      exec (.cardInitialisation (.whole none)) s = .next (State.settle none s
        (begun (some { v with stage := .checking, departures := { d with status := .draining } :: more, check := none })
          .advancing))) ∧
    (∀ j, v.departures = [] → v.judgeFrame = some j →
      exec (.cardInitialisation (.whole none)) s = .next (State.settle none s
        (begun (some { v with
          stage := .judging, check := none
          judge := some { todo := usedCards pr, good := 0, rejected := 0, void := 0, causes := 0, first := none
                          rowSets := List.replicate pr.rows 0 } }) .advancing))) ∧
    (v.departures = [] → v.judgeFrame = none → s.seq.pendingIndex = 0 → (∀ tag, s.cmd.running ≠ some (.startFresh tag)) →
      exec (.cardInitialisation (.whole none)) s = .next (State.settle none s (begun none .running)))

/-- LATE_SCAN_READ: a read counts its card unless it meets the slot's exit condition or is in an end state, and changes no
record. The scan's last read ends the scan, with a LATE report when it counted a card, and the oldest waiting scan then runs
(R114, R115, R116). That each of these grants counts for the alternation of R115 is the model's choice (log entry 34). -/
def Obligations.LateScanCounts : Prop :=
  ∀ (s : State) (pr : Profile) (n : RunningScan) (card : Nat) (rest : List Nat), s.cmd.profile = some pr →
    s.canGrant .sequencer .lateScan = true → s.time.running = some n → s.resident n.frame = true →
    n.todo = card :: rest →
    let x := pr.slots.get n.slot
    let late := !meetsExit x n.slot (s.mem.readWord (ringAddress pr n.frame card 0))
    let count := n.late + late.toNat
    let first := if late then n.first.or (some card) else n.first
    (rest ≠ [] →
      ∃ t, exec (.lateScanRead (.whole none)) s = .next t ∧ SameMemory s t ∧ SamePorts s t ∧ SameBlocks s t ∧
        t.seq = { s.seq with lastWasScan := true } ∧
        t.time = { s.time with running := some { n with todo := rest, late := count, first := first } }) ∧
    (∀ time, rest = [] →
      (s.time.scans = [] ∧ time = { s.time with running := none } ∨
       ∃ w more, s.time.scans = w :: more ∧
         time = { s.time with
           scans := more
           running := some { slot := w.slot, frame := w.frame, expiry := w.expiry, todo := windowCards pr (pr.slots.get w.slot)
                             late := 0, first := none } }) →
      let ended := { s.grantTo .sequencer with seq := { s.seq with lastWasScan := true }, time := time }
      (count = 0 → exec (.lateScanRead (.whole none)) s = .next (State.settle none s ended)) ∧
      (count ≠ 0 → exec (.lateScanRead (.whole none)) s = .next (State.settle none s (ended.produce
        { kind := .late, source := .timebase, slot := some n.slot, frame := n.frame, lane := laneOf (first.getD 0)
          row := rowOf (first.getD 0), count := count, detail := wordOf x.missCause.toNat, data := n.expiry }))))

/-! ## Arrivals at the Discharge Unit and the ports -/

/-- ROWSTEP_ARRIVAL: with rows left the pointer steps, otherwise a ROWSTEP_EXTRA report is produced and the pointer stays
(R124). -/
def Obligations.RowstepSteps : Prop :=
  ∀ s : State, s.inReset = false →
    (s.disch.loaded.isSome = true → s.disch.pointer ≤ s.disch.rowCount →
      exec .rowstepArrival s =
        .next (State.settle none s { s with disch := { s.disch with pointer := s.disch.pointer + 1 } })) ∧
    (∀ f, s.disch.loaded = some f → s.disch.rowCount < s.disch.pointer →
      exec .rowstepArrival s = .next (State.settle none s (s.produce
        { kind := .rowstepExtra, source := .discharge, frame := f, row := s.disch.rowCount + 1, count := 1, detail := 2
          data := wordOf (trackingCode s.seq.tracking) }))) ∧
    (s.disch.loaded = none →
      exec .rowstepArrival s = .next (State.settle none s (s.produce
        { kind := .rowstepExtra, source := .discharge, count := 1, detail := 1
          data := wordOf (trackingCode s.seq.tracking) })))

/-- ABORT_ARRIVAL: the port's transfer, pending read and entries not begun are gone, its groups are torn, the cursors of its
slots return to step 0 with nothing held, and the other port is untouched (R47, R77, R92). The reports of it are produced
together: ABANDONED for the entries, STAGE_TORN for each group, oldest first, with reason ABORTED, and CURSOR_RESYNC for the held
values of each enabled slot of the port (R44, R75, R94) (log entry 28). When the arrival falls between the grant of the head VIEW
or STREAM entry and its decision, that entry stands, and its decision, after the tears, finds no group of its port: a group
write opens a group, which stays, and a WORD-mode or STREAM write goes on under its hold (R77) (log entry 33). -/
def Obligations.AbortClearsPort : Prop :=
  ∀ (p : Port) (s : State) (pr : Profile), s.inReset = false → s.cmd.profile = some pr → s.reading p = false →
    (let left := if s.begun p then (s.port p).queue.tail else (s.port p).queue
     let discards : List Content :=
       if left.length = 0 then []
       else [{ kind := .abandoned, source := portSource p, count := left.length, detail := 1
               data := wordOf (left.filter fun e => !e.isView).length }]
     let held (i : Fin 8) : List Content :=
       if (s.view.get i).held = 0 then [] else [heldDroppedOf pr i (s.view.get i)]
     let slots := slotNumbers.filter fun i => (pr.slots.get i).enabled && decide ((pr.slots.get i).port = p)
     ∃ t u : State, exec (.abortArrival { port := p, deciding := false }) s = .next t ∧ AbortedPort p pr s t ∧
       t = State.settle none s (u.produceAll
         (discards :: ((s.claims.filter fun c => decide (c.port = p)).map (tornOf pr 4)) :: slots.map held)) ∧
       u.rep = s.rep ∧ u.choices = s.choices ∧ u.seq = s.seq ∧ u.time = s.time ∧ u.cmd = s.cmd ∧
       (s.begun p = false → (t.port p).queue = []) ∧
       (s.begun p = true → (t.port p).queue = (s.port p).queue.take 1) ∧
       t.claims = s.claims.filter (fun c => !decide (c.port = p))) ∧
    ∀ (g : Target) (data : Word) (enables : Enables) (rest : List Entry), s.canGrant (portRequester p) .own = true →
      (∀ c ∈ s.claims, c.frame = g.frame → c.card = g.card → c.port = p) →
      let x := pr.slots.get g.slot
      ((s.port p).queue = .view g data enables :: rest → x.mode = .record → holdsWritable x.fields g.word = true →
        2 ≤ groupWordCount x.fields → (s.view.get g.slot).currentFrame = some g.frame →
        ∃ t, exec (.abortArrival { port := p, deciding := true }) s = .next t ∧ AbortedPort p pr s t ∧
          (t.port p).queue = [] ∧ t.arb.hold = none ∧
          t.claims = s.claims.filter (fun c => !decide (c.port = p)) ++
            [{ frame := g.frame, card := g.card, slot := g.slot, port := p, staged := carriedWord g.word data enables }]) ∧
      (∀ e, (e = .view g data enables ∧ x.mode = .word ∨ e = .stream g data enables) → (s.port p).queue = e :: rest →
        ∃ t, exec (.abortArrival { port := p, deciding := true }) s = .next t ∧ AbortedPort p pr s t ∧
          (t.port p).queue = [e] ∧
          t.arb.hold = some (.pass p g.slot g.frame g.card (carriedWord g.word data enables) data) ∧
          t.claims = s.claims.filter (fun c => !decide (c.port = p)))

/-! ## Report Unit -/

/-- REPORT_RECORD_WRITE, STATUS_WORD_WRITE and READ_POINTER_RESET_WRITE: the head report becomes record number W in ring slot
(W − 1) mod C, words 1 to 7 and then word 0, and is admitted with the interrupt marks and the fill latch brought up to date; the
status word due first is written with its value, and is due no more unless that value changed meanwhile; 1 is written into the
read-pointer word. A record write under its hold when an APPLY has succeeded ends with its words written, and its report leaves
the queue without admission and is not counted as dropped (R150, R153, R155, R156, R159, R161, R167); that it may stand in the
queue no more, displaced under its write, is log entry 18. In every step that ends in a state with status upkeep each status
word whose value changed is due, but for what follows from the failed write of that word (R161, R162) (log entry 17). -/
def Obligations.ReportUnitWrites : Prop :=
  (∀ (s : State) (pr : Profile) (r : Report) (rest : List Report), s.canGrant .report .record = true →
    s.cmd.profile = some pr → s.rep.queue = r :: rest → s.recordReady = true →
    let base := pr.reportBase + (s.rep.writeSeq - 1) % pr.capacity * 32
    let word := recordWord r s.rep.writeSeq
    ∃ t, exec (.reportRecordWrite (.whole none)) s = .next t ∧
      t.mem = writesTo s.mem
        [(base + 4, word 1), (base + 8, word 2), (base + 12, word 3), (base + 16, word 4), (base + 20, word 5),
         (base + 24, word 6), (base + 28, word 7), (base, word 0)] ∧
      t.rep.writeSeq = s.rep.writeSeq + 1 ∧ t.rep.readSeq = s.rep.readSeq ∧ t.rep.quiet = s.rep.quiet ∧
      (pr.irqThreshold ≤ r.level → t.rep.markA = some s.rep.writeSeq) ∧
      (r.level < pr.irqThreshold → t.rep.markA = s.rep.markA) ∧
      (r.level = 7 → t.rep.markA7 = some s.rep.writeSeq) ∧ (r.level ≠ 7 → t.rep.markA7 = s.rep.markA7) ∧
      LatchFollows pr (pr.capacity - (s.rep.writeSeq + 1 - s.rep.readSeq)) s t ∧
      t.rep.queue <:+ rest ∧ SamePorts s t ∧ SameInner s t) ∧
  (∀ (s : State) (n : Nat) (rest : List Nat), s.canGrant .report .status = true → s.rep.due = n :: rest →
    ∃ t, exec (.statusWordWrite (.whole none)) s = .next t ∧
      t.mem = s.mem.writeWord (s.blockBase + 0x40 + 4 * n) (s.statusValue n) ∧
      (∃ more, t.rep.due = rest.filter (fun m => decide (m ≠ n)) ++ more) ∧
      (t.statusValue n = s.statusValue n → n ∉ t.rep.due) ∧
      SamePorts s t ∧ SameInner s t ∧ SameReportRegisters s t) ∧
  (∀ (i : Instr) (s t : State) (n : Nat), exec i s = .next t → t.seq.tracking ≠ .unconfigured → t.seq.tracking ≠ .halted →
    n < 15 → t.statusValue n ≠ s.statusValue n → ¬Spares i s n → n ∈ t.rep.due) ∧
  (∀ s : State, s.canGrant .report .readPointer = true →
    ∃ t, exec (.readPointerResetWrite (.whole none)) s = .next t ∧
      t.mem = s.mem.writeWord (s.blockBase + 8) 1 ∧ t.rep.readPointerDue = false ∧
      t.rep.writeSeq = s.rep.writeSeq ∧ t.rep.readSeq = s.rep.readSeq ∧ SamePorts s t ∧ SameInner s t) ∧
  ∀ (s : State) (pr : Profile) (w : RecordWrite), s.arb.hold = some .record → s.cmd.profile = some pr →
    s.rep.writing = some w → w.superseded = true → w.report.ofStatusW = false →
    let word := recordWord w.report w.sequence
    exec (.reportRecordWrite (.finish none)) s = .next (State.settle none s { s with
      arb := { s.arb with hold := none }
      mem := writesTo s.mem
        [(w.address + 4, word 1), (w.address + 8, word 2), (w.address + 12, word 3), (w.address + 16, word 4),
         (w.address + 20, word 5), (w.address + 24, word 6), (w.address + 28, word 7), (w.address, word 0)]
      rep := { s.rep with queue := if w.queued then s.rep.queue.tail else s.rep.queue, writing := none } })
end

