-- ==== Sys2Proof/Laws/Memory.lean ====
section
/-! SUPPORT. Memory: what a write leaves readable, and the canonical form that every memory operation keeps. -/

namespace Sys2Proof.Machine

/-- A byte write leaves every other byte as it reads. -/
theorem readByte_writeByte_other (m : Memory) (a x : Nat) (v : Byte) (h : x ≠ a) :
    (m.writeByte a v).readByte x = m.readByte x := by
  induction m with
  | nil =>
    by_cases hv : v = Config.unwrittenByte
    · simp [Memory.writeByte, hv]
    · simp [Memory.writeByte, hv, Memory.readByte, h]
  | cons c m ih =>
    obtain ⟨b, w⟩ := c
    unfold Memory.writeByte
    split
    · split
      · rfl
      · simp [Memory.readByte, h]
    · split
      · rename_i hab
        subst hab
        split <;> simp [Memory.readByte, h]
      · simp [Memory.readByte, ih]

/-- No byte below the lowest listed address is listed. -/
theorem readByte_of_lt (m : Memory) (low x : Nat) (h : m.wfAbove low = true) (hx : x < low) :
    m.readByte x = Config.unwrittenByte := by
  induction m generalizing low with
  | nil => rfl
  | cons c m ih =>
    obtain ⟨b, w⟩ := c
    simp only [Memory.wfAbove, Bool.and_eq_true, decide_eq_true_eq] at h
    have : x ≠ b := by omega
    simp only [Memory.readByte, this, if_false]
    exact ih (b + 1) h.2 (by omega)

/-- In canonical memory a byte write leaves the byte that was written. -/
theorem readByte_writeByte_same (m : Memory) (low a : Nat) (v : Byte) (h : m.wfAbove low = true) :
    (m.writeByte a v).readByte a = v := by
  induction m generalizing low with
  | nil =>
    by_cases hv : v = Config.unwrittenByte
    · simp [Memory.writeByte, hv, Memory.readByte]
    · simp [Memory.writeByte, hv, Memory.readByte]
  | cons c m ih =>
    obtain ⟨b, w⟩ := c
    have h' := h
    simp only [Memory.wfAbove, Bool.and_eq_true, decide_eq_true_eq] at h
    unfold Memory.writeByte
    split
    · rename_i hlt
      split
      · rename_i hv
        have hne : a ≠ b := by omega
        rw [hv]
        simp only [Memory.readByte, hne, if_false]
        exact readByte_of_lt m (b + 1) a h.2 (by omega)
      · simp [Memory.readByte]
    · split
      · rename_i hab
        split
        · rename_i hv
          rw [hv, hab]
          exact readByte_of_lt m (b + 1) b h.2 (by omega)
        · simp [Memory.readByte]
      · rename_i hne
        simp only [Memory.readByte, hne, if_false]
        exact ih (b + 1) h.2

/-- A canonical list above an address is canonical above every lower one. -/
theorem wfAbove_mono (m : Memory) (low low' : Nat) (h : m.wfAbove low = true) (hl : low' ≤ low) :
    m.wfAbove low' = true := by
  cases m with
  | nil => rfl
  | cons c m =>
    obtain ⟨b, w⟩ := c
    simp only [Memory.wfAbove, Bool.and_eq_true, decide_eq_true_eq] at h ⊢
    exact ⟨⟨by omega, h.1.2⟩, h.2⟩

/-- A byte write keeps the canonical form above a bound that the address respects. -/
theorem wfAbove_writeByte (m : Memory) (low a : Nat) (v : Byte) (h : m.wfAbove low = true) (ha : low ≤ a) :
    (m.writeByte a v).wfAbove low = true := by
  induction m generalizing low with
  | nil =>
    by_cases hv : v = Config.unwrittenByte
    · simp [Memory.writeByte, hv, Memory.wfAbove]
    · simp [Memory.writeByte, hv, Memory.wfAbove, ha]
  | cons c m ih =>
    obtain ⟨b, w⟩ := c
    have h' := h
    simp only [Memory.wfAbove, Bool.and_eq_true, decide_eq_true_eq] at h
    unfold Memory.writeByte
    split
    · rename_i hlt
      split
      · exact h'
      · rename_i hv
        simp only [Memory.wfAbove, Bool.and_eq_true, decide_eq_true_eq]
        exact ⟨⟨ha, hv⟩, ⟨⟨by omega, h.1.2⟩, h.2⟩⟩
    · split
      · rename_i hab
        split
        · exact wfAbove_mono m (b + 1) low h.2 (by omega)
        · rename_i hv
          simp only [Memory.wfAbove, Bool.and_eq_true, decide_eq_true_eq]
          exact ⟨⟨ha, hv⟩, by rw [hab]; exact h.2⟩
      · rename_i hlt hne
        simp only [Memory.wfAbove, Bool.and_eq_true, decide_eq_true_eq]
        exact ⟨h.1, ih (b + 1) h.2 (by omega)⟩

/-- A byte write keeps memory canonical. -/
theorem wf_writeByte (m : Memory) (a : Nat) (v : Byte) (h : m.wf = true) : (m.writeByte a v).wf = true :=
  wfAbove_writeByte m 0 a v h (Nat.zero_le a)

/-- A word write keeps memory canonical. -/
theorem wf_writeWord (m : Memory) (a : Nat) (v : Word) (h : m.wf = true) : (m.writeWord a v).wf = true :=
  wf_writeByte _ _ _ (wf_writeByte _ _ _ (wf_writeByte _ _ _ (wf_writeByte _ _ _ h)))

/-- A word write leaves every byte outside the word as it reads. -/
theorem readByte_writeWord_outside (m : Memory) (a x : Nat) (v : Word) (h : x < a ∨ a + 4 ≤ x) :
    (m.writeWord a v).readByte x = m.readByte x := by
  unfold Memory.writeWord
  rw [readByte_writeByte_other _ _ _ _ (by omega), readByte_writeByte_other _ _ _ _ (by omega),
    readByte_writeByte_other _ _ _ _ (by omega), readByte_writeByte_other _ _ _ _ (by omega)]

/-- In canonical memory a word write leaves the word that was written. -/
theorem readWord_writeWord_same (m : Memory) (a : Nat) (v : Word) (h : m.wf = true) :
    (m.writeWord a v).readWord a = v := by
  have h1 := wf_writeByte m a (v.extractLsb' 0 8) h
  have h2 := wf_writeByte _ (a + 1) (v.extractLsb' 8 8) h1
  have h3 := wf_writeByte _ (a + 2) (v.extractLsb' 16 8) h2
  have e3 := readByte_writeByte_same _ 0 (a + 3) (v.extractLsb' 24 8) h3
  have e2 := readByte_writeByte_same _ 0 (a + 2) (v.extractLsb' 16 8) h2
  have e1 := readByte_writeByte_same _ 0 (a + 1) (v.extractLsb' 8 8) h1
  have e0 := readByte_writeByte_same _ 0 a (v.extractLsb' 0 8) h
  unfold Memory.readWord Memory.writeWord
  rw [e3, readByte_writeByte_other _ _ (a + 2) _ (by omega), e2,
    readByte_writeByte_other _ _ (a + 1) _ (by omega), readByte_writeByte_other _ _ (a + 1) _ (by omega), e1,
    readByte_writeByte_other _ _ a _ (by omega), readByte_writeByte_other _ _ a _ (by omega),
    readByte_writeByte_other _ _ a _ (by omega), e0]
  ext i hi
  simp only [BitVec.getElem_append, BitVec.getElem_extractLsb']
  split <;> rename_i h8
  · simp [BitVec.getLsbD_eq_getElem hi]
  · split <;> rename_i h16
    · rw [show 8 + (i - 8) = i from by omega, BitVec.getLsbD_eq_getElem hi]
    · split <;> rename_i h24
      · rw [show 16 + (i - 8 - 8) = i from by omega, BitVec.getLsbD_eq_getElem hi]
      · rw [show 24 + (i - 8 - 8 - 8) = i from by omega, BitVec.getLsbD_eq_getElem hi]

/-- A word write elsewhere leaves a word as it reads. -/
theorem readWord_writeWord_outside (m : Memory) (a b : Nat) (v : Word) (h : b + 4 ≤ a ∨ a + 4 ≤ b) :
    (m.writeWord a v).readWord b = m.readWord b := by
  unfold Memory.readWord
  rw [readByte_writeWord_outside _ _ _ _ (by omega), readByte_writeWord_outside _ _ _ _ (by omega),
    readByte_writeWord_outside _ _ _ _ (by omega), readByte_writeWord_outside _ _ _ _ (by omega)]

/-! ## The Memory Port -/

@[simp] theorem answer_mem (b : Bus) (a : Nat) : (b.answer a).mem = b.mem := by
  unfold Bus.answer
  split
  · rfl
  · split <;> rfl

/-- One write of the bus keeps memory canonical. -/
theorem wf_busWrite (b : Bus) (a : Nat) (v : Word) (h : b.mem.wf = true) : (b.write a v).mem.wf = true := by
  unfold Bus.write
  dsimp only
  split
  · simpa using h
  · simpa using wf_writeWord b.mem a v h

/-- A list of writes of the bus keeps memory canonical. -/
theorem wf_busWrites (b : Bus) (ws : List (Nat × Word)) (h : b.mem.wf = true) : (b.writes ws).mem.wf = true := by
  induction ws generalizing b with
  | nil => exact h
  | cons w ws ih => exact ih _ (wf_busWrite b w.1 w.2 h)

/-- One write of the bus leaves every byte outside its word as it reads, whatever memory answers. -/
theorem readByte_busWrite_outside (b : Bus) (a x : Nat) (v : Word) (h : x < a ∨ a + 4 ≤ x) :
    (b.write a v).mem.readByte x = b.mem.readByte x := by
  unfold Bus.write
  dsimp only
  split
  · simp
  · simpa using readByte_writeWord_outside b.mem a x v h

/-- A list of writes leaves every byte outside all its words as it reads, whatever memory answers. -/
theorem readByte_busWrites_outside (b : Bus) (ws : List (Nat × Word)) (x : Nat)
    (h : ∀ w ∈ ws, x < w.1 ∨ w.1 + 4 ≤ x) : (b.writes ws).mem.readByte x = b.mem.readByte x := by
  induction ws generalizing b with
  | nil => rfl
  | cons w ws ih =>
    have h1 := ih (b.write w.1 w.2) fun v hv => h v (List.mem_cons_of_mem _ hv)
    exact h1.trans (readByte_busWrite_outside b w.1 x w.2 (h w List.mem_cons_self))

/-- With no ERROR answered, an access leaves the bus as it was. -/
theorem answer_ok (b : Bus) (a : Nat) (hf : b.failed = none) (hl : b.left = none) : b.answer a = b := by
  simp [Bus.answer, hf, hl]

/-- With no ERROR answered, a write writes its word. -/
theorem busWrite_ok (m : Memory) (a : Nat) (v : Word) :
    (Bus.start m none).write a v = Bus.start (m.writeWord a v) none := by
  simp [Bus.write, answer_ok, Bus.start]

/-- With no ERROR answered, a list of writes makes them all. -/
theorem busWrites_ok (m : Memory) (ws : List (Nat × Word)) :
    (Bus.start m none).writes ws = Bus.start (ws.foldl (fun m w => m.writeWord w.1 w.2) m) none := by
  induction ws generalizing m with
  | nil => rfl
  | cons w ws ih =>
    rw [Bus.writes, busWrite_ok, ih]; rfl

end Sys2Proof.Machine
end

