-- ==== Sys2Proof/Laws/State.lean ====
section
/-! SUPPORT. What the small updates of a state leave alone, field by field, so that no proof unfolds a record update. -/

namespace Sys2Proof.Machine

/-! ## Ports -/

@[simp] theorem setPort_fields (s : State) (p : Port) (x : PortState) :
    (s.setPort p x).mem = s.mem ∧ (s.setPort p x).psel = s.psel ∧ (s.setPort p x).inReset = s.inReset ∧
    (s.setPort p x).view = s.view ∧ (s.setPort p x).claims = s.claims ∧ (s.setPort p x).arb = s.arb ∧
    (s.setPort p x).seq = s.seq ∧ (s.setPort p x).time = s.time ∧ (s.setPort p x).disch = s.disch ∧
    (s.setPort p x).cmd = s.cmd ∧ (s.setPort p x).rep = s.rep ∧ (s.setPort p x).pins = s.pins ∧
    (s.setPort p x).choices = s.choices ∧ (s.setPort p x).pending = s.pending := by
  cases p <;> exact ⟨rfl, rfl, rfl, rfl, rfl, rfl, rfl, rfl, rfl, rfl, rfl, rfl, rfl, rfl⟩

@[simp] theorem setPort_same (s : State) (p : Port) (x : PortState) : (s.setPort p x).port p = x := by cases p <;> rfl

theorem setPort_other (s : State) (p q : Port) (x : PortState) (h : q ≠ p) : (s.setPort p x).port q = s.port q := by
  cases p <;> cases q <;> first | rfl | exact absurd rfl h

@[simp] theorem removeHead_fields (s : State) (p : Port) :
    (s.removeHead p).mem = s.mem ∧ (s.removeHead p).psel = s.psel ∧ (s.removeHead p).inReset = s.inReset ∧
    (s.removeHead p).view = s.view ∧ (s.removeHead p).claims = s.claims ∧ (s.removeHead p).arb = s.arb ∧
    (s.removeHead p).seq = s.seq ∧ (s.removeHead p).time = s.time ∧ (s.removeHead p).disch = s.disch ∧
    (s.removeHead p).cmd = s.cmd ∧ (s.removeHead p).rep = s.rep ∧ (s.removeHead p).pins = s.pins ∧
    (s.removeHead p).choices = s.choices ∧ (s.removeHead p).pending = s.pending := setPort_fields s p _

@[simp] theorem removeHead_same (s : State) (p : Port) :
    (s.removeHead p).port p = { s.port p with queue := (s.port p).queue.tail } := setPort_same s p _

theorem removeHead_other (s : State) (p q : Port) (h : q ≠ p) : (s.removeHead p).port q = s.port q :=
  setPort_other s p q _ h

@[simp] theorem answerRead_fields (s : State) (p : Port) (x : Answer) :
    (s.answerRead p x).mem = s.mem ∧ (s.answerRead p x).psel = s.psel ∧ (s.answerRead p x).inReset = s.inReset ∧
    (s.answerRead p x).view = s.view ∧ (s.answerRead p x).claims = s.claims ∧ (s.answerRead p x).arb = s.arb ∧
    (s.answerRead p x).seq = s.seq ∧ (s.answerRead p x).time = s.time ∧ (s.answerRead p x).disch = s.disch ∧
    (s.answerRead p x).cmd = s.cmd ∧ (s.answerRead p x).rep = s.rep ∧ (s.answerRead p x).pins = s.pins ∧
    (s.answerRead p x).choices = s.choices ∧ (s.answerRead p x).pending = s.pending := setPort_fields s p _

@[simp] theorem answerRead_same (s : State) (p : Port) (x : Answer) :
    (s.answerRead p x).port p = { s.port p with pending := none, answer := some x } := setPort_same s p _

theorem answerRead_other (s : State) (p q : Port) (x : Answer) (h : q ≠ p) : (s.answerRead p x).port q = s.port q :=
  setPort_other s p q _ h

/-! ## The arbiter -/

@[simp] theorem withdraw_fields (s : State) (r : Requester) :
    (s.withdraw r).mem = s.mem ∧ (s.withdraw r).psel = s.psel ∧ (s.withdraw r).inReset = s.inReset ∧
    (s.withdraw r).portA = s.portA ∧ (s.withdraw r).portB = s.portB ∧ (s.withdraw r).view = s.view ∧
    (s.withdraw r).claims = s.claims ∧ (s.withdraw r).seq = s.seq ∧ (s.withdraw r).time = s.time ∧
    (s.withdraw r).disch = s.disch ∧ (s.withdraw r).cmd = s.cmd ∧ (s.withdraw r).rep = s.rep ∧
    (s.withdraw r).pins = s.pins ∧ (s.withdraw r).choices = s.choices ∧ (s.withdraw r).pending = s.pending :=
  ⟨rfl, rfl, rfl, rfl, rfl, rfl, rfl, rfl, rfl, rfl, rfl, rfl, rfl, rfl, rfl⟩

@[simp] theorem setDesk_hold (x : Arbiter) (r : Requester) (d : Desk) : (x.setDesk r d).hold = x.hold := by cases r <;> rfl

@[simp] theorem setDesk_met (x : Arbiter) (r : Requester) (d : Desk) :
    (x.setDesk r d).sequencerMet = x.sequencerMet ∧ (x.setDesk r d).reportMet = x.reportMet := by cases r <;> exact ⟨rfl, rfl⟩

@[simp] theorem grant_met (x : Arbiter) (r : Requester) :
    (x.grant r).sequencerMet = x.sequencerMet ∧ (x.grant r).reportMet = x.reportMet := ⟨rfl, rfl⟩

@[simp] theorem setDesk_same (x : Arbiter) (r : Requester) (d : Desk) : (x.setDesk r d).desk r = d := by cases r <;> rfl

theorem setDesk_other (x : Arbiter) (r q : Requester) (d : Desk) (h : q ≠ r) : (x.setDesk r d).desk q = x.desk q := by
  cases r <;> cases q <;> first | rfl | exact absurd rfl h

@[simp] theorem withdraw_hold (s : State) (r : Requester) : (s.withdraw r).arb.hold = s.arb.hold :=
  setDesk_hold s.arb r .reset

@[simp] theorem release_fields (s : State) :
    s.release.mem = s.mem ∧ s.release.psel = s.psel ∧ s.release.inReset = s.inReset ∧ s.release.portA = s.portA ∧
    s.release.portB = s.portB ∧ s.release.view = s.view ∧ s.release.claims = s.claims ∧ s.release.seq = s.seq ∧
    s.release.time = s.time ∧ s.release.disch = s.disch ∧ s.release.cmd = s.cmd ∧ s.release.rep = s.rep ∧
    s.release.pins = s.pins ∧ s.release.choices = s.choices ∧ s.release.pending = s.pending ∧ s.release.arb.hold = none :=
  ⟨rfl, rfl, rfl, rfl, rfl, rfl, rfl, rfl, rfl, rfl, rfl, rfl, rfl, rfl, rfl, rfl⟩

@[simp] theorem grantTo_fields (s : State) (r : Requester) :
    (s.grantTo r).mem = s.mem ∧ (s.grantTo r).psel = s.psel ∧ (s.grantTo r).inReset = s.inReset ∧
    (s.grantTo r).portA = s.portA ∧ (s.grantTo r).portB = s.portB ∧ (s.grantTo r).view = s.view ∧
    (s.grantTo r).claims = s.claims ∧ (s.grantTo r).seq = s.seq ∧ (s.grantTo r).time = s.time ∧
    (s.grantTo r).disch = s.disch ∧ (s.grantTo r).cmd = s.cmd ∧ (s.grantTo r).rep = s.rep ∧ (s.grantTo r).pins = s.pins ∧
    (s.grantTo r).choices = s.choices ∧ (s.grantTo r).pending = s.pending ∧ (s.grantTo r).arb = s.arb.grant r :=
  ⟨rfl, rfl, rfl, rfl, rfl, rfl, rfl, rfl, rfl, rfl, rfl, rfl, rfl, rfl, rfl, rfl⟩

@[simp] theorem holds_fields (s : State) (w : Work) :
    (s.holds w).mem = s.mem ∧ (s.holds w).psel = s.psel ∧ (s.holds w).inReset = s.inReset ∧ (s.holds w).portA = s.portA ∧
    (s.holds w).portB = s.portB ∧ (s.holds w).view = s.view ∧ (s.holds w).claims = s.claims ∧ (s.holds w).seq = s.seq ∧
    (s.holds w).time = s.time ∧ (s.holds w).disch = s.disch ∧ (s.holds w).cmd = s.cmd ∧ (s.holds w).rep = s.rep ∧
    (s.holds w).pins = s.pins ∧ (s.holds w).choices = s.choices ∧ (s.holds w).pending = s.pending ∧
    (s.holds w).arb.hold = some w :=
  ⟨rfl, rfl, rfl, rfl, rfl, rfl, rfl, rfl, rfl, rfl, rfl, rfl, rfl, rfl, rfl, rfl⟩

@[simp] theorem grant_hold (x : Arbiter) (r : Requester) : (x.grant r).hold = x.hold := rfl

@[simp] theorem grant_desk (x : Arbiter) (r q : Requester) : (x.grant r).desk q = x.granted r q := by cases q <;> rfl

/-- A grant is made with the Memory Port free and outside reset, to a requester that waits. -/
theorem canGrant_iff (s : State) (r : Requester) (q : Request) :
    s.canGrant r q = true ↔
      s.inReset = false ∧ s.arb.hold = none ∧ s.arb.choose = some r ∧ (s.arb.desk r).request = some q := by
  simp [State.canGrant, and_assoc]

/-- A grant followed by the end of its hold is the grant alone. -/
theorem release_holds_grantTo (s : State) (r : Requester) (w : Work) (h : s.arb.hold = none) :
    ((s.grantTo r).holds w).release = s.grantTo r := by
  simp [State.release, State.holds, State.grantTo, Arbiter.grant, h]

/-! ## Other blocks -/

@[simp] theorem tear_fields (s : State) (torn : Claim → Bool) :
    (s.tear torn).mem = s.mem ∧ (s.tear torn).psel = s.psel ∧ (s.tear torn).inReset = s.inReset ∧
    (s.tear torn).portA = s.portA ∧ (s.tear torn).portB = s.portB ∧ (s.tear torn).view = s.view ∧
    (s.tear torn).arb = s.arb ∧ (s.tear torn).seq = s.seq ∧ (s.tear torn).time = s.time ∧
    (s.tear torn).disch = s.disch ∧ (s.tear torn).cmd = s.cmd ∧ (s.tear torn).rep = s.rep ∧ (s.tear torn).pins = s.pins ∧
    (s.tear torn).choices = s.choices ∧ (s.tear torn).pending = s.pending ∧
    (s.tear torn).claims = s.claims.filter fun c => !torn c :=
  ⟨rfl, rfl, rfl, rfl, rfl, rfl, rfl, rfl, rfl, rfl, rfl, rfl, rfl, rfl, rfl, rfl⟩

@[simp] theorem mapStations_fields (s : State) (p : Profile) (f : Fin 8 → SlotSettings → Station → Station) :
    (s.mapStations p f).mem = s.mem ∧ (s.mapStations p f).psel = s.psel ∧ (s.mapStations p f).inReset = s.inReset ∧
    (s.mapStations p f).portA = s.portA ∧ (s.mapStations p f).portB = s.portB ∧ (s.mapStations p f).claims = s.claims ∧
    (s.mapStations p f).arb = s.arb ∧ (s.mapStations p f).seq = s.seq ∧ (s.mapStations p f).time = s.time ∧
    (s.mapStations p f).disch = s.disch ∧ (s.mapStations p f).cmd = s.cmd ∧ (s.mapStations p f).rep = s.rep ∧
    (s.mapStations p f).pins = s.pins ∧ (s.mapStations p f).choices = s.choices ∧
    (s.mapStations p f).pending = s.pending :=
  ⟨rfl, rfl, rfl, rfl, rfl, rfl, rfl, rfl, rfl, rfl, rfl, rfl, rfl, rfl, rfl⟩

@[simp] theorem armDeadlines_fields (s : State) (p : Profile) :
    (s.armDeadlines p).mem = s.mem ∧ (s.armDeadlines p).psel = s.psel ∧ (s.armDeadlines p).inReset = s.inReset ∧
    (s.armDeadlines p).portA = s.portA ∧ (s.armDeadlines p).portB = s.portB ∧ (s.armDeadlines p).view = s.view ∧
    (s.armDeadlines p).claims = s.claims ∧ (s.armDeadlines p).arb = s.arb ∧ (s.armDeadlines p).seq = s.seq ∧
    (s.armDeadlines p).disch = s.disch ∧ (s.armDeadlines p).cmd = s.cmd ∧ (s.armDeadlines p).rep = s.rep ∧
    (s.armDeadlines p).pins = s.pins ∧ (s.armDeadlines p).choices = s.choices ∧
    (s.armDeadlines p).pending = s.pending ∧ (s.armDeadlines p).time.counter = s.time.counter :=
  ⟨rfl, rfl, rfl, rfl, rfl, rfl, rfl, rfl, rfl, rfl, rfl, rfl, rfl, rfl, rfl, rfl⟩

@[simp] theorem produceResult_fields (s : State) (o : CommandOutcome) :
    (s.produceResult o).mem = s.mem ∧ (s.produceResult o).psel = s.psel ∧ (s.produceResult o).inReset = s.inReset ∧
    (s.produceResult o).portA = s.portA ∧ (s.produceResult o).portB = s.portB ∧ (s.produceResult o).view = s.view ∧
    (s.produceResult o).claims = s.claims ∧ (s.produceResult o).arb = s.arb ∧ (s.produceResult o).seq = s.seq ∧
    (s.produceResult o).time = s.time ∧ (s.produceResult o).disch = s.disch ∧ (s.produceResult o).rep = s.rep ∧
    (s.produceResult o).pins = s.pins ∧ (s.produceResult o).choices = s.choices ∧
    (s.produceResult o).pending = s.pending ∧ (s.produceResult o).cmd = { s.cmd with waitingResult := some o } :=
  ⟨rfl, rfl, rfl, rfl, rfl, rfl, rfl, rfl, rfl, rfl, rfl, rfl, rfl, rfl, rfl, rfl⟩

@[simp] theorem produceBusy_fields (s : State) (o : CommandOutcome) :
    (s.produceBusy o).mem = s.mem ∧ (s.produceBusy o).psel = s.psel ∧ (s.produceBusy o).inReset = s.inReset ∧
    (s.produceBusy o).portA = s.portA ∧ (s.produceBusy o).portB = s.portB ∧ (s.produceBusy o).view = s.view ∧
    (s.produceBusy o).claims = s.claims ∧ (s.produceBusy o).arb = s.arb ∧ (s.produceBusy o).seq = s.seq ∧
    (s.produceBusy o).time = s.time ∧ (s.produceBusy o).disch = s.disch ∧ (s.produceBusy o).rep = s.rep ∧
    (s.produceBusy o).pins = s.pins ∧ (s.produceBusy o).choices = s.choices ∧ (s.produceBusy o).pending = s.pending ∧
    (s.produceBusy o).cmd = { s.cmd with waitingBusy := some o } :=
  ⟨rfl, rfl, rfl, rfl, rfl, rfl, rfl, rfl, rfl, rfl, rfl, rfl, rfl, rfl, rfl, rfl⟩

end Sys2Proof.Machine
end

