-- ==== Sys2Proof/Laws/Report.lean ====
section
/-! SUPPORT. Everything that producing a report, and the end of a step, can do to a state. -/

namespace Sys2Proof.Machine

/-! ## Producing -/

@[simp] theorem produce_fields (s : State) (c : Content) :
    (s.produce c).mem = s.mem ∧ (s.produce c).psel = s.psel ∧ (s.produce c).inReset = s.inReset ∧
    (s.produce c).portA = s.portA ∧ (s.produce c).portB = s.portB ∧ (s.produce c).view = s.view ∧
    (s.produce c).claims = s.claims ∧ (s.produce c).arb = s.arb ∧ (s.produce c).seq = s.seq ∧
    (s.produce c).time = s.time ∧ (s.produce c).disch = s.disch ∧ (s.produce c).cmd = s.cmd ∧
    (s.produce c).pins = s.pins ∧ (s.produce c).choices = s.choices ∧ (s.produce c).pending = s.pending :=
  ⟨rfl, rfl, rfl, rfl, rfl, rfl, rfl, rfl, rfl, rfl, rfl, rfl, rfl, rfl, rfl⟩

/-- Two report units differ in their queue and dropped count alone, and in whether the report being written still stands in
the queue. -/
def SameUnit (u v : ReportUnit) : Prop :=
  v.writeSeq = u.writeSeq ∧ v.readSeq = u.readSeq ∧ v.markA = u.markA ∧ v.markA7 = u.markA7 ∧ v.quiet = u.quiet ∧
  v.fillLatch = u.fillLatch ∧ v.due = u.due ∧ v.changedAgain = u.changedAgain ∧ v.readPointerDue = u.readPointerDue ∧
  v.lastWasStatus = u.lastWasStatus ∧ (v.writing = u.writing ∨ v.writing = u.writing.map RecordWrite.unqueue)

theorem SameUnit.refl (u : ReportUnit) : SameUnit u u :=
  ⟨rfl, rfl, rfl, rfl, rfl, rfl, rfl, rfl, rfl, rfl, Or.inl rfl⟩

theorem map_unqueue_twice (w : Option RecordWrite) :
    (w.map RecordWrite.unqueue).map RecordWrite.unqueue = w.map RecordWrite.unqueue := by
  cases w <;> rfl

theorem SameUnit.trans {u v w : ReportUnit} (h : SameUnit u v) (k : SameUnit v w) : SameUnit u w := by
  obtain ⟨h1, h2, h3, h4, h5, h6, h7, h8, h9, h10, h11⟩ := h
  obtain ⟨k1, k2, k3, k4, k5, k6, k7, k8, k9, k10, k11⟩ := k
  refine ⟨k1.trans h1, k2.trans h2, k3.trans h3, k4.trans h4, k5.trans h5, k6.trans h6, k7.trans h7, k8.trans h8,
    k9.trans h9, k10.trans h10, ?_⟩
  rcases h11 with h | h <;> rcases k11 with k | k
  · exact Or.inl (k.trans h)
  · exact Or.inr (by rw [k, h])
  · exact Or.inr (by rw [k, h])
  · exact Or.inr (by rw [k, h, map_unqueue_twice])

theorem sameUnit_drop (u : ReportUnit) (n : Nat) : SameUnit u (u.drop n) :=
  ⟨rfl, rfl, rfl, rfl, rfl, rfl, rfl, rfl, rfl, rfl, Or.inl rfl⟩

theorem sameUnit_removeAt (u : ReportUnit) (n : Nat) : SameUnit u (u.removeAt n) := by
  refine ⟨rfl, rfl, rfl, rfl, rfl, rfl, rfl, rfl, rfl, rfl, ?_⟩
  by_cases h : n = 0
  · exact Or.inr (by simp [ReportUnit.removeAt, h])
  · exact Or.inl (by simp [ReportUnit.removeAt, h])

theorem sameUnit_queue (u : ReportUnit) (q : List Report) : SameUnit u { u with queue := q } :=
  ⟨rfl, rfl, rfl, rfl, rfl, rfl, rfl, rfl, rfl, rfl, Or.inl rfl⟩

/-- An offer touches the queue and the dropped count alone (R149). -/
theorem sameUnit_offer (u : ReportUnit) (r : Report) : SameUnit u (u.offer r) := by
  unfold ReportUnit.offer
  split
  · exact sameUnit_queue u _
  · split
    · split
      · exact ((sameUnit_removeAt u _).trans (sameUnit_drop _ 1)).trans (sameUnit_queue _ _)
      · exact sameUnit_drop u 1
    · exact sameUnit_drop u 1

/-- Producing a report touches the queue and the dropped count alone (R147). -/
theorem sameUnit_produce (s : State) (c : Content) : SameUnit s.rep (s.produce c).rep := by
  show SameUnit s.rep (s.rep.produced s c)
  unfold ReportUnit.produced
  split
  · exact sameUnit_drop _ 1
  · split
    · exact sameUnit_drop _ 1
    · split
      · exact SameUnit.refl _
      · exact sameUnit_offer _ _

/-- What one report and the model's choice keep, reports produced together keep. -/
theorem produceAll_induct (P : State → Prop) (hp : ∀ s c, P s → P (s.produce c))
    (hc : ∀ s : State, P s → P { s with choices := s.choices + 1 }) (s : State) (bs : List (List Content)) (h : P s) :
    P (s.produceAll bs) := by
  have fold : ∀ (b : List Content) (s : State), P s → P (b.foldl State.produce s) := by
    intro b
    induction b with
    | nil => exact fun _ h => h
    | cons c b ih => exact fun s h => ih _ (hp s c h)
  have loop : ∀ (fuel : Nat) (s : State) (bs : List (List Content)), P s → P (produceLoop fuel s bs) := by
    intro fuel
    induction fuel with
    | zero => exact fun _ _ h => h
    | succ fuel ih =>
      intro s bs h
      unfold produceLoop
      split
      · exact h
      · exact fold _ _ h
      · dsimp only
        split
        · exact h
        · exact ih _ _ (hc _ (hp s _ h))
  exact loop _ s bs h

/-- Reports produced together touch the queue, the dropped count and the model's counter of choices alone. -/
theorem produceAll_rest (s : State) (bs : List (List Content)) :
    (s.produceAll bs).mem = s.mem ∧ (s.produceAll bs).psel = s.psel ∧ (s.produceAll bs).inReset = s.inReset ∧
    (s.produceAll bs).portA = s.portA ∧ (s.produceAll bs).portB = s.portB ∧ (s.produceAll bs).view = s.view ∧
    (s.produceAll bs).claims = s.claims ∧ (s.produceAll bs).arb = s.arb ∧ (s.produceAll bs).seq = s.seq ∧
    (s.produceAll bs).time = s.time ∧ (s.produceAll bs).disch = s.disch ∧ (s.produceAll bs).cmd = s.cmd ∧
    (s.produceAll bs).pins = s.pins ∧ (s.produceAll bs).pending = s.pending ∧ SameUnit s.rep (s.produceAll bs).rep := by
  refine produceAll_induct (fun t => t.mem = s.mem ∧ t.psel = s.psel ∧ t.inReset = s.inReset ∧ t.portA = s.portA ∧
    t.portB = s.portB ∧ t.view = s.view ∧ t.claims = s.claims ∧ t.arb = s.arb ∧ t.seq = s.seq ∧ t.time = s.time ∧
    t.disch = s.disch ∧ t.cmd = s.cmd ∧ t.pins = s.pins ∧ t.pending = s.pending ∧ SameUnit s.rep t.rep) ?_ ?_ s bs ?_
  · rintro t c ⟨h1, h2, h3, h4, h5, h6, h7, h8, h9, h10, h11, h12, h13, h14, h15⟩
    exact ⟨h1, h2, h3, h4, h5, h6, h7, h8, h9, h10, h11, h12, h13, h14, h15.trans (sameUnit_produce t c)⟩
  · exact fun t h => h
  · exact ⟨rfl, rfl, rfl, rfl, rfl, rfl, rfl, rfl, rfl, rfl, rfl, rfl, rfl, rfl, SameUnit.refl _⟩

@[simp] theorem produceAll_fields (s : State) (bs : List (List Content)) :
    (s.produceAll bs).mem = s.mem ∧ (s.produceAll bs).psel = s.psel ∧ (s.produceAll bs).inReset = s.inReset ∧
    (s.produceAll bs).portA = s.portA ∧ (s.produceAll bs).portB = s.portB ∧ (s.produceAll bs).view = s.view ∧
    (s.produceAll bs).claims = s.claims ∧ (s.produceAll bs).arb = s.arb ∧ (s.produceAll bs).seq = s.seq ∧
    (s.produceAll bs).time = s.time ∧ (s.produceAll bs).disch = s.disch ∧ (s.produceAll bs).cmd = s.cmd ∧
    (s.produceAll bs).pins = s.pins ∧ (s.produceAll bs).pending = s.pending := by
  obtain ⟨h1, h2, h3, h4, h5, h6, h7, h8, h9, h10, h11, h12, h13, h14, -⟩ := produceAll_rest s bs
  exact ⟨h1, h2, h3, h4, h5, h6, h7, h8, h9, h10, h11, h12, h13, h14⟩

/-- Reports produced together leave the report unit's registers alone. -/
theorem sameUnit_produceAll (s : State) (bs : List (List Content)) : SameUnit s.rep (s.produceAll bs).rep :=
  (produceAll_rest s bs).2.2.2.2.2.2.2.2.2.2.2.2.2.2

/-! ## The length of the internal queue (R149) -/

theorem weakestFrom_lt (rs : List Report) (best : Nat × Report) (n : Nat) (h : best.1 < n) :
    (weakestFrom best n rs).1 < n + rs.length := by
  induction rs generalizing best n with
  | nil => exact h
  | cons r rs ih =>
    have := ih (if weakerOrNewer best.2 r then (n, r) else best) (n + 1) (by split <;> first | (simp; done) | (simp; omega))
    simp only [weakestFrom, List.length_cons]
    omega

/-- The weakest report stands at a place of the queue. -/
theorem weakest_lt (q : List Report) (n : Nat) (w : Report) (h : weakest q = some (n, w)) : n < q.length := by
  cases q with
  | nil => simp [weakest] at h
  | cons r rs =>
    simp only [weakest, Option.some.injEq] at h
    have := weakestFrom_lt rs (0, r) 1 (by simp)
    rw [h] at this
    simp only [List.length_cons]
    simp only at this
    omega

/-- An offer keeps the internal queue at 16 reports at most (R149). -/
theorem offer_length (u : ReportUnit) (r : Report) (h : u.queue.length ≤ Config.reportQueueSize) :
    (u.offer r).queue.length ≤ Config.reportQueueSize := by
  unfold ReportUnit.offer
  split
  · rename_i hl
    simp only [List.length_append, List.length_singleton]
    omega
  · split
    · rename_i n w hw
      split
      · have hn := weakest_lt _ _ _ hw
        simp only [ReportUnit.drop, ReportUnit.removeAt, List.length_append, List.length_singleton]
        rw [List.length_eraseIdx_of_lt hn]
        omega
      · exact h
    · exact h

/-- Producing a report keeps the internal queue at 16 reports at most (R149). -/
theorem produce_length (s : State) (c : Content) (h : s.rep.queue.length ≤ Config.reportQueueSize) :
    (s.produce c).rep.queue.length ≤ Config.reportQueueSize := by
  show (s.rep.produced s c).queue.length ≤ _
  unfold ReportUnit.produced
  split
  · exact h
  · split
    · exact h
    · split
      · exact h
      · exact offer_length _ _ h

/-- Reports produced together keep the internal queue at 16 reports at most (R149). -/
theorem produceAll_length (s : State) (bs : List (List Content)) (h : s.rep.queue.length ≤ Config.reportQueueSize) :
    (s.produceAll bs).rep.queue.length ≤ Config.reportQueueSize :=
  produceAll_induct (fun t => t.rep.queue.length ≤ Config.reportQueueSize) produce_length (fun _ h => h) s bs h

/-! ## The end of a step -/

/-- Head reports that are dropped leave a tail of the queue (R152). -/
theorem dropHeads_suffix (free w : Nat) (q : List Report) (n : Nat) : (dropHeads free w q n).1 <:+ q := by
  induction q generalizing n with
  | nil => exact List.suffix_refl _
  | cons r q ih =>
    unfold dropHeads
    split
    · exact (ih (n + 1)).trans (List.suffix_cons r q)
    · exact List.suffix_refl _
    · exact List.suffix_refl _

@[simp] theorem admissionDrops_fields (s : State) :
    s.admissionDrops.mem = s.mem ∧ s.admissionDrops.psel = s.psel ∧ s.admissionDrops.inReset = s.inReset ∧
    s.admissionDrops.portA = s.portA ∧ s.admissionDrops.portB = s.portB ∧ s.admissionDrops.view = s.view ∧
    s.admissionDrops.claims = s.claims ∧ s.admissionDrops.arb = s.arb ∧ s.admissionDrops.seq = s.seq ∧
    s.admissionDrops.time = s.time ∧ s.admissionDrops.disch = s.disch ∧ s.admissionDrops.cmd = s.cmd ∧
    s.admissionDrops.pins = s.pins ∧ s.admissionDrops.choices = s.choices ∧ s.admissionDrops.pending = s.pending := by
  unfold State.admissionDrops
  split <;> exact ⟨rfl, rfl, rfl, rfl, rfl, rfl, rfl, rfl, rfl, rfl, rfl, rfl, rfl, rfl, rfl⟩

/-- The drops at admission touch the queue and the dropped count alone, and drop from the head (R152). -/
theorem sameUnit_admissionDrops (s : State) :
    SameUnit s.rep s.admissionDrops.rep ∧ s.admissionDrops.rep.writing = s.rep.writing ∧
    s.admissionDrops.rep.queue <:+ s.rep.queue := by
  unfold State.admissionDrops
  split
  · exact ⟨SameUnit.refl _, rfl, List.suffix_refl _⟩
  · exact ⟨⟨rfl, rfl, rfl, rfl, rfl, rfl, rfl, rfl, rfl, rfl, Or.inl rfl⟩, rfl, dropHeads_suffix _ _ _ _⟩

@[simp] theorem drivePins_fields (s : State) :
    s.drivePins.mem = s.mem ∧ s.drivePins.psel = s.psel ∧ s.drivePins.inReset = s.inReset ∧
    s.drivePins.portA = s.portA ∧ s.drivePins.portB = s.portB ∧ s.drivePins.view = s.view ∧
    s.drivePins.claims = s.claims ∧ s.drivePins.arb = s.arb ∧ s.drivePins.seq = s.seq ∧ s.drivePins.time = s.time ∧
    s.drivePins.disch = s.disch ∧ s.drivePins.cmd = s.cmd ∧ s.drivePins.rep = s.rep ∧
    s.drivePins.choices = s.choices ∧ s.drivePins.pending = s.pending ∧ s.drivePins.pins = s.pinLevels :=
  ⟨rfl, rfl, rfl, rfl, rfl, rfl, rfl, rfl, rfl, rfl, rfl, rfl, rfl, rfl, rfl, rfl⟩

/-- Marking changed status words touches the due marks alone (R161). -/
theorem markChanged_rest (b a : State) (sp : Option Nat) (ns : List Nat) (u : ReportUnit) :
    ReportUnit.markChanged b a sp ns u =
      { u with due := (ReportUnit.markChanged b a sp ns u).due
               changedAgain := (ReportUnit.markChanged b a sp ns u).changedAgain } := by
  induction ns generalizing u with
  | nil => rfl
  | cons n ns ih =>
    unfold ReportUnit.markChanged
    split
    · exact ih (u.markDue _ n)
    · exact ih u

/-- A due status word stays due while words are marked. -/
theorem markChanged_keeps (b a : State) (sp : Option Nat) (m : Nat) (ns : List Nat) (u : ReportUnit) (h : m ∈ u.due) :
    m ∈ (ReportUnit.markChanged b a sp ns u).due := by
  induction ns generalizing u with
  | nil => exact h
  | cons n ns ih =>
    unfold ReportUnit.markChanged
    split
    · refine ih _ ?_
      unfold ReportUnit.markDue
      dsimp only
      split
      · exact h
      · exact List.mem_append_left _ h
    · exact ih u h

/-- A status word is due once it has been marked. -/
theorem markDue_marks (u : ReportUnit) (under : Bool) (n : Nat) : n ∈ (u.markDue under n).due := by
  unfold ReportUnit.markDue
  dsimp only
  split
  · rename_i h
    exact List.contains_iff_mem.mp h
  · exact List.mem_append_right _ (List.mem_singleton.mpr rfl)

/-- A changed status word that is not the spared one is due once the words have been marked (R161). -/
theorem markChanged_marks (b a : State) (sp : Option Nat) (m : Nat) (ns : List Nat) (u : ReportUnit) (hm : m ∈ ns)
    (hc : statusChanged b a m = true) (hs : sp ≠ some m) : m ∈ (ReportUnit.markChanged b a sp ns u).due := by
  induction ns generalizing u with
  | nil => cases hm
  | cons n ns ih =>
    unfold ReportUnit.markChanged
    rcases List.mem_cons.mp hm with h | h
    · subst h
      rw [if_pos (by simp [hc, hs])]
      exact markChanged_keeps b a sp m ns _ (markDue_marks u _ m)
    · exact ih _ h

@[simp] theorem refreshDue_fields (s : State) (sp : Option Nat) (b : State) :
    (s.refreshDue sp b).mem = s.mem ∧ (s.refreshDue sp b).psel = s.psel ∧ (s.refreshDue sp b).inReset = s.inReset ∧
    (s.refreshDue sp b).portA = s.portA ∧ (s.refreshDue sp b).portB = s.portB ∧ (s.refreshDue sp b).view = s.view ∧
    (s.refreshDue sp b).claims = s.claims ∧ (s.refreshDue sp b).arb = s.arb ∧ (s.refreshDue sp b).seq = s.seq ∧
    (s.refreshDue sp b).time = s.time ∧ (s.refreshDue sp b).disch = s.disch ∧ (s.refreshDue sp b).cmd = s.cmd ∧
    (s.refreshDue sp b).pins = s.pins ∧ (s.refreshDue sp b).choices = s.choices ∧
    (s.refreshDue sp b).pending = s.pending := by
  unfold State.refreshDue
  split <;> exact ⟨rfl, rfl, rfl, rfl, rfl, rfl, rfl, rfl, rfl, rfl, rfl, rfl, rfl, rfl, rfl⟩

/-- Bringing the due marks up to date touches them alone (R161). -/
theorem refreshDue_rep (s : State) (sp : Option Nat) (b : State) :
    ∃ due again, (s.refreshDue sp b).rep = { s.rep with due := due, changedAgain := again } := by
  unfold State.refreshDue
  split
  · exact ⟨_, _, markChanged_rest b s sp _ _⟩
  · exact ⟨s.rep.due, s.rep.changedAgain, rfl⟩

@[simp] theorem raise_fields (s : State) :
    s.raise.mem = s.mem ∧ s.raise.psel = s.psel ∧ s.raise.inReset = s.inReset ∧ s.raise.portA = s.portA ∧
    s.raise.portB = s.portB ∧ s.raise.view = s.view ∧ s.raise.claims = s.claims ∧ s.raise.seq = s.seq ∧
    s.raise.time = s.time ∧ s.raise.disch = s.disch ∧ s.raise.cmd = s.cmd ∧ s.raise.rep = s.rep ∧
    s.raise.pins = s.pins ∧ s.raise.choices = s.choices ∧ s.raise.pending = s.pending ∧
    s.raise.arb.hold = s.arb.hold :=
  ⟨rfl, rfl, rfl, rfl, rfl, rfl, rfl, rfl, rfl, rfl, rfl, rfl, rfl, rfl, rfl, rfl⟩

@[simp] theorem raise_desk (s : State) (r : Requester) : s.raise.arb.desk r = s.raised r := by cases r <;> rfl

@[simp] theorem settle_fields (sp : Option Nat) (b s : State) :
    (State.settle sp b s).mem = s.mem ∧ (State.settle sp b s).psel = s.psel ∧
    (State.settle sp b s).inReset = s.inReset ∧ (State.settle sp b s).portA = s.portA ∧
    (State.settle sp b s).portB = s.portB ∧ (State.settle sp b s).view = s.view ∧
    (State.settle sp b s).claims = s.claims ∧ (State.settle sp b s).seq = s.seq ∧
    (State.settle sp b s).time = s.time ∧ (State.settle sp b s).disch = s.disch ∧ (State.settle sp b s).cmd = s.cmd ∧
    (State.settle sp b s).choices = s.choices ∧ (State.settle sp b s).pending = s.pending ∧
    (State.settle sp b s).arb.hold = s.arb.hold := by
  simp [State.settle]

@[simp] theorem settle_port (sp : Option Nat) (b s : State) (p : Port) : (State.settle sp b s).port p = s.port p := by
  cases p <;> simp [State.port]

/-- The end of a step leaves the registers of the report unit alone: only the queue, the dropped count and the due marks may
change, and the queue only loses heads. -/
theorem settle_rep (sp : Option Nat) (b s : State) :
    (State.settle sp b s).rep.writeSeq = s.rep.writeSeq ∧ (State.settle sp b s).rep.readSeq = s.rep.readSeq ∧
    (State.settle sp b s).rep.markA = s.rep.markA ∧ (State.settle sp b s).rep.markA7 = s.rep.markA7 ∧
    (State.settle sp b s).rep.quiet = s.rep.quiet ∧ (State.settle sp b s).rep.fillLatch = s.rep.fillLatch ∧
    (State.settle sp b s).rep.readPointerDue = s.rep.readPointerDue ∧
    (State.settle sp b s).rep.writing = s.rep.writing ∧
    (State.settle sp b s).rep.lastWasStatus = s.rep.lastWasStatus ∧
    (State.settle sp b s).rep.queue <:+ s.rep.queue := by
  obtain ⟨due, again, h⟩ := refreshDue_rep s.admissionDrops.drivePins sp b
  obtain ⟨⟨h1, h2, h3, h4, h5, h6, -, -, h9, h10, -⟩, hw, hq⟩ := sameUnit_admissionDrops s
  simp only [State.settle, raise_fields, h, drivePins_fields]
  exact ⟨h1, h2, h3, h4, h5, h6, h9, hw, h10, hq⟩

/-- The levels of the output lines are made of these fields alone. -/
theorem pinLevels_congr (s t : State) (h1 : t.seq = s.seq) (h2 : t.cmd = s.cmd) (h3 : t.disch = s.disch)
    (h4 : t.rep.markA = s.rep.markA) (h5 : t.rep.markA7 = s.rep.markA7) (h6 : t.rep.readSeq = s.rep.readSeq)
    (h7 : t.rep.quiet = s.rep.quiet) (h8 : t.rep.fillLatch = s.rep.fillLatch) : t.pinLevels = s.pinLevels := by
  simp only [State.pinLevels, State.holdLevel, State.irqLevel, State.rejLevels, State.idleHold, h1, h2, h3, h4, h5, h6, h7, h8]

/-- Every step ends with the changed status words due, but for the spared one, when status upkeep runs (R161, R162). -/
theorem settle_due (sp : Option Nat) (b s : State) (n : Nat) (hu : s.seq.tracking.upkeep = true) (hn : n < statusWords)
    (hc : statusChanged b s.admissionDrops.drivePins n = true) (hs : sp ≠ some n) :
    n ∈ (State.settle sp b s).rep.due := by
  have hu' : s.admissionDrops.drivePins.seq.tracking.upkeep = true := by simpa using hu
  simp only [State.settle, raise_fields, State.refreshDue, hu', if_true]
  exact markChanged_marks b _ sp n _ _ (List.mem_range.mpr hn) hc hs

/-- The fill latch brought up to date: set at the hold-on mark or below, clear at the hold-off mark or above (R159). -/
theorem updateLatch_fillLatch (s : State) (p : Profile) (h : s.cmd.profile = some p) :
    (s.free ≤ p.holdOn → s.updateLatch.rep.fillLatch = true) ∧
    (p.holdOn < s.free → p.holdOff ≤ s.free → s.updateLatch.rep.fillLatch = false) ∧
    (p.holdOn < s.free → s.free < p.holdOff → s.updateLatch.rep.fillLatch = s.rep.fillLatch) := by
  simp only [State.updateLatch, h]
  refine ⟨fun h => if_pos h, fun h1 h2 => ?_, fun h1 h2 => ?_⟩
  · rw [if_neg (by omega), if_pos h2]
  · rw [if_neg (by omega), if_neg (by omega)]

/-- Every step ends with the output lines at the levels their rules give (R168). -/
theorem settle_pins (sp : Option Nat) (b s : State) :
    (State.settle sp b s).pins = s.pinLevels ∧ (State.settle sp b s).pinLevels = s.pinLevels := by
  obtain ⟨-, h2, h3, h4, h5, h6, -⟩ := settle_rep sp b s
  have hp : (State.settle sp b s).pinLevels = s.pinLevels :=
    pinLevels_congr s _ (by simp) (by simp) (by simp) h3 h4 h2 h5 h6
  refine ⟨?_, hp⟩
  obtain ⟨⟨-, r2, r3, r4, r5, r6, -⟩, -, -⟩ := sameUnit_admissionDrops s
  have : s.admissionDrops.pinLevels = s.pinLevels := pinLevels_congr s _ (by simp) (by simp) (by simp) r3 r4 r2 r5 r6
  simpa [State.settle] using this

end Sys2Proof.Machine
end

