-- ==== Sys2Proof/Laws/Frames.lean ====
section
/-! SUPPORT. The operations of the blocks never touch memory, the straps, RESET or the queue of commands: memory is written by
the accesses of units of work alone. -/

namespace Sys2Proof.Machine

/-- Two states have the same memory, straps, level of RESET and waiting commands. -/
def Outer (s t : State) : Prop := t.mem = s.mem ∧ t.psel = s.psel ∧ t.inReset = s.inReset ∧ t.pending = s.pending

theorem Outer.refl (s : State) : Outer s s := ⟨rfl, rfl, rfl, rfl⟩

theorem Outer.trans {s t u : State} (h : Outer s t) (k : Outer t u) : Outer s u :=
  ⟨k.1.trans h.1, k.2.1.trans h.2.1, k.2.2.1.trans h.2.2.1, k.2.2.2.trans h.2.2.2⟩

theorem outer_seq (s : State) (x : Sequencer) : Outer s { s with seq := x } := ⟨rfl, rfl, rfl, rfl⟩

theorem outer_time (s : State) (x : TimeBase) : Outer s { s with time := x } := ⟨rfl, rfl, rfl, rfl⟩

theorem outer_disch (s : State) (x : Discharge) : Outer s { s with disch := x } := ⟨rfl, rfl, rfl, rfl⟩

theorem outer_rep (s : State) (x : ReportUnit) : Outer s { s with rep := x } := ⟨rfl, rfl, rfl, rfl⟩

theorem outer_tear (s : State) (torn : Claim → Bool) : Outer s (s.tear torn) := ⟨rfl, rfl, rfl, rfl⟩

theorem outer_mapStations (s : State) (p : Profile) (f : Fin 8 → SlotSettings → Station → Station) :
    Outer s (s.mapStations p f) := ⟨rfl, rfl, rfl, rfl⟩

theorem outer_done (s : State) (tag : Byte) : Outer s (s.done tag) := ⟨rfl, rfl, rfl, rfl⟩

theorem outer_armDeadlines (s : State) (p : Profile) : Outer s (s.armDeadlines p) := ⟨rfl, rfl, rfl, rfl⟩

theorem outer_produce (s : State) (c : Content) : Outer s (s.produce c) := ⟨rfl, rfl, rfl, rfl⟩

theorem outer_produceAll (s : State) (bs : List (List Content)) : Outer s (s.produceAll bs) := by simp [Outer]

theorem outer_settle (sp : Option Nat) (b s : State) : Outer s (State.settle sp b s) := by simp [Outer]

theorem outer_setPort (s : State) (p : Port) (x : PortState) : Outer s (s.setPort p x) := by simp [Outer]

theorem outer_withdraw (s : State) (r : Requester) : Outer s (s.withdraw r) := ⟨rfl, rfl, rfl, rfl⟩

theorem outer_dropViews (s : State) (p : Port) : Outer s (s.dropViews p) := by
  unfold State.dropViews
  dsimp only
  split
  · exact Outer.trans (t := s.abandonWork p) ⟨rfl, rfl, rfl, rfl⟩ (outer_setPort _ _ _)
  · exact outer_setPort _ _ _

theorem outer_clearViews (s : State) (p : Profile) : Outer s (s.clearViews p) := ⟨rfl, rfl, rfl, rfl⟩

theorem outer_endStart (s : State) (code : OutcomeCode) (detail : BitVec 16) : Outer s (s.endStart code detail) := by
  unfold State.endStart
  split <;> exact ⟨rfl, rfl, rfl, rfl⟩

theorem outer_progressMarking (s : State) : Outer s s.progressMarking := by
  unfold State.progressMarking
  split
  · exact Outer.refl s
  · split
    · exact Outer.refl s
    · split <;> exact ⟨rfl, rfl, rfl, rfl⟩

theorem outer_endStartAtFault (s : State) (kind : FaultKind) : Outer s (s.endStartAtFault kind) := by
  cases kind <;> exact outer_endStart _ _ _

theorem outer_hardFault (s : State) (p : Profile) (f : FaultSignal) (extra : List (List Content)) :
    Outer s (s.hardFault p f extra) := by
  unfold State.hardFault
  dsimp only
  refine Outer.trans ?_ (outer_progressMarking _)
  refine Outer.trans ?_ (outer_produceAll _ _)
  refine Outer.trans ?_ (outer_endStartAtFault _ _)
  refine Outer.trans ?_ (outer_time _ _)
  refine Outer.trans ?_ (outer_mapStations _ _ _)
  refine Outer.trans ?_ (outer_dropViews _ _)
  refine Outer.trans ?_ (outer_dropViews _ _)
  refine Outer.trans ?_ (outer_tear _ _)
  exact Outer.trans (outer_seq s _) (outer_withdraw _ _)

theorem outer_enterHalted (s : State) : Outer s s.enterHalted := ⟨rfl, rfl, rfl, rfl⟩

/-- A fault touches nothing outside the blocks (R142, R143, R145). -/
theorem outer_fault (s : State) (f : FaultSignal) (extra : List (List Content)) : Outer s (s.fault f extra) := by
  unfold State.fault
  dsimp only
  split
  · exact Outer.trans (outer_seq s _) (outer_hardFault _ _ _ _)
  · exact Outer.trans (outer_seq s _) (outer_hardFault _ _ _ _)
  · exact Outer.trans (Outer.trans (outer_seq s _) (outer_produceAll _ _)) (outer_enterHalted _)
  · exact Outer.trans (outer_seq s _) (outer_produceAll _ _)
  · exact Outer.trans (outer_seq s _) (outer_produceAll _ _)
  · exact Outer.trans (outer_seq s _) (outer_produceAll _ _)
  · exact Outer.trans (outer_seq s _) (outer_produceAll _ _)
  · exact outer_seq s _
  · exact outer_seq s _

theorem outer_advanceAll (s : State) (p : Profile) : Outer s (s.advanceAll p) := by
  unfold State.advanceAll
  dsimp only
  refine Outer.trans ?_ (outer_rep _ _)
  refine Outer.trans ?_ (outer_armDeadlines _ _)
  refine Outer.trans ?_ (outer_mapStations _ _ _)
  refine Outer.trans ?_ (outer_tear _ _)
  exact Outer.trans (outer_seq s _) (outer_produceAll _ _)

theorem outer_acceptAdvance (s : State) : Outer s s.acceptAdvance := by
  unfold State.acceptAdvance
  split
  · exact Outer.refl s
  · split
    · exact outer_fault _ _ _
    · exact outer_advanceAll _ _

/-- The completion of an advance touches nothing outside the blocks (R109). -/
theorem outer_completeAdvance (s : State) : Outer s s.completeAdvance := by
  unfold State.completeAdvance
  dsimp only
  have h : Outer s (({ s with seq := { s.seq with advance := none } }).endStart .done 0) :=
    Outer.trans (outer_seq s _) (outer_endStart _ _ _)
  split
  · exact h.trans (Outer.trans (outer_seq _ _) (outer_acceptAdvance _))
  · exact h.trans (outer_seq _ _)

theorem outer_enterJudging (s : State) (p : Profile) (v : Advance) : Outer s (s.enterJudging p v) := by
  unfold State.enterJudging
  split
  · exact ⟨rfl, rfl, rfl, rfl⟩
  · exact outer_completeAdvance s

theorem outer_nextPair (s : State) (p : Profile) (v : Advance) : Outer s (s.nextPair p v) := by
  unfold State.nextPair
  split
  · exact ⟨rfl, rfl, rfl, rfl⟩
  · exact outer_enterJudging s p v

theorem outer_addToInitSet (s : State) (frame card : Nat) : Outer s (s.addToInitSet frame card) := by
  unfold State.addToInitSet
  split
  · exact Outer.refl s
  · split
    · dsimp only
      split
      · exact ⟨rfl, rfl, rfl, rfl⟩
      · unfold State.afterInitSet
        split
        · exact Outer.trans (Outer.trans (outer_seq s _) (outer_seq _ _)) (outer_progressMarking _)
        · split
          · split
            · unfold State.initialised
              split
              · exact Outer.trans (Outer.trans (outer_seq s _) (outer_seq _ _)) (outer_completeAdvance _)
              · exact Outer.trans (Outer.trans (outer_seq s _) (outer_seq _ _)) (outer_nextPair _ _ _)
            · exact ⟨rfl, rfl, rfl, rfl⟩
          · exact ⟨rfl, rfl, rfl, rfl⟩
    · exact Outer.refl s

theorem outer_cardExamined (s : State) (p : Profile) (card : Nat) (written : Bool) :
    Outer s (s.cardExamined p card written) := by
  unfold State.cardExamined
  split
  · exact Outer.refl s
  · split
    · dsimp only
      split
      · unfold State.pairExamined
        dsimp only
        split
        · exact outer_nextPair _ _ _
        · exact Outer.trans (outer_produce _ _) (outer_nextPair _ _ _)
      · exact ⟨rfl, rfl, rfl, rfl⟩
    · exact Outer.refl s

theorem outer_cardJudged (s : State) (p : Profile) (frame card : Nat) (x : Verdict) :
    Outer s (s.cardJudged p frame card x) := by
  unfold State.cardJudged
  split
  · exact Outer.refl s
  · split
    · exact Outer.refl s
    · dsimp only
      split
      · unfold State.judgementComplete
        dsimp only
        refine Outer.trans ?_ (outer_completeAdvance _)
        exact Outer.trans (outer_produceAll s _) (outer_disch _ _)
      · exact ⟨rfl, rfl, rfl, rfl⟩

theorem outer_startScan (s : State) : Outer s s.startScan := by
  unfold State.startScan
  split <;> exact ⟨rfl, rfl, rfl, rfl⟩

theorem outer_endScan (s : State) : Outer s s.endScan :=
  Outer.trans (t := { s with time := { s.time with running := none } }) ⟨rfl, rfl, rfl, rfl⟩ (outer_startScan _)

theorem outer_updateLatch (s : State) : Outer s s.updateLatch := by
  unfold State.updateLatch
  split <;> exact ⟨rfl, rfl, rfl, rfl⟩

theorem outer_withdrawScan (s : State) : Outer s s.withdrawScan := by
  unfold State.withdrawScan
  split
  · exact outer_withdraw _ _
  · exact Outer.refl _

/-- Taking a command word touches nothing outside the blocks (R130). -/
theorem outer_takeCommand (s : State) (v : Word) : Outer s (s.takeCommand v) := by
  unfold State.takeCommand
  split
  · exact Outer.refl s
  · split
    · unfold State.produceOutcome
      split <;> exact ⟨rfl, rfl, rfl, rfl⟩
    · rename_i c _
      cases c with
      | apply => exact ⟨rfl, rfl, rfl, rfl⟩
      | start =>
        simp only [State.runCommand]
        split
        · unfold State.takeStartCarry
          split <;> exact ⟨rfl, rfl, rfl, rfl⟩
        · unfold State.takeStartFresh
          split <;> exact ⟨rfl, rfl, rfl, rfl⟩
      | stop =>
        simp only [State.runCommand]
        unfold State.takeStop
        split
        · exact Outer.refl s
        · dsimp only
          refine Outer.trans ?_ (outer_produceAll _ _)
          refine Outer.trans ?_ (outer_done _ _)
          refine Outer.trans ?_ (outer_time _ _)
          refine Outer.trans ?_ (outer_mapStations _ _ _)
          refine Outer.trans ?_ (outer_dropViews _ _)
          refine Outer.trans ?_ (outer_dropViews _ _)
          refine Outer.trans ?_ (outer_tear _ _)
          exact Outer.trans (outer_seq s { s.seq with tracking := .idle }) (outer_withdrawScan _)
      | recover =>
        refine Outer.trans ?_ (outer_produceAll _ _)
        exact Outer.trans (t := { s with seq := { s.seq with faultCause := none, tracking := .idle }, disch := s.disch.clear })
          ⟨rfl, rfl, rfl, rfl⟩ (outer_done _ _)
      | quiet => exact ⟨rfl, rfl, rfl, rfl⟩

theorem outer_handOver (s : State) (p : Port) (a : Nat) (v : Word) : Outer s (s.handOver p a v) := by
  unfold State.handOver
  split
  · exact outer_takeCommand s v
  · split
    · unfold State.takeReadPointer
      split
      · exact Outer.refl s
      · split
        · exact Outer.trans (outer_rep s _) (outer_updateLatch _)
        · exact outer_produce _ _
    · split
      · unfold State.takeQuietExtend
        split <;> exact ⟨rfl, rfl, rfl, rfl⟩
      · exact Outer.refl s

/-- Reading a profile word into the candidate touches nothing outside the blocks (R133). -/
theorem outer_profileWordRead (s : State) (v : Word) : Outer s (s.profileWordRead v) := by
  unfold State.profileWordRead
  split <;> exact ⟨rfl, rfl, rfl, rfl⟩

/-- The checks and the end of APPLY touch nothing outside the blocks (R134 to R136). -/
theorem outer_checkProfile (s : State) (tag : Byte) : Outer s (s.checkProfile tag) := by
  unfold State.checkProfile
  split
  · exact ⟨rfl, rfl, rfl, rfl⟩
  · unfold State.applySucceeds
    exact Outer.trans ⟨rfl, rfl, rfl, rfl⟩ (outer_produceAll _ _)

theorem outer_makeChecks (s : State) : Outer s s.makeChecks := by
  unfold State.makeChecks
  split
  · exact outer_checkProfile s _
  · exact Outer.refl s

end Sys2Proof.Machine
end

