-- ==== Sys2Proof/Laws/Rules.lean ====
section
/-! SUPPORT. The bits of merged words, the fields of word 0, and the accesses of a pass and of a plain write. -/

namespace Sys2Proof.Machine

/-- The bits of an overlay. -/
theorem getLsbD_overlay (mask old new : Word) (i : Nat) (h : i < 32) :
    (overlay mask old new).getLsbD i = if mask.getLsbD i then new.getLsbD i else old.getLsbD i := by
  simp only [overlay, BitVec.getLsbD_or, BitVec.getLsbD_and, BitVec.getLsbD_not, h, decide_true, Bool.true_and]
  cases mask.getLsbD i <;> simp

theorem and_ones (x : Word) : x &&& 4294967295#32 = x := BitVec.and_allOnes

/-- With every byte enabled the written word is the data. -/
@[simp] theorem mergeBytes_all (old new : Word) : mergeBytes 0xF old new = new := by
  have h : enableMask 15#4 = BitVec.allOnes 32 := by decide
  simp [mergeBytes, overlay, h, and_ones]

/-- With no byte enabled the word stays. -/
@[simp] theorem mergeBytes_none (old new : Word) : mergeBytes 0 old new = old := by
  have h : enableMask 0#4 = 0#32 := by decide
  simp [mergeBytes, overlay, h, and_ones]

/-! ## Word 0 -/

@[simp] theorem recordWord0_fields (st ca : BitVec 4) (co ma ge : BitVec 8) :
    cardState (recordWord0 st ca co ma ge) = st ∧ cardCause (recordWord0 st ca co ma ge) = ca ∧
    cardCount (recordWord0 st ca co ma ge) = co ∧ cardMarks (recordWord0 st ca co ma ge) = ma ∧
    cardGeneration (recordWord0 st ca co ma ge) = ge := by
  refine ⟨?_, ?_, ?_, ?_, ?_⟩ <;> ext i hi <;>
    simp only [cardState, cardCause, cardCount, cardMarks, cardGeneration, recordWord0, BitVec.getElem_extractLsb',
      BitVec.getLsbD_append]
  · simp [hi]
  · simp [hi]
  · have h0 : ¬(8 + i < 4) := by omega
    have h : ¬(8 + i - 4 < 4) := by omega
    simp [h0, h, show 8 + i - 4 - 4 = i from by omega, hi]
  · have h0 : ¬(16 + i < 4) := by omega
    have h : ¬(16 + i - 4 < 4) := by omega
    have h' : ¬(16 + i - 4 - 4 < 8) := by omega
    simp [h0, h, h', show 16 + i - 4 - 4 - 8 = i from by omega, hi]
  · have h0 : ¬(24 + i < 4) := by omega
    have h : ¬(24 + i - 4 < 4) := by omega
    have h' : ¬(24 + i - 4 - 4 < 8) := by omega
    have h'' : ¬(24 + i - 4 - 4 - 8 < 8) := by omega
    simp [h0, h, h', h'', show 24 + i - 4 - 4 - 8 - 8 = i from by omega, hi]

/-! ## Accesses -/

/-- The reads of a pass leave memory alone. -/
@[simp] theorem passReads_mem (b : Bus) (p : Profile) (frame card : Nat) (carried : Staged) :
    (passReads b p frame card carried).2.mem = b.mem := by
  unfold passReads readCarried Bus.read
  dsimp only
  split <;> split <;> split <;> simp

/-- With no ERROR answered, the reads of a pass leave the bus as it was. -/
theorem passReads_ok (m : Memory) (p : Profile) (frame card : Nat) (carried : Staged) :
    (passReads (Bus.start m none) p frame card carried).2 = Bus.start m none := by
  have h : ∀ a, (Bus.start m none).answer a = Bus.start m none := fun a => answer_ok _ a rfl rfl
  unfold passReads readCarried Bus.read
  dsimp only
  simp only [h]
  split <;> split <;> split <;> simp [h]

/-- With no ERROR answered, a PLAIN or PROFILE write leaves the merged value in its word (R86). -/
theorem writeAccesses_ok (m : Memory) (a : Nat) (data : Word) (enables : Enables) :
    writeAccesses (Bus.start m none) a data enables =
      (mergeBytes enables (m.readWord a) data,
        Bus.start (m.writeWord a (mergeBytes enables (m.readWord a) data)) none) := by
  unfold writeAccesses
  split
  · rename_i he
    rw [he, mergeBytes_all, busWrite_ok]
  · simp only [Bus.read, answer_ok (Bus.start m none) a rfl rfl, busWrite_ok]
    rfl

end Sys2Proof.Machine
end

