-- ==== Sys2Proof/Laws/Slots.lean ====
section
/-! SUPPORT. The values of the eight slots and the words of a staging buffer, after one of them is replaced. -/

namespace Sys2Proof.Machine

variable {α : Type}

/-- A condition on every slot number is eight conditions. -/
theorem forall_slot {P : Fin 8 → Prop} : (∀ i, P i) ↔ P 0 ∧ P 1 ∧ P 2 ∧ P 3 ∧ P 4 ∧ P 5 ∧ P 6 ∧ P 7 :=
  ⟨fun h => ⟨h 0, h 1, h 2, h 3, h 4, h 5, h 6, h 7⟩, fun ⟨h0, h1, h2, h3, h4, h5, h6, h7⟩ i => by
    fin_cases i <;> assumption⟩

@[simp] theorem get_set_same (t : Eight α) (i : Fin 8) (x : α) : (t.set i x).get i = x := by fin_cases i <;> rfl

theorem get_set_other (t : Eight α) (i j : Fin 8) (x : α) (h : j ≠ i) : (t.set i x).get j = t.get j := by
  revert h; fin_cases i <;> fin_cases j <;> intro h <;> first | rfl | exact absurd rfl h

@[simp] theorem get_make (f : Fin 8 → α) (i : Fin 8) : (Eight.make f).get i = f i := by fin_cases i <;> rfl

/-- The slots in ascending order are all the slots. -/
theorem mem_slotNumbers (i : Fin 8) : i ∈ slotNumbers := by fin_cases i <;> decide

@[simp] theorem staged_get_put_same (g : Staged) (w : Fin 4) (x : StagedWord) : (g.put w x).get w = some x := by
  fin_cases w <;> rfl

theorem staged_get_put_other (g : Staged) (w v : Fin 4) (x : StagedWord) (h : v ≠ w) : (g.put w x).get v = g.get v := by
  revert h; fin_cases w <;> fin_cases v <;> intro h <;> first | rfl | exact absurd rfl h

end Sys2Proof.Machine
end

