-- ==== Sys2Proof/Laws/Span.lean ====
section
/-! SUPPORT. What a command over the phases of a unit of work can answer: which states, from which phase. -/

namespace Sys2Proof.Machine

/-- A step without accesses settles the state it is given, or does nothing. -/
theorem concludeIf_some (s t : State) : s.concludeIf (some t) = .next (State.settle none s t) := rfl

theorem concludeIf_none (s : State) : s.concludeIf none = .next s := rfl

/-- A command whose grant cannot come now, and which has no unit under its hold, changes nothing. -/
theorem runSpan_none (s : State) (span : Span) (mine : Work → Bool) (h : s.holdIs mine = false) :
    s.runSpan span none mine = .next s := by
  cases span <;> simp [State.runSpan, State.concludeIf, h]

/-- The grant alone. -/
theorem runSpan_grant (s t : State) (mine : Work → Bool) :
    s.runSpan .grant (some t) mine = .next (State.settle none s t) := rfl

/-- A grant whose unit of work has accesses, and then the accesses and the end of the hold. -/
theorem runSpan_whole_held (s t : State) (error : Option Nat) (mine : Work → Bool) (h : t.holdIs mine = true) :
    s.runSpan (.whole error) (some t) mine = .next (State.settle (t.sparedWord error) s (t.endHold error)) := by
  simp [State.runSpan, State.conclude, h]

/-- A grant whose unit of work has no access. -/
theorem runSpan_whole_done (s t : State) (error : Option Nat) (mine : Work → Bool) (h : t.holdIs mine = false) :
    s.runSpan (.whole error) (some t) mine = .next (State.settle none s t) := by
  simp [State.runSpan, State.conclude, h]

/-- Everything a command over a unit of work can answer. -/
theorem runSpan_cases {s t : State} {span : Span} {granted : Option State} {mine : Work → Bool}
    (h : s.runSpan span granted mine = .next t) :
    t = s ∨
    (∃ g, granted = some g ∧ t = State.settle none s g) ∨
    (∃ g error, granted = some g ∧ g.holdIs mine = true ∧ span = .whole error ∧
      t = State.settle (g.sparedWord error) s (g.endHold error)) ∨
    (∃ error, s.holdIs mine = true ∧ span = .finish error ∧
      t = State.settle (s.sparedWord error) s (s.endHold error)) := by
  cases span with
  | grant =>
    cases granted with
    | none => exact Or.inl (Host.Outcome.next.inj h).symm
    | some g => exact Or.inr (Or.inl ⟨g, rfl, (Host.Outcome.next.inj h).symm⟩)
  | whole error =>
    cases granted with
    | none => exact Or.inl (Host.Outcome.next.inj h).symm
    | some g =>
      by_cases hg : g.holdIs mine = true
      · rw [runSpan_whole_held s g error mine hg] at h
        exact Or.inr (Or.inr (Or.inl ⟨g, error, rfl, hg, rfl, (Host.Outcome.next.inj h).symm⟩))
      · rw [runSpan_whole_done s g error mine (by simpa using hg)] at h
        exact Or.inr (Or.inl ⟨g, rfl, (Host.Outcome.next.inj h).symm⟩)
  | finish error =>
    by_cases hs : s.holdIs mine = true
    · simp only [State.runSpan, hs, if_true, State.conclude] at h
      exact Or.inr (Or.inr (Or.inr ⟨error, hs, rfl, (Host.Outcome.next.inj h).symm⟩))
    · simp only [State.runSpan, hs] at h
      exact Or.inl (Host.Outcome.next.inj h).symm

/-- Everything APPLY_PROFILE_READ can answer: nothing, the grant or the grant without a unit, a whole read with the checks after
the last word, the end of a read under its hold, or the checks in a step of their own. -/
theorem applyProfileRead_cases {s t : State} {span : Span} (h : execApplyProfileRead span s = .next t) :
    t = s ∨
    (∃ g, s.profileReadGranted = some g ∧ t = State.settle none s g) ∨
    (∃ g error, s.profileReadGranted = some g ∧ g.holdIs isProfileRead = true ∧ span = .whole error ∧
      t = State.settle none s (g.endHold error).makeChecks) ∨
    (∃ error, s.holdIs isProfileRead = true ∧ span = .finish error ∧ t = State.settle none s (s.endHold error)) ∨
    (∃ error, s.holdIs isProfileRead = false ∧ s.inReset = false ∧ s.checksWait.isSome = true ∧ span = .finish error ∧
      t = State.settle none s s.makeChecks) := by
  cases span with
  | grant =>
    cases hg : s.profileReadGranted with
    | none =>
      rw [execApplyProfileRead, hg] at h
      exact Or.inl (Host.Outcome.next.inj h).symm
    | some g =>
      rw [execApplyProfileRead, hg] at h
      exact Or.inr (Or.inl ⟨g, rfl, (Host.Outcome.next.inj h).symm⟩)
  | whole error =>
    cases hg : s.profileReadGranted with
    | none =>
      rw [execApplyProfileRead, hg] at h
      exact Or.inl (Host.Outcome.next.inj h).symm
    | some g =>
      rw [execApplyProfileRead, hg] at h
      have e := (Host.Outcome.next.inj h).symm
      beta_reduce at e
      by_cases hh : g.holdIs isProfileRead = true
      · rw [if_pos hh] at e
        exact Or.inr (Or.inr (Or.inl ⟨g, error, rfl, hh, rfl, e⟩))
      · rw [if_neg hh] at e
        exact Or.inr (Or.inl ⟨g, rfl, e⟩)
  | finish error =>
    rw [execApplyProfileRead, State.profileReadEnded] at h
    by_cases hh : s.holdIs isProfileRead = true
    · rw [if_pos hh] at h
      exact Or.inr (Or.inr (Or.inr (Or.inl ⟨error, hh, rfl, (Host.Outcome.next.inj h).symm⟩)))
    · rw [if_neg hh] at h
      by_cases hw : (s.inReset || s.checksWait.isNone) = true
      · rw [if_pos hw] at h
        exact Or.inl (Host.Outcome.next.inj h).symm
      · rw [if_neg hw] at h
        refine Or.inr (Or.inr (Or.inr (Or.inr ⟨error, by simpa using hh, ?_, ?_, rfl, (Host.Outcome.next.inj h).symm⟩)))
        · cases hr : s.inReset <;> simp_all
        · cases hc : s.checksWait <;> simp_all

/-- APPLY_PROFILE_READ always answers a next state. -/
theorem applyProfileRead_next (s : State) (span : Span) : ∃ t, execApplyProfileRead span s = .next t := by
  cases span <;> simp only [execApplyProfileRead, State.concludeIf, State.conclude] <;> split <;> exact ⟨_, rfl⟩

/-- A command over a unit of work always answers a next state. -/
theorem runSpan_next (s : State) (span : Span) (granted : Option State) (mine : Work → Bool) :
    ∃ t, s.runSpan span granted mine = .next t := by
  cases span <;> cases granted <;> simp only [State.runSpan, State.concludeIf, State.conclude] <;>
    first
    | exact ⟨_, rfl⟩
    | (split <;> exact ⟨_, rfl⟩)

/-- The unit under its hold is one of a kind. -/
theorem holdIs_iff (s : State) (mine : Work → Bool) :
    s.holdIs mine = true ↔ ∃ w, s.arb.hold = some w ∧ mine w = true := by
  unfold State.holdIs
  cases s.arb.hold with
  | none => simp
  | some w => simp

@[simp] theorem holdIs_holds (s : State) (w : Work) (mine : Work → Bool) : (s.holds w).holdIs mine = mine w := rfl

theorem holdIs_free (s : State) (mine : Work → Bool) (h : s.arb.hold = none) : s.holdIs mine = false := by
  simp [State.holdIs, h]

@[simp] theorem endHold_holds (s : State) (w : Work) (error : Option Nat) :
    (s.holds w).endHold error = s.release.finishWork w error := rfl

end Sys2Proof.Machine
end

