-- ==== Sys2Proof/Tests/Slice0.lean ====
section
/-! SUPPORT. Tests on small states: ill-formed commands refused, the profile and some events of chapter 12 and of the worked
examples, and for every statement with hypotheses a state and operands that meet them. -/

namespace Sys2Proof.Tests

open Sys2Proof Sys2Proof.Machine

/-! ## Well-formedness -/

theorem test_wf_refuses_error_past_the_last_access_of_a_whole_unit :
    (Instr.plainWrite .a (.whole (some 2))).wf = false ∧ (Instr.plainWrite .a (.whole (some 1))).wf = true := by decide

theorem test_wf_refuses_error_past_the_last_access_of_a_finish :
    (Instr.reportRecordWrite (.finish (some 8))).wf = false ∧ (Instr.reportRecordWrite (.finish (some 7))).wf = true := by
  decide

theorem test_wf_refuses_reset_with_nine_completed_accesses :
    (Instr.deviceReset 9).wf = false ∧ (Instr.deviceReset 8).wf = true := by decide

/-! ## The line of 12.1 -/

/-- A slot that is not enabled. -/
def slotOff : SlotSettings :=
  { enabled := false, port := .a, offset := 0, mode := .word, apertureBase := 0, firstLane := 0, lastLane := 0, firstRow := 0,
    lastRow := 0, order := .laneMajor, laneDirection := .increasing, rowDirection := .increasing, streamWord := 0,
    sync := false, syncValue := 0, fields := ⟨false, false, false, false, false, false, false⟩, exit := .none, missCause := 0,
    limit := .none, low := 0, high := 0, deadline := 0 }

/-- The slot at the whole frame with a port, offset, aperture, fields, exit condition and miss cause. -/
def slotOn (port : Port) (offset aperture : Nat) (fields : FieldSet) (exit : ExitCondition) (missCause : BitVec 4) :
    SlotSettings :=
  { slotOff with
    enabled := true, port := port, offset := offset, apertureBase := aperture, firstLane := 1, lastLane := 4, firstRow := 1,
    lastRow := 2, fields := fields, exit := exit, missCause := missCause }

/-- The forming station, with a sync value added. -/
def slot0 : SlotSettings :=
  { slotOn .a 0 0x300000 ⟨true, false, false, false, false, false, false⟩ .none 2 with sync := true, syncValue := 77 }

/-- The loader. -/
def slot1 : SlotSettings :=
  { slotOn .a 1 0x301000 ⟨true, false, true, false, false, false, false⟩ (.rank 2) 3 with limit := .count, low := 4, high := 4 }

/-- The camera. -/
def slot2 : SlotSettings :=
  { slotOn .b 2 0x302000 ⟨true, true, false, false, true, false, false⟩ .mark 4 with
    mode := .record, limit := .score, low := 600, high := 1000, deadline := 300 }

/-- The sealer. -/
def slot3 : SlotSettings :=
  { slotOn .a 3 0x303000 ⟨true, false, false, false, false, true, false⟩ (.rank 4) 5 with
    limit := .reading, low := 180, high := 220 }

/-- The hand reject station. -/
def slot4 : SlotSettings := slotOn .a 2 0x304000 ⟨true, true, false, false, false, false, false⟩ .none 15

/-- The profile of 12.1, with the divider at 3. -/
def prof : Profile :=
  { lanes := 4, rows := 2, depth := 8, ringBase := 0x40000, dischargeOffset := 4, goodState := 4, idleHold := true,
    irqThreshold := 4, reportBase := 0x60000, capacity := 64, divider := 3, holdOn := 8, holdOff := 16,
    levels := [7, 6, 5, 5, 4, 4, 3, 3, 3, 3, 3, 2, 1, 2, 2, 2],
    slots := ⟨slot0, slot1, slot2, slot3, slot4, slotOff, slotOff, slotOff⟩ }

/-- The words of a slot record. -/
def slotWords (w0 base w3 sync syncValue fields exit limit range deadline : Word) : List Word :=
  [w0, base, 0x02010401, w3, sync, syncValue, fields, exit, limit, range, deadline, 0, 0, 0, 0, 0]

/-- Words 0 to 255 of the profile block of 12.1. -/
def words : List Word :=
  List.replicate 32 0 ++ [0x00080204, 0x00040000, 0x04010404, 0x00060000, 0x00030040, 0x00100008, 0x33445567, 0x22212333] ++
  List.replicate 88 0 ++ slotWords 0x00000001 0x300000 0 1 77 1 0x00020000 0 0 0 ++
  slotWords 0x00010001 0x301000 0 0 0 5 0x00030201 1 0x00040004 0 ++
  slotWords 0x01020101 0x302000 0 0 0 0x13 0x00040002 2 0x03E80258 300 ++
  slotWords 0x00030001 0x303000 0 0 0 0x21 0x00050401 3 0x00DC00B4 0 ++
  slotWords 0x00020001 0x304000 0 0 0 0x03 0x000F0000 0 0 0 ++ List.replicate 48 0

theorem test_profile_of_12_1_is_read : (profileOf words).slots.s2 = slot2 ∧ (profileOf words).slots.s4 = slot4 ∧
    (profileOf words).levels = prof.levels ∧ (profileOf words).capacity = 64 := by decide

theorem test_profile_of_12_1_passes_the_checks : profileFailure 0x200000 words = none := by decide

theorem test_profile_with_overlapping_aperture_fails_check_20_in_slot_1 :
    profileFailure 0x301000 words = some (20, 1) := by decide

/-! ## States -/

/-- The part RUNNING on the line of 12.1 with H = 10 and first frame 1. -/
def base : State :=
  { State.reset with
    inReset := false, psel := 2
    view := ⟨⟨some 10, .step 0, 0, 0, 0⟩, ⟨some 9, .step 0, 0, 0, 0⟩, ⟨some 8, .step 0, 0, 0, 0⟩, ⟨some 7, .step 0, 0, 0, 0⟩,
             ⟨some 8, .step 0, 0, 0, 0⟩, .reset, .reset, .reset⟩
    seq := { Sequencer.reset with tracking := .running, head := 10, firstFrame := 1, ringValid := true }
    time := { TimeBase.reset with divider := 3, counter := 100 }
    cmd := { CommandUnit.reset with profile := some prof }
    pins := { hold := false, irq := false, rej := 0 } }

/-- The same in another tracking state. -/
def inTracking (t : Tracking) : State := { base with seq := { base.seq with tracking := t } }

/-- A request waits alone at the arbiter. -/
def asking (s : State) (r : Requester) (q : Request) : State :=
  { s with arb := s.arb.setDesk r { request := some q, passed := 0 } }

/-- A port's queue holds entries, and the first is ready for its grant. -/
def queued (s : State) (p : Port) (es : List Entry) : State :=
  asking (s.setPort p { s.port p with queue := es }) (portRequester p) .own

/-- A command word stands at the head of Port A's queue. -/
def commanded (s : State) (v : Word) : State := queued s .a [.profile 0x200000 v 0xF]

/-- An advance in flight. -/
def flight (kind : AdvanceKind) (stage : Stage) (departures : List Departure) : Advance :=
  { kind := kind, stage := stage, acceptedAt := 0, departures := departures, check := none, judgeFrame := none, judge := none }

/-- The part ADVANCING with an advance record. -/
def advancing (v : Advance) : State :=
  { base with seq := { base.seq with tracking := .advancing, advance := some v }, pins := { base.pins with hold := true } }

/-- The part MARKING. -/
def marking (m : Marking) : State := { base with seq := { base.seq with tracking := .marking, marking := some m } }

/-- A target of slot `i` on card 1. -/
def onCard (i : Fin 8) (frame : Nat) (w : Fin 4) : Target := { slot := i, frame := frame, card := 1, word := w }

/-- Memory in which card 1 of frame 8 is LOADED and that of frame 9 FORMED. -/
def cards : Memory := (Memory.writeWord [] 0x40010 0x08000002).writeWord 0x40410 0x09000001

/-- A report of a level. -/
def reportAt (level : Nat) : Report :=
  { kind := .late, level := level, source := .timebase, slot := none, frame := 0, lane := 0, row := 0, count := 0, detail := 0,
    data := 0, timestamp := 0, head := 0, ofStatusW := false }

/-! ## Worked examples -/

theorem test_word_1_of_card_3_of_frame_10 : ringAddress prof 10 3 1 = 0x40834 := by decide

/-- The window of the checkweigher of 3.6. -/
def checkweigher : SlotSettings :=
  { slotOff with firstLane := 2, lastLane := 4, firstRow := 1, lastRow := 2, laneDirection := .decreasing }

theorem test_steps_of_3_6 : (List.range 6).map (stepCard checkweigher) = [3, 2, 1, 11, 10, 9] := by decide

theorem test_arbitration_of_6_9_grants_port_A_after_eight :
    ({ Arbiter.reset with sequencer := ⟨some .cardInit, 0⟩, portA := ⟨some .own, 8⟩, portB := ⟨some .own, 8⟩ } :
      Arbiter).choose = some .portA := by decide

theorem test_loader_of_4_9 : passOutcome slot1 1 (carriedWord 0 0x00000402 0xF) ⟨0x2C000001, 0, 0, 0⟩ =
    .performed ⟨0x2C020402, 0, 0, 0⟩ none := by decide

theorem test_slip_of_the_loader_of_4_9 :
    passOutcome slot1 1 (carriedWord 0 0x00000401 0xF) ⟨0x2C020402, 0, 0, 0⟩ = .refused 1 := by decide

theorem test_camera_of_4_9_is_forced : passOutcome slot2 3 (carriedWord 2 540 0x3) ⟨0x2C020402, 0, 0, 0⟩ =
    .performed ⟨0x2C0A047E, 0, 540, 0⟩ (some 540) := by decide

theorem test_departure_list_of_12_4 : (departureList prof 23 1).map (fun d => (d.slot.val, d.frame)) =
    [(0, 22), (1, 21), (2, 20), (4, 20), (3, 19)] := by decide

theorem test_discharge_word_of_12_3 :
    (dischargeReport 10 ⟨[], 5, 2, 1, 0x0804, some 9, [0, 0xA]⟩).data = 0x00010005 := by decide

theorem test_marking_set_of_12_5 :
    ({ base with seq := { base.seq with head := 41 } } : State).markingFrames prof = [37, 38, 39, 40, 41] := by decide

/-! ## Witnesses: steps and invariants -/

theorem test_witness_EmptyQueueClocks :
    (State.reset.pending = [] ∧ State.reset.inReset = true) ∧
    (base.pending = [] ∧ base.inReset = false ∧ base.time.cycles + 1 < base.time.divider) ∧
    ∃ s : State, s.pending = [] ∧ s.inReset = false ∧ s.time.divider ≤ s.time.cycles + 1 :=
  ⟨by decide, by decide, { base with time := { base.time with cycles := 2 } }, by decide⟩

/-- A step from a state with INDEX waiting, used where an invariant needs a step. -/
def indexed : State := { base with pending := [.indexArrival] }

theorem test_witness_StepKeepsMemoryCanonical : ∃ s t, s.memoryCanonical ∧ step s = .next t :=
  ⟨{ indexed with mem := cards }, _, by unfold State.memoryCanonical; decide, rfl⟩

theorem test_witness_StepKeepsLines : ∃ s t, s.linesFollowRules ∧ step s = .next t :=
  ⟨indexed, _, by unfold State.linesFollowRules; decide, rfl⟩

theorem test_witness_StepKeepsRanges :
    ∃ s t, s.queuesBounded ∧ s.reportsBounded ∧ s.countersBounded ∧ s.framesOrdered ∧ step s = .next t :=
  ⟨indexed, _, by unfold State.queuesBounded; decide, by unfold State.reportsBounded; decide,
    by unfold State.countersBounded; decide, by unfold State.framesOrdered; decide, rfl⟩

theorem test_witness_StepKeepsClaimsBounded : ∃ s t, s.claimsBounded ∧ step s = .next t :=
  ⟨{ indexed with claims := [{ frame := 8, card := 1, slot := 2, port := .b, staged := Staged.empty }] }, _,
    by unfold State.claimsBounded; decide, rfl⟩

theorem test_witness_StepKeepsWaitsBounded : ∃ s t, s.waitsBounded ∧ step s = .next t :=
  ⟨asking indexed .portB .own, _, fun r => by cases r <;> decide, rfl⟩

theorem modes_of_base : indexed.modesAgree := by
  refine ⟨by decide, by decide, by decide, by decide, by decide, ?_, ?_, by decide⟩ <;> intro tag h <;> cases h

theorem test_witness_StepKeepsModesAgree : ∃ s t, s.modesAgree ∧ step s = .next t := ⟨indexed, _, modes_of_base, rfl⟩

theorem test_witness_StepKeepsSequencesOrdered : ∃ s t, s.sequencesOrdered ∧ s.recordHasRoom ∧ step s = .next t :=
  ⟨indexed, _, ⟨by decide, by decide, show 1 ≤ 1 + 64 by decide⟩,
    ⟨by decide, by decide, fun w h => by cases h⟩, rfl⟩

theorem test_witness_StepKeepsProfileChecked : ∃ s t, s.modesAgree ∧ s.profileChecked ∧ step s = .next t := by
  refine ⟨indexed, _, modes_of_base, ?_, rfl⟩
  intro p hp
  cases hp
  unfold Profile.checked Profile.slotChecked
  and_intros <;> decide

/-! ## Witnesses: reset and time -/

theorem test_witness_ResetAndRelease : State.reset.inReset = true ∧ base.inReset = false ∧ base.arb.hold = none := by decide

/-- Port A's merging write is under its hold. -/
def merging : State :=
  { base with
    mem := cards
    arb := { base.arb with hold := some (.write .a 0x500000 0x1234 3 false) } }

/-- R89: the read and then the write of a merge, cut after none, one and both of its accesses. -/
theorem test_witness_ResetAndRelease_under_a_hold :
    merging.inReset = false ∧ merging.arb.hold = some (.write .a 0x500000 0x1234 3 false) ∧
    merging.cutMemory 0 = cards ∧ merging.cutMemory 1 = cards ∧ merging.cutMemory 2 = cards.writeWord 0x500000 0x1234 ∧
    heldAccesses merging (.write .a 0x500000 0x1234 3 false) = [none, some (0x500000, 0x1234)] := by decide

theorem test_witness_TickAndDeadline_tick :
    base.inReset = false ∧ ∀ i f e, base.time.deadlines.get i = .armed f e → e ≠ base.time.counter := by
  refine ⟨by decide, ?_⟩
  intro i f e h
  fin_cases i <;> cases h

/-- The deadline of slot 2 is due. -/
def due : State :=
  { base with time := { base.time with deadlines := base.time.deadlines.set 2 (.armed 8 100) } }

theorem test_witness_TickAndDeadline_deadline :
    (due.inReset = false ∧ due.cmd.profile = some prof ∧ due.time.deadlines.get 2 = .armed 8 due.time.counter ∧
      due.time.running = none ∧ due.time.scans = []) ∧
    ∃ s : State, s.inReset = false ∧ s.cmd.profile = some prof ∧ s.time.deadlines.get 2 = .armed 8 s.time.counter ∧
      s.time.running = some { slot := 1, frame := 8, expiry := 0, todo := [0], late := 0, first := none } ∧
      ∀ w ∈ s.time.scans, w.slot ≠ 2 :=
  ⟨by decide, { due with time := { due.time with
    running := some { slot := 1, frame := 8, expiry := 0, todo := [0], late := 0, first := none } } }, by decide⟩

/-! ## Witnesses: Rules Unit -/

theorem test_witness_GuardTable :
    ((0 : BitVec 4) ≠ 2 ∧ (13 : BitVec 4) ≠ 14 ∧ 6 ≤ (13 : BitVec 4).toNat ∧ (13 : BitVec 4).toNat ≤ 13) ∧
    ((4 : BitVec 4) ≠ 15 ∧ (15 : BitVec 4) ≠ 14) ∧ ((14 : BitVec 4) ≠ 5) ∧
    ((15 : BitVec 4) ≠ 7 ∧ rankOf 7 = 0) ∧ ((15 : BitVec 4) ≠ 2 ∧ 2 ≤ rankOf 2) ∧
    ((5 : BitVec 4) ≠ 4 ∧ rankOf 4 < 5) ∧ ((1 : BitVec 4) ≠ 5 ∧ 1 < rankOf 5) := by decide

theorem test_witness_CauseHandling :
    (cardState 0x2E = 14 ∧ cardState 1 ≠ 14 ∧ cardCause 0x2E ≠ 0 ∧ cardCause 0x2E ≠ 9 ∧ cardCause 0x2E ≠ 10) ∧
    (cardState 0x0E = 14 ∧ cardCause 0x0E = 0) ∧ (cardState 0x9E = 14 ∧ cardCause 0x9E = 9) ∧
    (cardState 0xAE = 14 ∧ cardCause 0xAE = 10) ∧ ¬(cardState 2 = 14 ∧ cardState 1 ≠ 14) := by decide

theorem test_witness_PassComposesWordZero :
    (∃ words, passOutcome slot1 1 (carriedWord 0 0x402 0xF) ⟨1, 0, 0, 0⟩ = .performed words none) ∧
    (∃ words, passOutcome slot1 1 (carriedWord 0 0x302 0xF) ⟨1, 0, 0, 0⟩ = .performed words (some 3)) ∧
    (∃ words, passOutcome slot1 1 (carriedWord 0 0x30E 0xF) ⟨1, 0, 0, 0⟩ = .performed words none) ∧
    limitValue slot1 (carriedWord 0 0x402 0xF) (maskedRecord slot1 (carriedWord 0 0x402 0xF) ⟨1, 0, 0, 0⟩) = some 4 ∧
    limitValue slot1 (carriedWord 0 0x30E 0xF) (maskedRecord slot1 (carriedWord 0 0x30E 0xF) ⟨1, 0, 0, 0⟩) = some 3 :=
  ⟨⟨_, rfl⟩, ⟨_, rfl⟩, ⟨_, rfl⟩, by decide, by decide⟩

theorem test_witness_PassComposesWordZero_guard :
    guardRefusal (cardState 0x2C020402) (cardState (maskedRecord slot1 (carriedWord 0 0x401 0xF) ⟨0x2C020402, 0, 0, 0⟩).w0) =
      some 1 ∧
    ((carriedWord 2 540 3).w0 = none ∧ slotOff.fields.state = false ∧
      (carriedWord 0 0x401 0xE).w0.map (fun c => c.enables.getLsbD 0) = some false ∧
      cardState (maskedRecord slot1 (carriedWord 0 0x402 0xF) ⟨0x2C020402, 0, 0, 0⟩).w0 = cardState 0x2C020402) := by decide

theorem test_witness_PassComposesWordZero_limit_value :
    limitValue slot1 (carriedWord 0 0x402 2) (maskedRecord slot1 (carriedWord 0 0x402 2) ⟨1, 0, 0, 0⟩) = some 4 ∧
    limitValue slot1 (carriedWord 0 0x402 0xD) (maskedRecord slot1 (carriedWord 0 0x402 0xD) ⟨1, 0, 0, 0⟩) = none ∧
    limitValue slot2 (carriedWord 2 0xFFFF021C 1) (maskedRecord slot2 (carriedWord 2 0xFFFF021C 1) ⟨1, 0, 0, 0⟩) =
      some 0x1C ∧
    limitValue slot2 (carriedWord 2 0xFFFF021C 0xC) (maskedRecord slot2 (carriedWord 2 0xFFFF021C 0xC) ⟨1, 0, 0, 0⟩) = none ∧
    limitValue slot3 (carriedWord 2 0x00C80000 8) (maskedRecord slot3 (carriedWord 2 0x00C80000 8) ⟨1, 0, 7, 0⟩) = some 0 ∧
    limitValue slot3 (carriedWord 2 0x00C80000 4) (maskedRecord slot3 (carriedWord 2 0x00C80000 4) ⟨1, 0, 7, 0⟩) =
      some 200 := by decide

theorem test_witness_MaskKeepsProtectedBits :
    (fieldMask slot1.fields 0).getLsbD 31 = false ∧ (fieldMask slot1.fields 0).getLsbD 0 = true ∧
    (0x7 : Enables).getLsbD (31 / 8) = false ∧ (0x7 : Enables).getLsbD (0 / 8) = true := by decide

theorem test_witness_RingAddressFormula :
    (1 ≤ 1 ∧ 1 ≤ 8 ∧ 1 ≤ 1 ∧ 1 ≤ 6 ∧ cardAt 1 1 = 0) ∧ (1 ≤ 8 ∧ 8 ≤ 8 ∧ 1 ≤ 6 ∧ 6 ≤ 6 ∧ cardAt 8 6 = 47) := by decide

theorem test_witness_CursorFollowsTable :
    (1 ≤ checkweigher.firstLane ∧ checkweigher.firstLane ≤ checkweigher.lastLane ∧ checkweigher.lastLane ≤ 8 ∧
      1 ≤ checkweigher.firstRow ∧ checkweigher.firstRow ≤ checkweigher.lastRow ∧ checkweigher.lastRow ≤ 6) ∧
    0 < windowSize checkweigher ∧ 5 < windowSize checkweigher ∧ inWindow checkweigher 9 = true := by decide

theorem test_witness_JudgementTable :
    cardState 0x0AFF000F = 15 ∧ cardState 0x0A00007E = 14 ∧
    (cardState 0x0B000004 ≠ 14 ∧ cardState 0x0B000004 ≠ 15 ∧ cardGeneration 0x0B000004 ≠ BitVec.ofNat 8 10) ∧
    (cardGeneration 0x0A000004 = BitVec.ofNat 8 10 ∧ cardState 0x0A000004 = 4) ∧ cardState 0x0A000005 ≠ 4 := by decide

/-! ## Witnesses: arbiter and reports -/

theorem test_witness_ArbiterChoosesAndCounts :
    (asking base .portB .own).arb.waits .portB = true ∧ (asking base .portB .own).arb.choose = some .portB ∧
    ({ Arbiter.reset with portB := ⟨some .own, 8⟩, sequencer := ⟨some .judge, 0⟩ } : Arbiter).choose = some .portB := by decide

/-- The internal queue holds 16 reports of a level. -/
def fullQueue (level : Nat) : State := { base with rep := { base.rep with queue := List.replicate 16 (reportAt level) } }

theorem test_witness_ReportOffered :
    State.reset.cmd.profile = none ∧ (inTracking .halted).seq.tracking = .halted ∧
    (base.cmd.profile = some prof ∧ base.seq.tracking ≠ .halted ∧ prof.level (kindNumber .late) ≠ 0 ∧
      base.rep.queue.length < 16) ∧
    ({ prof with levels := [7] } : Profile).level (kindNumber .late) = 0 ∧
    (16 ≤ (fullQueue 4).rep.queue.length ∧ ∀ q ∈ (fullQueue 4).rep.queue, prof.level (kindNumber .late) ≤ q.level) ∧
    ∃ q ∈ (fullQueue 1).rep.queue, q.level < prof.level (kindNumber .late) :=
  ⟨by decide, by decide, by decide, by decide, by decide, reportAt 1, by decide⟩

/-- Reports of level 1 but for the newest two, a FAULT of level 1 and a LATE of level 2: the weakest is the newest LATE of
level 1. -/
def uneven : List Report :=
  List.replicate 14 (reportAt 1) ++ [{ reportAt 1 with kind := .fault }, reportAt 2]

theorem test_weakest_report_is_the_newest_of_highest_kind_number : weakest uneven = some (13, reportAt 1) := by decide

/-! ## Witnesses: acceptance -/

theorem test_witness_WriteBecomesEntry :
    (base.portWaits .a = false ∧ (base.port .a).queue.length < 16 ∧
      base.mayPresent .a { isWrite := true, address := 0x200000, enables := 15, data := 1 } = true) ∧
    base.classify (wordAddress 0x2003FF) = .profileBlock ∧
    ((inTracking .idle).classify (wordAddress 0x40000) = .rawRing ∧ (inTracking .idle).seq.tracking.ringHeld = false) ∧
    base.classify (wordAddress 0x60000) = .reportRing ∧ base.classify (wordAddress 0x200400) = .plain := by decide

theorem test_witness_RefusedAtAcceptance :
    (base.classify (wordAddress 0x40000) = .rawRing ∧ base.seq.tracking.ringHeld = true) ∧
    (base.classify (wordAddress 0x302000) = .view 2 0 ∧ base.viewRefused .a true 2 0 = true) ∧
    (base.classify (wordAddress 0x300400) = .view 0 0x400 ∧ base.viewRefused .a false 0 0x400 = true) ∧
    base.viewRefused .a true 0 0x404 = true ∧ base.viewRefused .a true 0 0x40 = true ∧
    base.viewRefused .a true 0 0 = false ∧
    base.mayPresent .a { isWrite := false, address := 0x300400, enables := 15, data := 0 } = true := by decide

/-- Port A's queue is full of plain entries. -/
def fullPort : State := base.setPort .a { base.portA with queue := List.replicate 16 (.plain 0x500000 1 15) }

theorem test_witness_TransferHeld :
    State.reset.mayPresent .a { isWrite := true, address := 0x500000, enables := 15, data := 1 } = true ∧
    State.reset.inReset = true ∧
    (base.setPort .a { base.portA with pending := some (.plain 4) }).portA.pending.isSome = true ∧
    (16 ≤ (fullPort.port .a).queue.length ∧ fullPort.classify (wordAddress 0x500000) = .plain) := by decide

/-- Port A's full queue while the ring is not held. -/
def fullIdle : State := (inTracking .idle).setPort .a fullPort.portA

theorem test_witness_TransferHeld_views_raw_writes_and_reads :
    (fullPort.mayPresent .a { isWrite := true, address := 0x30001C, enables := 15, data := 1 } = true ∧
      fullPort.classify (wordAddress 0x30001C) = .view 0 0x1C ∧ fullPort.viewRefused .a true 0 0x1C = false) ∧
    (16 ≤ (fullIdle.port .a).queue.length ∧ fullIdle.classify (wordAddress 0x40000) = .rawRing ∧
      fullIdle.seq.tracking.ringHeld = false) ∧
    State.reset.mayPresent .a { isWrite := false, address := 0x500000, enables := 15, data := 0 } = true ∧
    (base.setPort .a { base.portA with pending := some (.plain 4) }).mayPresent .a
      { isWrite := false, address := 0x300000, enables := 15, data := 0 } = true := by decide

theorem test_witness_WriteBecomesEntry_view :
    base.mayPresent .a { isWrite := true, address := 0x30001C, enables := 15, data := 1 } = true ∧
    base.portWaits .a = false ∧ (base.port .a).queue.length < 16 ∧ base.classify (wordAddress 0x30001C) = .view 0 0x1C ∧
    base.viewRefused .a true 0 0x1C = false ∧ (base.view.get 0).currentFrame = some 10 := by decide

/-- Slot 0 with a cursor and held values. -/
def streaming (c : Cursor) (held : Nat) : State :=
  { base with view := base.view.set 0 ⟨some 10, c, held, 0, 0⟩ }

theorem test_witness_StreamWriteOutcomes :
    (∀ s ∈ [streaming (.step 0) 0, streaming (.step 7) 3, streaming .exhausted 3, streaming (.step 5) 2,
        streaming .exhausted 0],
      s.mayPresent .a { isWrite := true, address := 0x300400, enables := 15, data := 77 } = true ∧
      s.portWaits .a = false ∧ s.classify (wordAddress 0x300400) = .view 0 0x400 ∧
      s.viewRefused .a true 0 0x400 = false ∧ s.settings 0 = some slot0 ∧ (s.view.get 0).currentFrame = some 10 ∧
      (s.view.get 0).held ≤ 3) ∧
    (slot0.sync = true ∧ (15 : Enables) = 0xF ∧ (77 : Word) = slot0.syncValue ∧ (78 : Word) ≠ slot0.syncValue) ∧
    5 + 2 + 1 ≤ windowSize slot0 ∧ ((streaming (.step 5) 2).port .a).queue.length + 2 + 1 ≤ 16 := by decide

theorem test_witness_StreamWriteOutcomes_past_the_window :
    (∀ s ∈ [streaming (.step 7) 1, streaming (.step 5) 3],
      s.mayPresent .a { isWrite := true, address := 0x300400, enables := 15, data := 78 } = true ∧
      s.viewRefused .a true 0 0x400 = false ∧ (s.port .a).queue.length + 3 ≤ 16) ∧
    (7 < windowSize slot0 ∧ windowSize slot0 < 7 + 1 + 1) ∧ (5 < windowSize slot0 ∧ windowSize slot0 < 5 + 3 + 1) := by decide

/-- The stream of slot 0 with 15 entries queued. -/
def crowded (c : Cursor) (held : Nat) : State :=
  (streaming c held).setPort .a { base.portA with queue := List.replicate 15 (.plain 0x500000 1 15) }

theorem test_witness_StreamWriteOutcomes_without_room :
    (∀ s ∈ [crowded (.step 0) 1, crowded (.step 6) 3],
      s.mayPresent .a { isWrite := true, address := 0x300400, enables := 15, data := 78 } = true ∧
      s.portWaits .a = false ∧ s.viewRefused .a true 0 0x400 = false) ∧
    (0 < windowSize slot0 ∧ 6 < windowSize slot0) ∧
    16 < ((crowded (.step 0) 1).port .a).queue.length + min (1 + 1) (windowSize slot0 - 0) ∧
    16 < ((crowded (.step 6) 3).port .a).queue.length + min (3 + 1) (windowSize slot0 - 6) := by decide

theorem test_witness_ReadBecomesPending :
    base.mayPresent .a { isWrite := false, address := 0x40000, enables := 15, data := 0 } = true ∧
    base.portWaits .a = false ∧ base.classify (wordAddress 0x40000) = .rawRing ∧
    base.classify (wordAddress 0x300004) = .view 0 4 ∧ base.viewRefused .a false 0 4 = false ∧
    (base.view.get 0).currentFrame = some 10 := by decide

/-! ## Witnesses: entries -/

/-- A VIEW or STREAM entry of the loader at the head of Port A's queue. -/
def loading (e : Entry) : State := queued { base with mem := cards } .a [e]

theorem test_witness_EntryPassPerformed :
    (∀ e ∈ [Entry.view (onCard 1 9 0) 0x402 15, .stream (onCard 1 9 0) 0x402 15],
      (loading e).cmd.profile = some prof ∧ (loading e).canGrant (portRequester .a) .own = true ∧
      (loading e).claimOn 9 1 = none ∧ ((loading e).port .a).queue = [e]) ∧
    passOn cards prof 1 9 1 (carriedWord 0 0x402 15) = .performed ⟨0x09020402, 0, 0, 0⟩ none ∧
    (prof.slots.get 1).mode = .word := by decide

theorem test_witness_EntryPassRefused :
    (∀ e ∈ [Entry.view (onCard 1 8 0) 0x401 15, .stream (onCard 1 8 0) 0x401 15],
      (loading e).canGrant (portRequester .a) .own = true ∧ (loading e).claimOn 8 1 = none) ∧
    passOn cards prof 1 8 1 (carriedWord 0 0x401 15) = .refused 1 := by decide

/-- The camera's write of word `w` on frame 8 at the head of Port B's queue, with claims open. -/
def filming (w : Fin 4) (data : Word) (claims : List Claim) : State :=
  queued { base with mem := cards, claims := claims } .b [.view (onCard 2 8 w) data 15]

/-- The camera's claim on card 1 of frame 8 with word 0 staged. -/
def camera : Claim :=
  { frame := 8, card := 1, slot := 2, port := .b, staged := carriedWord 0 0x3 15 }

theorem test_witness_GroupWriteStaged :
    (∀ s ∈ [filming 0 0x3 [], filming 0 0x3 [camera]],
      s.cmd.profile = some prof ∧ s.canGrant (portRequester .b) .own = true ∧
      (s.port .b).queue = [.view (onCard 2 8 0) 0x3 15] ∧ (s.view.get 2).currentFrame = some 8) ∧
    ((prof.slots.get 2).mode = .record ∧ holdsWritable (prof.slots.get 2).fields 0 = true ∧
      2 ≤ groupWordCount (prof.slots.get 2).fields) ∧
    ((filming 0 0x3 []).claimOn 8 1 = none ∧ (claimsOf (filming 0 0x3 []).claims .b).length < 4) ∧
    ((filming 0 0x3 [camera]).claimOn 8 1 = some camera ∧
      groupComplete (prof.slots.get 2).fields (camera.staged.put 0 { data := 0x3, enables := 15 }) = false) := by decide

/-- Four claims of the camera's port on other cards of frame 8. -/
def fourClaims : List Claim :=
  [{ camera with card := 2 }, { camera with card := 3 }, { camera with card := 8 }, { camera with card := 9 }]

theorem test_witness_GroupWriteStaged_eviction_and_departure :
    ((filming 0 0x3 fourClaims).canGrant (portRequester .b) .own = true ∧ (filming 0 0x3 fourClaims).claimOn 8 1 = none ∧
      claimsOf fourClaims .b = { camera with card := 2 } :: fourClaims.tail ∧ 3 ≤ fourClaims.tail.length) ∧
    ((queued base .b [.view (onCard 2 7 0) 3 15]).canGrant (portRequester .b) .own = true ∧
      ((queued base .b [.view (onCard 2 7 0) 3 15]).view.get 2).currentFrame ≠ some 7 ∧
      (queued base .b [.view (onCard 2 7 0) 3 15]).claimOn 7 1 = none) := by decide

theorem test_witness_GroupCommitted :
    (filming 2 700 [camera]).canGrant (portRequester .b) .own = true ∧
    holdsWritable (prof.slots.get 2).fields 2 = true ∧
    (filming 2 700 [camera]).claimOn 8 1 = some camera ∧ camera.slot = 2 ∧
    groupComplete (prof.slots.get 2).fields (camera.staged.put 2 { data := 700, enables := 15 }) = true ∧
    passOn cards prof 2 8 1 (camera.staged.put 2 { data := 700, enables := 15 }) =
      .performed ⟨0x08040003, 0, 700, 0⟩ none := by decide

/-- The profile with a camera whose group is word 0 alone. -/
def oneWord : Profile :=
  { prof with slots := prof.slots.set 2 { slot2 with fields := ⟨true, false, false, false, false, false, false⟩ } }

theorem test_witness_GroupCommitted_refused_and_one_word :
    (filming 2 700 [{ camera with staged := carriedWord 0 0x1 15 }]).claimOn 8 1 =
        some { camera with staged := carriedWord 0 0x1 15 } ∧
    groupComplete slot2.fields ((carriedWord 0 0x1 15).put 2 { data := 700, enables := 15 }) = true ∧
    passOn cards prof 2 8 1 ((carriedWord 0 0x1 15).put 2 { data := 700, enables := 15 }) = .refused 1 ∧
    ({ filming 0 3 [] with cmd := { base.cmd with profile := some oneWord } } : State).canGrant (portRequester .b) .own =
        true ∧
    (oneWord.slots.get 2).mode = .record ∧ groupWordCount (oneWord.slots.get 2).fields = 1 ∧
    holdsWritable (oneWord.slots.get 2).fields 0 = true ∧
    passOn cards oneWord 2 8 1 (carriedWord 0 3 15) = .performed ⟨0x08040003, 0, 0, 0⟩ none := by decide

/-- A claim of Port A's slot 4 on card 1 of frame 8. -/
def handReject : Claim := { frame := 8, card := 1, slot := 4, port := .a, staged := carriedWord 0 0x1E 15 }

theorem test_witness_CollisionDropsEntry :
    (filming 0 0x3 [handReject]).canGrant (portRequester .b) .own = true ∧
    (filming 0 0x3 [handReject]).claimOn 8 1 = some handReject ∧ handReject.slot ≠ 2 ∧
    ¬(Port.b = .a ∧ handReject.port = .b) ∧
    ((queued { base with claims := [handReject] } .b [.stream (onCard 2 8 0) 3 15]).port .b).queue =
      [.stream (onCard 2 8 0) 3 15] := by decide

/-- The profile with RECORD mode for the hand reject station, of Port A. -/
def handRecord : Profile :=
  { prof with
    slots := prof.slots.set 4
      { slot4 with mode := .record, fields := ⟨true, true, false, false, true, false, false⟩ } }

/-- Port A's entry on the card that the camera claims, with further claims. -/
def preempting (p : Profile) (e : Entry) (more : List Claim) : State :=
  queued { base with mem := cards, claims := camera :: more, cmd := { base.cmd with profile := some p } } .a [e]

/-- Four claims of Port A on other cards of frame 8. -/
def fourOfPortA : List Claim :=
  [{ handReject with card := 2 }, { handReject with card := 3 }, { handReject with card := 8 }, { handReject with card := 9 }]

/-- The profile with the loader's limit at the hand reject station. -/
def handLimit : Profile := { prof with slots := prof.slots.set 4 { slot1 with offset := 2, apertureBase := 0x304000 } }

theorem test_witness_CollisionDropsEntry_preemption :
    (∀ e ∈ [Entry.view (onCard 4 8 0) 0x1E 15, .stream (onCard 4 8 0) 0x1E 15],
      (preempting prof e []).canGrant .portA .own = true ∧ (preempting prof e []).claimOn 8 1 = some camera ∧
      (preempting prof e []).portA.queue = [e]) ∧
    (camera.slot ≠ 4 ∧ camera.port = .b ∧ (prof.slots.get 4).mode = .word) ∧
    passOn cards prof 4 8 1 (carriedWord 0 0x1E 15) = .performed ⟨0x0810001E, 0, 0, 0⟩ none ∧
    passOn cards handLimit 4 8 1 (carriedWord 0 0x303 15) = .performed ⟨0x0810037E, 0, 0, 0⟩ (some 3) ∧
    passOn cards prof 4 8 1 (carriedWord 0 0x1 15) = .refused 1 ∧
    (∀ more ∈ [[], fourOfPortA],
      (preempting handRecord (.view (onCard 4 8 0) 3 15) more).canGrant .portA .own = true ∧
      (preempting handRecord (.view (onCard 4 8 0) 3 15) more).claimOn 8 1 = some camera ∧
      ((preempting handRecord (.view (onCard 4 8 0) 3 15) more).view.get 4).currentFrame = some 8) ∧
    (holdsWritable (handRecord.slots.get 4).fields 0 = true ∧ 2 ≤ groupWordCount (handRecord.slots.get 4).fields) ∧
    (claimsOf ((camera :: fourOfPortA).filter fun d => !sameCard camera d) .a).length = 4 := by decide

theorem test_witness_CollisionDropsEntry_stream_of_the_owner :
    (queued { base with mem := cards, claims := [camera] } .b [.stream (onCard 2 8 0) 3 15]).canGrant (portRequester .b) .own =
      true ∧
    (queued { base with mem := cards, claims := [camera] } .b [.stream (onCard 2 8 0) 3 15]).claimOn 8 1 = some camera ∧
    camera.slot = 2 ∧ passOn cards prof 2 8 1 (carriedWord 0 3 15) = .performed ⟨0x08040003, 0, 0, 0⟩ none := by decide

theorem test_witness_EntryKeepsOtherBytes :
    ∃ t, exec (.viewEntryPerformance .a (.whole (some 1))) (loading (.view (onCard 1 9 0) 0x402 15)) = .next t ∧
      (0x4040F < ringAddress prof 9 1 0 ∧ ringAddress prof 9 1 0 + 16 ≤ 0x40420) :=
  ⟨_, rfl, by decide⟩

theorem test_witness_EntryRemovedWithoutHold :
    (base.inReset = false ∧ base.executorIdle .a = true) ∧
    (base.withoutEffect (onCard 0 10 1) = true ∧ base.needsInit 10 1 = false) ∧
    (base.inRawRing 0x40000 && base.seq.tracking.ringHeld) = true ∧
    (base.inRawRing 0x42000 && base.seq.tracking.ringHeld) = false ∧
    ((base.setPort .a { base.portA with queue := [.plain 0x40000 1 0] }).executorIdle .a = true) := by decide

/-- An advance in its initialisation, with cards 0 to 3 done. -/
def initialising : State :=
  asking { advancing (flight .index .initialising []) with
    seq := { base.seq with tracking := .advancing, advance := some (flight .index .initialising []), underInit := some 10,
                           initSet := [0, 1, 2, 3] } } .sequencer .cardInit

/-- A marking pass in its first phase. -/
def markingFirst : State :=
  asking { marking ⟨[10], .initialising, [(10, 0), (10, 1)]⟩ with
    seq := { (marking ⟨[10], .initialising, [(10, 0), (10, 1)]⟩).seq with underInit := some 10, initSet := [] } }
    .sequencer .markInit

/-- Port A's next entry needs its card initialised. -/
def demanding : State :=
  asking { initialising with portA := { base.portA with queue := [.view (onCard 0 10 0) 1 15] }
                             seq := { initialising.seq with initSet := [] }, arb := Arbiter.reset } .portA .demandInit

theorem test_witness_InitialisationWritesRecord :
    (initialising.canGrant .sequencer .cardInit = true ∧ initialising.nextInit = some (10, 8) ∧
      11 ∈ usedCards prof ∧ 11 ∉ initialising.seq.initSet) ∧
    (markingFirst.canGrant .sequencer .markInit = true ∧ markingFirst.nextInit = some (10, 0) ∧
      1 ∈ usedCards prof ∧ 1 ∉ markingFirst.seq.initSet) ∧
    (demanding.canGrant (portRequester .a) .demandInit = true ∧
      demanding.demandTarget .a = some (onCard 0 10 0, .entry) ∧ demanding.needsInit 10 1 = true ∧
      0 ∈ usedCards prof ∧ 0 ∉ demanding.seq.initSet) := by decide

theorem test_witness_PlainAndProfileWritesStore :
    ((queued base .a [.plain 0x500000 1 15]).canGrant (portRequester .a) .own = true ∧
      ((queued base .a [.plain 0x500000 1 15]).inRawRing 0x500000 && base.seq.tracking.ringHeld) = false) ∧
    ((queued base .a [.profile 0x200080 1 3]).canGrant (portRequester .a) .own = true ∧
      (queued base .a [.profile 0x200080 1 3]).profileRow 0x200080 1 3 = .plain) ∧
    ((queued base .a [.plain 0x41FFC 1 15]).canGrant (portRequester .a) .own = true ∧
      ((queued base .a [.plain 0x41FFC 1 15]).inRawRing 0x41FFC && base.seq.tracking.ringHeld) = true) := by decide

/-- A status write waits. -/
def statusWaits (s : State) : State := asking { s with rep := { s.rep with due := [3] } } .report .status

/-- Port A's pending read waits for its grant. -/
def reading (r : PendingRead) : State :=
  asking ({ base with mem := cards }.setPort .a { base.portA with pending := some r }) .portA .own

theorem test_witness_MemoryErrorsEndUnits :
    ((queued base .a [.plain 0x500000 1 15]).canGrant (portRequester .a) .own = true) ∧
    ((reading (.plain 0x40010)).canGrant (portRequester .a) .own = true ∧ ((reading (.plain 0x40010)).port .a).queue = []) ∧
    (∀ s ∈ [statusWaits (inTracking .idle), statusWaits (inTracking .lost), statusWaits base,
        statusWaits (advancing (flight .index .initialising [])), statusWaits (marking ⟨[], .cards, [(10, 0)]⟩)],
      s.canGrant .report .status = true ∧ s.rep.due = [3] ∧ s.cmd.profile = some prof ∧ s.rep.writing = none) ∧
    (statusWaits { State.reset with inReset := false }).canGrant .report .status = true := by decide

theorem test_witness_PendingReadsAnswer :
    ((reading (.plain 0x40010)).canGrant (portRequester .a) .own = true) ∧
    ((reading (.view (onCard 1 9 0))).canGrant (portRequester .a) .own = true ∧
      (reading (.view (onCard 1 9 0))).resident 9 = true ∧ (reading (.view (onCard 1 9 0))).claimOn 9 1 = none) ∧
    (({ reading (.view (onCard 4 8 0)) with claims := [handReject] } : State).claimOn 8 1 = some handReject ∧
      handReject.port = .a ∧ handReject.staged.get 0 = some { data := 0x1E, enables := 15 }) ∧
    ((reading (.view (onCard 1 2 0))).resident 2 = false ∧ (reading (.view (onCard 1 2 0))).inReset = false ∧
      (reading (.view (onCard 1 2 0))).holder ≠ some (portRequester .a)) := by decide

/-! ## Witnesses: commands of software -/

theorem test_witness_ApplyReadsProfile :
    WritesRow (commanded (inTracking .idle) 0x0701) .a 0x200000 0x0701 15 [] .apply 0x0701 ∧
    (commanded (inTracking .idle) 0x0701).cmd.running = none ∧
    (asking { inTracking .idle with cmd := { base.cmd with running := some (.apply 7) } } .command .profileRead).canGrant
      .command .profileRead = true ∧
    ({ inTracking .idle with
        arb := { Arbiter.reset with hold := some (.profileRead 255) }
        cmd := { base.cmd with running := some (.apply 7), candidate := words.take 255 } } : State).arb.hold =
      some (.profileRead 255) := by
  unfold WritesRow leftInMemory
  decide

/-- APPLY with 255 profile words read. -/
def lastRead (ws : List Word) : State :=
  asking { inTracking .idle with cmd := { base.cmd with running := some (.apply 7), candidate := ws } } .command .profileRead

theorem test_witness_ApplyEnds :
    (lastRead (words.take 255)).canGrant .command .profileRead = true ∧
    (lastRead (words.take 255)).cmd.candidate.length = 255 ∧
    profileFailure base.blockBase
      (words.take 255 ++ [(lastRead (words.take 255)).mem.readWord (base.blockBase + 4 * 255)]) = none ∧
    profileFailure base.blockBase
      (List.replicate 255 0 ++ [(lastRead (List.replicate 255 0)).mem.readWord (base.blockBase + 4 * 255)]) =
        some (1, 255) := by decide +kernel

/-- APPLY with all 256 profile words read and its checks to be made, with a unit of work under its hold. -/
def checksLeft (ws : List Word) (hold : Option Work) : State :=
  { inTracking .idle with
    arb := { Arbiter.reset with hold := hold }, cmd := { base.cmd with running := some (.apply 7), candidate := ws } }

theorem test_witness_ApplyEnds_in_a_step_of_its_own :
    (∀ s ∈ [checksLeft words none, checksLeft words (some .record), checksLeft words (some (.status 14 0)),
        checksLeft (List.replicate 256 0) none],
      s.inReset = false ∧ s.holdIs isProfileRead = false ∧ s.cmd.candidate.length = 256 ∧
      s.cmd.running = some (.apply 7)) ∧
    profileFailure base.blockBase words = none ∧
    profileFailure base.blockBase (List.replicate 256 0) = some (1, 255) := by decide +kernel

/-- A record write is under its hold when the checks are made. -/
def checksUnderRecord : State :=
  let s := checksLeft words (some .record)
  { s with rep := { s.rep with
      queue := [reportAt 4]
      writing := some { report := reportAt 4, address := 0x60000, sequence := 1, queued := true, superseded := false } } }

/-- R156: a record write granted between the last profile read and the checks is under its hold when APPLY succeeds. -/
theorem test_record_write_under_its_hold_at_apply_is_superseded :
    checksUnderRecord.makeChecks.rep.writing.map RecordWrite.superseded = some true := by decide +kernel

theorem test_witness_ApplyEnds_with_a_record_write :
    (checksUnderRecord.cmd.running = some (.apply 7) ∧ checksUnderRecord.inReset = false ∧
      checksUnderRecord.holdIs isProfileRead = false ∧ checksUnderRecord.cmd.candidate = words) ∧
    checksUnderRecord.rep.writing =
      some { report := reportAt 4, address := 0x60000, sequence := 1, queued := true, superseded := false } ∧
    checksUnderRecord.blockBase = base.blockBase := by decide +kernel

theorem test_witness_StartFreshTaken :
    WritesRow (commanded (inTracking .idle) 0x00010702) .a 0x200000 0x00010702 15 [] .startFresh 0x00010702 ∧
    (commandParameter 0x00010702).toNat = 1 ∧ (inTracking .idle).seq.head < 4294967295 ∧
    (slot0.enabled = true ∧ slot0.offset = 0) ∧ (slot1.enabled = true ∧ slot1.offset ≠ 0) := by
  unfold WritesRow leftInMemory
  decide

theorem test_witness_StartCarryTaken :
    WritesRow (commanded (inTracking .idle) 0x00020702) .a 0x200000 0x00020702 15 [] .startCarry 0x00020702 ∧
    (inTracking .idle).seq.ringValid = true ∧
    WritesRow (commanded { inTracking .idle with seq := { base.seq with tracking := .idle, ringValid := false } } 0x00020702)
      .a 0x200000 0x00020702 15 [] .startCarry 0x00020702 := by
  unfold WritesRow leftInMemory
  decide

theorem test_witness_StartCarryTaken_deadlines :
    (base.seq.firstFrame + slot2.offset ≤ base.seq.head ∧ slot2.enabled = true ∧ slot2.deadline ≠ 0) ∧
    (base.seq.firstFrame + slot3.offset ≤ base.seq.head ∧ slot3.enabled = true ∧ slot3.deadline = 0) ∧
    slotOff.enabled = false ∧
    ∃ s : State, s.seq.ringValid = true ∧ s.seq.head < s.seq.firstFrame + slot2.offset :=
  ⟨by decide, by decide, by decide, { base with seq := { base.seq with head := 2 } }, by decide⟩

/-- Groups are open, a view entry stands in each queue, and slot 0 holds values and has dropped some. -/
def busyLine : State :=
  commanded ((({ streaming (.step 2) 1 with claims := [camera, handReject] }).setPort .b
    { base.portB with queue := [.view (onCard 2 8 0) 3 15, .plain 0x500000 1 15] })) 0x0703

theorem test_witness_StopTaken_with_reports :
    WritesRow busyLine .a 0x200000 0x0703 15 [] .stop 0x0703 ∧ busyLine.claims = [camera, handReject] ∧
    ((busyLine.port .b).queue.filter fun e => e.isView).length = 1 ∧ (busyLine.view.get 0).held = 1 ∧
    (({ busyLine with view := busyLine.view.set 0 ⟨some 10, .exhausted, 0, 65535, 5⟩ } : State).view.get 0).overflow =
      65535 := by
  unfold WritesRow leftInMemory
  decide

theorem test_witness_StopTaken :
    (∀ s ∈ [base, base.setPort .a { base.portA with pending := some (.view (onCard 1 9 0)) },
        base.setPort .a { base.portA with pending := some (.plain 4) },
        base.setPort .b { base.portB with pending := some (.view (onCard 2 8 0)) },
        base.setPort .b { base.portB with pending := some (.plain 4) }],
      WritesRow (commanded s 0x0703) .a 0x200000 0x0703 15 [] .stop 0x0703 ∧
      (commanded s 0x0703).seq.tracking = .running ∧ (commanded s 0x0703).cmd.running = none) := by
  unfold WritesRow leftInMemory
  decide

theorem test_witness_RecoverTaken :
    WritesRow (commanded (inTracking .lost) 0x0704) .a 0x200000 0x0704 15 [] .recover 0x0704 ∧
    (commanded (inTracking .lost) 0x0704).seq.tracking = .lost := by
  unfold WritesRow leftInMemory
  decide

theorem test_witness_QuietTaken :
    WritesRow (commanded base 0xFFFF0705) .a 0x200000 0xFFFF0705 15 [] .quiet 0xFFFF0705 ∧
    (commandParameter 0xFFFF0705).toNat ≠ 0 ∧
    WritesRow (commanded base 0x0705) .a 0x200000 0x0705 15 [] .quiet 0x0705 ∧ (commandParameter 0x0705).toNat = 0 ∧
    WritesRow (commanded (inTracking .halted) 0x0705) .a 0x200000 0x0705 15 [] .quiet 0x0705 := by
  unfold WritesRow leftInMemory
  decide

theorem test_witness_CommandsWithoutEffect :
    WritesRow (commanded base 0x0706) .a 0x200000 0x0706 15 [] .unknown 0x0706 ∧
    WritesRow (commanded base 0x0700) .a 0x200000 0x0700 15 [] .none 0x0700 ∧
    WritesRow (commanded { inTracking .idle with cmd := { base.cmd with running := some (.apply 9) } } 0x0701) .a 0x200000
      0x0701 15 [] .apply 0x0701 ∧
    WritesRow (commanded (advancing (flight .index .initialising [])) 0x0703) .a 0x200000 0x0703 15 [] .stop 0x0703 := by
  unfold WritesRow leftInMemory
  decide

theorem test_witness_CommandsWithoutEffect_in_a_wrong_state :
    (∀ n ∈ [(ProfileRow.apply, (0x0701 : Word), base), (.startFresh, 0x00010702, base), (.startCarry, 0x00020702, base),
        (.stop, 0x0703, inTracking .idle), (.recover, 0x0704, base)],
      WritesRow (commanded n.2.2 n.2.1) .a 0x200000 n.2.1 15 [] n.1 n.2.1 ∧ (commanded n.2.2 n.2.1).cmd.running = none) ∧
    (¬rowAllowedIn .apply base.seq.tracking ∧ ¬rowAllowedIn .startFresh base.seq.tracking ∧
      ¬rowAllowedIn .startCarry base.seq.tracking ∧ ¬rowAllowedIn .stop (inTracking .idle).seq.tracking ∧
      ¬rowAllowedIn .recover base.seq.tracking) ∧
    commandOfRow .recover .a = some (.recover .a (.whole none)) := by
  unfold WritesRow leftInMemory rowAllowedIn
  decide

theorem test_witness_CommandsWithoutEffect_in_halted :
    ∀ n ∈ [(ProfileRow.apply, (0x0701 : Word)), (.startFresh, 0x00010702), (.startCarry, 0x00020702), (.stop, 0x0703),
        (.recover, 0x0704), (.quiet, 0x0705), (.unknown, 0x0706)],
      WritesRow (commanded (inTracking .halted) n.2) .a 0x200000 n.2 15 [] n.1 n.2 := by
  unfold WritesRow leftInMemory
  decide

theorem test_witness_CommandsWithoutEffect_invalid_parameter :
    WritesRow (commanded (inTracking .idle) 0x0702) .a 0x200000 0x0702 15 [] .startFresh 0x0702 ∧
    WritesRow (commanded (inTracking .idle) 0x00030702) .a 0x200000 0x00030702 15 [] .startFresh 0x00030702 ∧
    WritesRow (commanded (inTracking .idle) 0xFFFF0702) .a 0x200000 0xFFFF0702 15 [] .startFresh 0xFFFF0702 ∧
    ((commandParameter 0x0702).toNat ≠ 1 ∧ (commandParameter 0x00030702).toNat ≠ 1 ∧
      (commandParameter 0xFFFF0702).toNat ≠ 1) ∧
    WritesRow (commanded { inTracking .idle with seq := { base.seq with tracking := .idle, head := 4294967295 } } 0x00010702)
      .a 0x200000 0x00010702 15 [] .startFresh 0x00010702 := by
  unfold WritesRow leftInMemory
  decide

/-- Outcomes wait. -/
def outcomes (busy result : Option CommandOutcome) : State :=
  asking { base with cmd := { base.cmd with waitingBusy := busy, waitingResult := result } } .command .outcome

theorem test_witness_ResultWordWritten :
    (outcomes (some ⟨7, .busy, 1⟩) none).canGrant .command .outcome = true ∧
    (outcomes none (some ⟨7, .done, 0⟩)).canGrant .command .outcome = true ∧
    (outcomes none (some ⟨7, .done, 0⟩)).cmd.waitingBusy = none := by decide

/-- Three records are unread, with a quiet count. -/
def unread (quiet : Nat) : State := { base with rep := { base.rep with writeSeq := 4, readSeq := 1, quiet := quiet } }

/-- A write of the read-pointer word stands at the head of Port A's queue. -/
def pointing (v : Word) : State := queued (unread 0) .a [.profile 0x200008 v 15]

theorem test_witness_ReadPointerMoves :
    WritesRow (pointing 1) .a 0x200008 1 15 [] .readPointer 1 ∧ WritesRow (pointing 4) .a 0x200008 4 15 [] .readPointer 4 ∧
    WritesRow (pointing 0) .a 0x200008 0 15 [] .readPointer 0 ∧ WritesRow (pointing 5) .a 0x200008 5 15 [] .readPointer 5 ∧
    ((unread 0).rep.readSeq ≤ (1 : Word).toNat ∧ (4 : Word).toNat ≤ (unread 0).rep.writeSeq) ∧
    (0 : Word).toNat < (unread 0).rep.readSeq ∧ (unread 0).rep.writeSeq < (5 : Word).toNat := by
  unfold WritesRow leftInMemory
  decide

/-- 59 records are unread, and a write of the read-pointer word stands at the head of Port A's queue. -/
def releasing (v : Word) : State :=
  queued { base with rep := { base.rep with writeSeq := 60, readSeq := 1, fillLatch := true } } .a
    [.profile 0x200008 v 15]

theorem test_witness_ReadPointerMoves_at_the_hold_marks :
    (WritesRow (releasing 4) .a 0x200008 4 15 [] .readPointer 4 ∧ WritesRow (releasing 5) .a 0x200008 5 15 [] .readPointer 5 ∧
      WritesRow (releasing 11) .a 0x200008 11 15 [] .readPointer 11 ∧
      WritesRow (releasing 12) .a 0x200008 12 15 [] .readPointer 12) ∧
    prof.capacity - (60 - 4) = prof.holdOn ∧
    (prof.holdOn < prof.capacity - (60 - 5) ∧ prof.capacity - (60 - 11) < prof.holdOff) ∧
    prof.capacity - (60 - 12) = prof.holdOff := by
  unfold WritesRow leftInMemory
  decide

/-- R159: the latch stays set between the marks and clears at the hold-off mark. -/
theorem test_fill_latch_clears_at_the_hold_off_mark :
    ((releasing 11).takeReadPointer .a 11).rep.fillLatch = true ∧
    ((releasing 12).takeReadPointer .a 12).rep.fillLatch = false := by decide

/-- A write of the quiet-extend word stands at the head of Port A's queue. -/
def extending (quiet : Nat) (v : Word) : State := queued (unread quiet) .a [.profile 0x20000C v 15]

theorem test_witness_QuietExtendReplaces :
    WritesRow (extending 1 0) .a 0x20000C 0 15 [] .quietExtend 0 ∧
    WritesRow (extending 1 65535) .a 0x20000C 65535 15 [] .quietExtend 65535 ∧
    WritesRow (extending 1 65536) .a 0x20000C 65536 15 [] .quietExtend 65536 ∧
    WritesRow (extending 0 5) .a 0x20000C 5 15 [] .quietExtend 5 ∧
    ((extending 1 0).rep.quiet = 1 ∧ (extending 1 0).seq.tracking ≠ .halted ∧ (65535 : Word).toNat ≤ 65535 ∧
      65535 < (65536 : Word).toNat) ∧ (extending 0 5).rep.quiet = 0 := by
  unfold WritesRow leftInMemory
  decide

/-! ## Witnesses: the advance -/

theorem test_witness_IndexAccepted :
    base.inReset = false ∧ base.seq.tracking = .running ∧ base.cmd.profile = some prof ∧ base.seq.head < 4294967295 ∧
    base.seq.firstFrame + prof.dischargeOffset ≤ base.seq.head + 1 ∧
    base.seq.firstFrame + (prof.slots.get 2).offset ≤ base.seq.head ∧ (prof.slots.get 2).deadline ≠ 0 ∧
    ∃ s : State, s.seq.tracking = .running ∧ s.cmd.profile = some prof ∧
      s.seq.head + 1 < s.seq.firstFrame + prof.dischargeOffset :=
  ⟨by decide, by decide, by decide, by decide, by decide, by decide, by decide,
    { base with seq := { base.seq with head := 1 } }, by decide⟩

/-- At the second frame the stations of offset 2 and 3 still have no frame; the forming station and the loader have no
deadline. -/
theorem test_witness_IndexAccepted_below_the_first_frame :
    let s : State := { base with seq := { base.seq with head := 1 } }
    s.inReset = false ∧ s.seq.tracking = .running ∧ s.cmd.profile = some prof ∧ s.seq.head < 4294967295 ∧
    s.seq.firstFrame + slot1.offset = s.seq.head + 1 ∧ slot1.deadline = 0 ∧
    s.seq.head + 1 < s.seq.firstFrame + slot2.offset ∧ slotOff.enabled = false := by decide

/-- The camera's group departs, and the one on the next frame stays. -/
theorem test_witness_IndexAccepted_with_reports :
    let s : State := { busyLine with claims := [camera, { camera with frame := 9, slot := 4 }] }
    s.inReset = false ∧ s.seq.tracking = .running ∧ s.cmd.profile = some prof ∧
    (s.seq.firstFrame + slot2.offset ≤ s.seq.head ∧ camera.slot = 2 ∧ camera.frame = s.seq.head - slot2.offset) ∧
    9 ≠ s.seq.head - slot4.offset ∧ (s.view.get 0).held = 1 := by decide

theorem test_witness_IndexWaitsOrIgnored :
    ((advancing (flight .index .initialising [])).seq.tracking = .advancing ∧
      (advancing (flight .index .initialising [])).seq.pendingIndex = 0 ∧
      (advancing (flight .index .initialising [])).inReset = false) ∧
    ((inTracking .lost).seq.tracking ≠ .running ∧ (inTracking .lost).seq.tracking ≠ .advancing) := by decide

/-- An index waits behind an advance. -/
def overrunning : State :=
  { base with
    seq := { base.seq with tracking := .advancing, advance := some (flight .index .initialising []), pendingIndex := 1 } }

theorem test_witness_IndexOverrunEntersMarking :
    overrunning.inReset = false ∧ overrunning.seq.tracking = .advancing ∧ overrunning.seq.pendingIndex = 1 ∧
    overrunning.cmd.profile = some prof ∧ overrunning.seq.ringValid = true ∧
    overrunning.seq.firstFrame ≤ overrunning.seq.head ∧ usedCards prof ≠ [] ∧ overrunning.begun .a = false := by decide

/-- START FRESH is in progress with an index waiting behind it, groups are open and slot 0 holds a value; the head entry of
Port B is under its hold with a view entry behind it, and Port A has a pending view read. -/
def overrunAtStart : State :=
  { busyLine with
    seq := { overrunning.seq with advance := some (flight .start .initialising []) }
    cmd := { busyLine.cmd with running := some (.startFresh 5) }
    portA := { busyLine.portA with queue := [], pending := some (.view (onCard 1 9 0)) }
    portB := { busyLine.portB with queue := [.plain 0x500000 1 15, .view (onCard 2 8 0) 3 15] }
    arb := { Arbiter.reset with hold := some (.write .b 0x500000 1 15 false) } }

theorem test_witness_IndexOverrunEntersMarking_at_start :
    overrunAtStart.inReset = false ∧ overrunAtStart.seq.tracking = .advancing ∧ overrunAtStart.seq.pendingIndex = 1 ∧
    overrunAtStart.cmd.profile = some prof ∧ overrunAtStart.seq.ringValid = true ∧
    overrunAtStart.seq.firstFrame ≤ overrunAtStart.seq.head ∧ usedCards prof ≠ [] ∧
    (overrunAtStart.begun .b = true ∧ overrunAtStart.begun .a = false ∧ overrunAtStart.reading .a = false ∧
      overrunAtStart.claims ≠ [] ∧ (overrunAtStart.view.get 0).held = 1) ∧
    ({ overrunAtStart with arb := { Arbiter.reset with hold := some (.viewRead .a (onCard 1 9 0) none) } } :
      State).reading .a = true := by decide

/-- R142, R143: what the reports of the entry hold, batch by batch, but for the details that log entry 28 leaves open. -/
theorem test_overrun_at_start_makes_its_reports :
    ((faultReport overrunAtStart overrunSignal).row, (faultReport overrunAtStart overrunSignal).detail) = (1, 1) ∧
    (overrunAtStart.tearReports tornFault fun _ => true) = [tornOf prof 6 camera, tornOf prof 6 handReject] ∧
    (overrunAtStart.abandonedReports 3).map (fun b => b.map Content.count) = [[], [1]] ∧
    (overrunAtStart.endStartAtFault .indexOverrun).cmd.waitingResult =
      some { tag := 5, code := .wrongState, detail := 4 } := by decide

/-- The part RUNNING with H at its largest. -/
def atLastFrame : State := { base with seq := { base.seq with head := 4294967295, firstFrame := 4294967290 } }

theorem test_witness_IndexOverrunEntersMarking_in_running :
    atLastFrame.inReset = false ∧ atLastFrame.seq.tracking = .running ∧ atLastFrame.seq.head = 4294967295 ∧
    atLastFrame.cmd.profile = some prof ∧ atLastFrame.seq.ringValid = true ∧
    atLastFrame.seq.firstFrame ≤ atLastFrame.seq.head := by decide

/-- Pairs of the departure list. -/
def pairs (s1 s2 : PairStatus) : List Departure :=
  [{ slot := 0, frame := 9, status := s1 }, { slot := 1, frame := 8, status := s2 }]

theorem test_witness_DrainWaitEnds :
    (drainingPair (pairs .done .draining) = some { slot := 1, frame := 8, status := .draining } ∧
      (prof.slots.get 1).exit ≠ .none) ∧
    (drainingPair (pairs .draining .waiting) = some { slot := 0, frame := 9, status := .draining } ∧
      (prof.slots.get 0).exit = .none ∧ anyWaiting (pairDone .draining (pairs .draining .waiting)) = true) ∧
    (∀ e ∈ (advancing (flight .index .checking (pairs .done .draining))).portA.queue ++
        (advancing (flight .index .checking (pairs .done .draining))).portB.queue, e.mappedTo 1 8 = false) ∧
    (advancing (flight .index .checking (pairs .done .draining))).seq.advance =
      some (flight .index .checking (pairs .done .draining)) ∧
    (flight .index .checking (pairs .done .draining)).stage = .checking := by decide

theorem test_witness_DrainWaitEnds_last_pair :
    drainingPair [{ slot := 1, frame := 8, status := .done }, { slot := 0, frame := 9, status := .draining }] =
      some { slot := 0, frame := 9, status := .draining } ∧
    (prof.slots.get 0).exit = .none ∧
    (advancing { flight .index .checking (pairs .done .draining) with judgeFrame := some 6 }).seq.pendingIndex = 0 := by decide

/-- The loader's pair is being checked. -/
def checking : State :=
  asking { advancing { flight .index .checking (pairs .done .checking) with
    check := some { todo := [1, 2, 3], written := 0, first := none } } with mem := cards } .sequencer .cardCheck

/-- Frame 6 is being judged, with some cards left. -/
def judgingOf (todo : List Nat) : State :=
  asking { advancing { flight .index .judging [] with
    judgeFrame := some 6
    judge := some { todo := todo, good := 0, rejected := 0, void := 0, causes := 0, first := none, rowSets := [0, 0] } }
    with mem := cards } .sequencer .judge

/-- Frame 6 is being judged. -/
def judging : State := judgingOf [1, 2, 3]

theorem test_witness_CardUnitsOfWork :
    (checking.canGrant .sequencer .cardCheck = true ∧
      checkingPair (pairs .done .checking) = some { slot := 1, frame := 8, status := .checking } ∧
      meetsExit slot1 1 0x08000002 = true ∧ meetsExit slot1 1 0x08000001 = false) ∧
    (judging.canGrant .sequencer .judge = true ∧ (judged 4 6 (cards.readWord (ringAddress prof 6 1 0))).1.isSome = true ∧
      (judged 4 6 0x06000004).1 = none) ∧
    ((asking (marking ⟨[9, 10], .cards, [(9, 1), (9, 2), (10, 0)]⟩) .sequencer .markCheck).canGrant .sequencer .markCheck =
        true ∧
      (marking ⟨[9, 10], .cards, [(9, 1), (9, 2), (10, 0)]⟩).nextInit = none ∧
      cardState 0x09000001 ≠ 14 ∧ cardState 0x09000001 ≠ 15 ∧ cardState 0x0900001E = 14) := by decide

/-- A START initialisation with one card left. -/
def starting : State :=
  let s := advancing (flight .start .initialising [])
  asking { s with
    seq := { s.seq with underInit := some 10, initSet := [0, 1, 2, 3, 8, 9, 10] }
    cmd := { s.cmd with running := some (.startFresh 2) } } .sequencer .cardInit

theorem test_witness_StagesEnd :
    ((judgingOf [11]).cmd.profile = some prof ∧ (judgingOf [11]).seq.pendingIndex = 0 ∧
      (judgingOf [11]).canGrant .sequencer .judge = true ∧
      (judgingOf [11]).seq.advance.map (fun v => (v.judgeFrame, v.judge.map JudgeProgress.todo)) =
        some (some 6, some [11]) ∧
      (judgingOf [11]).cmd.running = none) ∧
    ((asking (marking ⟨[10], .cards, [(10, 11)]⟩) .sequencer .markCheck).canGrant .sequencer .markCheck = true ∧
      (marking ⟨[10], .cards, [(10, 11)]⟩).nextInit = none) ∧
    (starting.canGrant .sequencer .cardInit = true ∧ starting.nextInit = some (10, 11) ∧ starting.seq.marking = none ∧
      ∀ d ∈ usedCards prof, d ≠ 11 → d ∈ starting.seq.initSet) := by decide

theorem test_witness_StagesEnd_with_rows_left :
    (∀ k ∈ [(1 : Nat), 2, 3],
      ({ judgingOf [11] with disch := { loaded := some 5, rowCount := 2, rowSets := [1, 0xA], pointer := k } } :
        State).canGrant .sequencer .judge = true) ∧
    (({ loaded := some 5, rowCount := 2, rowSets := [1, 0xA], pointer := 2 } : Discharge).undischarged 1).map
      (fun c => (c.row, c.count, c.data)) = [(2, 1, 2)] ∧
    ({ loaded := some 5, rowCount := 2, rowSets := [1, 0xA], pointer := 3 } : Discharge).undischarged 1 = [] := by decide

/-- An index waits behind the advance. -/
def indexWaits (s : State) (head : Nat) : State := { s with seq := { s.seq with pendingIndex := 1, head := head } }

theorem test_witness_StagesEnd_with_an_index_waiting :
    (∀ h ∈ [(10 : Nat), 4294967294, 4294967295],
      (indexWaits (judgingOf [11]) h).canGrant .sequencer .judge = true ∧
      (indexWaits (judgingOf [11]) h).seq.tracking = .advancing ∧ (indexWaits (judgingOf [11]) h).seq.pendingIndex = 1 ∧
      (indexWaits starting h).canGrant .sequencer .cardInit = true ∧ (indexWaits starting h).nextInit = some (10, 11)) := by
  decide

/-- The loader's pair is being checked, with its last card left. -/
def checkingLast (departures : List Departure) (written : Nat) (judgeFrame : Option Nat) : State :=
  asking { advancing { flight .index .checking departures with
    check := some { todo := [1], written := written, first := none }, judgeFrame := judgeFrame } with mem := cards }
    .sequencer .cardCheck

theorem test_witness_StagesEnd_pairs :
    (∀ s ∈ [checkingLast (pairs .checking .waiting) 0 none, checkingLast (pairs .done .checking) 1 (some 6),
        checkingLast (pairs .done .checking) 0 none],
      s.canGrant .sequencer .cardCheck = true ∧ s.cmd.profile = some prof ∧ s.seq.tracking = .advancing ∧
      s.seq.pendingIndex = 0 ∧ s.cmd.running = none) ∧
    meetsExit slot1 1 (cards.readWord (ringAddress prof 8 1 0)) = true ∧
    meetsExit slot1 1 (cards.readWord (ringAddress prof 9 1 0)) = false := by decide

/-- An INDEX advance with one card left to initialise. -/
def lastCard (departures : List Departure) (judgeFrame : Option Nat) : State :=
  let s := advancing { flight .index .initialising departures with judgeFrame := judgeFrame }
  asking { s with seq := { s.seq with underInit := some 10, initSet := [0, 1, 2, 3, 8, 9, 10] } } .sequencer .cardInit

theorem test_witness_StagesEnd_initialised :
    ∀ s ∈ [lastCard (pairs .waiting .waiting) none, lastCard [] (some 6), lastCard [] none],
      s.canGrant .sequencer .cardInit = true ∧ s.nextInit = some (10, 11) ∧ s.seq.marking = none ∧
      s.seq.tracking = .advancing ∧ (∀ d ∈ usedCards prof, d ≠ 11 → d ∈ s.seq.initSet) := by decide

/-- A LATE scan of the loader's frame runs. -/
def scanning : State :=
  asking { base with time := { base.time with
    running := some { slot := 1, frame := 9, expiry := 0, todo := [1, 2], late := 0, first := none } } } .sequencer .lateScan

theorem test_witness_LateScanCounts :
    scanning.cmd.profile = some prof ∧ scanning.canGrant .sequencer .lateScan = true ∧ scanning.resident 9 = true := by decide

/-- Own work and a scan read are both ready, and no request waits. -/
def bothReady (lastWasScan met : Bool) : State :=
  { initialising with
    arb := { Arbiter.reset with sequencerMet := met }
    seq := { initialising.seq with lastWasScan := lastWasScan }
    time := scanning.time }

/-- R115: after lone grants for own work the first request with both ready is for own work, and the next one for a scan read. -/
theorem test_first_request_of_the_sequencer_with_both_ready_is_own_work :
    (bothReady false false).raise.arb.sequencer.request = some .cardInit ∧
    (bothReady false false).raise.arb.sequencerMet = true ∧
    (bothReady false true).raise.arb.sequencer.request = some .lateScan ∧
    (bothReady true true).raise.arb.sequencer.request = some .cardInit := by decide

/-- The running scan has one card left, with `late` counted and other scans waiting. -/
def scanLast (late : Nat) (scans : List WaitingScan) : State :=
  asking { base with mem := cards, time := { base.time with
    scans := scans
    running := some { slot := 1, frame := 9, expiry := 0, todo := [1], late := late, first := none } } } .sequencer .lateScan

theorem test_witness_LateScanCounts_last_card :
    (∀ s ∈ [scanLast 0 [], scanLast 1 [{ slot := 2, frame := 8, expiry := 3 }]],
      s.canGrant .sequencer .lateScan = true ∧ s.resident 9 = true) ∧
    meetsExit slot1 1 (cards.readWord (ringAddress prof 9 1 0)) = false ∧ meetsExit slot1 1 0x09000002 = true := by decide

/-- Reject rows are loaded with the pointer at `k`. -/
def loaded (k : Nat) : State :=
  { base with disch := { loaded := some 6, rowCount := 2, rowSets := [0, 0xA], pointer := k } }

theorem test_witness_RowstepSteps :
    ((loaded 1).inReset = false ∧ (loaded 1).disch.loaded.isSome = true ∧ (loaded 1).disch.pointer ≤ (loaded 1).disch.rowCount) ∧
    (loaded 2).disch.pointer ≤ (loaded 2).disch.rowCount ∧ (loaded 3).disch.rowCount < (loaded 3).disch.pointer ∧
    base.disch.loaded = none := by decide

/-- Rows are left at RECOVER and at the end of APPLY, from the first row to none. -/
theorem test_witness_RecoverTaken_with_rows_left :
    (∀ k ∈ [(1 : Nat), 2, 3],
      WritesRow { commanded (inTracking .lost) 0x0704 with disch := (loaded k).disch } .a 0x200000 0x0704 15 [] .recover
        0x0704) ∧
    (undischargedOf (loaded 2).disch 2).map (fun c => (c.frame, c.row, c.count, c.data)) = [(6, 2, 1, 2)] ∧
    undischargedOf (loaded 3).disch 2 = [] ∧ undischargedOf base.disch 2 = [] := by
  unfold WritesRow leftInMemory
  decide

theorem test_witness_ApplyEnds_with_rows_left :
    let s : State := { checksLeft words none with disch := (loaded 1).disch }
    s.inReset = false ∧ s.holdIs isProfileRead = false ∧ s.cmd.candidate.length = 256 ∧
    profileFailure s.blockBase words = none ∧
    (undischargedOf s.disch 3).map (fun c => (c.row, c.count, c.detail, c.data)) = [(1, 2, 3, 2)] ∧
    s.makeChecks.rep.queue.length = 1 := by decide +kernel

theorem test_gate_of_12_3 : (loaded 1).rejLevels = 0 ∧ (loaded 2).rejLevels = 0xA ∧ (loaded 3).rejLevels = 0 := by decide

theorem test_witness_AbortClearsPort :
    (base.inReset = false ∧ base.cmd.profile = some prof ∧ base.reading .a = false ∧ base.begun .a = false) ∧
    ({ base with arb := { base.arb with hold := some (.write .a 0x500000 1 15 false) } } : State).begun .a = true ∧
    ({ base with arb := { base.arb with hold := some (.write .a 0x500000 1 15 false) } } : State).reading .a = false := by
  decide

theorem test_witness_AbortClearsPort_with_reports :
    busyLine.inReset = false ∧ busyLine.cmd.profile = some prof ∧ busyLine.reading .b = false ∧
    busyLine.begun .b = false ∧ (busyLine.port .b).queue.length = 2 ∧
    (busyLine.claims.filter fun c => decide (c.port = .b)) = [camera] := by decide

/-- R77: the entry in performance finds no group of its port after the tears. -/
theorem test_witness_AbortClearsPort_deciding :
    (∀ s ∈ [filming 0 3 [], filming 0 3 [camera], filming 2 700 [camera]],
      s.inReset = false ∧ s.canGrant (portRequester .b) .own = true ∧ s.reading .b = false ∧
      (∀ c ∈ s.claims, c.frame = 8 → c.card = 1 → c.port = .b) ∧ (s.view.get 2).currentFrame = some 8) ∧
    (slot2.mode = .record ∧ holdsWritable slot2.fields 0 = true ∧ holdsWritable slot2.fields 2 = true ∧
      2 ≤ groupWordCount slot2.fields) ∧
    ((loading (.view (onCard 1 9 0) 0x402 15)).canGrant (portRequester .a) .own = true ∧ slot1.mode = .word) ∧
    (loading (.stream (onCard 1 9 0) 0x402 15)).canGrant (portRequester .a) .own = true := by decide

/-- R77: the word that would have completed the group opens one of its own instead. -/
theorem test_abort_at_a_decision_opens_a_group :
    ((filming 2 700 [camera]).abortDeciding .b).map State.claims =
      some [{ camera with staged := carriedWord 2 700 15 }] := by decide

/-- R64: the tear and the opening of one group in a step are two changes of the claims in use, so their status word is due. -/
theorem test_abort_at_a_decision_hands_on_the_claims_in_use :
    ((filming 2 700 [camera]).abortDeciding .b).map (fun t => t.rep.due.contains statusOfClaims) = some true ∧
    ((filming 2 700 [camera]).abortDeciding .b).map (fun t => (t.claims.map Claim.key, t.claims.length)) =
      some ([camera].map Claim.key, 1) := by decide

/-- A report of a level waits for its record. -/
def recording (level : Nat) : State :=
  asking { base with rep := { base.rep with queue := [reportAt level] } } .report .record

theorem test_witness_ReportUnitWrites :
    (∀ l ∈ [3, 4, 7], (recording l).canGrant .report .record = true ∧ (recording l).recordReady = true ∧
      (recording l).rep.queue = [reportAt l]) ∧
    ((statusWaits base).canGrant .report .status = true ∧ (statusWaits base).rep.due = [3]) ∧
    (asking { base with rep := { base.rep with readPointerDue := true } } .report .readPointer).canGrant .report
      .readPointer = true := by decide

theorem test_witness_ReportUnitWrites_at_the_hold_marks :
    (∀ w ∈ [(57 : Nat), 56, 50, 49],
      ({ recording 4 with rep := { (recording 4).rep with writeSeq := w } } : State).recordReady = true ∧
      ({ recording 4 with rep := { (recording 4).rep with writeSeq := w } } : State).canGrant .report .record = true) ∧
    prof.capacity - (56 + 1 - 1) = prof.holdOn ∧ prof.holdOn < prof.capacity - (55 + 1 - 1) ∧
    prof.capacity - (49 + 1 - 1) < prof.holdOff ∧ prof.capacity - (48 + 1 - 1) = prof.holdOff := by decide

theorem test_witness_ReportUnitWrites_due :
    ∃ t, exec .indexArrival base = .next t ∧ t.seq.tracking ≠ .unconfigured ∧ t.seq.tracking ≠ .halted ∧
      t.statusValue 3 ≠ base.statusValue 3 ∧ ¬Spares .indexArrival base 3 := by
  refine ⟨_, rfl, by decide, by decide, by decide, ?_⟩
  unfold Spares
  simp

/-- A record write and a due status word are both ready, and no request waits. -/
def bothReports (lastWasStatus met : Bool) : State :=
  { base with
    arb := { Arbiter.reset with reportMet := met }
    rep := { base.rep with queue := [reportAt 4], due := [3], lastWasStatus := lastWasStatus } }

/-- R161: after lone record writes the first request with both ready is a record write, and the next one a status write. -/
theorem test_first_request_of_the_report_unit_with_both_ready_is_a_record :
    (bothReports false false).raise.arb.report.request = some .record ∧
    (bothReports false false).raise.arb.reportMet = true ∧
    (bothReports false true).raise.arb.report.request = some .status ∧
    (bothReports true true).raise.arb.report.request = some .record := by decide

/-- Log entry 36: a superseded record write that meets an ERROR is counted as dropped. -/
theorem test_failed_record_write_after_apply_is_counted :
    (checksUnderRecord.makeChecks.finishRecord prof (some 0)).rep.dropped =
      checksUnderRecord.makeChecks.rep.dropped + 1 := by decide +kernel

theorem test_witness_ReportUnitWrites_superseded :
    ∀ queued ∈ [true, false],
      let s : State := { inTracking .idle with
        arb := { Arbiter.reset with hold := some .record }
        rep := { base.rep with writing := some { report := reportAt 4, address := 0x60000, sequence := 9, queued := queued
                                                 superseded := true } } }
      s.arb.hold = some .record ∧ s.cmd.profile = some prof ∧ s.rep.writing.map RecordWrite.superseded = some true ∧
      (reportAt 4).ofStatusW = false := by decide

end Sys2Proof.Tests
end

