-- ==== Sys2Proof/Proofs/StateGuard.lean ====
section
/-! PROOF. The state guard line by line (R52, R53) and the cause an allowed pass stores (R56). -/

namespace Sys2Proof.Machine

/-! ## The three kinds of state code (R2, R3) -/

theorem isNoState_iff (state : BitVec 4) :
    isNoState state = true ↔ state = 0 ∨ (6 ≤ state.toNat ∧ state.toNat ≤ 13) := by
  have hzero : state = 0 ↔ state.toNat = 0 := BitVec.toNat_eq
  simp only [isNoState, Bool.or_eq_true, Bool.and_eq_true, decide_eq_true_eq, hzero]

theorem isEndState_iff (state : BitVec 4) : isEndState state = true ↔ state = 14 ∨ state = 15 := by
  simp only [isEndState, Bool.or_eq_true, decide_eq_true_eq]
  exact Iff.rfl

theorem rankOf_noState {state : BitVec 4} (h : isNoState state = true) : rankOf state = 0 := by
  obtain rfl | ⟨hlow, -⟩ := (isNoState_iff state).mp h
  · rfl
  · exact if_neg (by omega)

theorem rankOf_working {state : BitVec 4} (h : state.toNat ≤ 5) : rankOf state = state.toNat := if_pos h

/-- BLANK and the working states are codes 0 to 5, and the end states lie above them. -/
theorem isEndState_working {state : BitVec 4} (h : state.toNat ≤ 5) : isEndState state = false := by
  rw [← Bool.not_eq_true, isEndState_iff]
  rintro (rfl | rfl) <;> exact absurd h (by decide)

/-- The working states are codes 1 to 5, between BLANK and the invalid codes. -/
theorem isNoState_working {state : BitVec 4} (hlow : 1 ≤ state.toNat) (hhigh : state.toNat ≤ 5) :
    isNoState state = false := by
  rw [← Bool.not_eq_true, isNoState_iff]
  rintro (rfl | ⟨h, -⟩)
  · exact absurd hlow (by decide)
  · omega

/-! ## The lines of the guard's table (R53) -/

section Guard

variable {stored requested : BitVec 4}

/-- Line 1. -/
theorem guardRefusal_noState (hne : requested ≠ stored) (hreq : isNoState requested = true) :
    guardRefusal stored requested = some refusedInvalid := by
  simp [guardRefusal, hne, hreq]

/-- Line 2. -/
theorem guardRefusal_endState (hne : requested ≠ stored) (hreq : isNoState requested = false)
    (hend : isEndState stored = true) : guardRefusal stored requested = some refusedSticky := by
  simp [guardRefusal, hne, hreq, hend]

/-- Line 3. -/
theorem guardRefusal_rejected (hend : isEndState stored = false) : guardRefusal stored stRejected = none := by
  have hreq : isNoState stRejected = false := by decide
  simp [guardRefusal, hreq, hend]

/-- Lines 4 and 5. -/
theorem guardRefusal_void (hend : isEndState stored = false) :
    guardRefusal stored stVoid = if rankOf stored ≤ 1 then none else some refusedVoidLate := by
  have hne : stVoid ≠ stored := by
    rintro rfl
    exact absurd hend (by decide)
  have hreq : isNoState stVoid = false := by decide
  have hrej : stVoid ≠ stRejected := by decide
  simp [guardRefusal, hne, hreq, hend, hrej]

/-- Lines 6 and 7. -/
theorem guardRefusal_working (hne : requested ≠ stored) (hend : isEndState stored = false)
    (hlow : 1 ≤ requested.toNat) (hhigh : requested.toNat ≤ 5) :
    guardRefusal stored requested = if rankOf stored < requested.toNat then none else some refusedBackward := by
  have hreq := isNoState_working hlow hhigh
  have hwork := isEndState_working hhigh
  simp only [isEndState, Bool.or_eq_false_iff, decide_eq_false_iff_not] at hwork
  obtain ⟨hrej, hvoid⟩ := hwork
  simp [guardRefusal, hne, hreq, hend, hrej, hvoid, rankOf_working hhigh]

end Guard

/-- Settles O15: each clause is a line of the table. -/
theorem guardTable : Obligations.GuardTable := by
  intro stored requested hne
  simp only [← isNoState_iff, ← isEndState_iff, Bool.not_eq_true]
  refine ⟨rankOf_noState, fun _ => rankOf_working, guardRefusal_noState hne,
    fun hreq => ⟨guardRefusal_endState hne hreq, fun hend => ⟨?rejected, ?voidEarly, ?voidLate, ?forward, ?backward⟩⟩⟩
  case rejected =>
    rintro rfl
    exact guardRefusal_rejected hend
  case voidEarly =>
    rintro rfl hrank
    have hle : rankOf stored ≤ 1 := by
      obtain hzero | rfl := hrank
      · omega
      · decide
    exact (guardRefusal_void hend).trans (if_pos hle)
  case voidLate =>
    rintro rfl hrank
    exact (guardRefusal_void hend).trans (if_neg (by omega))
  case forward =>
    intro hlow hhigh hlt
    exact (guardRefusal_working hne hend hlow hhigh).trans (if_pos hlt)
  case backward =>
    intro hlow hhigh hlt
    exact (guardRefusal_working hne hend hlow hhigh).trans (if_neg (by omega))

/-! ## The cause (R56) -/

/-- NONE, TRACKING and CORRUPT may not be sent with a rejection. -/
theorem sentCause_unspecified {cause : BitVec 4} (h : cause = 0 ∨ cause = causeTracking ∨ cause = causeCorrupt) :
    sentCause cause = causeUnspecified := if_pos h

/-- Every other cause is stored as it was sent. -/
theorem sentCause_kept {cause : BitVec 4} (hnone : cause ≠ 0) (htracking : cause ≠ causeTracking)
    (hcorrupt : cause ≠ causeCorrupt) : sentCause cause = cause :=
  if_neg (not_or.mpr ⟨hnone, not_or.mpr ⟨htracking, hcorrupt⟩⟩)

/-- A pass that rejects the card stores the cause that was sent. -/
theorem settledCause_rejecting {read masked : Word} (hmasked : cardState masked = stRejected)
    (hread : cardState read ≠ stRejected) : settledCause read masked = sentCause (cardCause masked) :=
  if_pos ⟨hmasked, hread⟩

/-- A pass that does not reject the card keeps the cause that was read. -/
theorem settledCause_kept {read masked : Word} (h : ¬(cardState masked = stRejected ∧ cardState read ≠ stRejected)) :
    settledCause read masked = cardCause read := if_neg h

/-- Settles O16: a rejecting pass by the cause that it sends, any other pass by the cause that it read. -/
theorem causeHandling : Obligations.CauseHandling := by
  intro read masked
  refine ⟨fun hmasked hread => ?rejecting, settledCause_kept⟩
  rw [settledCause_rejecting hmasked hread]
  exact ⟨sentCause_unspecified, sentCause_kept⟩

end Sys2Proof.Machine
end

