-- ==== Sys2Proof/Proofs/CommandWord.lean ====
section
/-! PROOF. A granted write of a watched word, whole and answered OK, and how R130 rules on a command word that names a command
allowed in the tracking state (R86, R129, R130). -/

namespace Sys2Proof.Machine

/-! ## The performed write (R86) -/

/-- The state at the hand-over of a PROFILE write: granted, its word written, its entry removed from the queue. -/
def State.rowPerformed (s : State) (p : Port) (a : Nat) (v : Word) : State :=
  ({ s.grantTo (portRequester p) with mem := s.mem.writeWord a v }).removeHead p

@[simp] theorem rowPerformed_fields (s : State) (p : Port) (a : Nat) (v : Word) :
    (s.rowPerformed p a v).mem = s.mem.writeWord a v ∧ (s.rowPerformed p a v).psel = s.psel ∧
    (s.rowPerformed p a v).inReset = s.inReset ∧ (s.rowPerformed p a v).view = s.view ∧
    (s.rowPerformed p a v).claims = s.claims ∧ (s.rowPerformed p a v).seq = s.seq ∧
    (s.rowPerformed p a v).time = s.time ∧ (s.rowPerformed p a v).disch = s.disch ∧
    (s.rowPerformed p a v).cmd = s.cmd ∧ (s.rowPerformed p a v).rep = s.rep ∧
    (s.rowPerformed p a v).choices = s.choices := by
  simp [State.rowPerformed]

@[simp] theorem rowPerformed_blockWord (s : State) (p : Port) (a : Nat) (v : Word) (n : Nat) :
    (s.rowPerformed p a v).blockWord n = s.blockWord n := by
  simp [State.blockWord, State.blockBase]

section Performed

variable {s : State} {p : Port} {a : Nat} {data v : Word} {enables : Enables} {e : Entry} {rest : List Entry}
  {row : ProfileRow}

theorem headGone_rowPerformed (hqueue : (s.port p).queue = e :: rest) : HeadGone p rest s (s.rowPerformed p a v) := by
  have hport : (s.grantTo (portRequester p)).port = s.port := by funext q; cases q <;> rfl
  have hother : otherPort p ≠ p := by cases p <;> decide
  refine ⟨(removeHead_same _ p).trans ?_, (removeHead_other _ p _ hother).trans (congrFun hport _)⟩
  change { (s.grantTo (portRequester p)).port p with queue := ((s.grantTo (portRequester p)).port p).queue.tail } = _
  rw [hport, hqueue]
  rfl

/-- A PROFILE write that memory answers OK hands the merged word over to the unit that watches it. -/
theorem finishWrite_profile_ok (s : State) (p : Port) (a : Nat) (data : Word) (enables : Enables) :
    s.finishWrite p a data enables true none =
      (({ s with mem := s.mem.writeWord a (leftInMemory s.mem a enables data) }).removeHead p).handOver p a
        (leftInMemory s.mem a enables data) := by
  rw [State.finishWrite, writeAccesses_ok]
  rfl

/-- A write of a row of the profile block, whole and answered OK, is the hand-over and the end of the step. -/
theorem runProfile_whole (h : WritesRow s p a data enables rest row v) :
    s.runProfile p (.whole none) row = .next (State.settle none s ((s.rowPerformed p a v).handOver p a v)) := by
  obtain ⟨hqueue, hgrant, hrow, rfl⟩ := h
  obtain ⟨-, hfree, -, -⟩ := (canGrant_iff s _ _).mp hgrant
  have hgranted : s.profileGranted p row = some ((s.grantTo (portRequester p)).holds (.write p a data enables true)) := by
    simp [State.profileGranted, hqueue, hgrant, hrow]
  have hmine : ((s.grantTo (portRequester p)).holds (.write p a data enables true)).holdIs (s.isProfileWrite p row) = true := by
    simp [State.isProfileWrite, hrow]
  have hended : ((s.grantTo (portRequester p)).holds (.write p a data enables true)).endHold none =
      (s.grantTo (portRequester p)).finishWrite p a data enables true none :=
    congrArg (fun t => t.finishWork (.write p a data enables true) none)
      (release_holds_grantTo s _ (.write p a data enables true) hfree)
  rw [State.runProfile, hgranted, runSpan_whole_held _ _ _ _ hmine, hended, finishWrite_profile_ok]
  rfl

/-- What a hand-over leaves of memory and the ports stands after the step, so the row is written. -/
theorem rowWritten_settle {x : State} {spare : Option Nat} (hqueue : (s.port p).queue = e :: rest)
    (hmemory : SameMemory (s.rowPerformed p a v) x) (hports : SamePorts (s.rowPerformed p a v) x) :
    RowWritten s (State.settle spare s x) p a rest v := by
  obtain ⟨hmem, hpsel, hreset⟩ := hmemory
  obtain ⟨hA, hB⟩ := hports
  have hport : ∀ q, (State.settle spare s x).port q = (s.rowPerformed p a v).port q := by
    intro q
    rw [settle_port]
    cases q <;> assumption
  obtain ⟨hhead, hother⟩ := headGone_rowPerformed (a := a) (v := v) hqueue
  refine ⟨?_, ⟨(hport p).trans hhead, (hport _).trans hother⟩, ?_, ?_⟩
  · simp [hmem]
  · simp [hpsel]
  · simp [hreset]

/-- The end of a step keeps the registers of the Report Unit as reports left them. -/
theorem sameReportRegisters_settle {x : State} {spare : Option Nat} {before : State} (h : SameUnit s.rep x.rep) :
    SameReportRegisters s (State.settle spare before x) := by
  obtain ⟨hwrite, hread, hmarkA, hmarkA7, hquiet, hlatch, -, -, hpointer, -⟩ := h
  obtain ⟨kwrite, kread, kmarkA, kmarkA7, kquiet, klatch, kpointer, -⟩ := settle_rep spare before x
  exact ⟨kwrite.trans hwrite, kread.trans hread, kmarkA.trans hmarkA, kmarkA7.trans hmarkA7, kquiet.trans hquiet,
    klatch.trans hlatch, kpointer.trans hpointer⟩

/-! ## The command word (R129, R130) -/

/-- The command that a row of the command word names (11.2). -/
def ProfileRow.command : ProfileRow → Option Command
  | .apply => some .apply
  | .startFresh => some .start
  | .startCarry => some .start
  | .stop => some .stop
  | .recover => some .recover
  | .quiet => some .quiet
  | .unknown => Option.none
  | .none => Option.none
  | .plain => Option.none
  | .readPointer => Option.none
  | .quietExtend => Option.none

theorem command_commandRow (v : Word) : (commandRow v).command = commandOf (commandCode v) := by
  unfold commandRow
  cases commandOf (commandCode v) with
  | none => dsimp only; split <;> rfl
  | some c =>
    cases c with
    | start => dsimp only; split <;> rfl
    | _ => rfl

/-- Only a write of the command word is in the row of a command. -/
theorem profileRow_command {c : Command} (h : (s.profileRow a data enables).command = some c) :
    a = s.blockWord 0 ∧ commandOf (commandCode (leftInMemory s.mem a enables data)) = some c := by
  unfold State.profileRow at h
  split at h
  · next ha => exact ⟨ha, (command_commandRow _).symm.trans h⟩
  · split at h
    · cases h
    · split at h <;> cases h

/-- A write in the row of a command hands a command word over that names the command. -/
theorem runProfile_command {c : Command} (h : WritesRow s p a data enables rest row v) (hc : row.command = some c) :
    commandOf (commandCode v) = some c ∧
    s.runProfile p (.whole none) row = .next (State.settle none s ((s.rowPerformed p a v).takeCommand v)) := by
  have hrun := runProfile_whole h
  obtain ⟨-, -, rfl, rfl⟩ := h
  obtain ⟨ha, hcode⟩ := profileRow_command hc
  rw [State.handOver, if_pos (ha.trans (rowPerformed_blockWord s p _ _ 0).symm)] at hrun
  exact ⟨hcode, hrun⟩

end Performed

theorem allowed_halted (c : Command) : c.allowed .halted = false := by cases c <;> rfl

/-- In HALTED no command word is taken (R145). -/
theorem takeCommand_halted {s : State} (v : Word) (h : s.seq.tracking = .halted) : s.takeCommand v = s := if_pos (.inl h)

/-- A command that is allowed in the tracking state, with none in progress, is taken or has its parameter refused (R130). -/
theorem takeCommand_allowed {s : State} {v : Word} {c : Command} (hcode : commandOf (commandCode v) = some c)
    (hrunning : s.cmd.running = none) (hallowed : c.allowed s.seq.tracking = true) :
    s.takeCommand v =
      if s.validParameter c (commandParameter v).toNat then s.runCommand c (commandTag v) (commandParameter v).toNat
      else s.produceResult { tag := commandTag v, code := .invalidParameter, detail := commandParameter v } := by
  have hhalted : s.seq.tracking ≠ .halted := by
    intro h
    rw [h, allowed_halted] at hallowed
    cases hallowed
  have hzero : commandCode v ≠ 0 := by
    intro h
    rw [h] at hcode
    cases hcode
  have hstop : ¬(c = .stop ∧ s.seq.tracking = .advancing) := by
    rintro ⟨rfl, h⟩
    rw [h] at hallowed
    cases hallowed
  rw [State.takeCommand, if_neg (by simp [hhalted, hzero])]
  by_cases hvalid : s.validParameter c (commandParameter v).toNat = true
  · simp [State.rule, State.ruleIdle, hrunning, hcode, hstop, hallowed, hvalid]
  · simp [State.rule, State.ruleIdle, hrunning, hcode, hstop, hallowed, hvalid, State.produceOutcome]

end Sys2Proof.Machine
end

