-- ==== Sys2Proof/Proofs/RecoverQuiet.lean ====
section
/-! PROOF. RECOVER in LOST and QUIET in every state (R126, R127, R140, R141). -/

namespace Sys2Proof.Machine

/-! ## RECOVER (R140) -/

theorem rejectsLeft_eq (d : Discharge) :
    d.rejectsLeft = ((d.rowSets.drop (d.pointer - 1)).map fun x =>
      ((List.range 8).filter fun n => x.getLsbD n).length).sum := List.sum_eq_foldl.symm

/-- The rows left are reported as R122 and R127 have it, whatever took them. -/
theorem undischarged_eq (d : Discharge) (event : Nat) : d.undischarged event = undischargedOf d (wordOf event) := by
  simp only [Discharge.undischarged, undischargedOf, Discharge.rowsLeft, rejectsLeft_eq, Bool.and_eq_true, decide_eq_true_eq]

theorem clear_loaded {d : Discharge} (h : d.loaded.isSome = true) : d.clear = { d with pointer := d.rowCount + 1 } := if_pos h

theorem clear_empty {d : Discharge} (h : d.loaded = none) : d.clear = d := if_neg (by simp [h])

/-- Every block at the take of RECOVER, before the report of the rows left (R140). -/
def State.recovered (s : State) (tag : Byte) : State :=
  ({ s with seq := { s.seq with faultCause := none, tracking := .idle }, disch := s.disch.clear }).done tag

@[simp] theorem recovered_fields (s : State) (tag : Byte) :
    (s.recovered tag).mem = s.mem ∧ (s.recovered tag).psel = s.psel ∧ (s.recovered tag).inReset = s.inReset ∧
    (s.recovered tag).portA = s.portA ∧ (s.recovered tag).portB = s.portB ∧ (s.recovered tag).view = s.view ∧
    (s.recovered tag).claims = s.claims ∧ (s.recovered tag).time = s.time ∧ (s.recovered tag).rep = s.rep ∧
    (s.recovered tag).choices = s.choices ∧
    (s.recovered tag).seq = { s.seq with faultCause := none, tracking := .idle } ∧
    (s.recovered tag).disch = s.disch.clear ∧
    (s.recovered tag).cmd = { s.cmd with waitingResult := some { tag := tag, code := .done, detail := 0 } } :=
  ⟨rfl, rfl, rfl, rfl, rfl, rfl, rfl, rfl, rfl, rfl, rfl, rfl, rfl⟩

theorem takeRecover_eq (s : State) (tag : Byte) :
    s.takeRecover tag = (s.recovered tag).produceAll [undischargedOf s.disch 2] := by
  rw [State.takeRecover, undischarged_eq]
  rfl

/-- RECOVER in LOST is taken (R130). -/
theorem takeCommand_recover {s : State} {v : Word} (hcode : commandOf (commandCode v) = some .recover)
    (hrunning : s.cmd.running = none) (hlost : s.seq.tracking = .lost) :
    s.takeCommand v = (s.recovered (commandTag v)).produceAll [undischargedOf s.disch 2] := by
  have hallowed : Command.allowed .recover s.seq.tracking = true := by rw [hlost]; rfl
  exact (takeCommand_allowed hcode hrunning hallowed).trans (takeRecover_eq s _)

/-- Settles O45: the performed write hands RECOVER over, whose take is the recovered state and the report of the rows left. -/
theorem recoverTaken : Obligations.RecoverTaken := by
  intro p a data v enables rest s h hrunning hlost
  obtain ⟨hcode, hexec⟩ := runProfile_command h (c := .recover) rfl
  obtain ⟨hqueue, -, -, -⟩ := h
  rw [takeCommand_recover hcode (by simpa using hrunning) (by simpa using hlost)] at hexec
  simp only [rowPerformed_fields] at hexec
  have hunit := sameUnit_produceAll ((s.rowPerformed p a v).recovered (commandTag v)) [undischargedOf s.disch 2]
  refine ⟨_, (s.rowPerformed p a v).recovered (commandTag v), hexec, ?written, rfl, ?_, ?_, ?_, ?_, ?_,
    ?_, ?_, ?rowsLoaded, ?noRows, ?_, ?_, ?_, ?registers⟩
  case written => exact rowWritten_settle hqueue (by simp [SameMemory]) (by simp [SamePorts])
  case rowsLoaded => simpa using clear_loaded
  case noRows => simpa using clear_empty
  case registers => exact sameReportRegisters_settle (by simpa using hunit)
  all_goals simp

/-! ## QUIET (R141) -/

/-- The state with a quiet count and a waiting result. -/
def State.withQuiet (s : State) (n : Nat) (o : Option CommandOutcome) : State :=
  { s with rep := { s.rep with quiet := n }, cmd := { s.cmd with waitingResult := o } }

@[simp] theorem withQuiet_fields (s : State) (n : Nat) (o : Option CommandOutcome) :
    (s.withQuiet n o).mem = s.mem ∧ (s.withQuiet n o).psel = s.psel ∧ (s.withQuiet n o).inReset = s.inReset ∧
    (s.withQuiet n o).portA = s.portA ∧ (s.withQuiet n o).portB = s.portB ∧ (s.withQuiet n o).view = s.view ∧
    (s.withQuiet n o).claims = s.claims ∧ (s.withQuiet n o).seq = s.seq ∧ (s.withQuiet n o).time = s.time ∧
    (s.withQuiet n o).disch = s.disch ∧ (s.withQuiet n o).rep = { s.rep with quiet := n } ∧
    (s.withQuiet n o).cmd = { s.cmd with waitingResult := o } :=
  ⟨rfl, rfl, rfl, rfl, rfl, rfl, rfl, rfl, rfl, rfl, rfl, rfl⟩

theorem takeCommand_quiet_halted {s : State} (v : Word) (h : s.seq.tracking = .halted) :
    s.takeCommand v = s.withQuiet s.rep.quiet s.cmd.waitingResult := takeCommand_halted v h

section Quiet

variable {s : State} {v : Word}

theorem allowed_quiet {t : Tracking} (h : t ≠ .halted) : Command.allowed .quiet t = true := decide_eq_true h

/-- QUIET is taken with every parameter but 0 (R141). -/
theorem takeCommand_quiet (hcode : commandOf (commandCode v) = some .quiet) (hrunning : s.cmd.running = none)
    (hhalted : s.seq.tracking ≠ .halted) (hparam : (commandParameter v).toNat ≠ 0) :
    s.takeCommand v =
      s.withQuiet (commandParameter v).toNat (some { tag := commandTag v, code := .done, detail := 0 }) :=
  (takeCommand_allowed hcode hrunning (allowed_quiet hhalted)).trans (if_pos (decide_eq_true hparam))

/-- The parameter 0 is refused (R141). -/
theorem takeCommand_quiet_zero (hcode : commandOf (commandCode v) = some .quiet) (hrunning : s.cmd.running = none)
    (hhalted : s.seq.tracking ≠ .halted) (hparam : (commandParameter v).toNat = 0) :
    s.takeCommand v =
      s.withQuiet s.rep.quiet
        (some { tag := commandTag v, code := .invalidParameter, detail := commandParameter v }) :=
  (takeCommand_allowed hcode hrunning (allowed_quiet hhalted)).trans (if_neg (by simp [State.validParameter, hparam]))

end Quiet

/-- The three outcomes of a QUIET: taken, refused for the parameter 0, or no outcome in HALTED. -/
theorem takeCommand_quiet_cases {s : State} {v : Word} (hcode : commandOf (commandCode v) = some .quiet)
    (hrunning : s.cmd.running = none) :
    ∃ n o, s.takeCommand v = s.withQuiet n o ∧
      (s.seq.tracking ≠ .halted → (commandParameter v).toNat ≠ 0 →
        n = (commandParameter v).toNat ∧ o = some { tag := commandTag v, code := .done, detail := 0 }) ∧
      (s.seq.tracking ≠ .halted → (commandParameter v).toNat = 0 →
        n = s.rep.quiet ∧ o = some { tag := commandTag v, code := .invalidParameter, detail := commandParameter v }) ∧
      (s.seq.tracking = .halted → n = s.rep.quiet ∧ o = s.cmd.waitingResult) := by
  by_cases hhalted : s.seq.tracking = .halted
  · exact ⟨_, _, takeCommand_quiet_halted v hhalted, (absurd hhalted ·), (absurd hhalted ·), fun _ => ⟨rfl, rfl⟩⟩
  · by_cases hparam : (commandParameter v).toNat = 0
    · exact ⟨_, _, takeCommand_quiet_zero hcode hrunning hhalted hparam, fun _ => (absurd hparam ·),
        fun _ _ => ⟨rfl, rfl⟩, (absurd · hhalted)⟩
    · exact ⟨_, _, takeCommand_quiet hcode hrunning hhalted hparam, fun _ _ => ⟨rfl, rfl⟩, fun _ => (absurd · hparam),
        (absurd · hhalted)⟩

/-- Settles O46: in each of the three outcomes the quiet count and the waiting result alone may change. -/
theorem quietTaken : Obligations.QuietTaken := by
  intro p a data v enables rest s h hrunning
  obtain ⟨hcode, hexec⟩ := runProfile_command h (c := .quiet) rfl
  obtain ⟨hqueue, -, -, -⟩ := h
  obtain ⟨n, o, hcommand, htaken, hrefused, hhalted⟩ :=
    takeCommand_quiet_cases hcode (s := s.rowPerformed p a v) (by simpa using hrunning)
  rw [hcommand] at hexec
  obtain ⟨hwrite, hread, hmarkA, hmarkA7, hquiet, hlatch, -, -, -, hreports⟩ :=
    settle_rep none s ((s.rowPerformed p a v).withQuiet n o)
  simp only [rowPerformed_fields] at htaken hrefused hhalted
  simp only [rowPerformed_fields, withQuiet_fields] at hwrite hread hmarkA hmarkA7 hquiet hlatch hreports
  have hresult : ∀ m r, n = m ∧ o = r →
      (State.settle none s ((s.rowPerformed p a v).withQuiet n o)).rep.quiet = m ∧
      (State.settle none s ((s.rowPerformed p a v).withQuiet n o)).cmd = { s.cmd with waitingResult := r } := by
    rintro _ _ ⟨rfl, rfl⟩
    exact ⟨hquiet, by simp⟩
  refine ⟨_, hexec, rowWritten_settle hqueue (by simp [SameMemory]) (by simp [SamePorts]), ?_, ?_, ?_, ?_, ?_,
    hwrite, hread, hmarkA, hmarkA7, hlatch, hreports, fun ht hp => hresult _ _ (htaken ht hp),
    fun ht hp => hresult _ _ (hrefused ht hp), fun ht => hresult _ _ (hhalted ht)⟩
  all_goals simp

end Sys2Proof.Machine
end

