-- ==== Sys2Proof/Proofs/QuietExtend.lean ====
section
/-! PROOF. A performed write of the quiet-extend word (R158, R164). -/

namespace Sys2Proof.Machine

/-! ## The row of the quiet-extend word (R86) -/

theorem commandRow_ne_quietExtend (v : Word) : commandRow v ≠ .quietExtend := by
  unfold commandRow
  cases commandOf (commandCode v) with
  | none => dsimp only; split <;> decide
  | some c =>
    cases c with
    | start => dsimp only; split <;> decide
    | _ => nofun

section QuietExtend

variable {s : State} {p : Port} {a : Nat} {data v : Word} {enables : Enables} {rest : List Entry}

/-- Only word 3 of the block is the quiet-extend word, and the words that are asked for before it are other words. -/
theorem profileRow_quietExtend (h : s.profileRow a data enables = .quietExtend) :
    a ≠ s.blockWord 0 ∧ a ≠ s.blockWord 2 ∧ a = s.blockWord 3 := by
  unfold State.profileRow at h
  split at h
  · exact absurd h (commandRow_ne_quietExtend _)
  · next hcommand =>
      split at h
      · cases h
      · next hpointer =>
          split at h
          · next hextend => exact ⟨hcommand, hpointer, hextend⟩
          · cases h

/-! ## The quiet count that a value leaves (R158, R164) -/

/-- The quiet count after a performed write of `v` into the quiet-extend word. -/
def State.extendedQuiet (s : State) (v : Word) : Nat :=
  if s.seq.tracking = .halted ∨ s.rep.quiet = 0 then s.rep.quiet else min v.toNat 65535

/-- The value changes the quiet count alone. -/
theorem takeQuietExtend_eq (s : State) (v : Word) :
    s.takeQuietExtend v = s.withQuiet (s.extendedQuiet v) s.cmd.waitingResult := by
  unfold State.takeQuietExtend State.extendedQuiet
  split <;> rfl

theorem extendedQuiet_rowPerformed : (s.rowPerformed p a v).extendedQuiet v = s.extendedQuiet v := by
  simp [State.extendedQuiet]

/-- With no quiet to extend, and in HALTED, the write is ignored. -/
theorem extendedQuiet_ignored (h : s.rep.quiet = 0 ∨ s.seq.tracking = .halted) : s.extendedQuiet v = s.rep.quiet :=
  if_pos h.symm

/-- A quiet count of 1 or more is replaced. -/
theorem extendedQuiet_replaced (hhalted : s.seq.tracking ≠ .halted) (hquiet : 1 ≤ s.rep.quiet) :
    s.extendedQuiet v = min v.toNat 65535 :=
  if_neg (not_or.mpr ⟨hhalted, Nat.one_le_iff_ne_zero.mp hquiet⟩)

/-! ## The performed write (R158, R166) -/

/-- A performed write in the row hands its value over, and the quiet count alone follows it. -/
theorem runProfile_quietExtend (h : WritesRow s p a data enables rest .quietExtend v) :
    s.runProfile p (.whole none) .quietExtend =
      .next (State.settle none s ((s.rowPerformed p a v).withQuiet (s.extendedQuiet v) s.cmd.waitingResult)) := by
  have hrun := runProfile_whole h
  obtain ⟨-, -, hrow, -⟩ := h
  obtain ⟨hcommand, hpointer, hextend⟩ := profileRow_quietExtend hrow
  rw [State.handOver, if_neg (by simpa using hcommand), if_neg (by simpa using hpointer),
    if_pos (by simpa using hextend), takeQuietExtend_eq, extendedQuiet_rowPerformed] at hrun
  simpa only [rowPerformed_fields] using hrun

end QuietExtend

/-- Settles O50: the write hands its value over, which changes the quiet count alone, and the end of the step keeps that count. -/
theorem quietExtendReplaces : Obligations.QuietExtendReplaces := by
  intro p a data v enables rest s h
  have hexec := runProfile_quietExtend h
  obtain ⟨hqueue, -, -, -⟩ := h
  obtain ⟨hwrite, hread, hmarkA, hmarkA7, hquiet, -, -, -, -, hreports⟩ :=
    settle_rep none s ((s.rowPerformed p a v).withQuiet (s.extendedQuiet v) s.cmd.waitingResult)
  simp only [rowPerformed_fields, withQuiet_fields] at hwrite hread hmarkA hmarkA7 hquiet hreports
  refine ⟨_, hexec, rowWritten_settle hqueue (by simp [SameMemory]) (by simp [SamePorts]), by simp [SameInner],
    hwrite, hread, hmarkA, hmarkA7, fun hhalted hone hle => ?within, fun hhalted hone hlt => ?above,
    fun hignored => ⟨hquiet.trans (extendedQuiet_ignored hignored), hreports⟩⟩
  case within => exact hquiet.trans ((extendedQuiet_replaced hhalted hone).trans (Nat.min_eq_left hle))
  case above => exact hquiet.trans ((extendedQuiet_replaced hhalted hone).trans (Nat.min_eq_right hlt.le))

end Sys2Proof.Machine
end

