-- ==== Sys2Proof/Proofs/Keeps.lean ====
section
/-! PROOF. What every operation of a block keeps: the ranges and bounds of the statements about every step, as one relation that
composes along the operations of a step (R9, R35, R64, R82, R87, R134, R149, R151). -/

namespace Sys2Proof.Machine

/-! ## The relation -/

/-- What holds of `s` of the bounds still holds of `t`, and the straps and the level of RESET are as before. -/
structure Keeps (s t : State) : Prop where
  straps : (t.psel, t.inReset) = (s.psel, s.inReset)
  memory : s.memoryCanonical → t.memoryCanonical
  queues : s.queuesBounded → t.queuesBounded
  reports : s.reportsBounded → t.reportsBounded
  claims : s.claimsBounded → t.claimsBounded
  waits : s.waitsBounded → t.waitsBounded
  counters : s.countersBounded → t.countersBounded
  frames : s.framesOrdered → t.framesOrdered
  profile : s.profileChecked → t.profileChecked
  room : s.sequencesOrdered ∧ s.recordHasRoom → t.sequencesOrdered ∧ t.recordHasRoom

namespace Keeps

theorem refl (s : State) : Keeps s s := ⟨rfl, id, id, id, id, id, id, id, id, id⟩

theorem trans {s t u : State} (h : Keeps s t) (k : Keeps t u) : Keeps s u :=
  ⟨k.straps.trans h.straps, k.memory ∘ h.memory, k.queues ∘ h.queues, k.reports ∘ h.reports, k.claims ∘ h.claims,
    k.waits ∘ h.waits, k.counters ∘ h.counters, k.frames ∘ h.frames, k.profile ∘ h.profile, k.room ∘ h.room⟩

/-- An operation before another that keeps the bounds. -/
theorem comp {s t u : State} (k : Keeps t u) (h : Keeps s t) : Keeps s u := h.trans k

end Keeps

/-! ## One field replaced -/

theorem keeps_mem (s : State) (m : Memory) (h : s.mem.wf = true → m.wf = true) : Keeps s { s with mem := m } :=
  ⟨rfl, h, id, id, id, id, id, id, id, id⟩

theorem keeps_time (s : State) (x : TimeBase) : Keeps s { s with time := x } := ⟨rfl, id, id, id, id, id, id, id, id, id⟩

theorem keeps_disch (s : State) (x : Discharge) : Keeps s { s with disch := x } := ⟨rfl, id, id, id, id, id, id, id, id, id⟩

theorem keeps_pins (s : State) (x : Pins) : Keeps s { s with pins := x } := ⟨rfl, id, id, id, id, id, id, id, id, id⟩

theorem keeps_choices (s : State) (n : Nat) : Keeps s { s with choices := n } := ⟨rfl, id, id, id, id, id, id, id, id, id⟩

theorem keeps_pending (s : State) (x : List Instr) : Keeps s { s with pending := x } :=
  ⟨rfl, id, id, id, id, id, id, id, id, id⟩

/-- The Ring Sequencer with H, the first frame and the fault count as they were. -/
theorem keeps_seq (s : State) (x : Sequencer) (hhead : x.head = s.seq.head := by rfl)
    (hfirst : x.firstFrame = s.seq.firstFrame := by rfl) (hcount : x.faultCount = s.seq.faultCount := by rfl) :
    Keeps s { s with seq := x } := by
  refine ⟨rfl, id, id, id, id, id, ?_, ?_, id, id⟩
  · rintro ⟨hfaults, hrest⟩
    exact ⟨hcount.trans_le hfaults, hrest⟩
  · rintro ⟨hle, hmax⟩
    exact ⟨by rw [hfirst, hhead]; exact hle, by rw [hhead]; exact hmax⟩

/-- The Command Unit with its active profile as it was. -/
theorem keeps_cmd (s : State) (x : CommandUnit) (h : x.profile = s.cmd.profile := by rfl) : Keeps s { s with cmd := x } := by
  refine ⟨rfl, id, id, id, id, id, id, id, ?_, ?_⟩
  · intro hchecked p hp
    exact hchecked p (h.symm.trans hp)
  · rintro ⟨⟨hle, hmax, hfits⟩, hwriting, hactive, hroom⟩
    refine ⟨⟨hle, hmax, ?_⟩, hwriting, by rw [h]; exact hactive, ?_⟩
    · rw [h]; exact hfits
    · simpa only [State.free, h] using hroom

/-- A port with at most as many entries as it had, or as it may have. -/
theorem keeps_setPort (s : State) (p : Port) (x : PortState)
    (h : x.queue.length ≤ (s.port p).queue.length ∨ x.queue.length ≤ Config.queueSize) : Keeps s (s.setPort p x) := by
  cases p
  all_goals
    refine ⟨rfl, id, ?_, id, id, id, id, id, id, id⟩
    rintro ⟨hA, hB⟩
  · exact ⟨h.elim (·.trans hA) id, hB⟩
  · exact ⟨hA, h.elim (·.trans hB) id⟩

/-- The slots' streams with their counts in range. -/
theorem keeps_view (s : State) (v : Eight Station)
    (h : s.countersBounded → ∀ i : Fin 8, (v.get i).held ≤ 3 ∧ (v.get i).overflow ≤ Config.maxHalf) :
    Keeps s { s with view := v } := by
  refine ⟨rfl, id, id, id, id, id, ?_, id, id, id⟩
  intro hs
  obtain ⟨hfaults, hquiet, hdropped, -⟩ := id hs
  exact ⟨hfaults, hquiet, hdropped, h hs⟩

theorem keeps_claims (s : State) (cs : List Claim) (h : s.claimsBounded → { s with claims := cs }.claimsBounded) :
    Keeps s { s with claims := cs } := ⟨rfl, id, id, id, h, id, id, id, id, id⟩

/-- The arbiter with its counts in order and the hold of a record write as it was. -/
theorem keeps_arb (s : State) (x : Arbiter) (hwaits : s.waitsBounded → { s with arb := x }.waitsBounded)
    (hhold : x.hold = some .record ↔ s.arb.hold = some .record) : Keeps s { s with arb := x } := by
  refine ⟨rfl, id, id, id, id, hwaits, id, id, id, ?_⟩
  rintro ⟨hseq, hwriting, hroom⟩
  exact ⟨hseq, hwriting.trans hhold.symm, hroom⟩

/-- The Report Unit with its queue, counts and marks in range, and its sequence numbers and the record being written as they
were, up to whether that one still stands in the queue. -/
theorem keeps_rep (s : State) (u : ReportUnit) (hqueue : s.reportsBounded → u.queue.length ≤ Config.reportQueueSize)
    (hquiet : s.rep.quiet ≤ Config.maxHalf → u.quiet ≤ Config.maxHalf)
    (hdropped : s.rep.dropped ≤ Config.maxWord → u.dropped ≤ Config.maxWord)
    (hwrite : u.writeSeq = s.rep.writeSeq := by rfl) (hread : u.readSeq = s.rep.readSeq := by rfl)
    (hwriting : u.writing = s.rep.writing ∨ u.writing = s.rep.writing.map RecordWrite.unqueue := by exact Or.inl rfl) :
    Keeps s { s with rep := u } := by
  refine ⟨rfl, id, id, hqueue, id, id, ?_, id, id, ?_⟩
  · rintro ⟨hfaults, hq, hd, hview⟩
    exact ⟨hfaults, hquiet hq, hdropped hd, hview⟩
  · rintro ⟨⟨hle, hmax, hfits⟩, hhold, hactive, hroom⟩
    have hsome : u.writing.isSome = s.rep.writing.isSome := by
      obtain h | h := hwriting
      · rw [h]
      · rw [h, Option.isSome_map]
    have hfree : ({ s with rep := u } : State).free = s.free := by simp only [State.free, hwrite, hread]
    refine ⟨⟨by rw [hwrite, hread]; exact hle, by rw [hwrite]; exact hmax, ?_⟩, by rw [hsome]; exact hhold,
      by rw [hsome]; exact hactive, ?_⟩
    · simpa only [hwrite, hread] using hfits
    · intro w hw hnew
      rw [hfree, hwrite]
      obtain h | h := hwriting
      · exact hroom w (h.symm.trans hw) hnew
      · obtain ⟨w', hw', rfl⟩ := Option.map_eq_some_iff.mp (h.symm.trans hw)
        exact hroom w' hw' hnew

/-! ## Counts -/

theorem addUpTo_le (top n k : Nat) : addUpTo top n k ≤ top := Nat.min_le_right _ _

/-! ## Reports (R147, R149) -/

theorem dropped_produced (s : State) (c : Content) (h : s.rep.dropped ≤ Config.maxWord) :
    (s.rep.produced s c).dropped ≤ Config.maxWord := by
  unfold ReportUnit.produced
  split
  · exact addUpTo_le _ _ _
  · split
    · exact addUpTo_le _ _ _
    · split
      · exact h
      · unfold ReportUnit.offer
        split
        · exact h
        · split
          · split <;> exact addUpTo_le _ _ _
          · exact addUpTo_le _ _ _

theorem keeps_produce (s : State) (c : Content) : Keeps s (s.produce c) := by
  obtain ⟨hwrite, hread, -, -, hquiet, -, -, -, -, -, hwriting⟩ := sameUnit_produce s c
  exact keeps_rep s _ (produce_length s c) hquiet.trans_le (dropped_produced s c) hwrite hread hwriting

theorem keeps_foldl_produce (cs : List Content) (s : State) : Keeps s (cs.foldl State.produce s) := by
  induction cs generalizing s with
  | nil => exact Keeps.refl s
  | cons c cs ih => exact (keeps_produce s c).trans (ih _)

theorem keeps_produceAll (s : State) (bs : List (List Content)) : Keeps s (s.produceAll bs) :=
  produceAll_induct (Keeps s) (fun t c h => h.trans (keeps_produce t c)) (fun t h => h.trans (keeps_choices t _)) s bs
    (Keeps.refl s)

/-! ## Claims (R64, R75) -/

/-- Claims taken out of the table keep its bounds. -/
theorem claimsBounded_sublist {s : State} {cs : List Claim} (hsub : cs.Sublist s.claims) (h : s.claimsBounded) :
    ({ s with claims := cs } : State).claimsBounded := by
  obtain ⟨hA, hB, hnodup⟩ := h
  exact ⟨(hsub.filter _).length_le.trans hA, (hsub.filter _).length_le.trans hB, hnodup.sublist (hsub.map _)⟩

theorem keeps_tear (s : State) (torn : Claim → Bool) : Keeps s (s.tear torn) :=
  keeps_claims s _ (claimsBounded_sublist List.filter_sublist)

/-! ## Ports -/

theorem keeps_removeHead (s : State) (p : Port) : Keeps s (s.removeHead p) :=
  keeps_setPort s p _ (.inl (by simp))

theorem keeps_answerRead (s : State) (p : Port) (x : Answer) : Keeps s (s.answerRead p x) :=
  keeps_setPort s p _ (.inl le_rfl)

theorem length_begunPart_add_notBegun (begun : Bool) (q : List Entry) :
    (begunPart begun q).length + (notBegun begun q).length = q.length := by
  cases begun <;> cases q <;> simp [begunPart, notBegun]
  omega

theorem length_portWithoutViews (s : State) (p : Port) :
    (s.portWithoutViews p).queue.length ≤ (s.port p).queue.length := by
  have hqueue : (s.portWithoutViews p).queue =
      begunPart (s.begun p) (s.port p).queue ++ (notBegun (s.begun p) (s.port p).queue).filter fun e => !e.isView := by
    unfold State.portWithoutViews
    dsimp only
    split
    · split <;> rfl
    · rfl
    · rfl
  have hsplit := length_begunPart_add_notBegun (s.begun p) (s.port p).queue
  have hfilter := List.length_filter_le (fun e => !Entry.isView e) (notBegun (s.begun p) (s.port p).queue)
  rw [hqueue, List.length_append]
  omega

/-! ## The arbiter (R87) -/

/-- Counts that rise for no requester and fall for some stay in order, where no requester waits no longer without a count of 0. -/
theorem servedBefore_le {x y : Arbiter} {r : Requester}
    (h : ∀ q, (x.desk q).passed + 9 ≤ (x.desk r).passed → (y.desk q).passed + 9 ≤ (y.desk r).passed) :
    x.servedBefore r ≤ y.servedBefore r :=
  (List.monotone_filter_right _ fun q hq => by
    rw [decide_eq_true_eq] at hq ⊢
    exact h q hq).length_le

theorem waits_setDesk_reset {s : State} (r : Requester) (h : s.waitsBounded) : (s.withdraw r).waitsBounded := by
  intro q
  by_cases hq : q = r
  · subst hq
    simp [State.withdraw, Desk.reset]
  · obtain ⟨hnone, hle⟩ := h q
    have hdesk : (s.withdraw r).arb.desk q = s.arb.desk q := setDesk_other _ _ _ _ hq
    refine ⟨by rw [hdesk]; exact hnone, ?_⟩
    rw [hdesk]
    refine hle.trans (Nat.add_le_add_left (servedBefore_le fun q' hserved => ?_) _)
    rw [hdesk]
    by_cases hq' : q' = r
    · subst hq'
      simp only [State.withdraw, setDesk_same, Desk.reset]
      omega
    · rw [State.withdraw, setDesk_other _ _ _ _ hq']
      exact hserved

theorem keeps_withdraw (s : State) (r : Requester) : Keeps s (s.withdraw r) :=
  keeps_arb s _ (waits_setDesk_reset r) (by simp)

theorem hold_record_orphaned (h : Option Work) (p : Port) :
    (h.map fun w => w.orphaned p) = some .record ↔ h = some .record := by
  rcases h with _ | w
  · simp
  · cases w <;> simp [Work.orphaned]
    split <;> simp

theorem keeps_abandonWork (s : State) (p : Port) : Keeps s (s.abandonWork p) := by
  refine (keeps_withdraw s (portRequester p)).trans (keeps_arb _ _ (fun h => ?_) (hold_record_orphaned _ p))
  intro r
  have hdesk : ∀ q, ({ (s.withdraw (portRequester p)).arb with
      hold := (s.withdraw (portRequester p)).arb.hold.map fun w => w.orphaned p } : Arbiter).desk q =
      (s.withdraw (portRequester p)).arb.desk q := by intro q; cases q <;> rfl
  simpa only [Arbiter.servedBefore, hdesk] using h r

theorem keeps_dropViews (s : State) (p : Port) : Keeps s (s.dropViews p) := by
  have hport : (s.abandonWork p).port p = s.port p := by cases p <;> rfl
  unfold State.dropViews
  dsimp only
  split
  · refine (keeps_abandonWork s p).trans (keeps_setPort _ p _ (.inl ?_))
    rw [hport]
    exact length_portWithoutViews s p
  · exact keeps_setPort _ p _ (.inl (length_portWithoutViews s p))

/-! ## Stations (R35) -/

/-- Stations changed so that no count leaves its range. -/
theorem keeps_mapStations (s : State) (p : Profile) (f : Fin 8 → SlotSettings → Station → Station)
    (h : ∀ i x st, st.held ≤ 3 → st.overflow ≤ Config.maxHalf → (f i x st).held ≤ 3 ∧ (f i x st).overflow ≤ Config.maxHalf) :
    Keeps s (s.mapStations p f) := by
  refine keeps_view s _ ?_
  rintro ⟨-, -, -, hview⟩ i
  rw [get_make]
  split
  · exact h i _ _ (hview i).1 (hview i).2
  · exact hview i

theorem keeps_advanceViews (s : State) (p : Profile) : Keeps s (s.advanceViews p) :=
  keeps_mapStations s p _ fun _ _ _ _ _ => ⟨Nat.zero_le _, Nat.zero_le _⟩

theorem keeps_clearViews (s : State) (p : Profile) : Keeps s (s.clearViews p) :=
  keeps_mapStations s p _ fun _ _ _ _ _ => ⟨Nat.zero_le _, Nat.zero_le _⟩

theorem keeps_startViews (s : State) (p : Profile) : Keeps s (s.startViews p) :=
  keeps_mapStations s p _ fun _ _ _ hheld hover => ⟨hheld, hover⟩

theorem keeps_abortViews (s : State) (p : Profile) (q : Port) : Keeps s (s.abortViews p q) := by
  refine keeps_mapStations s p _ fun _ _ _ hheld hover => ?_
  split
  · exact ⟨Nat.zero_le _, hover⟩
  · exact ⟨hheld, hover⟩

theorem keeps_resetViews (s : State) : Keeps s s.resetViews := by
  refine keeps_view s _ fun _ i => ?_
  rw [get_make]
  exact ⟨Nat.zero_le _, Nat.zero_le _⟩

/-! ## Faults (R142, R143, R145) -/

theorem keeps_endStart (s : State) (code : OutcomeCode) (detail : BitVec 16) : Keeps s (s.endStart code detail) := by
  unfold State.endStart
  split
  · exact keeps_cmd s _
  · exact Keeps.refl s
  · exact Keeps.refl s

theorem keeps_endStartAtFault (s : State) (kind : FaultKind) : Keeps s (s.endStartAtFault kind) := by
  cases kind <;> exact keeps_endStart _ _ _

theorem keeps_progressMarking (s : State) : Keeps s s.progressMarking := by
  unfold State.progressMarking
  split
  · exact Keeps.refl s
  · split
    · exact Keeps.refl s
    · split <;> exact keeps_seq s _

theorem keeps_hardFault (s : State) (p : Profile) (f : FaultSignal) (extra : List (List Content)) :
    Keeps s (s.hardFault p f extra) := by
  unfold State.hardFault
  refine (keeps_progressMarking _).comp ?_
  refine (keeps_produceAll _ _).comp ?_
  refine (keeps_endStartAtFault _ _).comp ?_
  refine (keeps_time _ _).comp ?_
  refine (keeps_clearViews _ _).comp ?_
  refine (keeps_dropViews _ _).comp ?_
  refine (keeps_dropViews _ _).comp ?_
  refine (keeps_tear _ _).comp ?_
  exact (keeps_withdraw _ _).comp (keeps_seq s _)

theorem length_halted (u : ReportUnit) (h : u.queue.length ≤ Config.reportQueueSize) :
    u.halted.queue.length ≤ Config.reportQueueSize := by
  simp only [ReportUnit.halted]
  split
  · split
    · exact (List.length_take_le' _ _).trans h
    · exact Nat.zero_le _
  · exact Nat.zero_le _

theorem keeps_enterHalted (s : State) : Keeps s s.enterHalted := by
  have hwithdrawn : Keeps s (((s.withdraw .sequencer).withdraw .report).withdraw .command) :=
    ((keeps_withdraw s _).trans (keeps_withdraw _ _)).trans (keeps_withdraw _ _)
  refine hwithdrawn.trans ?_
  refine Keeps.trans (keeps_seq _ { s.seq with tracking := .halted, marking := none }) ?_
  refine Keeps.trans (keeps_cmd _ { s.cmd with waitingBusy := none, waitingResult := none }) ?_
  exact keeps_rep _ (s.rep.halted.drop 1) (length_halted s.rep) id (fun _ => addUpTo_le _ _ _)

theorem keeps_faultCounted (s : State) :
    Keeps s { s with seq := { s.seq with faultCount := addUpTo Config.maxHalf s.seq.faultCount 1 } } := by
  refine ⟨rfl, id, id, id, id, id, ?_, id, id, id⟩
  rintro ⟨-, hrest⟩
  exact ⟨addUpTo_le _ _ _, hrest⟩

theorem keeps_fault (s : State) (f : FaultSignal) (extra : List (List Content)) : Keeps s (s.fault f extra) := by
  unfold State.fault
  refine (keeps_faultCounted s).trans ?_
  dsimp only
  split
  · exact keeps_hardFault _ _ _ _
  · exact keeps_hardFault _ _ _ _
  · exact (keeps_produceAll _ _).trans (keeps_enterHalted _)
  · exact keeps_produceAll _ _
  · exact keeps_produceAll _ _
  · exact keeps_produceAll _ _
  · exact keeps_produceAll _ _
  · exact Keeps.refl _
  · exact Keeps.refl _

/-! ## The advance (R9, R99 to R109) -/

theorem keeps_beginAdvance (s : State) (p : Profile) (h : s.seq.head ≠ Config.maxWord) : Keeps s (s.beginAdvance p) := by
  refine ⟨rfl, id, id, id, id, id, id, ?_, id, id⟩
  rintro ⟨hle, hmax⟩
  exact ⟨Nat.le_succ_of_le hle, Nat.lt_of_le_of_ne hmax h⟩

theorem keeps_armDeadlines (s : State) (p : Profile) : Keeps s (s.armDeadlines p) := keeps_time s _

theorem keeps_advanceAll (s : State) (p : Profile) (h : s.seq.head ≠ Config.maxWord) : Keeps s (s.advanceAll p) := by
  have hquiet : ∀ t : State, Keeps t { t with rep := { t.rep with quiet := t.rep.quiet - 1 } } :=
    fun t => keeps_rep t _ id (fun hq => (Nat.sub_le _ _).trans hq) id
  unfold State.advanceAll
  refine (hquiet _).comp ?_
  refine (keeps_armDeadlines _ _).comp ?_
  refine (keeps_advanceViews _ _).comp ?_
  refine (keeps_tear _ _).comp ?_
  exact (keeps_produceAll _ _).comp (keeps_beginAdvance s p h)

theorem keeps_acceptAdvance (s : State) : Keeps s s.acceptAdvance := by
  unfold State.acceptAdvance
  split
  · exact Keeps.refl s
  · split
    · exact keeps_fault _ _ _
    · next h => exact keeps_advanceAll _ _ h

theorem keeps_completeAdvance (s : State) : Keeps s s.completeAdvance := by
  have h : Keeps s (({ s with seq := { s.seq with advance := none } }).endStart .done 0) :=
    (keeps_endStart _ _ _).comp (keeps_seq s _)
  unfold State.completeAdvance
  dsimp only
  split
  · exact h.trans ((keeps_acceptAdvance _).comp (keeps_seq _ _))
  · exact h.trans (keeps_seq _ _)

theorem keeps_enterJudging (s : State) (p : Profile) (v : Advance) : Keeps s (s.enterJudging p v) := by
  unfold State.enterJudging
  split
  · exact keeps_seq s _
  · exact keeps_completeAdvance s

theorem keeps_nextPair (s : State) (p : Profile) (v : Advance) : Keeps s (s.nextPair p v) := by
  unfold State.nextPair
  split
  · exact keeps_seq s _
  · exact keeps_enterJudging s p v

theorem keeps_initialised (s : State) (p : Profile) (v : Advance) : Keeps s (s.initialised p v) := by
  unfold State.initialised
  split
  · exact keeps_completeAdvance s
  · exact keeps_nextPair s p v

theorem keeps_afterInitSet (s : State) (p : Profile) : Keeps s (s.afterInitSet p) := by
  unfold State.afterInitSet
  split
  · exact keeps_progressMarking s
  · split
    · split
      · exact keeps_initialised s p _
      · exact Keeps.refl s
    · exact Keeps.refl s

theorem keeps_addToInitSet (s : State) (frame card : Nat) : Keeps s (s.addToInitSet frame card) := by
  have hset : Keeps s { s with seq := { s.seq with initSet := s.seq.initSet ++ [card] } } := keeps_seq s _
  unfold State.addToInitSet
  split
  · exact Keeps.refl s
  · split
    · dsimp only
      split
      · exact hset
      · exact hset.trans ((keeps_afterInitSet _ _).comp (keeps_seq _ _))
    · exact Keeps.refl s

theorem keeps_pairExamined (s : State) (p : Profile) (v : Advance) (d : Departure) (c : CheckProgress) :
    Keeps s (s.pairExamined p v d c) := by
  refine (keeps_nextPair _ _ _).comp ?_
  split
  · exact Keeps.refl s
  · exact keeps_produce _ _

theorem keeps_cardExamined (s : State) (p : Profile) (card : Nat) (written : Bool) :
    Keeps s (s.cardExamined p card written) := by
  unfold State.cardExamined
  split
  · exact Keeps.refl s
  · split
    · dsimp only
      split
      · exact keeps_pairExamined _ _ _ _ _
      · exact keeps_seq s _
    · exact Keeps.refl s

theorem keeps_cardJudged (s : State) (p : Profile) (frame card : Nat) (x : Verdict) :
    Keeps s (s.cardJudged p frame card x) := by
  unfold State.cardJudged
  split
  · exact Keeps.refl s
  · split
    · exact Keeps.refl s
    · dsimp only
      split
      · exact (keeps_completeAdvance _).comp ((keeps_disch _ _).comp (keeps_produceAll _ _))
      · exact keeps_seq s _

theorem keeps_cardMarked (s : State) : Keeps s s.cardMarked := by
  unfold State.cardMarked
  split
  · exact (keeps_progressMarking _).comp (keeps_seq _ _)
  · exact Keeps.refl s

theorem keeps_endDrain (s : State) (p : Profile) (v : Advance) (d : Departure) : Keeps s (s.endDrain p v d) := by
  unfold State.endDrain
  dsimp only
  split
  · exact keeps_nextPair _ _ _
  · exact keeps_seq s _

/-! ## The Time Base (R111 to R116) -/

theorem keeps_startScan (s : State) : Keeps s s.startScan := by
  unfold State.startScan
  split
  · exact keeps_time s _
  · exact Keeps.refl s

theorem keeps_endScan (s : State) : Keeps s s.endScan := (keeps_time s _).trans (keeps_startScan _)

theorem keeps_finishScan (s : State) (p : Profile) (n : RunningScan) : Keeps s (s.finishScan p n) := by
  refine (keeps_endScan _).comp ?_
  split
  · exact Keeps.refl s
  · exact keeps_produce _ _

theorem keeps_cardScanned (s : State) (p : Profile) (slot : Fin 8) (frame card : Nat) (read : Word) :
    Keeps s (s.cardScanned p slot frame card read) := by
  unfold State.cardScanned
  split
  · exact Keeps.refl s
  · split
    · dsimp only
      split
      · exact keeps_finishScan _ _ _
      · exact keeps_time s _
    · exact Keeps.refl s

theorem keeps_expire (s : State) (i : Fin 8) : Keeps s (s.expire i) := by
  unfold State.expire
  split
  · split
    · exact (keeps_time s _).trans (keeps_startScan _)
    · exact Keeps.refl s
  · exact Keeps.refl s

theorem keeps_expiries (is : List (Fin 8)) (s : State) : Keeps s (is.foldl State.expire s) := by
  induction is generalizing s with
  | nil => exact Keeps.refl s
  | cons i is ih => exact (keeps_expire s i).trans (ih _)

theorem keeps_tick (s : State) : Keeps s s.tick := (keeps_expiries slotNumbers s).trans (keeps_time _ _)

theorem keeps_withdrawScan (s : State) : Keeps s s.withdrawScan := by
  unfold State.withdrawScan
  split
  · exact keeps_withdraw _ _
  · exact Keeps.refl s

/-! ## The commands of software (R130 to R141, R154, R158) -/

theorem keeps_updateLatch (s : State) : Keeps s s.updateLatch := by
  unfold State.updateLatch
  split
  · exact keeps_rep s _ id id id
  · exact Keeps.refl s

theorem keeps_produceResult (s : State) (o : CommandOutcome) : Keeps s (s.produceResult o) := keeps_cmd s _

theorem keeps_produceOutcome (s : State) (o : CommandOutcome) : Keeps s (s.produceOutcome o) := by
  unfold State.produceOutcome
  split <;> exact keeps_cmd s _

/-- START FRESH is taken only with H below its largest value (R137). -/
theorem keeps_takeStartFresh (s : State) (tag : Byte) (h : s.seq.head < Config.maxWord) :
    Keeps s (s.takeStartFresh tag) := by
  unfold State.takeStartFresh
  split
  · exact Keeps.refl s
  · refine (keeps_armDeadlines _ _).comp ((keeps_startViews _ _).comp ?_)
    refine Keeps.trans (t := { s with cmd := (s.beginStart tag).cmd }) (keeps_cmd s _) ?_
    exact ⟨rfl, id, id, id, id, id, id, fun _ => ⟨le_rfl, h⟩, id, id⟩

theorem keeps_takeStartCarry (s : State) (tag : Byte) : Keeps s (s.takeStartCarry tag) := by
  unfold State.takeStartCarry
  split
  · exact Keeps.refl s
  · exact (keeps_produceResult _ _).comp ((keeps_armDeadlines _ _).comp ((keeps_startViews _ _).comp (keeps_seq s _)))

theorem keeps_takeStop (s : State) (tag : Byte) : Keeps s (s.takeStop tag) := by
  unfold State.takeStop
  split
  · exact Keeps.refl s
  · refine (keeps_produceAll _ _).comp ?_
    refine (keeps_produceResult _ _).comp ?_
    refine (keeps_time _ _).comp ?_
    refine (keeps_clearViews _ _).comp ?_
    refine (keeps_dropViews _ _).comp ?_
    refine (keeps_dropViews _ _).comp ?_
    refine (keeps_tear _ _).comp ?_
    exact (keeps_withdrawScan _).comp (keeps_seq s _)

theorem keeps_takeRecover (s : State) (tag : Byte) : Keeps s (s.takeRecover tag) := by
  refine (keeps_produceAll _ _).comp ((keeps_produceResult _ _).comp ?_)
  exact (keeps_disch _ _).comp (keeps_seq s { s.seq with faultCause := none, tracking := .idle })

theorem keeps_takeQuiet (s : State) (tag : Byte) (n : Nat) (h : n ≤ Config.maxHalf) : Keeps s (s.takeQuiet tag n) :=
  (keeps_produceResult _ _).comp (keeps_rep s _ id (fun _ => h) id)

/-- A command that R130 takes has a parameter that is valid for it. -/
theorem rule_taken {s : State} {v : Word} {c : Command} (h : s.rule v = .taken c) :
    s.cmd.running = none ∧ commandOf (commandCode v) = some c ∧ c.allowed s.seq.tracking = true ∧
    s.validParameter c (commandParameter v).toNat = true := by
  unfold State.rule at h
  split at h
  · cases h
  · next hrunning =>
    unfold State.ruleIdle at h
    split at h
    · cases h
    · next c' hcode =>
      split at h
      · cases h
      · split at h
        · cases h
        · next hallowed =>
          split at h
          · cases h
          · next hvalid =>
            cases h
            exact ⟨hrunning, hcode, by simpa using hallowed, by simpa using hvalid⟩

theorem keeps_takeCommand (s : State) (v : Word) : Keeps s (s.takeCommand v) := by
  have hparam : (commandParameter v).toNat ≤ Config.maxHalf := Nat.le_of_lt_succ (commandParameter v).isLt
  unfold State.takeCommand
  split
  · exact Keeps.refl s
  · split
    · exact keeps_produceOutcome _ _
    · next c hrule =>
      obtain ⟨-, -, -, hvalid⟩ := rule_taken hrule
      cases c with
      | apply => exact keeps_cmd s _
      | start =>
        unfold State.runCommand
        dsimp only
        split
        · exact keeps_takeStartCarry _ _
        · next hcarry =>
          simp only [State.validParameter, Bool.or_eq_true, Bool.and_eq_true, decide_eq_true_eq, hcarry, false_and,
            or_false] at hvalid
          exact keeps_takeStartFresh _ _ hvalid.2
      | stop => exact keeps_takeStop _ _
      | recover => exact keeps_takeRecover _ _
      | quiet => exact keeps_takeQuiet _ _ _ hparam

/-- The read pointer moves between Rs and W alone (R154). -/
theorem keeps_readPointer (s : State) (v : Nat) (hlow : s.rep.readSeq ≤ v) (hhigh : v ≤ s.rep.writeSeq) :
    Keeps s { s with rep := { s.rep with readSeq := v } } := by
  refine ⟨rfl, id, id, id, id, id, id, id, id, ?_⟩
  rintro ⟨⟨hle, hmax, hfits⟩, hwriting, hactive, hroom⟩
  refine ⟨⟨hhigh, hmax, ?_⟩, hwriting, hactive, ?_⟩
  · dsimp only
    split at hfits <;> omega
  · intro w hw hnew
    obtain ⟨hseq, hlt, hfree⟩ := hroom w hw hnew
    refine ⟨hseq, hlt, ?_⟩
    unfold State.free at hfree ⊢
    dsimp only
    split at hfree <;> omega

theorem keeps_takeReadPointer (s : State) (p : Port) (v : Word) : Keeps s (s.takeReadPointer p v) := by
  unfold State.takeReadPointer
  split
  · exact Keeps.refl s
  · split
    · next h => exact (keeps_updateLatch _).comp (keeps_readPointer s _ h.1 h.2)
    · exact keeps_produce _ _

theorem keeps_takeQuietExtend (s : State) (v : Word) : Keeps s (s.takeQuietExtend v) := by
  unfold State.takeQuietExtend
  split
  · exact Keeps.refl s
  · exact keeps_rep s _ id (fun _ => Nat.min_le_right _ _) id

theorem keeps_handOver (s : State) (p : Port) (a : Nat) (v : Word) : Keeps s (s.handOver p a v) := by
  unfold State.handOver
  split
  · exact keeps_takeCommand _ _
  · split
    · exact keeps_takeReadPointer _ _ _
    · split
      · exact keeps_takeQuietExtend _ _
      · exact Keeps.refl s

end Sys2Proof.Machine
end

