-- ==== Sys2Proof/Proofs/StepKeeps.lean ====
section
/-! PROOF. The Group Unit's decisions and the ends of units of work keep the bounds. -/

namespace Sys2Proof.Machine

/-! ## The Group Unit (R64 to R73) -/

/-- A claim on a card that carries none, of a port that owns fewer than four, keeps the table's bounds. -/
theorem claimsBounded_append {s : State} {c : Claim} (hs : s.claimsBounded) (hcard : ∀ d ∈ s.claims, d.card? ≠ c.card?)
    (hroom : (claimsOf s.claims c.port).length < Config.claimsPerPort) :
    ({ s with claims := s.claims ++ [c] } : State).claimsBounded := by
  obtain ⟨hA, hB, hnodup⟩ := hs
  have hport : ∀ p, (claimsOf s.claims p).length ≤ Config.claimsPerPort →
      (claimsOf (s.claims ++ [c]) p).length ≤ Config.claimsPerPort := by
    intro p hp
    by_cases h : c.port = p
    · subst h
      simpa [claimsOf, List.filter_append] using hroom
    · simpa [claimsOf, List.filter_append, h] using hp
  refine ⟨hport .a hA, hport .b hB, ?_⟩
  rw [List.map_append, List.nodup_append]
  refine ⟨hnodup, List.nodup_singleton _, ?_⟩
  simp only [List.map_cons, List.map_nil, List.mem_singleton, List.mem_map]
  rintro _ ⟨d, hd, rfl⟩ _ rfl
  exact hcard d hd

/-- A card that the table does not find carries no claim. -/
theorem card?_ne_of_claimOn_none {s : State} {frame card : Nat} (h : s.claimOn frame card = none) :
    ∀ d ∈ s.claims, d.card? ≠ (frame, card) := by
  intro d hd heq
  have := List.find?_eq_none.mp h d hd
  simp_all [Claim.card?]

theorem length_claimsOf_le {s : State} (p : Port) (h : s.claimsBounded) :
    (claimsOf s.claims p).length ≤ Config.claimsPerPort := by
  obtain ⟨hA, hB, -⟩ := h
  cases p
  · exact hA
  · exact hB

/-- The eviction leaves room for one more claim of the port (R69). -/
theorem length_claimsOf_evicted {s : State} {p : Port} {old : Claim} (h : s.toEvict p = some old)
    (hs : s.claimsBounded) :
    (claimsOf (s.claims.filter fun c => !sameCard old c) p).length < Config.claimsPerPort := by
  have hmem : old ∈ claimsOf s.claims p := by
    unfold State.toEvict at h
    dsimp only at h
    split at h
    · exact List.mem_of_mem_head? h
    · cases h
  refine lt_of_lt_of_le ?_ (length_claimsOf_le p hs)
  have hcomm : claimsOf (s.claims.filter fun c => !sameCard old c) p =
      (claimsOf s.claims p).filter fun c => !sameCard old c := by
    simp only [claimsOf, List.filter_filter, Bool.and_comm]
  rw [hcomm]
  refine List.length_filter_lt_length_iff_exists.mpr ⟨old, hmem, ?_⟩
  simp [sameCard]

/-- A port that need not evict has room for one more claim (R69). -/
theorem length_claimsOf_lt {s : State} {p : Port} (h : s.toEvict p = none) :
    (claimsOf s.claims p).length < Config.claimsPerPort := by
  unfold State.toEvict at h
  dsimp only at h
  split at h
  · next hfull =>
    have hnone : (s.claims.filter fun c => decide (c.port = p)) = [] := List.head?_eq_none_iff.mp h
    simp [hnone, Config.claimsPerPort] at hfull
  · next hfull => exact Nat.lt_of_not_le hfull

theorem keeps_openGroup (s : State) (p : Port) (t : Target) (word : StagedWord)
    (h : s.claimOn t.frame t.card = none) : Keeps s (s.openGroup p t word) := by
  have hcard := card?_ne_of_claimOn_none h
  unfold State.openGroup
  dsimp only
  split
  · next old hold =>
    have hk : Keeps s ((s.tear (sameCard old)).produce (stageTorn old tornEvicted (s.claimWords old))) :=
      (keeps_tear _ _).trans (keeps_produce _ _)
    refine { hk with claims := fun hs => ?_ }
    exact claimsBounded_append (hk.claims hs) (fun d hd => hcard d (List.mem_of_mem_filter hd))
      (length_claimsOf_evicted hold hs)
  · next hroom =>
    exact keeps_claims s _ fun hs => claimsBounded_append hs hcard (length_claimsOf_lt hroom)

/-- Staging changes a claim's words alone. -/
theorem keeps_restage (s : State) (f : Claim → Claim) (hport : ∀ c, (f c).port = c.port)
    (hcard : ∀ c, (f c).card? = c.card?) : Keeps s { s with claims := s.claims.map f } := by
  refine keeps_claims s _ ?_
  have hlen : ∀ p, (claimsOf (s.claims.map f) p).length = (claimsOf s.claims p).length := by
    intro p
    rw [claimsOf, List.filter_map, List.length_map]
    simp only [Function.comp_def, hport, claimsOf]
  have hmap : (s.claims.map f).map Claim.card? = s.claims.map Claim.card? := by
    rw [List.map_map]
    exact List.map_congr_left fun c _ => hcard c
  rintro ⟨hA, hB, hnodup⟩
  exact ⟨(hlen .a).trans_le hA, (hlen .b).trans_le hB, by rw [hmap]; exact hnodup⟩

theorem keeps_stageInto (s : State) (x : SlotSettings) (c : Claim) (t : Target) (word : StagedWord) :
    Keeps s (s.stageInto x c t word).1 := by
  unfold State.stageInto
  dsimp only
  split
  · exact keeps_tear _ _
  · refine keeps_restage s _ (fun d => ?_) (fun d => ?_) <;> split <;> rfl

theorem keeps_decideOwn (s : State) (p : Port) (x : SlotSettings) (isStream : Bool) (t : Target) (word : StagedWord) :
    Keeps s (s.decideOwn p x isStream t word).1 := by
  unfold State.decideOwn
  dsimp only
  split
  · exact Keeps.refl s
  · split
    · exact keeps_produce _ _
    · split
      · exact Keeps.refl s
      · split
        · exact keeps_stageInto _ _ _ _ _
        · next h => exact keeps_openGroup _ _ _ _ h

theorem keeps_decideEntry (s : State) (p : Port) (x : SlotSettings) (isStream : Bool) (t : Target) (word : StagedWord) :
    Keeps s (s.decideEntry p x isStream t word).1 := by
  unfold State.decideEntry
  split
  · split
    · exact keeps_decideOwn _ _ _ _ _ _
    · split
      · exact (keeps_decideOwn _ _ _ _ _ _).comp ((keeps_produce _ _).comp (keeps_tear _ _))
      · exact keeps_produce _ _
  · exact keeps_decideOwn _ _ _ _ _ _

theorem arb_stageInto (s : State) (x : SlotSettings) (c : Claim) (t : Target) (word : StagedWord) :
    (s.stageInto x c t word).1.arb = s.arb := by
  unfold State.stageInto
  dsimp only
  split <;> rfl

theorem arb_openGroup (s : State) (p : Port) (t : Target) (word : StagedWord) : (s.openGroup p t word).arb = s.arb := by
  unfold State.openGroup
  dsimp only
  split <;> rfl

theorem arb_decideOwn (s : State) (p : Port) (x : SlotSettings) (isStream : Bool) (t : Target) (word : StagedWord) :
    (s.decideOwn p x isStream t word).1.arb = s.arb := by
  unfold State.decideOwn
  dsimp only
  split
  · rfl
  · split
    · rfl
    · split
      · rfl
      · split
        · exact arb_stageInto _ _ _ _ _
        · exact arb_openGroup _ _ _ _

/-- The Group Unit's decision makes no request and takes no hold. -/
theorem arb_decideEntry (s : State) (p : Port) (x : SlotSettings) (isStream : Bool) (t : Target) (word : StagedWord) :
    (s.decideEntry p x isStream t word).1.arb = s.arb := by
  unfold State.decideEntry
  split
  · split
    · exact arb_decideOwn _ _ _ _ _ _
    · split
      · exact arb_decideOwn _ _ _ _ _ _
      · rfl
  · exact arb_decideOwn _ _ _ _ _ _

/-! ## The accesses (R88) -/

theorem wf_checkAccesses (b : Bus) (a : Nat) (change : Word → Option Word) (h : b.mem.wf = true) :
    (checkAccesses b a change).2.mem.wf = true := by
  have hread : (b.read a).2.mem.wf = true := by
    rw [Bus.read, answer_mem]
    exact h
  unfold checkAccesses
  dsimp only
  split
  · exact wf_busWrite _ _ _ hread
  · exact hread

theorem wf_writeAccesses (b : Bus) (a : Nat) (data : Word) (enables : Enables) (h : b.mem.wf = true) :
    (writeAccesses b a data enables).2.mem.wf = true := by
  have hread : (b.read a).2.mem.wf = true := by
    rw [Bus.read, answer_mem]
    exact h
  unfold writeAccesses
  split
  · exact wf_busWrite _ _ _ h
  · exact wf_busWrite _ _ _ hread

theorem wf_passAccesses (b : Bus) (p : Profile) (slot : Fin 8) (frame card : Nat) (carried : Staged) (h : b.mem.wf = true) :
    (passAccesses b p slot frame card carried).2.2.mem.wf = true := by
  have hreads : (passReads b p frame card carried).2.mem.wf = true := by
    rw [passReads_mem]
    exact h
  unfold passAccesses
  dsimp only
  split
  · exact hreads
  · exact wf_busWrites _ _ hreads

theorem keeps_writes (s : State) (ws : List (Nat × Word)) (error : Option Nat) :
    Keeps s { s with mem := ((Bus.start s.mem error).writes ws).mem } := keeps_mem s _ (wf_busWrites (Bus.start _ error) _)

/-! ## The ends of units of work (R88 to R91) -/

theorem keeps_ownUnit (s : State) (r : Requester) (b : Bus) (ok : State → State)
    (hmem : s.mem.wf = true → b.mem.wf = true) (hok : ∀ t, Keeps t (ok t)) : Keeps s (s.ownUnit r b ok) := by
  unfold State.ownUnit
  refine (keeps_mem s b.mem hmem).trans ?_
  dsimp only
  split
  · exact keeps_fault _ _ _
  · exact hok _

theorem keeps_finishInit (s : State) (p : Profile) (frame card : Nat) (error : Option Nat) :
    Keeps s (s.finishInit p frame card error) :=
  keeps_ownUnit s _ _ _ (wf_busWrites (Bus.start _ error) _) fun t => keeps_addToInitSet t _ _

theorem keeps_finishScanRead (s : State) (p : Profile) (slot : Fin 8) (frame card : Nat) (error : Option Nat) :
    Keeps s (s.finishScanRead p slot frame card error) := by
  unfold State.finishScanRead
  dsimp only
  split
  · exact (keeps_fault _ _ _).comp (keeps_endScan s)
  · exact keeps_cardScanned _ _ _ _ _ _

theorem keeps_statusDone (s : State) (n : Nat) : Keeps s { s with rep := s.rep.statusDone n } := keeps_rep s _ id id id

theorem keeps_finishStatus (s : State) (n : Nat) (v : Word) (error : Option Nat) : Keeps s (s.finishStatus n v error) := by
  have hk : Keeps s { s with
      mem := ((Bus.start s.mem error).write (s.statusAddress n) v).mem, rep := s.rep.statusDone n } :=
    (keeps_mem s _ (wf_busWrite (Bus.start _ error) _ _)).trans (keeps_statusDone _ n)
  unfold State.finishStatus
  refine hk.trans ?_
  dsimp only
  split
  · exact keeps_fault _ _ _
  · exact Keeps.refl _

theorem keeps_endApply (s : State) (tag : Byte) (code : OutcomeCode) (detail : BitVec 16) :
    Keeps s (s.endApply tag code detail) := keeps_cmd s _

theorem keeps_profileWordLost (s : State) (n : Nat) : Keeps s (s.profileWordLost n) := by
  unfold State.profileWordLost
  split
  · exact keeps_endApply _ _ _ _
  · exact Keeps.refl s
  · exact Keeps.refl s

theorem keeps_profileWordRead (s : State) (v : Word) : Keeps s (s.profileWordRead v) := by
  unfold State.profileWordRead
  split
  · exact keeps_cmd s _
  · exact Keeps.refl s
  · exact Keeps.refl s

theorem keeps_finishProfileRead (s : State) (n : Nat) (error : Option Nat) : Keeps s (s.finishProfileRead n error) := by
  unfold State.finishProfileRead
  dsimp only
  split
  · exact (keeps_fault _ _ _).comp (keeps_profileWordLost s _)
  · exact keeps_profileWordRead _ _

theorem keeps_initFailed (s : State) (p : Port) (purpose : InitFor) (a : Nat) : Keeps s (s.initFailed p purpose a).1 := by
  cases purpose with
  | gone => exact Keeps.refl s
  | read => exact keeps_answerRead _ _ _
  | entry =>
    unfold State.initFailed
    dsimp only
    split
    · exact keeps_removeHead _ _
    · exact keeps_removeHead _ _
    · exact Keeps.refl s
    · exact Keeps.refl s
    · exact Keeps.refl s

theorem keeps_finishDemandInit (s : State) (pr : Profile) (p : Port) (frame card : Nat) (purpose : InitFor)
    (error : Option Nat) : Keeps s (s.finishDemandInit pr p frame card purpose error) := by
  unfold State.finishDemandInit
  refine (keeps_writes s (initWrites pr frame card) error).trans ?_
  dsimp only
  split
  · exact (keeps_fault _ _ _).comp (keeps_initFailed _ _ _ _)
  · exact keeps_addToInitSet _ _ _

theorem keeps_finishWrite (s : State) (p : Port) (a : Nat) (data : Word) (enables : Enables) (isProfile : Bool)
    (error : Option Nat) : Keeps s (s.finishWrite p a data enables isProfile error) := by
  unfold State.finishWrite
  refine Keeps.trans (keeps_mem s _ (wf_writeAccesses (Bus.start s.mem error) a data enables)) ?_
  refine (keeps_removeHead _ p).trans ?_
  dsimp only
  split
  · exact keeps_produce _ _
  · split
    · exact keeps_handOver _ _ _ _
    · exact Keeps.refl _

theorem keeps_finishPlainRead (s : State) (p : Port) (a : Nat) (error : Option Nat) :
    Keeps s (s.finishPlainRead p a error) := by
  unfold State.finishPlainRead
  dsimp only
  split <;> exact keeps_answerRead _ _ _

theorem keeps_finishViewRead (s : State) (pr : Profile) (p : Port) (t : Target) (staged : Option StagedWord)
    (error : Option Nat) : Keeps s (s.finishViewRead pr p t staged error) := by
  unfold State.finishViewRead
  dsimp only
  split <;> exact keeps_answerRead _ _ _

theorem keeps_makePass (s : State) (p : Port) (slot : Fin 8) (frame card : Nat) (carried : Staged) (data : Word)
    (error : Option Nat) : Keeps s (s.makePass p slot frame card carried data error) := by
  unfold State.makePass
  split
  · exact Keeps.refl s
  · exact (keeps_foldl_produce _ _).comp (keeps_mem s _ (wf_passAccesses (Bus.start _ error) _ _ _ _ _))

theorem keeps_finishWith (s : State) (f : Profile → State) (h : ∀ p, Keeps s (f p)) : Keeps s (s.finishWith f) := by
  unfold State.finishWith
  split
  · exact h _
  · exact Keeps.refl s

/-- The end of every unit of work but a record write, with the Memory Port already free. -/
theorem keeps_finishWork (s : State) (w : Work) (error : Option Nat) (h : w ≠ .record) :
    Keeps s (s.finishWork w error) := by
  cases w with
  | cardInit f c => exact keeps_finishWith s _ fun p => keeps_finishInit s p f c error
  | cardCheck i f c =>
    exact keeps_finishWith s _ fun p => keeps_ownUnit s _ _ _ (wf_checkAccesses (Bus.start _ error) _ _) fun t => keeps_cardExamined t _ _ _
  | judge f c =>
    exact keeps_finishWith s _ fun p => keeps_ownUnit s _ _ _ (wf_checkAccesses (Bus.start _ error) _ _) fun t => keeps_cardJudged t _ _ _ _
  | lateRead i f c => exact keeps_finishWith s _ fun p => keeps_finishScanRead s p i f c error
  | markInit f c => exact keeps_finishWith s _ fun p => keeps_finishInit s p f c error
  | markCheck f c =>
    exact keeps_finishWith s _ fun p => keeps_ownUnit s _ _ _ (wf_checkAccesses (Bus.start _ error) _ _) keeps_cardMarked
  | record => exact absurd rfl h
  | status n v => exact keeps_finishStatus s n v error
  | readPointer => exact keeps_ownUnit s _ _ _ (wf_busWrite (Bus.start _ error) _ _) Keeps.refl
  | outcome o => exact keeps_ownUnit s _ _ _ (wf_busWrite (Bus.start _ error) _ _) Keeps.refl
  | profileRead n => exact keeps_finishProfileRead s n error
  | demandInit q f c purpose => exact keeps_finishWith s _ fun p => keeps_finishDemandInit s p q f c purpose error
  | pass q i f c carried data => exact (keeps_makePass _ _ _ _ _ _ _ _).comp (keeps_removeHead s q)
  | write q a data enables isProfile => exact keeps_finishWrite s q a data enables isProfile error
  | plainRead q a => exact keeps_finishPlainRead s q a error
  | viewRead q t staged => exact keeps_finishWith s _ fun p => keeps_finishViewRead s p q t staged error

/-! ## The hold (R88) -/

theorem waits_hold {s : State} (h : Option Work) (hs : s.waitsBounded) :
    ({ s with arb := { s.arb with hold := h } } : State).waitsBounded := by
  have hdesk : ∀ r, ({ s.arb with hold := h } : Arbiter).desk r = s.arb.desk r := by intro r; cases r <;> rfl
  intro r
  simpa only [Arbiter.servedBefore, hdesk] using hs r

theorem keeps_holds (s : State) (w : Work) (hfree : s.arb.hold = none) (hw : w ≠ .record) : Keeps s (s.holds w) :=
  keeps_arb s _ (waits_hold _) (by simp [hfree, hw])

/-- The end of a hold, when no record is being written. -/
theorem keeps_release (s : State) (h : s.arb.hold = some .record → ¬s.recordHasRoom) : Keeps s s.release := by
  refine ⟨rfl, id, id, id, id, waits_hold none, id, id, id, ?_⟩
  rintro ⟨hseq, hroom⟩
  have hold : s.arb.hold ≠ some .record := fun hold => h hold hroom
  obtain ⟨hwriting, hrest⟩ := hroom
  refine ⟨hseq, ?_, hrest⟩
  have hnone : s.rep.writing.isSome ≠ true := fun hw => hold (hwriting.mp hw)
  simpa [State.release] using hnone

/-- The end of a record write: the report leaves the queue, and W rises by one when the record is admitted (R153). -/
theorem keeps_recordEnd (s : State) (m : Memory) (u : ReportUnit) (hmem : s.mem.wf = true → m.wf = true)
    (hqueue : u.queue.length ≤ s.rep.queue.length) (hquiet : u.quiet = s.rep.quiet)
    (hdropped : s.rep.dropped ≤ Config.maxWord → u.dropped ≤ Config.maxWord) (hread : u.readSeq = s.rep.readSeq)
    (hwriting : u.writing = none)
    (hwrite : s.recordHasRoom →
      u.writeSeq = s.rep.writeSeq ∨ (u.writeSeq = s.rep.writeSeq + 1 ∧ s.rep.writeSeq < Config.maxWord ∧ 0 < s.free)) :
    Keeps s { s.release with mem := m, rep := u } := by
  refine ⟨rfl, hmem, id, hqueue.trans, id, waits_hold none, ?_, id, id, ?_⟩
  · rintro ⟨hfaults, hq, hd, hview⟩
    exact ⟨hfaults, hquiet.trans_le hq, hdropped hd, hview⟩
  · rintro ⟨⟨hle, hmax, hfits⟩, hroom⟩
    refine ⟨?_, ?_, ?_, ?_⟩
    · unfold State.sequencesOrdered
      dsimp only [State.release]
      rw [hread]
      obtain hw | ⟨hw, hlt, hfree⟩ := hwrite hroom
      · rw [hw]
        exact ⟨hle, hmax, hfits⟩
      · rw [hw]
        refine ⟨hle.trans (Nat.le_succ _), hlt, ?_⟩
        unfold State.free at hfree
        split at hfree
        · next p hp =>
          simp only [hp] at hfits ⊢
          omega
        · exact absurd hfree (by decide)
    · simp [hwriting, State.release]
    · simp [hwriting]
    · intro w hw
      rw [hwriting] at hw
      cases hw

theorem length_leave (u : ReportUnit) (w : RecordWrite) : (u.leave w).queue.length ≤ u.queue.length := by
  simp only [ReportUnit.leave]
  split
  · simp
  · exact le_rfl

theorem keeps_recordWritten (s : State) (p : Profile) (w : RecordWrite) (m : Memory) (hmem : s.mem.wf = true → m.wf = true)
    (hw : s.rep.writing = some w) : Keeps s (({ s.release with mem := m } : State).recordWritten p w) := by
  unfold State.recordWritten
  split
  · exact keeps_recordEnd s m (s.rep.leave w) hmem (length_leave _ _) rfl id rfl rfl fun _ => .inl rfl
  · next hnew =>
    refine (keeps_updateLatch _).comp ?_
    refine keeps_recordEnd s m { (s.rep.leave w).mark p.irqThreshold w with writeSeq := s.rep.writeSeq + 1 } hmem
      (length_leave _ _) rfl id rfl rfl ?_
    rintro ⟨-, -, hroom⟩
    obtain ⟨-, hlt, hfree⟩ := hroom w hw (by simpa using hnew)
    exact .inr ⟨rfl, hlt, hfree⟩

theorem keeps_recordLost (s : State) (w : RecordWrite) (m : Memory) (hmem : s.mem.wf = true → m.wf = true) :
    Keeps s (({ s.release with mem := m } : State).recordLost w) := by
  refine keeps_recordEnd s m _ hmem ?_ ?_ ?_ ?_ ?_ ?_
  · split
    · exact length_leave _ _
    · exact length_leave _ _
  · split <;> rfl
  · split
    · exact fun _ => addUpTo_le _ _ _
    · exact id
  · split <;> rfl
  · split <;> rfl
  · refine fun _ => .inl ?_
    split <;> rfl

theorem keeps_finishRecord (s : State) (hold : s.arb.hold = some .record) (error : Option Nat) :
    Keeps s (s.release.finishWork .record error) := by
  unfold State.finishWork State.finishWith
  dsimp only
  split
  · next p hp =>
    unfold State.finishRecord
    split
    · next hw =>
      refine keeps_release s fun _ hroom => ?_
      obtain ⟨hwriting, -⟩ := hroom
      have := hwriting.mpr hold
      rw [show s.rep.writing = none from hw] at this
      cases this
    · next w hw =>
      dsimp only
      split
      · exact (keeps_fault _ _ _).comp (keeps_recordLost s w _ (wf_busWrites (Bus.start _ error) _))
      · exact keeps_recordWritten s p w _ (wf_busWrites (Bus.start _ error) _) hw
  · next hp =>
    refine keeps_release s fun _ hroom => ?_
    obtain ⟨hwriting, hactive, -⟩ := hroom
    have := hactive (hwriting.mpr hold)
    rw [show s.cmd.profile = none from hp] at this
    cases this

/-- The end of the unit of work under its hold. -/
theorem keeps_endHold (s : State) (error : Option Nat) : Keeps s (s.endHold error) := by
  unfold State.endHold
  split
  · next w hold =>
    by_cases hw : w = .record
    · subst hw
      exact keeps_finishRecord s hold error
    · refine (keeps_release s fun h => ?_).trans (keeps_finishWork _ w error hw)
      exact absurd (Option.some.inj (hold.symm.trans h)) hw
  · exact Keeps.refl s

end Sys2Proof.Machine
end

