-- ==== Sys2Proof/Proofs/ChecksAndGrants.lean ====
section
/-! PROOF. The checks of APPLY leave a profile that meets them (R134), and a grant keeps the order of the arbiter's counts
(R87). -/

namespace Sys2Proof.Machine

/-! ## The checks of APPLY (R134, R135) -/

theorem firstFailure_none {cs : List (Nat × Bool)} (h : firstFailure cs = none) : ∀ c ∈ cs, c.2 = true := by
  induction cs with
  | nil => exact fun _ hc => nomatch hc
  | cons c cs ih =>
    obtain ⟨n, ok⟩ := c
    cases ok with
    | false => cases h
    | true => exact List.forall_mem_cons.mpr ⟨rfl, ih h⟩

theorem firstSlotFailure_none {block : Nat} {ws : List Word} {is : List (Fin 8)}
    (h : firstSlotFailure block ws is = none) :
    ∀ i ∈ is, (slotSettingsOf ws i).enabled = true → firstFailure (slotChecks block ws i) = none := by
  induction is with
  | nil => exact fun _ hi => nomatch hi
  | cons j is ih =>
    unfold firstSlotFailure at h
    refine List.forall_mem_cons.mpr ⟨fun henabled => ?_, ?_⟩
    · rw [if_pos henabled] at h
      split at h
      · cases h
      · assumption
    · split at h
      · split at h
        · cases h
        · exact ih h
      · exact ih h

/-- With every check passed, checks 1 to 13 have passed and checks 14 to 20 for each enabled slot. -/
theorem profileFailure_none {block : Nat} {ws : List Word} (h : profileFailure block ws = none) :
    firstFailure (lineChecks block ws) = none ∧
    ∀ i, (slotSettingsOf ws i).enabled = true → firstFailure (slotChecks block ws i) = none := by
  unfold profileFailure at h
  split at h
  · cases h
  · next hline => exact ⟨hline, fun i => firstSlotFailure_none h i (mem_slotNumbers i)⟩

theorem between_iff (low high n : Nat) : between low high n = true ↔ low ≤ n ∧ n ≤ high := by
  simp [between]

@[simp] theorem slots_profileOf (ws : List Word) (i : Fin 8) : (profileOf ws).slots.get i = slotSettingsOf ws i :=
  get_make _ i

/-- The level of a kind is its field of the block (11.4). -/
theorem level_profileOf (ws : List Word) (k : Fin 16) : (profileOf ws).level (k.val + 1) = levelField ws (k.val + 1) := by
  simp [Profile.level, profileOf]

theorem nibble_toNat (n : Nat) (h : n < 16) : (nibble n).toNat = n := by
  simp [nibble, Nat.mod_eq_of_lt h]

theorem slotChecked_of_checks {block : Nat} {ws : List Word} {i : Fin 8}
    (h : firstFailure (slotChecks block ws i) = none) : (profileOf ws).slotChecked block i := by
  have hchecks := firstFailure_none h
  simp only [slotChecks, List.forall_mem_cons, Bool.and_eq_true, decide_eq_true_eq, Bool.or_eq_true,
    List.all_eq_true, slots_profileOf] at hchecks
  obtain ⟨hoffset, hbase, hwindow, -, ⟨⟨hexit, hrank⟩, hcause⟩, ⟨-, hlimits⟩, ⟨⟨⟨hblock, hring⟩, hreport⟩, hothers⟩, -⟩ := hchecks
  obtain ⟨⟨⟨⟨⟨hlane, hlanes⟩, hlast⟩, hrow⟩, hrows⟩, hbottom⟩ := hwindow
  have hmiss : (slotSettingsOf ws i).missCause.toNat = byteOf (slotWord ws i 7) 2 := by
    refine nibble_toNat _ ?_
    simp only [between_iff] at hcause
    omega
  unfold Profile.slotChecked
  simp only [slots_profileOf]
  refine ⟨hoffset, hbase, hlane, hlanes, hlast, hrow, hrows, hbottom, ?rank, ?cause, hlimits, hblock, hring, hreport, ?apart⟩
  case rank =>
    show (if byteOf (slotWord ws i 7) 0 = 1 then ExitCondition.rank (byteOf (slotWord ws i 7) 1)
      else if byteOf (slotWord ws i 7) 0 = 2 then .mark else .none).rankDefined = true
    split
    · next hone => simpa [ExitCondition.rankDefined, hone] using hrank
    · split <;> rfl
  case cause =>
    rw [hmiss, Bool.or_eq_true]
    exact hcause
  case apart =>
    intro j hj henabled
    simpa [Fin.lt_def.mp hj, henabled] using hothers j (mem_slotNumbers j)

/-- A candidate that passes the twenty checks is a profile that meets them (R134). -/
theorem checked_profileOf {block : Nat} {ws : List Word} (h : profileFailure block ws = none) :
    (profileOf ws).checked block := by
  obtain ⟨hline, hslots⟩ := profileFailure_none h
  have hchecks := firstFailure_none hline
  simp only [lineChecks, List.forall_mem_cons, Bool.and_eq_true, decide_eq_true_eq, Bool.or_eq_true,
    List.all_eq_true, between_iff] at hchecks
  obtain ⟨hlanes, hrows, hdepth, ⟨hring, hringEnd⟩, hdischarge, hgood, ⟨⟨hreport, hcapacity⟩, hreportEnd⟩, ⟨hlevels, hfault⟩,
    hirq, ⟨⟨hon, hmarks⟩, hoff⟩, hdivider, -, ⟨⟨hring', hreport'⟩, hapart⟩, -⟩ := hchecks
  refine ⟨hlanes.1, hlanes.2, hrows.1, hrows.2, hdepth.1, hdepth.2, hring, hringEnd, hdischarge.1, by omega, ?good, hreport,
    hcapacity.1, hcapacity.2, hreportEnd, ?levels, ?fault, hirq.1, hirq.2, hon, hmarks, hoff, hdivider.1, hdivider.2,
    hring', hreport', hapart, ?slots⟩
  case good =>
    refine hgood.imp (fun h => ?_) (fun h => ?_)
    · exact congrArg nibble h
    · exact congrArg nibble h
  case levels =>
    intro k
    rw [level_profileOf]
    exact hlevels _ (List.mem_map.mpr ⟨k.val, List.mem_range.mpr k.isLt, rfl⟩)
  case fault => exact (level_profileOf ws 0).trans hfault
  case slots =>
    intro i henabled
    rw [slots_profileOf] at henabled
    exact slotChecked_of_checks (hslots i henabled)

theorem keeps_applySucceeds (s : State) (tag : Byte) (p : Profile) (h : p.checked s.blockBase) :
    Keeps s (s.applySucceeds tag p) := by
  refine (keeps_produceAll _ _).comp ?_
  have hviews : Keeps s (s.endApply tag .done 0).resetViews := (keeps_resetViews _).comp (keeps_endApply s tag .done 0)
  refine ⟨rfl, hviews.memory, hviews.queues, hviews.reports, hviews.claims, hviews.waits, hviews.counters, hviews.frames,
    ?_, ?_⟩
  · rintro - q hq
    cases hq
    exact h
  · rintro ⟨-, hwriting, -⟩
    have hone : 1 ≤ Config.maxWord := by decide
    refine ⟨⟨le_rfl, hone, Nat.le_add_right 1 _⟩, ?_, fun _ => rfl, ?_⟩
    · have hsome : (s.rep.writing.map RecordWrite.supersede).isSome = s.rep.writing.isSome := Option.isSome_map
      exact (Bool.coe_iff_coe.mpr hsome).trans hwriting
    · intro w hw hnew
      obtain ⟨w', -, rfl⟩ := Option.map_eq_some_iff.mp hw
      cases hnew

theorem keeps_checkProfile (s : State) (tag : Byte) : Keeps s (s.checkProfile tag) := by
  unfold State.checkProfile
  split
  · exact keeps_endApply _ _ _ _
  · next h => exact keeps_applySucceeds s tag _ (checked_profileOf h)

theorem keeps_makeChecks (s : State) : Keeps s s.makeChecks := by
  unfold State.makeChecks
  split
  · exact keeps_checkProfile _ _
  · exact Keeps.refl s

/-! ## Grants (R87) -/

theorem number_lt_of_before {r g : Requester} : g ∈ requestersBefore r ↔ g.number < r.number := by
  cases r <;> cases g <;> decide

theorem mem_requesterOrder (r : Requester) : r ∈ requesterOrder := by cases r <;> decide

/-- The first requester in requester order that meets a condition has none before it that does. -/
theorem find?_requesterOrder {P : Requester → Bool} {r q : Requester} (h : requesterOrder.find? P = some r)
    (hq : q.number < r.number) : P q = false := by
  obtain ⟨-, before, behind, hsplit, hbefore⟩ := List.find?_eq_some_iff_append.mp h
  have hsorted : requesterOrder.Pairwise fun a b => a.number < b.number := by decide
  rw [hsplit, List.pairwise_append, List.pairwise_cons] at hsorted
  obtain ⟨-, ⟨hbehind, -⟩, -⟩ := hsorted
  have hmem := mem_requesterOrder q
  rw [hsplit, List.mem_append, List.mem_cons] at hmem
  obtain hmem | rfl | hmem := hmem
  · simpa using hbefore q hmem
  · exact absurd hq (lt_irrefl _)
  · exact absurd hq (hbehind q hmem).not_gt

/-- The requester chosen waits; either its count stands at 8 or more and no waiting one before it has such a count, or no
waiting one has and none before it waits (R87). -/
theorem choose_some {x : Arbiter} {r : Requester} (h : x.choose = some r) :
    x.waits r = true ∧
    ((8 ≤ (x.desk r).passed ∧ ∀ q, q.number < r.number → x.waits q = true → (x.desk q).passed < 8) ∨
     ((∀ q, x.waits q = true → (x.desk q).passed < 8) ∧ ∀ q, q.number < r.number → x.waits q = false)) := by
  unfold Arbiter.choose at h
  split at h
  · next r' hfind =>
    cases h
    have hr := List.find?_some hfind
    simp only [Bool.and_eq_true, decide_eq_true_eq] at hr
    refine ⟨hr.1, .inl ⟨hr.2, fun q hq hw => ?_⟩⟩
    have hlow := find?_requesterOrder hfind hq
    simp only [hw, Bool.true_and, decide_eq_false_iff_not] at hlow
    exact Nat.lt_of_not_le hlow
  · next hnone =>
    refine ⟨List.find?_some h, .inr ⟨fun q hw => ?_, fun q hq => find?_requesterOrder h hq⟩⟩
    have hlow := List.find?_eq_none.mp hnone q (mem_requesterOrder q)
    simp only [hw, Bool.true_and, decide_eq_true_eq] at hlow
    exact Nat.lt_of_not_le hlow

/-- No more than four requesters stand before one. -/
theorem servedBefore_le_four (x : Arbiter) (r : Requester) : x.servedBefore r ≤ 4 :=
  (List.length_filter_le _ _).trans (by cases r <;> decide)

/-- A requester that is chosen over one whose count it finds at 8 or more is served before it from then on. -/
theorem servedBefore_grant {x : Arbiter} {r g : Requester} (hbefore : g.number < r.number)
    (hpassed : 8 ≤ (x.desk r).passed) (hwaits : x.waits r = true) (hne : r ≠ g)
    (hnot : ¬(x.desk g).passed + 9 ≤ (x.desk r).passed) :
    x.servedBefore r + 1 ≤ (x.grant g).servedBefore r := by
  have hr : ((x.grant g).desk r).passed = (x.desk r).passed + 1 := by
    rw [grant_desk, Arbiter.granted, if_neg hne, if_pos hwaits]
  have hmono : ∀ q, (x.desk q).passed + 9 ≤ (x.desk r).passed →
      ((x.grant g).desk q).passed + 9 ≤ ((x.grant g).desk r).passed := by
    intro q hq
    rw [hr, grant_desk, Arbiter.granted]
    split
    · simp only [Desk.reset]
      omega
    · split
      · dsimp only
        omega
      · omega
  have hg : ((x.grant g).desk g).passed + 9 ≤ ((x.grant g).desk r).passed := by
    rw [hr, grant_desk, Arbiter.granted, if_pos rfl]
    simp only [Desk.reset]
    omega
  have hsub := List.monotone_filter_right (requestersBefore r)
    (p := fun q => decide ((x.desk q).passed + 9 ≤ (x.desk r).passed))
    (q := fun q => decide (((x.grant g).desk q).passed + 9 ≤ ((x.grant g).desk r).passed)) fun q hq => by
      rw [decide_eq_true_eq] at hq ⊢
      exact hmono q hq
  refine lt_of_le_of_ne hsub.length_le fun heq => ?_
  have hlists := hsub.eq_of_length heq
  have hmem : g ∈ (requestersBefore r).filter
      (fun q => decide (((x.grant g).desk q).passed + 9 ≤ ((x.grant g).desk r).passed)) :=
    List.mem_filter.mpr ⟨number_lt_of_before.mpr hbefore, decide_eq_true hg⟩
  rw [← hlists, List.mem_filter, decide_eq_true_eq] at hmem
  exact hnot hmem.2

/-- A requester that is not the one granted keeps its request. -/
theorem request_grant {x : Arbiter} {g r : Requester} (hne : r ≠ g) : ((x.grant g).desk r).request = (x.desk r).request := by
  rw [grant_desk, Arbiter.granted, if_neg hne]
  split <;> rfl

/-- A grant to the arbiter's choice keeps the order of the counts (R87). -/
theorem waits_grantTo {s : State} {g : Requester} (hchoose : s.arb.choose = some g) (h : s.waitsBounded) :
    (s.grantTo g).waitsBounded := by
  have hnone : ∀ q, s.arb.waits q = false → (s.arb.desk q).passed = 0 :=
    fun q hq => (h q).1 (by simpa [Arbiter.waits] using hq)
  intro r
  show (((s.arb.grant g).desk r).request = none → ((s.arb.grant g).desk r).passed = 0) ∧
    ((s.arb.grant g).desk r).passed ≤ Config.passLimit + (s.arb.grant g).servedBefore r
  by_cases hr : r = g
  · subst hr
    rw [grant_desk, Arbiter.granted, if_pos rfl]
    exact ⟨fun _ => rfl, Nat.zero_le _⟩
  · obtain ⟨hrequest, hle⟩ := h r
    by_cases hw : s.arb.waits r = true
    · have hdesk : ((s.arb.grant g).desk r).passed = (s.arb.desk r).passed + 1 := by
        rw [grant_desk, Arbiter.granted, if_neg hr, if_pos hw]
      refine ⟨fun hno => ?_, ?_⟩
      · rw [request_grant hr] at hno
        rw [Arbiter.waits, hno] at hw
        cases hw
      · rw [hdesk]
        have hlimit : Config.passLimit = 8 := rfl
        by_cases hhigh : 8 ≤ (s.arb.desk r).passed
        · obtain ⟨-, ⟨hpassed, hbefore⟩ | ⟨hlow, -⟩⟩ := choose_some hchoose
          · have hfour := servedBefore_le_four s.arb r
            have hfirst : g.number < r.number := by
              by_contra hnot
              have hne : r.number ≠ g.number := fun heq => hr (by revert heq; cases r <;> cases g <;> decide)
              exact absurd (hbefore r (by omega) hw) (by omega)
            have hserved := servedBefore_grant hfirst hhigh hw hr (by omega)
            omega
          · exact absurd (hlow r hw) (by omega)
        · omega
    · have hw : s.arb.waits r = false := by simpa using hw
      have hdesk : (s.arb.grant g).desk r = s.arb.desk r := by
        rw [grant_desk, Arbiter.granted, if_neg hr, if_neg (by simp [hw])]
      rw [hdesk]
      exact ⟨hrequest, by rw [hnone r hw]; exact Nat.zero_le _⟩

theorem keeps_grantTo {s : State} {g : Requester} (h : s.arb.choose = some g) : Keeps s (s.grantTo g) :=
  keeps_arb s _ (waits_grantTo h) Iff.rfl

/-- A grant with its unit of work under its hold. -/
theorem keeps_grantTo_holds {s : State} {g : Requester} {q : Request} (h : s.canGrant g q = true) (w : Work)
    (hw : w ≠ .record) : Keeps s ((s.grantTo g).holds w) := by
  obtain ⟨-, hfree, hchoose, -⟩ := (canGrant_iff s g q).mp h
  exact (keeps_grantTo hchoose).trans (keeps_holds _ w hfree hw)

end Sys2Proof.Machine
end

