-- ==== Sys2Proof/Proofs/Plans.lean ====
section
/-! PROOF. What becomes of a transfer at acceptance, class by class (R15, R25 to R27, R37, R82, R83). The kernel cannot check
the equations that Lean makes of these functions, because it runs the classification of the address first; here each function
is replaced by its body before it is applied. -/

namespace Sys2Proof.Machine

section Plans

variable {s after : State} {p : Port} {a offset : Nat} {enables : Enables} {data : Word} {i : Fin 8} {x : SlotSettings}
  {t : Transfer} {es : List Entry} {r : PendingRead}

/-! ## Writes -/

theorem acceptWrite_refuse (h : s.planWrite p (wordAddress t.address) t.enables t.data = .refuse) :
    s.acceptWrite p t = s.answer p .error := by
  generalize hf : State.acceptWrite = f
  delta State.acceptWrite at hf
  subst hf
  beta_reduce
  rw [h]

theorem acceptWrite_queue (h : s.planWrite p (wordAddress t.address) t.enables t.data = .queue after es) :
    s.acceptWrite p t = if s.hasRoom p es then after.enqueue p es else s.holdTransfer p t := by
  generalize hf : State.acceptWrite = f
  delta State.acceptWrite at hf
  subst hf
  beta_reduce
  rw [h]

theorem planWrite_profileBlock (h : s.classify a = .profileBlock) :
    s.planWrite p a enables data = .queue s [.profile a data enables] := by
  generalize hf : State.planWrite = f
  delta State.planWrite at hf
  subst hf
  beta_reduce
  rw [h]

theorem planWrite_view (h : s.classify a = .view i offset) :
    s.planWrite p a enables data =
      if s.viewRefused p true i offset then .refuse
      else match s.settings i with
        | some x => s.planView x i offset enables data
        | none => .refuse := by
  generalize hf : State.planWrite = f
  delta State.planWrite at hf
  subst hf
  beta_reduce
  rw [h] <;> rfl

theorem planWrite_rawRing (h : s.classify a = .rawRing) :
    s.planWrite p a enables data = if s.seq.tracking.ringHeld then .refuse else .queue s [.plain a data enables] := by
  generalize hf : State.planWrite = f
  delta State.planWrite at hf
  subst hf
  beta_reduce
  rw [h]

theorem planWrite_reportRing (h : s.classify a = .reportRing) :
    s.planWrite p a enables data = .queue s [.plain a data enables] := by
  generalize hf : State.planWrite = f
  delta State.planWrite at hf
  subst hf
  beta_reduce
  rw [h]

theorem planWrite_plain (h : s.classify a = .plain) : s.planWrite p a enables data = .queue s [.plain a data enables] := by
  generalize hf : State.planWrite = f
  delta State.planWrite at hf
  subst hf
  beta_reduce
  rw [h]

/-! ## Reads -/

theorem acceptRead_pending (h : s.planRead p (wordAddress t.address) = some r) : s.acceptRead p t = s.setPending p r := by
  generalize hf : State.acceptRead = f
  delta State.acceptRead at hf
  subst hf
  beta_reduce
  rw [h]

theorem acceptRead_refused (h : s.planRead p (wordAddress t.address) = none) : s.acceptRead p t = s.answer p .error := by
  generalize hf : State.acceptRead = f
  delta State.acceptRead at hf
  subst hf
  beta_reduce
  rw [h]

theorem planRead_view (h : s.classify a = .view i offset) :
    s.planRead p a =
      if s.viewRefused p false i offset then none
      else some (.view { slot := i, frame := (s.view.get i).currentFrame.getD 0, card := offset / 16,
                         word := offsetWord offset }) := by
  generalize hf : State.planRead = f
  delta State.planRead at hf
  subst hf
  beta_reduce
  rw [h]

/-- A read outside the apertures is a PLAIN read, whatever its region (R30, R83). -/
theorem planRead_plain (h : ∀ i offset, s.classify a ≠ .view i offset) : s.planRead p a = some (.plain a) := by
  generalize hf : State.planRead = f
  delta State.planRead at hf
  subst hf
  beta_reduce
  generalize s.classify a = c at h
  cases c with
  | view i offset => exact absurd rfl (h i offset)
  | _ => rfl

end Plans

end Sys2Proof.Machine
end

