-- ==== Sys2Proof/Proofs/StepBounds.lean ====
section
/-! PROOF. The grants, acceptance, arrivals and the end of a step keep the bounds, so every step does: the statements about
memory, ranges, claims, the arbiter's counts, sequence numbers and the active profile. -/

namespace Sys2Proof.Machine

/-! ## The grants of the units of work -/

theorem keeps_grantSequencer {s : State} {q : Request} (h : s.canGrant .sequencer q = true) (scan : Bool) :
    Keeps s (s.grantSequencer scan) := by
  obtain ⟨-, -, hchoose, -⟩ := (canGrant_iff s _ q).mp h
  exact (keeps_seq _ _).comp (keeps_grantTo hchoose)

theorem keeps_holdsSome {s : State} (w : Option Work) (hfree : s.arb.hold = none) (hw : w ≠ some .record) :
    Keeps s (s.holdsSome w) := by
  cases w with
  | none => exact Keeps.refl s
  | some u => exact keeps_holds s u hfree fun h => hw (congrArg some h)

theorem keeps_sequencerGranted {s g : State} {q : Request} {w : Option Work} (hw : w ≠ some .record)
    (h : s.sequencerGranted q w = some g) : Keeps s g := by
  unfold State.sequencerGranted at h
  split at h
  · next hgrant =>
    cases h
    obtain ⟨-, hfree, -, -⟩ := (canGrant_iff s _ q).mp hgrant
    exact (keeps_grantSequencer hgrant false).trans (keeps_holdsSome w hfree hw)
  · cases h

theorem cardInitWork_ne (s : State) : s.cardInitWork ≠ some .record := by
  simp [State.cardInitWork]

theorem markInitWork_ne (s : State) : s.markInitWork ≠ some .record := by
  simp [State.markInitWork]

theorem cardCheckWork_ne (s : State) : s.cardCheckWork ≠ some .record := by
  unfold State.cardCheckWork
  split
  · simp
  · split <;> simp

theorem judgeWork_ne (s : State) : s.judgeWork ≠ some .record := by
  unfold State.judgeWork
  split
  · simp
  · split <;> simp

theorem markCheckWork_ne (s : State) : s.markCheckWork ≠ some .record := by
  unfold State.markCheckWork
  split <;> simp

theorem lateReadWork_ne (s : State) : s.lateReadWork ≠ some .record := by
  unfold State.lateReadWork
  split <;> simp

theorem keeps_lateGranted {s g : State} (h : s.lateGranted = some g) : Keeps s g := by
  unfold State.lateGranted at h
  split at h
  · split at h
    · next hgrant =>
      cases h
      exact keeps_grantSequencer hgrant true
    · cases h
  · split at h
    · cases h
    · split at h
      · cases h
        exact (keeps_endScan _).comp (keeps_withdrawScan s)
      · split at h
        · next hgrant =>
          cases h
          obtain ⟨-, hfree, -, -⟩ := (canGrant_iff s _ _).mp hgrant
          exact (keeps_grantSequencer hgrant true).trans (keeps_holdsSome _ hfree (lateReadWork_ne s))
        · cases h

theorem keeps_decideGranted (s : State) (p : Port) (isStream : Bool) (t : Target) (data : Word) (enables : Enables)
    (hfree : s.arb.hold = none) : Keeps s (s.decideGranted p isStream t data enables) := by
  unfold State.decideGranted
  split
  · exact keeps_removeHead _ _
  · have hdecided := keeps_decideEntry s p ‹_› isStream t { data := data, enables := enables }
    dsimp only
    split
    · exact hdecided.trans (keeps_removeHead _ _)
    · exact hdecided.trans (keeps_holds _ _ (by rw [arb_decideEntry]; exact hfree) nofun)

theorem keeps_grantEntry {s : State} {p : Port} {q : Request} (h : s.canGrant (portRequester p) q = true) (isStream : Bool)
    (t : Target) (data : Word) (enables : Enables) : Keeps s (s.grantEntry p isStream t data enables) := by
  obtain ⟨-, hfree, hchoose, -⟩ := (canGrant_iff s _ q).mp h
  exact (keeps_grantTo hchoose).trans (keeps_decideGranted _ p isStream t data enables hfree)

theorem keeps_viewGranted {s g : State} {p : Port} (h : s.viewGranted p = some g) : Keeps s g := by
  unfold State.viewGranted at h
  split at h
  · split at h
    · next hgrant =>
      cases h
      exact keeps_grantEntry hgrant _ _ _ _
    · cases h
  · cases h

theorem keeps_streamGranted {s g : State} {p : Port} (h : s.streamGranted p = some g) : Keeps s g := by
  unfold State.streamGranted at h
  split at h
  · split at h
    · next hgrant =>
      cases h
      exact keeps_grantEntry hgrant _ _ _ _
    · cases h
  · cases h

theorem keeps_withoutHold {s g : State} {p : Port} (h : s.withoutHold p = some g) : Keeps s g := by
  unfold State.withoutHold at h
  split at h
  · split at h
    · cases h; exact keeps_removeHead _ _
    · cases h
  · split at h
    · cases h; exact keeps_removeHead _ _
    · cases h
  · split at h
    · cases h; exact keeps_removeHead _ _
    · cases h
  · split at h
    · cases h
      split
      · exact (keeps_produce _ _).comp (keeps_removeHead _ _)
      · exact keeps_removeHead _ _
    · cases h
  · cases h

theorem keeps_demandGranted {s g : State} {p : Port} (h : s.demandGranted p = some g) : Keeps s g := by
  unfold State.demandGranted at h
  split at h
  · next hgrant =>
    obtain ⟨-, -, hchoose, -⟩ := (canGrant_iff s _ _).mp hgrant
    split at h
    · split at h
      · cases h
        exact keeps_grantTo_holds hgrant _ nofun
      · cases h
        exact keeps_grantTo hchoose
    · cases h
      exact keeps_grantTo hchoose
  · cases h

theorem keeps_plainWriteGranted {s g : State} {p : Port} (h : s.plainWriteGranted p = some g) : Keeps s g := by
  unfold State.plainWriteGranted at h
  split at h
  · split at h
    · next hgrant =>
      obtain ⟨-, -, hchoose, -⟩ := (canGrant_iff s _ _).mp hgrant
      split at h
      · cases h
        exact (keeps_produce _ _).comp ((keeps_removeHead _ _).comp (keeps_grantTo hchoose))
      · cases h
        exact keeps_grantTo_holds hgrant _ nofun
    · cases h
  · cases h

theorem keeps_profileGranted {s g : State} {p : Port} {row : ProfileRow} (h : s.profileGranted p row = some g) :
    Keeps s g := by
  unfold State.profileGranted at h
  split at h
  · split at h
    · next hgrant =>
      cases h
      rw [Bool.and_eq_true] at hgrant
      exact keeps_grantTo_holds hgrant.1 _ nofun
    · cases h
  · cases h

theorem keeps_plainReadGranted {s g : State} {p : Port} (h : s.plainReadGranted p = some g) : Keeps s g := by
  unfold State.plainReadGranted at h
  split at h
  · split at h
    · next hgrant =>
      cases h
      exact keeps_grantTo_holds hgrant _ nofun
    · cases h
  · cases h

theorem keeps_viewReadGranted {s g : State} {p : Port} (h : s.viewReadGranted p = some g) : Keeps s g := by
  unfold State.viewReadGranted at h
  split at h
  · split at h
    · cases h
    · split at h
      · cases h
        exact (keeps_answerRead _ _ _).comp (keeps_withdraw _ _)
      · split at h
        · next hgrant =>
          cases h
          exact keeps_grantTo_holds hgrant _ nofun
        · cases h
  · cases h

theorem keeps_profileReadGranted {s g : State} (h : s.profileReadGranted = some g) : Keeps s g := by
  unfold State.profileReadGranted at h
  split at h
  · next hgrant =>
    cases h
    obtain ⟨-, hfree, hchoose, -⟩ := (canGrant_iff s _ _).mp hgrant
    have hturn : Keeps s { s.grantTo .command with cmd := { s.cmd with lastWasOutcome := false } } :=
      (keeps_grantTo hchoose).trans (keeps_cmd _ { s.cmd with lastWasOutcome := false })
    split
    · exact hturn.trans (keeps_holds _ _ hfree nofun)
    · exact hturn
  · cases h

theorem keeps_outcomeGranted {s g : State} (h : s.outcomeGranted = some g) : Keeps s g := by
  unfold State.outcomeGranted at h
  split at h
  · next hgrant =>
    cases h
    obtain ⟨-, hfree, hchoose, -⟩ := (canGrant_iff s _ _).mp hgrant
    have hturn : ∀ x : CommandUnit, x.profile = s.cmd.profile → Keeps s { s.grantTo .command with cmd := x } :=
      fun x hx => (keeps_grantTo hchoose).trans (keeps_cmd _ x hx)
    have hheld : ∀ (x : CommandUnit) (o : CommandOutcome), x.profile = s.cmd.profile →
        Keeps s (({ s.grantTo .command with cmd := x } : State).holds (.outcome o)) :=
      fun x o hx => (hturn x hx).trans (keeps_holds _ _ hfree nofun)
    split
    · exact hheld _ _ rfl
    · exact hheld _ _ rfl
    · exact hturn _ rfl
  · cases h

theorem keeps_grantReport {s : State} {q : Request} (h : s.canGrant .report q = true) (status : Bool) :
    Keeps s (s.grantReport status) := by
  obtain ⟨-, -, hchoose, -⟩ := (canGrant_iff s _ q).mp h
  exact (keeps_grantTo hchoose).trans (keeps_rep _ _ id id id)

theorem headDecision_write {free w level : Nat} (h : headDecision free w level = .write) : w ≠ Config.maxWord ∧ 0 < free := by
  unfold headDecision at h
  split at h
  · cases h
  · next hmax =>
    refine ⟨hmax, ?_⟩
    split at h
    · omega
    · split at h
      · split at h
        · cases h
        · omega
      · cases h

/-- A record write begins with a free place and a number below the largest (R151, R152). -/
theorem keeps_beginRecord (s : State) (p : Profile) (r : Report) (hp : s.cmd.profile = some p)
    (hhead : headDecision s.free s.rep.writeSeq r.level = .write) : Keeps s (s.beginRecord p r) := by
  refine ⟨rfl, id, id, id, id, waits_hold _, id, id, id, ?_⟩
  rintro ⟨⟨hle, hmax, hfits⟩, -⟩
  obtain ⟨hne, hfree⟩ := headDecision_write hhead
  refine ⟨⟨hle, hmax, hfits⟩, by simp [State.beginRecord, State.holds],
    fun _ => by simp [State.beginRecord, State.holds, hp], ?_⟩
  intro w hw _
  cases hw
  exact ⟨rfl, lt_of_le_of_ne hmax hne, hfree⟩

theorem keeps_recordGranted {s g : State} (h : s.recordGranted = some g) : Keeps s g := by
  unfold State.recordGranted at h
  split at h
  · next hgrant =>
    cases h
    have hreport := keeps_grantReport hgrant false
    split
    · next p r rest hp hqueue =>
      split
      · next hready =>
        refine hreport.trans (keeps_beginRecord _ p r hp ?_)
        rw [State.recordReady, hqueue, decide_eq_true_eq] at hready
        exact hready
      · exact hreport
    · exact hreport
  · cases h

theorem keeps_statusGranted {s g : State} (h : s.statusGranted = some g) : Keeps s g := by
  unfold State.statusGranted at h
  split at h
  · next hgrant =>
    cases h
    obtain ⟨-, hfree, -, -⟩ := (canGrant_iff s _ _).mp hgrant
    have hreport := keeps_grantReport hgrant true
    split
    · next n _ _ =>
      have hafresh : Keeps (s.grantReport true)
          { s.grantReport true with rep := { (s.grantReport true).rep with changedAgain := false } } :=
        keeps_rep _ _ id id id
      exact hreport.trans (hafresh.trans (keeps_holds _ (.status n (s.statusValue n)) hfree nofun))
    · exact hreport
  · cases h

theorem keeps_pointerGranted {s g : State} (h : s.pointerGranted = some g) : Keeps s g := by
  unfold State.pointerGranted at h
  split at h
  · next hgrant =>
    cases h
    obtain ⟨-, hfree, hchoose, -⟩ := (canGrant_iff s _ _).mp hgrant
    have hgranted : Keeps (s.grantTo .report)
        { s.grantTo .report with rep := { (s.grantTo .report).rep with readPointerDue := false } } :=
      keeps_rep _ _ id id id
    exact (keeps_grantTo hchoose).trans (hgranted.trans (keeps_holds _ .readPointer hfree nofun))
  · cases h

/-! ## Acceptance (R80 to R83) -/

theorem keeps_holdTransfer (s : State) (p : Port) (t : Transfer) : Keeps s (s.holdTransfer p t) :=
  keeps_setPort s p _ (.inl le_rfl)

theorem keeps_answer (s : State) (p : Port) (x : Answer) : Keeps s (s.answer p x) := keeps_setPort s p _ (.inl le_rfl)

/-- A slot's stream with its counts in range. -/
theorem keeps_setStation (s : State) (i : Fin 8) (st : Station)
    (h : (s.view.get i).held ≤ 3 → (s.view.get i).overflow ≤ Config.maxHalf → st.held ≤ 3 ∧ st.overflow ≤ Config.maxHalf) :
    Keeps s (s.setStation i st) := by
  refine keeps_view s _ ?_
  rintro ⟨-, -, -, hview⟩ j
  by_cases hj : j = i
  · subst hj
    rw [get_set_same]
    exact h (hview j).1 (hview j).2
  · rw [get_set_other _ _ _ _ hj]
    exact hview j

/-- What becomes of a stream write keeps the slot's counts in range (R35, R41). -/
theorem keeps_planStream {s after : State} {x : SlotSettings} {i : Fin 8} {enables : Enables} {data : Word}
    {es : List Entry} (h : s.planStream x i enables data = .queue after es) :
    Keeps s after ∧ after.portA = s.portA ∧ after.portB = s.portB := by
  unfold State.planStream streamWrite at h
  split at h
  · next st hst =>
    cases h
    refine ⟨keeps_setStation s i st fun hheld hover => ?_, rfl, rfl⟩
    split at hst
    · split at hst
      · next hroom =>
        cases hst
        exact ⟨hroom, hover⟩
      · cases hst
    · cases hst
  · next st report hst =>
    cases h
    refine ⟨(keeps_produce _ _).comp (keeps_setStation s i st fun hheld hover => ?_), rfl, rfl⟩
    split at hst
    · split at hst
      · cases hst
      · cases hst
        exact ⟨Nat.zero_le _, hover⟩
    · cases hst
  · next st es' hst =>
    cases h
    refine ⟨keeps_setStation s i st fun hheld hover => ?_, rfl, rfl⟩
    split at hst
    · split at hst <;> cases hst
    · cases hst
      exact ⟨Nat.zero_le _, addUpTo_le _ _ _⟩

theorem keeps_planView {s after : State} {x : SlotSettings} {i : Fin 8} {offset : Nat} {enables : Enables} {data : Word}
    {es : List Entry} (h : s.planView x i offset enables data = .queue after es) :
    Keeps s after ∧ after.portA = s.portA ∧ after.portB = s.portB := by
  unfold State.planView at h
  split at h
  · cases h
    exact ⟨Keeps.refl s, rfl, rfl⟩
  · exact keeps_planStream h

theorem keeps_planWrite {s after : State} {p : Port} {a : Nat} {enables : Enables} {data : Word} {es : List Entry}
    (h : s.planWrite p a enables data = .queue after es) :
    Keeps s after ∧ after.portA = s.portA ∧ after.portB = s.portB := by
  have hsame : ∀ es', WritePlan.queue s es' = .queue after es →
      Keeps s after ∧ after.portA = s.portA ∧ after.portB = s.portB := by
    intro es' heq
    cases heq
    exact ⟨Keeps.refl s, rfl, rfl⟩
  cases hclass : s.classify a with
  | profileBlock => exact hsame _ ((planWrite_profileBlock hclass).symm.trans h)
  | view i offset =>
    rw [planWrite_view hclass] at h
    split at h
    · cases h
    · split at h
      · exact keeps_planView h
      · cases h
  | rawRing =>
    rw [planWrite_rawRing hclass] at h
    split at h
    · cases h
    · exact hsame _ h
  | reportRing => exact hsame _ ((planWrite_reportRing hclass).symm.trans h)
  | plain => exact hsame _ ((planWrite_plain hclass).symm.trans h)

theorem keeps_enqueue {s after : State} {p : Port} {es : List Entry} (hafter : Keeps s after)
    (hport : after.port p = s.port p) (hroom : s.hasRoom p es = true) : Keeps s (after.enqueue p es) := by
  refine hafter.trans (keeps_setPort _ p _ ?_)
  rw [hport]
  simp only [State.hasRoom, Bool.or_eq_true, List.isEmpty_iff, decide_eq_true_eq] at hroom
  obtain rfl | hroom := hroom
  · exact .inl (by simp)
  · exact .inr (by simpa using hroom)

theorem keeps_acceptWrite (s : State) (p : Port) (t : Transfer) : Keeps s (s.acceptWrite p t) := by
  cases hplan : s.planWrite p (wordAddress t.address) t.enables t.data with
  | refuse =>
    rw [acceptWrite_refuse hplan]
    exact keeps_answer _ _ _
  | queue after es =>
    obtain ⟨hafter, hA, hB⟩ := keeps_planWrite hplan
    have hport : after.port p = s.port p := by cases p <;> assumption
    rw [acceptWrite_queue hplan]
    split
    · next hroom => exact keeps_enqueue hafter hport hroom
    · exact keeps_holdTransfer _ _ _

theorem keeps_setPending (s : State) (p : Port) (r : PendingRead) : Keeps s (s.setPending p r) :=
  keeps_setPort s p _ (.inl le_rfl)

theorem keeps_acceptRead (s : State) (p : Port) (t : Transfer) : Keeps s (s.acceptRead p t) := by
  cases hplan : s.planRead p (wordAddress t.address) with
  | none =>
    rw [acceptRead_refused hplan]
    exact keeps_answer _ _ _
  | some r =>
    rw [acceptRead_pending hplan]
    exact keeps_setPending _ _ _

/-! ## Arrivals (R92, R97, R105, R124) -/

theorem keeps_drainEnded {s g : State} (h : s.drainEnded = some g) : Keeps s g := by
  unfold State.drainEnded at h
  split at h
  · split at h
    · split at h
      · split at h
        · cases h
          exact keeps_endDrain _ _ _ _
        · cases h
      · cases h
    · cases h
  · cases h

theorem keeps_takeIndex (s : State) : Keeps s s.takeIndex := by
  unfold State.takeIndex
  split
  · exact keeps_acceptAdvance s
  · unfold State.indexWaits
    split
    · exact keeps_seq s _
    · exact keeps_fault _ _ _
  all_goals exact keeps_produce _ _

theorem keeps_takeRowstep (s : State) : Keeps s s.takeRowstep := by
  unfold State.takeRowstep
  split
  · exact keeps_disch s _
  · exact keeps_produce _ _

theorem keeps_abortCursors (s : State) (p : Port) : Keeps s (s.abortCursors p) := by
  unfold State.abortCursors
  split
  · exact keeps_abortViews _ _ _
  · exact Keeps.refl s

theorem keeps_takeAbort (s : State) (p : Port) : Keeps s (s.takeAbort p) := by
  have hport : (s.abandonWork p).port p = s.port p := by cases p <;> rfl
  refine (keeps_produceAll _ _).comp ((keeps_abortCursors _ _).comp ((keeps_tear _ _).comp ?_))
  refine (keeps_abandonWork s p).trans (keeps_setPort _ p _ (.inl ?_))
  rw [hport]
  exact Nat.le_of_add_right_le (length_begunPart_add_notBegun _ _).le

/-- An abort leaves the unit under its hold, though a demand initialisation may go on for nothing (R85, R92). -/
theorem hold_takeAbort (s : State) (p : Port) : (s.takeAbort p).arb.hold = s.arb.hold.map fun w => w.orphaned p := by
  have hcursors : ∀ t : State, (t.abortCursors p).arb = t.arb := by
    intro t
    unfold State.abortCursors
    split <;> rfl
  unfold State.takeAbort
  simp only [produceAll_fields, hcursors, tear_fields, setPort_fields, State.abandonWork, withdraw_hold]

theorem keeps_refreshDue (s : State) (spare : Option Nat) (before : State) : Keeps s (s.refreshDue spare before) := by
  unfold State.refreshDue
  split
  · rw [markChanged_rest]
    exact keeps_rep s _ id id id
  · exact Keeps.refl s

theorem keeps_abortAtDecision {s : State} {p : Port} {q : Request} (h : s.canGrant (portRequester p) q = true)
    (isStream : Bool) (t : Target) (data : Word) (enables : Enables) :
    Keeps s (s.abortAtDecision p isStream t data enables) := by
  unfold State.abortAtDecision
  have hheld : ∀ x : State, x.arb.hold = some (.pass p t.slot t.frame t.card Staged.empty data) →
      (x.takeAbort p).arb.hold ≠ some .record := by
    intro x hx
    rw [hold_takeAbort, hx]
    exact nofun
  refine (keeps_grantTo_holds h (.pass p t.slot t.frame t.card Staged.empty data) nofun).trans
    ((keeps_takeAbort _ p).trans ?_)
  refine (keeps_release _ fun hrecord => absurd hrecord (hheld _ rfl)).trans ?_
  exact (keeps_refreshDue _ _ _).trans (keeps_decideGranted _ _ _ _ _ _ (by simp))

theorem keeps_abortDeciding {s g : State} {p : Port} (h : s.abortDeciding p = some g) : Keeps s g := by
  unfold State.abortDeciding at h
  split at h
  · next hgrant =>
    split at h
    · cases h
      exact keeps_abortAtDecision hgrant _ _ _ _
    · cases h
      exact keeps_abortAtDecision hgrant _ _ _ _
    · cases h
  · cases h

/-! ## The end of every step -/

theorem keeps_admissionDrops (s : State) : Keeps s s.admissionDrops := by
  unfold State.admissionDrops
  split
  · exact Keeps.refl s
  · exact keeps_rep s _ ((dropHeads_suffix _ _ _ _).length_le.trans ·) id (fun _ => addUpTo_le _ _ _)

theorem passed_raised (s : State) (r : Requester) : (s.raised r).passed = (s.arb.desk r).passed := by
  unfold State.raised
  split <;> rfl

theorem keeps_raise (s : State) : Keeps s s.raise := by
  refine keeps_arb s _ (fun h r => ?_) Iff.rfl
  obtain ⟨hnone, hle⟩ := h r
  show ((s.raise.arb.desk r).request = none → (s.raise.arb.desk r).passed = 0) ∧
    (s.raise.arb.desk r).passed ≤ Config.passLimit + s.raise.arb.servedBefore r
  have hserved : s.raise.arb.servedBefore r = s.arb.servedBefore r := by
    simp only [Arbiter.servedBefore, raise_desk, passed_raised]
  rw [hserved, raise_desk, passed_raised]
  refine ⟨fun hrequest => hnone ?_, hle⟩
  unfold State.raised at hrequest
  split at hrequest
  · exact hrequest
  · next hidle =>
    simp only [Bool.or_eq_true, not_or, Bool.not_eq_true, Option.isSome_eq_false_iff, Option.isNone_iff_eq_none] at hidle
    exact hidle.1.1

theorem keeps_settle (spare : Option Nat) (before s : State) : Keeps s (State.settle spare before s) :=
  (keeps_raise _).comp ((keeps_refreshDue _ _ _).comp ((keeps_pins _ _).comp (keeps_admissionDrops s)))

theorem keeps_concludeIf {s t : State} {after : Option State} (h : s.concludeIf after = .next t)
    (hafter : ∀ g, after = some g → Keeps s g) : Keeps s t := by
  cases after with
  | none =>
    cases h
    exact Keeps.refl _
  | some g =>
    cases h
    exact (hafter g rfl).trans (keeps_settle _ _ _)

theorem keeps_runSpan {s t : State} {span : Span} {granted : Option State} {mine : Work → Bool}
    (h : s.runSpan span granted mine = .next t) (hgranted : ∀ g, granted = some g → Keeps s g) : Keeps s t := by
  obtain rfl | ⟨g, hg, rfl⟩ | ⟨g, error, hg, -, -, rfl⟩ | ⟨error, -, -, rfl⟩ := runSpan_cases h
  · exact Keeps.refl _
  · exact (hgranted g hg).trans (keeps_settle _ _ _)
  · exact (hgranted g hg).trans ((keeps_endHold g error).trans (keeps_settle _ _ _))
  · exact (keeps_endHold s error).trans (keeps_settle _ _ _)

/-! ## Every command -/

theorem keeps_transfer {s t : State} {p : Port} {x : Transfer} {after : State} (hafter : Keeps s after)
    (h : (if !s.mayPresent p x then Host.Outcome.next s
      else if s.portWaits p then s.conclude (s.holdTransfer p x) none
      else s.conclude after none) = .next t) : Keeps s t := by
  split at h
  · cases h
    exact Keeps.refl _
  · split at h
    · cases h
      exact (keeps_holdTransfer _ p x).trans (keeps_settle _ _ _)
    · cases h
      exact hafter.trans (keeps_settle _ _ _)

theorem keeps_profileRead {s t : State} {span : Span} (h : execApplyProfileRead span s = .next t) : Keeps s t := by
  obtain rfl | ⟨g, hg, rfl⟩ | ⟨g, error, hg, -, -, rfl⟩ | ⟨error, -, -, rfl⟩ | ⟨error, -, -, -, -, rfl⟩ :=
    applyProfileRead_cases h
  · exact Keeps.refl _
  · exact (keeps_profileReadGranted hg).trans (keeps_settle _ _ _)
  · exact (keeps_profileReadGranted hg).trans
      ((keeps_endHold g error).trans ((keeps_makeChecks _).trans (keeps_settle _ _ _)))
  · exact (keeps_endHold s error).trans (keeps_settle _ _ _)
  · exact (keeps_makeChecks s).trans (keeps_settle _ _ _)

@[simp] theorem view_afterReset (s : State) (m : Memory) (i : Fin 8) : (s.afterReset m).view.get i = Station.reset := by
  fin_cases i <;> rfl

/-- Device reset puts every block at its reset values, which meet the bounds. -/
theorem bounds_afterReset (s : State) (m : Memory) :
    ((s.afterReset m).queuesBounded ∧ (s.afterReset m).reportsBounded ∧ (s.afterReset m).claimsBounded) ∧
    (s.afterReset m).waitsBounded ∧ (s.afterReset m).countersBounded ∧ (s.afterReset m).framesOrdered ∧
    (s.afterReset m).profileChecked ∧ (s.afterReset m).sequencesOrdered ∧ (s.afterReset m).recordHasRoom := by
  have hone : 1 ≤ Config.maxWord := by decide
  refine ⟨⟨⟨Nat.zero_le _, Nat.zero_le _⟩, Nat.zero_le _, ?claims⟩, ?waits, ?counters, ⟨Nat.zero_le _, Nat.zero_le _⟩,
    ?profile, ⟨le_rfl, hone, rfl⟩, ?room⟩
  case claims => exact ⟨Nat.zero_le _, Nat.zero_le _, List.nodup_nil⟩
  case waits =>
    intro r
    cases r <;> exact ⟨fun _ => rfl, Nat.zero_le _⟩
  case counters =>
    refine ⟨Nat.zero_le _, Nat.zero_le _, Nat.zero_le _, fun i => ?_⟩
    rw [view_afterReset]
    exact ⟨Nat.zero_le _, Nat.zero_le _⟩
  case profile =>
    intro p hp
    cases hp
  case room => simp [State.recordHasRoom, State.afterReset, ReportUnit.reset, Arbiter.reset]

/-- Device reset keeps the bounds, and memory is as completed accesses left it. -/
theorem keeps_afterReset (s : State) (m : Memory) (hmem : s.mem.wf = true → m.wf = true) :
    Keeps s { s.afterReset m with inReset := s.inReset } := by
  obtain ⟨⟨hqueues, hreports, hclaims⟩, hwaits, hcounters, hframes, hprofile, hseq, hroom⟩ := bounds_afterReset s m
  exact ⟨rfl, hmem, fun _ => hqueues, fun _ => hreports, fun _ => hclaims, fun _ => hwaits, fun _ => hcounters,
    fun _ => hframes, fun _ => hprofile, fun _ => ⟨hseq, hroom⟩⟩

/-- The release of RESET keeps the bounds, but for the level of RESET and the profile block, which it moves (R165). -/
theorem keeps_released (s : State) :
    Keeps s { s with psel := s.psel, inReset := s.inReset, portA := s.portA.released, portB := s.portB.released } := by
  refine Keeps.trans (t := (s.setPort .a s.portA.released).setPort .b s.portB.released) ?_
    ⟨rfl, id, id, id, id, id, id, id, id, id⟩
  exact (keeps_setPort s .a s.portA.released (.inl le_rfl)).trans (keeps_setPort _ .b s.portB.released (.inl le_rfl))

/-- Every command keeps every bound, but device reset and the release of RESET, which change the level of RESET. -/
theorem keeps_exec {i : Instr} {s t : State} (h : exec i s = .next t) :
    Keeps s t ∨ (∃ completed, t = s.afterReset (s.cutMemory completed)) ∨
      (s.inReset = true ∧ ∃ straps, t =
        { s with inReset := false, psel := straps, portA := s.portA.released, portB := s.portB.released }) := by
  cases i with
  | resetRelease straps =>
    cases h
    split
    · next hreset => exact .inr (.inr ⟨hreset, straps, rfl⟩)
    · exact .inl (Keeps.refl s)
  | writeAcceptance p address enables data =>
    exact .inl (keeps_transfer (keeps_acceptWrite s p _) h)
  | readAcceptance p address enables =>
    exact .inl (keeps_transfer (keeps_acceptRead s p _) h)
  | viewEntryPerformance p span => exact .inl (keeps_runSpan h fun _ => keeps_viewGranted)
  | streamEntryPerformance p span => exact .inl (keeps_runSpan h fun _ => keeps_streamGranted)
  | entryWithoutHold p =>
    refine .inl (keeps_concludeIf h fun g hg => ?_)
    split at hg
    · exact keeps_withoutHold hg
    · cases hg
  | demandInitialisation p span => exact .inl (keeps_runSpan h fun _ => keeps_demandGranted)
  | plainWrite p span => exact .inl (keeps_runSpan h fun _ => keeps_plainWriteGranted)
  | profileWrite p span => exact .inl (keeps_runSpan h fun _ => keeps_profileGranted)
  | pendingPlainRead p span => exact .inl (keeps_runSpan h fun _ => keeps_plainReadGranted)
  | pendingViewRead p span => exact .inl (keeps_runSpan h fun _ => keeps_viewReadGranted)
  | apply p span => exact .inl (keeps_runSpan h fun _ => keeps_profileGranted)
  | applyProfileRead span => exact .inl (keeps_profileRead h)
  | startFresh p span => exact .inl (keeps_runSpan h fun _ => keeps_profileGranted)
  | startCarry p span => exact .inl (keeps_runSpan h fun _ => keeps_profileGranted)
  | stop p span => exact .inl (keeps_runSpan h fun _ => keeps_profileGranted)
  | recover p span => exact .inl (keeps_runSpan h fun _ => keeps_profileGranted)
  | quiet p span => exact .inl (keeps_runSpan h fun _ => keeps_profileGranted)
  | unknownCommand p span => exact .inl (keeps_runSpan h fun _ => keeps_profileGranted)
  | commandCodeNone p span => exact .inl (keeps_runSpan h fun _ => keeps_profileGranted)
  | resultWordWrite span => exact .inl (keeps_runSpan h fun _ => keeps_outcomeGranted)
  | readPointerWrite p span => exact .inl (keeps_runSpan h fun _ => keeps_profileGranted)
  | quietExtendWrite p span => exact .inl (keeps_runSpan h fun _ => keeps_profileGranted)
  | indexArrival =>
    refine .inl (keeps_concludeIf h fun g hg => ?_)
    split at hg
    · cases hg
    · cases hg
      exact keeps_takeIndex s
  | cardInitialisation span => exact .inl (keeps_runSpan h fun _ => keeps_sequencerGranted (cardInitWork_ne s))
  | drainWaitEnd =>
    refine .inl (keeps_concludeIf h fun g hg => ?_)
    split at hg
    · cases hg
    · exact keeps_drainEnded hg
  | cardCheck span => exact .inl (keeps_runSpan h fun _ => keeps_sequencerGranted (cardCheckWork_ne s))
  | judgement span => exact .inl (keeps_runSpan h fun _ => keeps_sequencerGranted (judgeWork_ne s))
  | rowstepArrival =>
    refine .inl (keeps_concludeIf h fun g hg => ?_)
    split at hg
    · cases hg
    · cases hg
      exact keeps_takeRowstep s
  | abortArrival p =>
    refine .inl (keeps_concludeIf h fun g hg => ?_)
    split at hg
    · cases hg
    · split at hg
      · exact keeps_abortDeciding hg
      · cases hg
        exact keeps_takeAbort s p.port
  | deadlineExpiry slot =>
    refine .inl (keeps_concludeIf h fun g hg => ?_)
    split at hg
    · cases hg
    · cases hg
      exact keeps_expire s slot
  | lateScanRead span => exact .inl (keeps_runSpan h fun _ => keeps_lateGranted)
  | markingInitialisation span => exact .inl (keeps_runSpan h fun _ => keeps_sequencerGranted (markInitWork_ne s))
  | markingCardCheck span => exact .inl (keeps_runSpan h fun _ => keeps_sequencerGranted (markCheckWork_ne s))
  | reportRecordWrite span => exact .inl (keeps_runSpan h fun _ => keeps_recordGranted)
  | statusWordWrite span => exact .inl (keeps_runSpan h fun _ => keeps_statusGranted)
  | readPointerResetWrite span => exact .inl (keeps_runSpan h fun _ => keeps_pointerGranted)
  | deviceReset completed =>
    cases h
    split
    · exact .inl (Keeps.refl s)
    · exact .inr (.inl ⟨completed, rfl⟩)
  | microsecondCounterTick =>
    refine .inl (keeps_concludeIf h fun g hg => ?_)
    split at hg
    · cases hg
    · cases hg
      exact keeps_tick s

theorem keeps_clock (s : State) : Keeps s s.clock := by
  unfold State.clock
  split
  · exact Keeps.refl s
  · split
    · exact keeps_time s _
    · exact (keeps_tick s).trans (keeps_settle _ _ _)

/-- Every step keeps every bound, but that the release of RESET moves the profile block. -/
theorem keeps_step {s t : State} (h : step s = .next t) :
    Keeps s { t with psel := s.psel, inReset := s.inReset } ∧ (t.psel = s.psel ∨ s.inReset = true ∧ t.cmd = s.cmd) := by
  have hsame : ∀ {u : State}, Keeps s u →
      Keeps s { u with psel := s.psel, inReset := s.inReset } ∧ (u.psel = s.psel ∨ s.inReset = true ∧ u.cmd = s.cmd) := by
    intro u hk
    obtain ⟨hpsel, hreset⟩ := Prod.mk.injEq .. ▸ hk.straps
    rw [← hpsel, ← hreset]
    exact ⟨hk, .inl rfl⟩
  unfold step at h
  split at h
  · next i rest hpending =>
    obtain hk | ⟨completed, rfl⟩ | ⟨hreset, straps, rfl⟩ := keeps_exec h
    · exact hsame ((keeps_pending s rest).trans hk)
    · exact ⟨(keeps_pending s rest).trans (keeps_afterReset _ _ (keeps_endHold _ _).memory), .inl rfl⟩
    · exact ⟨(keeps_pending s rest).trans (keeps_released _), .inr ⟨hreset, rfl⟩⟩
  · cases h
    exact hsame (keeps_clock s)

/-! ## The statements -/

/-- Settles O5: a write of a byte keeps the canonical form, and every access writes bytes. -/
theorem stepKeepsMemoryCanonical : Obligations.StepKeepsMemoryCanonical :=
  fun _ _ hs h => (keeps_step h).1.memory hs

/-- Settles O7: a queue grows only where it has room, and a count only up to its largest value. -/
theorem stepKeepsRanges : Obligations.StepKeepsRanges :=
  ⟨fun _ _ hs h => ⟨(keeps_step h).1.queues hs.1, (keeps_step h).1.reports hs.2⟩,
    fun _ _ hs h => (keeps_step h).1.counters hs, fun _ _ hs h => (keeps_step h).1.frames hs⟩

/-- Settles O8: a group is opened where no claim stands, after an eviction where its port owns four. -/
theorem stepKeepsClaimsBounded : Obligations.StepKeepsClaimsBounded :=
  fun _ _ hs h => (keeps_step h).1.claims hs

/-- Settles O9: at most four requesters stand before one, so a count passes 8 by four at most. -/
theorem stepKeepsWaitsBounded : Obligations.StepKeepsWaitsBounded := by
  intro s t hs h
  have hwaits : t.waitsBounded := (keeps_step h).1.waits hs
  refine ⟨hwaits, fun r => (hwaits r).2.trans ?_⟩
  exact Nat.add_le_add_left (servedBefore_le_four _ _) _

/-- Settles O11: W grows where a record write ends that began with a free place. -/
theorem stepKeepsSequencesOrdered : Obligations.StepKeepsSequencesOrdered :=
  fun _ _ hs h => (keeps_step h).1.room hs

/-- Settles O12: RESET_RELEASE moves the profile block, but while RESET is held no profile is active. -/
theorem stepKeepsProfileChecked : Obligations.StepKeepsProfileChecked := by
  rintro s t ⟨⟨-, -, hunconfigured, -, -, -, -, hreset⟩, hs⟩ h p hp
  obtain ⟨hk, hpsel | ⟨hheld, hcmd⟩⟩ := keeps_step h
  · rw [State.blockBase, hpsel]
    exact hk.profile hs p hp
  · rw [hcmd, hunconfigured.mp (hreset hheld).1] at hp
    cases hp

end Sys2Proof.Machine
end

