-- ==== Sys2Proof/Proofs/StepEnds.lean ====
section
/-! PROOF. How every command ends (R161, R168; log entry 17), and with it the levels of the output lines. -/

namespace Sys2Proof.Machine

/-! ## How a command ends -/

/-- A command ends with nothing done, as every step does that has done something, or as device reset or its release. -/
inductive Ends (i : Instr) (s : State) : State → Prop where
  | idle : Ends i s s
  | settled (spare : Option Nat) (u : State) (h : ∀ n, spare = some n → Spares i s n) : Ends i s (State.settle spare s u)
  | reset (completed : Nat) : Ends i s (s.afterReset (s.cutMemory completed))
  | released (straps : BitVec 4) : Ends i s
      { s with inReset := false, psel := straps, portA := s.portA.released, portB := s.portB.released }

theorem ends_settle (i : Instr) (s u : State) : Ends i s (State.settle none s u) := .settled none u nofun

theorem ends_concludeIf {i : Instr} {s t : State} {after : Option State} (h : s.concludeIf after = .next t) : Ends i s t := by
  cases after with
  | none =>
    cases h
    exact .idle
  | some g =>
    cases h
    exact ends_settle _ _ _

/-- Only a status write and a record write may spare a status word. -/
theorem sparedWord_none {s : State} {mine : Work → Bool} (hstatus : ∀ n v, mine (.status n v) = false)
    (hrecord : mine .record = false) (h : s.holdIs mine = true) (error : Option Nat) : s.sparedWord error = none := by
  obtain ⟨w, hold, hw⟩ := (holdIs_iff s mine).mp h
  unfold State.sparedWord
  rw [hold]
  cases w with
  | status n v => cases (hstatus n v).symm.trans hw
  | record => cases hrecord.symm.trans hw
  | _ => rfl

/-- A command over a unit that is no status write and no record write spares no status word. -/
theorem ends_runSpan {i : Instr} {s t : State} {span : Span} {granted : Option State} {mine : Work → Bool}
    (h : s.runSpan span granted mine = .next t) (hstatus : ∀ n v, mine (.status n v) = false := by exact fun _ _ => rfl)
    (hrecord : mine .record = false := by rfl) : Ends i s t := by
  obtain rfl | ⟨g, -, rfl⟩ | ⟨g, error, -, hg, -, rfl⟩ | ⟨error, hs, -, rfl⟩ := runSpan_cases h
  · exact .idle
  · exact ends_settle _ _ _
  · rw [sparedWord_none hstatus hrecord hg]
    exact ends_settle _ _ _
  · rw [sparedWord_none hstatus hrecord hs]
    exact ends_settle _ _ _

/-- A write of the profile block spares no status word. -/
theorem ends_runProfile {i : Instr} {s t : State} {p : Port} {span : Span} {row : ProfileRow}
    (h : s.runProfile p span row = .next t) : Ends i s t := ends_runSpan h

theorem ends_transfer {i : Instr} {s t after : State} {p : Port} {x : Transfer}
    (h : (if !s.mayPresent p x then Host.Outcome.next s
      else if s.portWaits p then s.conclude (s.holdTransfer p x) none
      else s.conclude after none) = .next t) : Ends i s t := by
  split at h
  · cases h
    exact .idle
  · split at h
    · cases h
      exact ends_settle _ _ _
    · cases h
      exact ends_settle _ _ _

theorem ends_applyProfileRead {s t : State} {span : Span} (h : execApplyProfileRead span s = .next t) :
    Ends (.applyProfileRead span) s t := by
  obtain rfl | ⟨g, -, rfl⟩ | ⟨g, error, -, -, -, rfl⟩ | ⟨error, -, -, rfl⟩ | ⟨error, -, -, -, -, rfl⟩ :=
    applyProfileRead_cases h
  · exact .idle
  all_goals exact ends_settle _ _ _

/-! ## The words that the Report Unit's writes spare (R162) -/

/-- A status write spares its own word when it is answered ERROR. -/
theorem sparedWord_status {s : State} {error : Option Nat} {n : Nat} (hold : s.holdIs isStatusWrite = true)
    (h : s.sparedWord error = some n) : error = some 0 ∧ ∃ v, s.arb.hold = some (.status n v) := by
  obtain ⟨w, hw, hmine⟩ := (holdIs_iff _ _).mp hold
  cases w with
  | status m v =>
    unfold State.sparedWord at h
    rw [hw] at h
    dsimp only at h
    split at h
    · next herror =>
      cases h
      exact ⟨herror, v, hw⟩
    · cases h
  | _ => cases hmine

/-- A record write spares the status word of W when its report is the FAULT report of that word's failed write. -/
theorem sparedWord_record {s : State} {error : Option Nat} {n : Nat} (hold : s.holdIs isRecordWrite = true)
    (h : s.sparedWord error = some n) : n = 6 ∧ ∃ w, s.rep.writing = some w ∧ w.report.ofStatusW = true := by
  obtain ⟨w, hw, hmine⟩ := (holdIs_iff _ _).mp hold
  cases w with
  | record =>
    unfold State.sparedWord at h
    rw [hw] at h
    dsimp only at h
    split at h
    · next x hx =>
      split at h
      · next hof =>
        cases h
        exact ⟨rfl, x, hx, hof⟩
      · cases h
    · cases h
  | _ => cases hmine

theorem statusGranted_held {s g : State} {n : Nat} {v : Word} (h : s.statusGranted = some g)
    (hold : g.arb.hold = some (.status n v)) : s.rep.due.head? = some n := by
  unfold State.statusGranted at h
  split at h
  · next hgrant =>
    obtain ⟨-, hfree, -, -⟩ := (canGrant_iff s _ _).mp hgrant
    cases h
    split at hold
    · next m rest hdue =>
      cases hold
      rw [hdue]
      rfl
    · exact absurd (hfree.symm.trans hold) nofun
  · cases h

theorem recordGranted_writing {s g : State} {w : RecordWrite} (h : s.recordGranted = some g)
    (hold : g.arb.hold = some .record) (hw : g.rep.writing = some w) :
    ∃ r, s.rep.queue.head? = some r ∧ w.report = r := by
  unfold State.recordGranted at h
  split at h
  · next hgrant =>
    obtain ⟨-, hfree, -, -⟩ := (canGrant_iff s _ _).mp hgrant
    cases h
    split at hold
    · next p r rest hp hqueue =>
      split at hold
      · next hready =>
        simp only [hp, hqueue, hready, if_true] at hw
        cases hw
        exact ⟨r, by rw [hqueue]; rfl, rfl⟩
      · exact absurd (hfree.symm.trans hold) nofun
    · exact absurd (hfree.symm.trans hold) nofun
  · cases h

theorem ends_statusWordWrite {s t : State} {span : Span} (h : execStatusWordWrite span s = .next t) :
    Ends (.statusWordWrite span) s t := by
  obtain rfl | ⟨g, -, rfl⟩ | ⟨g, error, hgranted, hg, rfl, rfl⟩ | ⟨error, hs, rfl, rfl⟩ := runSpan_cases h
  · exact .idle
  · exact ends_settle _ _ _
  · refine .settled _ _ fun n hn => .inl ?_
    obtain ⟨rfl, v, hold⟩ := sparedWord_status hg hn
    exact ⟨rfl, statusGranted_held hgranted hold⟩
  · refine .settled _ _ fun n hn => .inr (.inl ?_)
    obtain ⟨rfl, hold⟩ := sparedWord_status hs hn
    exact ⟨rfl, hold⟩

theorem ends_reportRecordWrite {s t : State} {span : Span} (h : execReportRecordWrite span s = .next t) :
    Ends (.reportRecordWrite span) s t := by
  obtain rfl | ⟨g, -, rfl⟩ | ⟨g, error, hgranted, hg, rfl, rfl⟩ | ⟨error, hs, rfl, rfl⟩ := runSpan_cases h
  · exact .idle
  · exact ends_settle _ _ _
  · refine .settled _ _ fun n hn => .inr (.inr (.inl ?_))
    obtain ⟨hn, w, hw, hof⟩ := sparedWord_record hg hn
    obtain ⟨u, hu, hmine⟩ := (holdIs_iff _ _).mp hg
    have hrecord : u = .record := by cases u <;> first | rfl | cases hmine
    obtain ⟨r, hr, hreport⟩ := recordGranted_writing hgranted (hrecord ▸ hu) hw
    exact ⟨hn, ⟨error, rfl⟩, r, hr, hreport ▸ hof⟩
  · refine .settled _ _ fun n hn => .inr (.inr (.inr ?_))
    obtain ⟨hn, hw⟩ := sparedWord_record hs hn
    exact ⟨hn, ⟨error, rfl⟩, hw⟩

/-! ## Every command -/

theorem exec_ends {i : Instr} {s t : State} (h : exec i s = .next t) : Ends i s t := by
  cases i with
  | writeAcceptance p address enables data => exact ends_transfer h
  | readAcceptance p address enables => exact ends_transfer h
  | viewEntryPerformance p span => exact ends_runSpan h
  | streamEntryPerformance p span => exact ends_runSpan h
  | entryWithoutHold p => exact ends_concludeIf h
  | demandInitialisation p span => exact ends_runSpan h
  | plainWrite p span => exact ends_runSpan h
  | profileWrite p span => exact ends_runProfile h
  | pendingPlainRead p span => exact ends_runSpan h
  | pendingViewRead p span => exact ends_runSpan h
  | apply p span => exact ends_runProfile h
  | applyProfileRead span => exact ends_applyProfileRead h
  | startFresh p span => exact ends_runProfile h
  | startCarry p span => exact ends_runProfile h
  | stop p span => exact ends_runProfile h
  | recover p span => exact ends_runProfile h
  | quiet p span => exact ends_runProfile h
  | unknownCommand p span => exact ends_runProfile h
  | commandCodeNone p span => exact ends_runProfile h
  | resultWordWrite span => exact ends_runSpan h
  | readPointerWrite p span => exact ends_runProfile h
  | quietExtendWrite p span => exact ends_runProfile h
  | indexArrival => exact ends_concludeIf h
  | cardInitialisation span => exact ends_runSpan h
  | drainWaitEnd => exact ends_concludeIf h
  | cardCheck span => exact ends_runSpan h
  | judgement span => exact ends_runSpan h
  | rowstepArrival => exact ends_concludeIf h
  | abortArrival p => exact ends_concludeIf h
  | deadlineExpiry slot => exact ends_concludeIf h
  | lateScanRead span => exact ends_runSpan h
  | markingInitialisation span => exact ends_runSpan h
  | markingCardCheck span => exact ends_runSpan h
  | reportRecordWrite span => exact ends_reportRecordWrite h
  | statusWordWrite span => exact ends_statusWordWrite h
  | readPointerResetWrite span => exact ends_runSpan h
  | deviceReset completed =>
    cases h
    split
    · exact .idle
    · exact .reset completed
  | resetRelease straps =>
    cases h
    split
    · exact .released straps
    · exact .idle
  | microsecondCounterTick => exact ends_concludeIf h

/-! ## The output lines (R125, R155, R160, R168) -/

theorem lines_settle (spare : Option Nat) (before s : State) : (State.settle spare before s).linesFollowRules := by
  obtain ⟨hpins, hlevels⟩ := settle_pins spare before s
  exact hpins.trans hlevels.symm

theorem lines_exec {i : Instr} {s t : State} (hs : s.linesFollowRules) (h : exec i s = .next t) : t.linesFollowRules := by
  cases exec_ends h with
  | idle => exact hs
  | settled spare u _ => exact lines_settle _ _ _
  | reset completed => rfl
  | released straps => exact hs

theorem lines_step {s t : State} (hs : s.linesFollowRules) (h : step s = .next t) : t.linesFollowRules := by
  unfold step at h
  split at h
  · next i rest _ => exact lines_exec (s := { s with pending := rest }) hs h
  · cases h
    unfold State.clock
    split
    · exact hs
    · split
      · exact hs
      · exact lines_settle _ _ _

theorem isUnread_iff (mark : Option Nat) (readSeq : Nat) :
    isUnread mark readSeq = true ↔ ∃ n, mark = some n ∧ readSeq ≤ n := by
  cases mark <;> simp [isUnread]

theorem irqLevel_iff (s : State) :
    s.irqLevel = true ↔
      (∃ n, s.rep.markA = some n ∧ s.rep.readSeq ≤ n ∧ s.rep.quiet = 0) ∨
      (∃ n, s.rep.markA7 = some n ∧ s.rep.readSeq ≤ n) := by
  simp only [State.irqLevel, Bool.or_eq_true, Bool.and_eq_true, isUnread_iff, decide_eq_true_eq]
  refine or_congr_left ⟨?_, ?_⟩
  · rintro ⟨⟨n, hmark, hread⟩, hquiet⟩
    exact ⟨n, hmark, hread, hquiet⟩
  · rintro ⟨n, hmark, hread, hquiet⟩
    exact ⟨⟨n, hmark, hread⟩, hquiet⟩

theorem idleHold_iff (s : State) : s.idleHold = true ↔ ∃ p, s.cmd.profile = some p ∧ p.idleHold = true := by
  unfold State.idleHold
  split
  · next p hp => simp [hp]
  · next hp => simp [hp]

theorem holdLevel_iff (s : State) :
    s.holdLevel = true ↔
      s.seq.tracking = .unconfigured ∨
      (s.seq.tracking = .idle ∧ ∃ p, s.cmd.profile = some p ∧ p.idleHold = true) ∨
      (s.seq.tracking = .advancing ∨ s.seq.pendingIndex = 1) ∨
      (s.seq.tracking = .marking ∨ s.seq.tracking = .lost ∨ s.seq.tracking = .halted) ∨ s.rep.fillLatch = true := by
  simp only [State.holdLevel, Bool.or_eq_true, decide_eq_true_eq]
  cases s.seq.tracking <;> simp [idleHold_iff, or_assoc]

/-- With all rejected, none or the row being presented (R125). -/
theorem rejLevels_cases (s : State) :
    (s.seq.tracking = .marking ∨ s.seq.tracking = .lost ∨ s.seq.tracking = .halted → s.rejLevels = 0xFF) ∧
    (s.seq.tracking = .unconfigured → s.rejLevels = 0) ∧
    (s.seq.tracking = .idle ∨ s.seq.tracking = .running ∨ s.seq.tracking = .advancing →
      s.rejLevels = s.disch.presented) := by
  unfold State.rejLevels
  cases s.seq.tracking <;> simp

/-- Settles O6: every step that does something ends with the lines at their levels, and the levels are those of the rules. -/
theorem stepKeepsLines : Obligations.StepKeepsLines := by
  intro s t hs h
  have hlines := lines_step hs h
  have hpins : t.pins = t.pinLevels := hlines
  obtain ⟨hall, hnone, hrow⟩ := rejLevels_cases t
  refine ⟨hlines, ?_, ?_, ?_, ?_, ?_⟩
  all_goals rw [hpins, State.pinLevels]
  · exact hall
  · exact hnone
  · intro ht
    dsimp only
    rw [hrow ht]
    refine ⟨fun hlow hhigh => if_pos ⟨hlow, hhigh⟩, fun hout => if_neg ?_⟩
    rintro ⟨hlow, hhigh⟩
    omega
  · exact irqLevel_iff t
  · exact holdLevel_iff t

end Sys2Proof.Machine
end

