-- ==== Sys2Proof/Proofs/EventLaws.lean ====
section
/-! PROOF. What the operations that STOP, hard fault entry and the acceptance of an advance share do to each block (R33, R46, R93,
R109, R142, R143). -/

namespace Sys2Proof.Machine

/-! ## Views that are dropped from a port (R33, R93) -/

@[simp] theorem abandonWork_fields (s : State) (p : Port) :
    (s.abandonWork p).mem = s.mem ∧ (s.abandonWork p).psel = s.psel ∧ (s.abandonWork p).inReset = s.inReset ∧
    (s.abandonWork p).portA = s.portA ∧ (s.abandonWork p).portB = s.portB ∧ (s.abandonWork p).view = s.view ∧
    (s.abandonWork p).claims = s.claims ∧ (s.abandonWork p).seq = s.seq ∧ (s.abandonWork p).time = s.time ∧
    (s.abandonWork p).disch = s.disch ∧ (s.abandonWork p).cmd = s.cmd ∧ (s.abandonWork p).rep = s.rep ∧
    (s.abandonWork p).pins = s.pins ∧ (s.abandonWork p).choices = s.choices ∧
    (s.abandonWork p).pending = s.pending ∧
    (s.abandonWork p).arb.hold = s.arb.hold.map fun w => w.orphaned p := by
  simp [State.abandonWork]

@[simp] theorem abandonWork_port (s : State) (p q : Port) : (s.abandonWork p).port q = s.port q := by cases q <;> rfl

/-- Orphaning a demand initialisation leaves begun entries begun. -/
theorem begun_of_orphaned {s t : State} {p : Port} (h : t.arb.hold = s.arb.hold.map fun w => w.orphaned p) (q : Port) :
    t.begun q = s.begun q := by
  unfold State.begun
  rw [h]
  cases s.arb.hold with
  | none => rfl
  | some w =>
    cases w with
    | demandInit r f c purpose =>
      by_cases hr : r = p <;> simp [Work.orphaned, hr]
    | _ => rfl

/-- Orphaning a demand initialisation leaves reads under their hold. -/
theorem reading_of_orphaned {s t : State} {p : Port} (h : t.arb.hold = s.arb.hold.map fun w => w.orphaned p) (q : Port) :
    t.reading q = s.reading q := by
  unfold State.reading
  rw [h]
  cases s.arb.hold with
  | none => rfl
  | some w =>
    cases w with
    | demandInit r f c purpose =>
      by_cases hr : r = p <;> simp [Work.orphaned, hr]
    | _ => rfl

/-- With the work of the executor abandoned where it is on a view, the port is replaced. -/
theorem dropViews_cases (s : State) (p : Port) :
    s.dropViews p = (s.abandonWork p).setPort p (s.portWithoutViews p) ∨
    s.dropViews p = s.setPort p (s.portWithoutViews p) := by
  unfold State.dropViews
  dsimp only
  split
  · exact .inl rfl
  · exact .inr rfl

@[simp] theorem dropViews_fields (s : State) (p : Port) :
    (s.dropViews p).mem = s.mem ∧ (s.dropViews p).psel = s.psel ∧ (s.dropViews p).inReset = s.inReset ∧
    (s.dropViews p).view = s.view ∧ (s.dropViews p).claims = s.claims ∧ (s.dropViews p).seq = s.seq ∧
    (s.dropViews p).time = s.time ∧ (s.dropViews p).disch = s.disch ∧ (s.dropViews p).cmd = s.cmd ∧
    (s.dropViews p).rep = s.rep ∧ (s.dropViews p).pins = s.pins ∧ (s.dropViews p).choices = s.choices ∧
    (s.dropViews p).pending = s.pending := by
  obtain h | h := dropViews_cases s p <;> simp [h]

@[simp] theorem dropViews_same (s : State) (p : Port) : (s.dropViews p).port p = s.portWithoutViews p := by
  obtain h | h := dropViews_cases s p <;> rw [h, setPort_same]

theorem dropViews_other (s : State) (p q : Port) (hq : q ≠ p) : (s.dropViews p).port q = s.port q := by
  obtain h | h := dropViews_cases s p
  · rw [h, setPort_other _ _ _ _ hq, abandonWork_port]
  · rw [h, setPort_other _ _ _ _ hq]

theorem begun_dropViews (s : State) (p q : Port) : (s.dropViews p).begun q = s.begun q := by
  obtain h | h := dropViews_cases s p
  · rw [h]
    exact begun_of_orphaned (p := p) (by simp) q
  · simp [h, State.begun]

theorem reading_dropViews (s : State) (p q : Port) : (s.dropViews p).reading q = s.reading q := by
  obtain h | h := dropViews_cases s p
  · rw [h]
    exact reading_of_orphaned (p := p) (by simp) q
  · simp [h, State.reading]

/-- A port without its views is made of the port, what is begun and what is read. -/
theorem portWithoutViews_congr {s t : State} {p : Port} (hport : t.port p = s.port p) (hbegun : t.begun p = s.begun p)
    (hreading : t.reading p = s.reading p) : t.portWithoutViews p = s.portWithoutViews p := by
  simp only [State.portWithoutViews, hport, hbegun, hreading]

/-- Both ports without their views, whatever the order. -/
theorem dropViews_both (s : State) (p : Port) : ((s.dropViews .a).dropViews .b).port p = s.portWithoutViews p := by
  cases p
  · rw [dropViews_other _ _ _ (by decide), dropViews_same]
  · rw [dropViews_same]
    exact portWithoutViews_congr (dropViews_other _ _ _ (by decide)) (begun_dropViews _ _ _) (reading_dropViews _ _ _)

/-- What of a port's queue stays: the begun entry and what is no view (R93). -/
theorem queue_portWithoutViews (s : State) (p : Port) :
    (s.portWithoutViews p).queue =
      begunPart (s.begun p) (s.port p).queue ++ (notBegun (s.begun p) (s.port p).queue).filter fun e => !e.isView := by
  unfold State.portWithoutViews
  dsimp only
  split
  · split <;> rfl
  · rfl
  · rfl

/-- A pending view read that is not under its hold is answered ERROR; any other pending read stays (R33). -/
theorem pending_portWithoutViews (s : State) (p : Port) :
    (∀ g, (s.port p).pending = some (.view g) → s.reading p = false →
      (s.portWithoutViews p).pending = none ∧ (s.portWithoutViews p).answer = some .error) ∧
    (∀ g, (s.port p).pending = some (.view g) → s.reading p = true →
      (s.portWithoutViews p).pending = some (.view g)) ∧
    ∀ b, (s.port p).pending = some (.plain b) → (s.portWithoutViews p).pending = some (.plain b) := by
  refine ⟨fun g hg hr => ?_, fun g hg hr => ?_, fun b hb => ?_⟩
  · simp [State.portWithoutViews, hg, hr]
  · simp [State.portWithoutViews, hg, hr]
  · simp [State.portWithoutViews, hb]

/-! ## The stations -/

@[simp] theorem clearViews_fields (s : State) (p : Profile) :
    (s.clearViews p).mem = s.mem ∧ (s.clearViews p).psel = s.psel ∧ (s.clearViews p).inReset = s.inReset ∧
    (s.clearViews p).portA = s.portA ∧ (s.clearViews p).portB = s.portB ∧ (s.clearViews p).claims = s.claims ∧
    (s.clearViews p).arb = s.arb ∧ (s.clearViews p).seq = s.seq ∧ (s.clearViews p).time = s.time ∧
    (s.clearViews p).disch = s.disch ∧ (s.clearViews p).cmd = s.cmd ∧ (s.clearViews p).rep = s.rep ∧
    (s.clearViews p).pins = s.pins ∧ (s.clearViews p).choices = s.choices ∧
    (s.clearViews p).pending = s.pending := mapStations_fields s p _

/-- The stations of enabled slots are changed, those of the others stay. -/
theorem mapStations_view (s : State) (p : Profile) (f : Fin 8 → SlotSettings → Station → Station) (i : Fin 8) :
    (s.mapStations p f).view.get i =
      if (p.slots.get i).enabled then f i (p.slots.get i) (s.view.get i) else s.view.get i := get_make _ i

/-! ## START FRESH that ends with an event (R109, R143) -/

@[simp] theorem endStart_fields (s : State) (code : OutcomeCode) (detail : BitVec 16) :
    (s.endStart code detail).mem = s.mem ∧ (s.endStart code detail).psel = s.psel ∧
    (s.endStart code detail).inReset = s.inReset ∧ (s.endStart code detail).portA = s.portA ∧
    (s.endStart code detail).portB = s.portB ∧ (s.endStart code detail).view = s.view ∧
    (s.endStart code detail).claims = s.claims ∧ (s.endStart code detail).arb = s.arb ∧
    (s.endStart code detail).seq = s.seq ∧ (s.endStart code detail).time = s.time ∧
    (s.endStart code detail).disch = s.disch ∧ (s.endStart code detail).rep = s.rep ∧
    (s.endStart code detail).pins = s.pins ∧ (s.endStart code detail).choices = s.choices ∧
    (s.endStart code detail).pending = s.pending ∧ (s.endStart code detail).cmd.profile = s.cmd.profile := by
  unfold State.endStart
  split <;> exact ⟨rfl, rfl, rfl, rfl, rfl, rfl, rfl, rfl, rfl, rfl, rfl, rfl, rfl, rfl, rfl, rfl⟩

theorem endStart_running {s : State} {tag : Byte} (h : s.cmd.running = some (.startFresh tag)) (code : OutcomeCode)
    (detail : BitVec 16) :
    (s.endStart code detail).cmd =
      { s.cmd with running := none, waitingResult := some { tag := tag, code := code, detail := detail } } := by
  simp [State.endStart, h]

theorem endStart_idle {s : State} (h : ∀ tag, s.cmd.running ≠ some (.startFresh tag)) (code : OutcomeCode)
    (detail : BitVec 16) : s.endStart code detail = s := by
  unfold State.endStart
  split
  · next tag htag => exact absurd htag (h tag)
  · rfl
  · rfl

/-- START FRESH in progress has ended, and no APPLY was in progress. -/
theorem running_endStart {s : State} (h : ∀ tag, s.cmd.running ≠ some (.apply tag)) (code : OutcomeCode)
    (detail : BitVec 16) : (s.endStart code detail).cmd.running = none := by
  unfold State.endStart
  split
  · rfl
  · next tag htag => exact absurd htag (h tag)
  · next hnone => exact hnone

/-- The outcome with which START FRESH ends at hard fault entry (R143). -/
def faultOutcome : FaultKind → OutcomeCode × BitVec 16
  | .memory => (.memoryError, 0)
  | .indexOverrun => (.wrongState, 4)

theorem endStartAtFault_eq (s : State) (kind : FaultKind) :
    s.endStartAtFault kind = s.endStart (faultOutcome kind).1 (faultOutcome kind).2 := by cases kind <;> rfl

/-! ## Hard fault entry (R143) -/

/-- Every block at hard fault entry, before the reports. -/
def State.faultEntered (s : State) (p : Profile) (kind : FaultKind) : State :=
  let s1 := (s.enterMarking p kind).withdraw .sequencer
  let s2 := (((s1.tear fun _ => true).dropViews .a).dropViews .b).clearViews p
  ({ s2 with time := s2.time.cleared }).endStartAtFault kind

/-- The reports of hard fault entry, produced together. -/
def State.faultReports (s : State) (p : Profile) (f : FaultSignal) : List (List Content) :=
  [faultReport s f] :: s.tearReports tornFault (fun _ => true) :: s.abandonedReports 3 ++ s.stopStreamReports p

theorem hardFault_eq (s : State) (p : Profile) (f : FaultSignal) (extra : List (List Content)) :
    s.hardFault p f extra =
      ((s.faultEntered p f.kind).produceAll (s.faultReports p f ++ extra)).progressMarking := rfl

@[simp] theorem faultEntered_fields (s : State) (p : Profile) (kind : FaultKind) :
    (s.faultEntered p kind).mem = s.mem ∧ (s.faultEntered p kind).psel = s.psel ∧
    (s.faultEntered p kind).inReset = s.inReset ∧ (s.faultEntered p kind).claims = [] ∧
    (s.faultEntered p kind).seq = (s.enterMarking p kind).seq ∧ (s.faultEntered p kind).time = s.time.cleared ∧
    (s.faultEntered p kind).disch = s.disch ∧ (s.faultEntered p kind).rep = s.rep ∧
    (s.faultEntered p kind).pins = s.pins ∧ (s.faultEntered p kind).choices = s.choices ∧
    (s.faultEntered p kind).pending = s.pending ∧ (s.faultEntered p kind).cmd.profile = s.cmd.profile := by
  simp [State.faultEntered, endStartAtFault_eq, State.enterMarking]

theorem faultEntered_cmd (s : State) (p : Profile) (kind : FaultKind) :
    (s.faultEntered p kind).cmd = (s.endStartAtFault kind).cmd := by
  simp only [State.faultEntered, endStartAtFault_eq, State.endStart, State.enterMarking, clearViews_fields,
    dropViews_fields, tear_fields, withdraw_fields]
  cases s.cmd.running with
  | none => simp
  | some r => cases r <;> simp

theorem faultEntered_port (s : State) (p : Profile) (kind : FaultKind) (q : Port) :
    (s.faultEntered p kind).port q = s.portWithoutViews q := by
  have hport : (s.faultEntered p kind).port q =
      (((((s.enterMarking p kind).withdraw .sequencer).tear fun _ => true).dropViews .a).dropViews .b).port q := by
    cases q <;> simp [State.faultEntered, endStartAtFault_eq, State.port]
  rw [hport, dropViews_both]
  exact portWithoutViews_congr (by cases q <;> rfl) (by simp [State.begun, State.enterMarking])
    (by simp [State.reading, State.enterMarking])

theorem faultEntered_view (s : State) (p : Profile) (kind : FaultKind) (i : Fin 8) :
    (s.faultEntered p kind).view.get i =
      if (p.slots.get i).enabled then { ((s.view.get i).onFrame none) with held := 0, overflow := 0 } else s.view.get i := by
  simp [State.faultEntered, endStartAtFault_eq, State.clearViews, mapStations_view, State.enterMarking]

end Sys2Proof.Machine
end

