-- ==== Sys2Proof/Proofs/Modes.lean ====
section
/-! PROOF. The tracking state agrees with the progress that the blocks hold, after every step (R98, R100, R128, R129, R133, R137,
R144, R146). -/

namespace Sys2Proof.Machine

/-! ## The agreement outside RESET -/

/-- The tracking state agrees with the advance record, the marking progress, the pending index, the active profile and the
command in progress. -/
structure State.Modes (s : State) : Prop where
  advance : s.seq.tracking = .advancing ↔ s.seq.advance.isSome
  marking : s.seq.tracking = .marking ↔ s.seq.marking.isSome
  profile : s.seq.tracking = .unconfigured ↔ s.cmd.profile = none
  index : s.seq.pendingIndex ≤ 1
  waiting : s.seq.pendingIndex = 1 → s.seq.tracking = .advancing
  apply : ∀ tag, s.cmd.running = some (.apply tag) → s.seq.tracking = .unconfigured ∨ s.seq.tracking = .idle
  start : ∀ tag, s.cmd.running = some (.startFresh tag) →
    s.seq.tracking = .advancing ∧ (s.seq.advance.map Advance.kind) = some .start

theorem modesAgree_iff (s : State) :
    s.modesAgree ↔ s.Modes ∧ (s.inReset = true → s.seq.tracking = .unconfigured ∧ s.arb.hold = none) := by
  constructor
  · rintro ⟨h1, h2, h3, h4, h5, h6, h7, h8⟩
    exact ⟨⟨h1, h2, h3, h4, h5, h6, h7⟩, h8⟩
  · rintro ⟨⟨h1, h2, h3, h4, h5, h6, h7⟩, h8⟩
    exact ⟨h1, h2, h3, h4, h5, h6, h7, h8⟩

/-- What the agreement speaks of is as before. -/
def SameModes (s t : State) : Prop :=
  t.seq.tracking = s.seq.tracking ∧ t.seq.advance = s.seq.advance ∧ t.seq.marking = s.seq.marking ∧
  t.seq.pendingIndex = s.seq.pendingIndex ∧ t.cmd.profile = s.cmd.profile ∧ t.cmd.running = s.cmd.running

theorem SameModes.refl (s : State) : SameModes s s := ⟨rfl, rfl, rfl, rfl, rfl, rfl⟩

theorem SameModes.trans {s t u : State} (h : SameModes s t) (k : SameModes t u) : SameModes s u := by
  obtain ⟨h1, h2, h3, h4, h5, h6⟩ := h
  obtain ⟨k1, k2, k3, k4, k5, k6⟩ := k
  exact ⟨k1.trans h1, k2.trans h2, k3.trans h3, k4.trans h4, k5.trans h5, k6.trans h6⟩

/-- An operation that leaves the Ring Sequencer and the Command Unit as they were. -/
theorem SameModes.of_eq {s t : State} (hseq : t.seq = s.seq) (hcmd : t.cmd = s.cmd) : SameModes s t := by
  simp [SameModes, hseq, hcmd]

theorem SameModes.modes {s t : State} (h : SameModes s t) (hs : s.Modes) : t.Modes := by
  obtain ⟨h1, h2, h3, h4, h5, h6⟩ := h
  obtain ⟨m1, m2, m3, m4, m5, m6, m7⟩ := hs
  exact ⟨by rw [h1, h2]; exact m1, by rw [h1, h3]; exact m2, by rw [h1, h5]; exact m3, by rw [h4]; exact m4,
    by rw [h4, h1]; exact m5, by rw [h6, h1]; exact m6, by rw [h6, h1, h2]; exact m7⟩

/-- The agreement speaks of the Ring Sequencer and the Command Unit alone. -/
theorem State.Modes.of_eq {s t : State} (hs : s.Modes) (hseq : t.seq = s.seq) (hcmd : t.cmd = s.cmd) : t.Modes :=
  (SameModes.of_eq hseq hcmd).modes hs

/-! ## What the tracking state says of the rest -/

/-- Neither an advance nor the marking pass is in flight, and no command. -/
theorem modes_quiet {s : State} {t : Tracking} (htracking : s.seq.tracking = t) (ht : t ≠ .advancing ∧ t ≠ .marking)
    (hadvance : s.seq.advance = none) (hmarking : s.seq.marking = none) (hindex : s.seq.pendingIndex = 0)
    (hprofile : t = .unconfigured ↔ s.cmd.profile = none) (hrunning : s.cmd.running = none) : s.Modes := by
  subst htracking
  exact ⟨by simp [hadvance, ht.1], by simp [hmarking, ht.2], hprofile, by simp [hindex], by simp [hindex],
    by simp [hrunning], by simp [hrunning]⟩

/-- The state takes what no advance and no marking pass leaves. -/
theorem State.Modes.calm {s : State} (hs : s.Modes) (hadvancing : s.seq.tracking ≠ .advancing)
    (hmarking : s.seq.tracking ≠ .marking) :
    s.seq.advance = none ∧ s.seq.marking = none ∧ s.seq.pendingIndex = 0 := by
  obtain ⟨m1, m2, -, m4, m5, -, -⟩ := hs
  refine ⟨?_, ?_, ?_⟩
  · simpa [hadvancing] using m1
  · simpa [hmarking] using m2
  · have : s.seq.pendingIndex ≠ 1 := fun h => hadvancing (m5 h)
    omega

/-- In ADVANCING there is an advance record, a profile, no marking pass and no APPLY. -/
theorem State.Modes.inFlight {s : State} (hs : s.Modes) (h : s.seq.tracking = .advancing) :
    s.seq.advance.isSome = true ∧ s.seq.marking = none ∧ s.cmd.profile ≠ none ∧
    ∀ tag, s.cmd.running ≠ some (.apply tag) := by
  obtain ⟨m1, m2, m3, -, -, m6, -⟩ := hs
  rw [h] at m1 m2 m3 m6
  refine ⟨m1.mp rfl, by simpa using m2, by simpa using m3, fun tag htag => ?_⟩
  obtain h | h := m6 tag htag <;> cases h

/-! ## Faults (R142 to R145) -/

theorem sameModes_produceAll (s : State) (bs : List (List Content)) : SameModes s (s.produceAll bs) :=
  .of_eq (by simp) (by simp)

/-- In MARKING no advance, no index and no command waits, and a profile is active. -/
theorem State.Modes.inMarking {s : State} (hs : s.Modes) (h : s.seq.tracking = .marking) :
    s.seq.advance = none ∧ s.seq.pendingIndex = 0 ∧ s.cmd.profile ≠ none ∧ s.cmd.running = none := by
  obtain ⟨m1, -, m3, m4, m5, m6, m7⟩ := hs
  rw [h] at m1 m3 m5 m6 m7
  refine ⟨by simpa using m1, ?_, by simpa using m3, ?_⟩
  · have : s.seq.pendingIndex ≠ 1 := fun h => nomatch m5 h
    omega
  · cases hr : s.cmd.running with
    | none => rfl
    | some r =>
      cases r with
      | apply tag => obtain h | h := m6 tag hr <;> cases h
      | startFresh tag => exact nomatch (m7 tag hr).1

theorem modes_progressMarking {s : State} (hs : s.Modes) : s.progressMarking.Modes := by
  unfold State.progressMarking
  split
  · exact hs
  · next m hm =>
    have htracking : s.seq.tracking = .marking := hs.marking.mpr (by simp [hm])
    obtain ⟨hadvance, hindex, hprofile, hrunning⟩ := hs.inMarking htracking
    split
    · exact hs
    · split
      · exact modes_quiet (t := .lost) rfl (by decide) hadvance rfl hindex (by simpa using hprofile) hrunning
      · exact ⟨by simp [htracking, hadvance], by simp [htracking], by simpa [htracking] using hprofile, by simp [hindex],
          by simp [hindex], by simp [hrunning], by simp [hrunning]⟩

/-- Hard fault entry from any state with a profile and no APPLY in progress. -/
theorem modes_hardFault {s : State} (p : Profile) (f : FaultSignal) (extra : List (List Content))
    (hprofile : s.cmd.profile ≠ none) (hrunning : ∀ tag, s.cmd.running ≠ some (.apply tag)) :
    (s.hardFault p f extra).Modes := by
  rw [hardFault_eq]
  refine modes_progressMarking ((sameModes_produceAll _ _).modes ?_)
  have hrun : (s.faultEntered p f.kind).cmd.running = none := by
    rw [faultEntered_cmd, endStartAtFault_eq]
    exact running_endStart hrunning _ _
  exact ⟨by simp [State.enterMarking], by simp [State.enterMarking], by simpa [State.enterMarking] using hprofile,
    by simp [State.enterMarking], by simp [State.enterMarking], by simp [hrun], by simp [hrun]⟩

theorem modes_enterHalted {s : State} (hs : s.Modes) (h : s.seq.tracking = .marking) : s.enterHalted.Modes := by
  obtain ⟨hadvance, hindex, hprofile, hrunning⟩ := hs.inMarking h
  have hactive : s.enterHalted.cmd.profile ≠ none := hprofile
  exact modes_quiet (t := .halted) rfl (by decide) hadvance rfl hindex (by simpa using hactive) hrunning

/-- A fault that is a hard fault needs a profile and no APPLY in progress alone. -/
theorem modes_fault_hard {s : State} (f : FaultSignal) (extra : List (List Content))
    (ht : s.seq.tracking = .running ∨ s.seq.tracking = .advancing) (hprofile : s.cmd.profile ≠ none)
    (hrunning : ∀ tag, s.cmd.running ≠ some (.apply tag)) : (s.fault f extra).Modes := by
  obtain ⟨p, hp⟩ := Option.ne_none_iff_exists'.mp hprofile
  unfold State.fault
  obtain h | h := ht
  · rw [h, hp]
    exact modes_hardFault p f extra hprofile hrunning
  · rw [h, hp]
    exact modes_hardFault p f extra hprofile hrunning

theorem modes_fault {s : State} (f : FaultSignal) (extra : List (List Content)) (hs : s.Modes) :
    (s.fault f extra).Modes := by
  have hcounted : ({ s with seq := { s.seq with faultCount := addUpTo Config.maxHalf s.seq.faultCount 1 } } : State).Modes :=
    SameModes.modes (s := s) ⟨rfl, rfl, rfl, rfl, rfl, rfl⟩ hs
  have hreports := fun bs => (sameModes_produceAll
    { s with seq := { s.seq with faultCount := addUpTo Config.maxHalf s.seq.faultCount 1 } } bs).modes hcounted
  have hactive : s.seq.tracking ≠ .unconfigured → s.cmd.profile ≠ none := fun h hp => h (hs.profile.mpr hp)
  have hno : s.seq.tracking ≠ .unconfigured → s.seq.tracking ≠ .idle → ∀ tag, s.cmd.running ≠ some (.apply tag) :=
    fun h1 h2 tag htag => (hs.apply tag htag).elim h1 h2
  by_cases hrun : s.seq.tracking = .running
  · exact modes_fault_hard f extra (.inl hrun) (hactive (by simp [hrun])) (hno (by simp [hrun]) (by simp [hrun]))
  · by_cases hadv : s.seq.tracking = .advancing
    · exact modes_fault_hard f extra (.inr hadv) (hactive (by simp [hadv])) (hno (by simp [hadv]) (by simp [hadv]))
    · unfold State.fault
      dsimp only
      split
      · contradiction
      · contradiction
      · next hm => exact modes_enterHalted (hreports _) (by simpa using hm)
      · exact hreports _
      · exact hreports _
      · exact hreports _
      · exact hreports _
      · contradiction
      · contradiction

/-! ## The advance (R99 to R109) -/

/-- A state between two advances: a profile is active, nothing is in flight and no command is in progress. -/
structure State.Ready (s : State) : Prop where
  tracking : s.seq.tracking = .running ∨ s.seq.tracking = .advancing
  profile : s.cmd.profile ≠ none
  marking : s.seq.marking = none
  index : s.seq.pendingIndex = 0
  running : s.cmd.running = none

theorem modes_advanceAll {s : State} (p : Profile) (hs : s.Ready) : (s.advanceAll p).Modes := by
  have hsame : SameModes (s.beginAdvance p) (s.advanceAll p) := by
    unfold State.advanceAll
    dsimp only
    exact .of_eq (by simp [State.advanceViews]) (by simp [State.advanceViews])
  obtain ⟨-, hprofile, hmarking, hindex, hrunning⟩ := hs
  refine hsame.modes ⟨by simp [State.beginAdvance], by simp [State.beginAdvance, hmarking],
    by simpa [State.beginAdvance] using hprofile, by simp [State.beginAdvance, hindex], by simp [State.beginAdvance],
    by simp [State.beginAdvance, hrunning], by simp [State.beginAdvance, hrunning]⟩

theorem modes_acceptAdvance {s : State} (hs : s.Ready) : s.acceptAdvance.Modes := by
  unfold State.acceptAdvance
  split
  · next hp => exact absurd hp hs.profile
  · split
    · exact modes_fault_hard _ _ hs.tracking hs.profile (by simp [hs.running])
    · exact modes_advanceAll _ hs

/-- An advance in flight completes (R109). -/
theorem modes_completeAdvance {s : State} (hs : s.Modes) (h : s.seq.tracking = .advancing) : s.completeAdvance.Modes := by
  obtain ⟨-, hmarking, hprofile, happly⟩ := hs.inFlight h
  have hindex := hs.index
  have hrunning : (({ s with seq := { s.seq with advance := none } } : State).endStart .done 0).cmd.running = none :=
    running_endStart (s := { s with seq := { s.seq with advance := none } }) happly _ _
  unfold State.completeAdvance
  dsimp only
  split
  · exact modes_acceptAdvance ⟨by simp [h], by simpa using hprofile, by simpa using hmarking, rfl, hrunning⟩
  · exact modes_quiet (t := .running) rfl (by decide) (by simp) (by simpa using hmarking) (by simp; omega)
      (by simpa using hprofile) hrunning

/-- The advance record of an advance in flight changes, but not its kind. -/
theorem modes_setAdvance {s : State} {v w : Advance} (hs : s.Modes) (hv : s.seq.advance = some v) (hkind : w.kind = v.kind) :
    ({ s with seq := { s.seq with advance := some w } } : State).Modes := by
  obtain ⟨m1, m2, m3, m4, m5, m6, m7⟩ := hs
  exact ⟨by simpa [hv] using m1, m2, m3, m4, m5, m6, by simpa [hv, hkind] using m7⟩

theorem tracking_of_advance {s : State} {v : Advance} (hs : s.Modes) (hv : s.seq.advance = some v) :
    s.seq.tracking = .advancing := hs.advance.mpr (by simp [hv])

theorem modes_enterJudging {s : State} (p : Profile) {v w : Advance} (hs : s.Modes) (hv : s.seq.advance = some v)
    (hkind : w.kind = v.kind) : (s.enterJudging p w).Modes := by
  unfold State.enterJudging
  split
  · exact modes_setAdvance hs hv hkind
  · exact modes_completeAdvance hs (tracking_of_advance hs hv)

theorem modes_nextPair {s : State} (p : Profile) {v w : Advance} (hs : s.Modes) (hv : s.seq.advance = some v)
    (hkind : w.kind = v.kind) : (s.nextPair p w).Modes := by
  unfold State.nextPair
  split
  · exact modes_setAdvance hs hv hkind
  · exact modes_enterJudging p hs hv hkind

theorem modes_afterInitSet {s : State} (p : Profile) (hs : s.Modes) : (s.afterInitSet p).Modes := by
  unfold State.afterInitSet
  split
  · exact modes_progressMarking hs
  · split
    · next v hv =>
      split
      · unfold State.initialised
        split
        · exact modes_completeAdvance hs (tracking_of_advance hs hv)
        · exact modes_nextPair p hs hv rfl
      · exact hs
    · exact hs

theorem modes_addToInitSet {s : State} (frame card : Nat) (hs : s.Modes) : (s.addToInitSet frame card).Modes := by
  have hset : ∀ (cards : List Nat) (under : Option Nat),
      ({ s with seq := { s.seq with initSet := cards, underInit := under } } : State).Modes :=
    fun _ _ => SameModes.modes (s := s) ⟨rfl, rfl, rfl, rfl, rfl, rfl⟩ hs
  unfold State.addToInitSet
  split
  · exact hs
  · split
    · dsimp only
      split
      · exact hset _ _
      · exact modes_afterInitSet _ (hset _ _)
    · exact hs

theorem modes_pairExamined {s : State} (p : Profile) {v : Advance} (d : Departure) (c : CheckProgress) (hs : s.Modes)
    (hv : s.seq.advance = some v) : (s.pairExamined p v d c).Modes := by
  unfold State.pairExamined
  dsimp only
  split
  · exact modes_nextPair p hs hv rfl
  · exact modes_nextPair (s := s.produce (missedReport p d c)) p (hs.of_eq rfl rfl) hv rfl

theorem modes_cardExamined {s : State} (p : Profile) (card : Nat) (written : Bool) (hs : s.Modes) :
    (s.cardExamined p card written).Modes := by
  unfold State.cardExamined
  split
  · exact hs
  · next v hv =>
    split
    · dsimp only
      split
      · exact modes_pairExamined p _ _ hs hv
      · exact modes_setAdvance hs hv rfl
    · exact hs

theorem modes_cardJudged {s : State} (p : Profile) (frame card : Nat) (x : Verdict) (hs : s.Modes) :
    (s.cardJudged p frame card x).Modes := by
  unfold State.cardJudged
  split
  · exact hs
  · next v hv =>
    split
    · exact hs
    · dsimp only
      split
      · have hreported := fun bs => (sameModes_produceAll s bs).modes hs
        refine modes_completeAdvance ((hreported _).of_eq rfl rfl) ?_
        simpa using tracking_of_advance hs hv
      · exact modes_setAdvance hs hv rfl

theorem modes_cardMarked {s : State} (hs : s.Modes) : s.cardMarked.Modes := by
  unfold State.cardMarked
  split
  · next m hm =>
    obtain ⟨m1, m2, m3, m4, m5, m6, m7⟩ := hs
    exact modes_progressMarking ⟨m1, by simpa [hm] using m2, m3, m4, m5, m6, m7⟩
  · exact hs

theorem modes_endDrain {s : State} (p : Profile) {v : Advance} (d : Departure) (hs : s.Modes)
    (hv : s.seq.advance = some v) : (s.endDrain p v d).Modes := by
  unfold State.endDrain
  dsimp only
  split
  · exact modes_nextPair p hs hv rfl
  · exact modes_setAdvance hs hv rfl

/-! ## The commands of software (R129 to R141) -/

theorem modes_takeApply {s : State} (tag : Byte) (hs : s.Modes)
    (h : s.seq.tracking = .unconfigured ∨ s.seq.tracking = .idle) : (s.takeApply tag).Modes := by
  obtain ⟨m1, m2, m3, m4, m5, -, -⟩ := hs
  exact ⟨m1, m2, m3, m4, m5, fun _ _ => h, nofun⟩

theorem modes_takeStartFresh {s : State} (tag : Byte) (hs : s.Modes) (h : s.seq.tracking = .idle) :
    (s.takeStartFresh tag).Modes := by
  obtain ⟨-, hmarking, hindex⟩ := hs.calm (by simp [h]) (by simp [h])
  unfold State.takeStartFresh
  split
  · exact hs
  · next p hp =>
    refine SameModes.modes (s := s.beginStart tag) (.of_eq rfl rfl) ?_
    exact ⟨by simp [State.beginStart], by simp [State.beginStart, hmarking], by simp [State.beginStart, hp],
      by simp [State.beginStart, hindex], by simp [State.beginStart], nofun, fun _ _ => ⟨rfl, rfl⟩⟩

theorem modes_takeStartCarry {s : State} (tag : Byte) (hs : s.Modes) (hrunning : s.cmd.running = none)
    (h : s.seq.tracking = .idle) : (s.takeStartCarry tag).Modes := by
  obtain ⟨hadvance, hmarking, hindex⟩ := hs.calm (by simp [h]) (by simp [h])
  unfold State.takeStartCarry
  split
  · exact hs
  · next p hp =>
    exact modes_quiet (t := .running) rfl (by decide) hadvance hmarking hindex
      (by simp [State.done, State.startViews, hp]) hrunning

theorem modes_takeStop {s : State} (tag : Byte) (hs : s.Modes) (hrunning : s.cmd.running = none)
    (h : s.seq.tracking = .running) : (s.takeStop tag).Modes := by
  obtain ⟨hadvance, hmarking, hindex⟩ := hs.calm (by simp [h]) (by simp [h])
  have hscan : ∀ u : State, u.withdrawScan.seq = u.seq ∧ u.withdrawScan.cmd = u.cmd := by
    intro u
    unfold State.withdrawScan
    split <;> exact ⟨rfl, rfl⟩
  unfold State.takeStop
  split
  · exact hs
  · next p hp =>
    refine (sameModes_produceAll _ _).modes ?_
    exact modes_quiet (t := .idle) (by simp [State.done, hscan]) (by decide) (by simp [State.done, hscan, hadvance])
      (by simp [State.done, hscan, hmarking]) (by simp [State.done, hscan, hindex])
      (by simp [State.done, hscan, hp]) (by simp [State.done, hscan, hrunning])

theorem modes_takeRecover {s : State} (tag : Byte) (hs : s.Modes) (hrunning : s.cmd.running = none)
    (h : s.seq.tracking = .lost) : (s.takeRecover tag).Modes := by
  obtain ⟨hadvance, hmarking, hindex⟩ := hs.calm (by simp [h]) (by simp [h])
  have hprofile : s.cmd.profile ≠ none := fun hp => nomatch h.symm.trans (hs.profile.mpr hp)
  rw [takeRecover_eq]
  refine (sameModes_produceAll _ _).modes ?_
  exact modes_quiet (t := .idle) rfl (by decide) hadvance hmarking hindex (by simpa using hprofile) hrunning

theorem modes_takeCommand {s : State} (v : Word) (hs : s.Modes) : (s.takeCommand v).Modes := by
  unfold State.takeCommand
  split
  · exact hs
  · split
    · refine SameModes.modes (s := s) ?_ hs
      unfold State.produceOutcome
      split <;> exact ⟨rfl, rfl, rfl, rfl, rfl, rfl⟩
    · next c hrule =>
      obtain ⟨hrunning, -, hallowed, -⟩ := rule_taken hrule
      cases c with
      | apply => exact modes_takeApply _ hs (by simpa [Command.allowed] using hallowed)
      | start =>
        have hidle : s.seq.tracking = .idle := by simpa [Command.allowed] using hallowed
        unfold State.runCommand
        dsimp only
        split
        · exact modes_takeStartCarry _ hs hrunning hidle
        · exact modes_takeStartFresh _ hs hidle
      | stop => exact modes_takeStop _ hs hrunning (by simpa [Command.allowed] using hallowed)
      | recover => exact modes_takeRecover _ hs hrunning (by simpa [Command.allowed] using hallowed)
      | quiet => exact SameModes.modes (s := s) ⟨rfl, rfl, rfl, rfl, rfl, rfl⟩ hs

theorem sameModes_updateLatch (s : State) : SameModes s s.updateLatch := by
  unfold State.updateLatch
  split <;> exact .of_eq rfl rfl

theorem modes_handOver {s : State} (p : Port) (a : Nat) (v : Word) (hs : s.Modes) : (s.handOver p a v).Modes := by
  unfold State.handOver
  split
  · exact modes_takeCommand v hs
  · split
    · unfold State.takeReadPointer
      split
      · exact hs
      · split
        · exact (sameModes_updateLatch _).modes (hs.of_eq rfl rfl)
        · exact hs.of_eq rfl rfl
    · split
      · rw [takeQuietExtend_eq]
        exact SameModes.modes (s := s) ⟨rfl, rfl, rfl, rfl, rfl, rfl⟩ hs
      · exact hs

/-- APPLY ends without a new profile. -/
theorem modes_endApply {s : State} (tag : Byte) (code : OutcomeCode) (detail : BitVec 16) (hs : s.Modes) :
    (s.endApply tag code detail).Modes := by
  obtain ⟨m1, m2, m3, m4, m5, -, -⟩ := hs
  exact ⟨m1, m2, m3, m4, m5, nofun, nofun⟩

theorem modes_makeChecks {s : State} (hs : s.Modes) : s.makeChecks.Modes := by
  unfold State.makeChecks
  split
  · next tag hwait =>
    have hrunning : s.cmd.running = some (.apply tag) := by
      unfold State.checksWait at hwait
      split at hwait
      · next tag' hr =>
        split at hwait
        · cases hwait
        · cases hwait
          exact hr
      · cases hwait
      · cases hwait
    have hstate := hs.apply tag hrunning
    obtain ⟨hadvance, hmarking, hindex⟩ := hs.calm (by rintro h; simp [h] at hstate) (by rintro h; simp [h] at hstate)
    unfold State.checkProfile
    split
    · exact modes_endApply _ _ _ hs
    · refine (sameModes_produceAll _ _).modes ?_
      exact modes_quiet (t := .idle) rfl (by decide) hadvance hmarking hindex (by simp) rfl
  · exact hs

/-! ## The ends of units of work (R88 to R91) -/

theorem modes_ownUnit {s : State} (r : Requester) (b : Bus) {ok : State → State} (hs : s.Modes)
    (hok : ∀ t : State, t.Modes → (ok t).Modes) : (s.ownUnit r b ok).Modes := by
  have hmem : ({ s with mem := b.mem } : State).Modes := hs.of_eq rfl rfl
  unfold State.ownUnit
  dsimp only
  split
  · exact modes_fault _ _ hmem
  · exact hok _ hmem

theorem sameModes_endScan (s : State) : SameModes s s.endScan := by
  unfold State.endScan State.startScan
  split <;> exact .of_eq rfl rfl

theorem modes_finishScan {s : State} (p : Profile) (n : RunningScan) (hs : s.Modes) : (s.finishScan p n).Modes := by
  unfold State.finishScan
  refine (sameModes_endScan _).modes ?_
  split
  · exact hs
  · exact hs.of_eq rfl rfl

theorem modes_finishScanRead {s : State} (p : Profile) (slot : Fin 8) (frame card : Nat) (error : Option Nat)
    (hs : s.Modes) : (s.finishScanRead p slot frame card error).Modes := by
  unfold State.finishScanRead
  dsimp only
  split
  · exact modes_fault _ _ ((sameModes_endScan s).modes hs)
  · unfold State.cardScanned
    split
    · exact hs
    · split
      · dsimp only
        split
        · exact modes_finishScan p _ hs
        · exact hs.of_eq rfl rfl
      · exact hs

theorem modes_finishRecord {s : State} (p : Profile) (error : Option Nat) (hs : s.Modes) :
    (s.finishRecord p error).Modes := by
  unfold State.finishRecord
  split
  · exact hs
  · dsimp only
    split
    · exact modes_fault _ _ (hs.of_eq rfl rfl)
    · unfold State.recordWritten
      split
      · exact hs.of_eq rfl rfl
      · exact (sameModes_updateLatch _).modes (hs.of_eq rfl rfl)

theorem modes_finishStatus {s : State} (n : Nat) (v : Word) (error : Option Nat) (hs : s.Modes) :
    (s.finishStatus n v error).Modes := by
  unfold State.finishStatus
  dsimp only
  split
  · exact modes_fault _ _ (hs.of_eq rfl rfl)
  · exact hs.of_eq rfl rfl

theorem modes_finishProfileRead {s : State} (n : Nat) (error : Option Nat) (hs : s.Modes) :
    (s.finishProfileRead n error).Modes := by
  unfold State.finishProfileRead
  dsimp only
  split
  · refine modes_fault _ _ ?_
    unfold State.profileWordLost
    split
    · exact modes_endApply _ _ _ hs
    · exact hs
    · exact hs
  · refine SameModes.modes (s := s) ?_ hs
    unfold State.profileWordRead
    split <;> exact ⟨rfl, rfl, rfl, rfl, rfl, rfl⟩

theorem sameModes_initFailed (s : State) (p : Port) (purpose : InitFor) (a : Nat) :
    SameModes s (s.initFailed p purpose a).1 := by
  cases purpose with
  | gone => exact .refl s
  | read => exact .of_eq (by simp [State.initFailed]) (by simp [State.initFailed])
  | entry =>
    unfold State.initFailed
    dsimp only
    split
    · exact .of_eq (by simp) (by simp)
    · exact .of_eq (by simp) (by simp)
    · exact .refl s
    · exact .refl s
    · exact .refl s

theorem modes_finishDemandInit {s : State} (pr : Profile) (p : Port) (frame card : Nat) (purpose : InitFor)
    (error : Option Nat) (hs : s.Modes) : (s.finishDemandInit pr p frame card purpose error).Modes := by
  unfold State.finishDemandInit
  dsimp only
  split
  · exact modes_fault _ _ ((sameModes_initFailed _ _ _ _).modes (hs.of_eq rfl rfl))
  · exact modes_addToInitSet _ _ (hs.of_eq rfl rfl)

theorem modes_finishWrite {s : State} (p : Port) (a : Nat) (data : Word) (enables : Enables) (isProfile : Bool)
    (error : Option Nat) (hs : s.Modes) : (s.finishWrite p a data enables isProfile error).Modes := by
  have hremoved : ∀ m : Memory, (({ s with mem := m } : State).removeHead p).Modes :=
    fun m => hs.of_eq (by simp) (by simp)
  unfold State.finishWrite
  dsimp only
  split
  · exact (hremoved _).of_eq rfl rfl
  · split
    · exact modes_handOver _ _ _ (hremoved _)
    · exact hremoved _

theorem sameModes_foldl_produce (cs : List Content) (s : State) : SameModes s (cs.foldl State.produce s) := by
  induction cs generalizing s with
  | nil => exact .refl s
  | cons c cs ih => exact (SameModes.of_eq rfl rfl).trans (ih (s.produce c))

theorem modes_makePass {s : State} (p : Port) (slot : Fin 8) (frame card : Nat) (carried : Staged) (data : Word)
    (error : Option Nat) (hs : s.Modes) : (s.makePass p slot frame card carried data error).Modes := by
  unfold State.makePass
  split
  · exact hs
  · exact (sameModes_foldl_produce _ _).modes (hs.of_eq rfl rfl)

theorem modes_finishWith {s : State} {f : Profile → State} (hs : s.Modes) (h : ∀ p, (f p).Modes) :
    (s.finishWith f).Modes := by
  unfold State.finishWith
  split
  · exact h _
  · exact hs

theorem modes_finishWork {s : State} (w : Work) (error : Option Nat) (hs : s.Modes) : (s.finishWork w error).Modes := by
  cases w with
  | cardInit f c => exact modes_finishWith hs fun p => modes_ownUnit _ _ hs fun _ => modes_addToInitSet f c
  | cardCheck i f c => exact modes_finishWith hs fun p => modes_ownUnit _ _ hs fun _ => modes_cardExamined p c _
  | judge f c => exact modes_finishWith hs fun p => modes_ownUnit _ _ hs fun _ => modes_cardJudged p f c _
  | lateRead i f c => exact modes_finishWith hs fun p => modes_finishScanRead p i f c error hs
  | markInit f c => exact modes_finishWith hs fun p => modes_ownUnit _ _ hs fun _ => modes_addToInitSet f c
  | markCheck f c => exact modes_finishWith hs fun p => modes_ownUnit _ _ hs fun _ => modes_cardMarked
  | record => exact modes_finishWith hs fun p => modes_finishRecord p error hs
  | status n v => exact modes_finishStatus n v error hs
  | readPointer => exact modes_ownUnit _ _ hs fun _ => id
  | outcome o => exact modes_ownUnit _ _ hs fun _ => id
  | profileRead n => exact modes_finishProfileRead n error hs
  | demandInit q f c purpose => exact modes_finishWith hs fun p => modes_finishDemandInit p q f c purpose error hs
  | pass q i f c carried data => exact modes_makePass _ _ _ _ _ _ _ (hs.of_eq (by simp) (by simp))
  | write q a data enables isProfile => exact modes_finishWrite q a data enables isProfile error hs
  | plainRead q a =>
    unfold State.finishWork State.finishPlainRead
    dsimp only
    split <;> exact hs.of_eq (by simp) (by simp)
  | viewRead q t staged =>
    refine modes_finishWith hs fun p => ?_
    unfold State.finishViewRead
    dsimp only
    split <;> exact hs.of_eq (by simp) (by simp)

theorem modes_endHold {s : State} (error : Option Nat) (hs : s.Modes) : (s.endHold error).Modes := by
  unfold State.endHold
  split
  · exact modes_finishWork _ _ (hs.of_eq rfl rfl)
  · exact hs

/-! ## The grants -/

theorem sameModes_grantSequencer (s : State) (scan : Bool) : SameModes s (s.grantSequencer scan) :=
  ⟨rfl, rfl, rfl, rfl, rfl, rfl⟩

theorem sameModes_holdsSome (s : State) (w : Option Work) : SameModes s (s.holdsSome w) := by
  cases w <;> exact .of_eq rfl rfl

theorem sameModes_sequencerGranted {s g : State} {q : Request} {w : Option Work}
    (h : s.sequencerGranted q w = some g) : SameModes s g := by
  unfold State.sequencerGranted at h
  split at h
  · cases h
    exact (sameModes_grantSequencer s false).trans (sameModes_holdsSome _ w)
  · cases h

theorem sameModes_withdrawScan (s : State) : SameModes s s.withdrawScan := by
  unfold State.withdrawScan
  split <;> exact .of_eq rfl rfl

theorem sameModes_lateGranted {s g : State} (h : s.lateGranted = some g) : SameModes s g := by
  unfold State.lateGranted at h
  split at h
  · split at h
    · cases h
      exact sameModes_grantSequencer s true
    · cases h
  · split at h
    · cases h
    · split at h
      · cases h
        exact (sameModes_withdrawScan s).trans (sameModes_endScan _)
      · split at h
        · cases h
          exact (sameModes_grantSequencer s true).trans (sameModes_holdsSome _ _)
        · cases h

theorem sameModes_openGroup (s : State) (p : Port) (t : Target) (word : StagedWord) :
    SameModes s (s.openGroup p t word) := by
  unfold State.openGroup
  dsimp only
  split <;> exact .of_eq rfl rfl

theorem sameModes_decideOwn (s : State) (p : Port) (x : SlotSettings) (isStream : Bool) (t : Target) (word : StagedWord) :
    SameModes s (s.decideOwn p x isStream t word).1 := by
  unfold State.decideOwn
  dsimp only
  split
  · exact .refl s
  · split
    · exact .of_eq rfl rfl
    · split
      · exact .refl s
      · split
        · unfold State.stageInto
          dsimp only
          split <;> exact .of_eq rfl rfl
        · exact sameModes_openGroup _ _ _ _

theorem sameModes_decideEntry (s : State) (p : Port) (x : SlotSettings) (isStream : Bool) (t : Target)
    (word : StagedWord) : SameModes s (s.decideEntry p x isStream t word).1 := by
  unfold State.decideEntry
  split
  · split
    · exact sameModes_decideOwn _ _ _ _ _ _
    · split
      · exact (SameModes.of_eq rfl rfl).trans (sameModes_decideOwn _ _ _ _ _ _)
      · exact .of_eq rfl rfl
  · exact sameModes_decideOwn _ _ _ _ _ _

theorem sameModes_decideGranted (s : State) (p : Port) (isStream : Bool) (t : Target) (data : Word) (enables : Enables) :
    SameModes s (s.decideGranted p isStream t data enables) := by
  unfold State.decideGranted
  split
  · exact .of_eq (by simp) (by simp)
  · refine (sameModes_decideEntry s p ‹_› isStream t { data := data, enables := enables }).trans ?_
    dsimp only
    split
    · exact .of_eq (by simp) (by simp)
    · exact .of_eq rfl rfl

theorem sameModes_viewGranted {s g : State} {p : Port} (h : s.viewGranted p = some g) : SameModes s g := by
  unfold State.viewGranted at h
  split at h
  · split at h
    · cases h
      exact (SameModes.of_eq rfl rfl).trans (sameModes_decideGranted _ p false _ _ _)
    · cases h
  · cases h

theorem sameModes_streamGranted {s g : State} {p : Port} (h : s.streamGranted p = some g) : SameModes s g := by
  unfold State.streamGranted at h
  split at h
  · split at h
    · cases h
      exact (SameModes.of_eq rfl rfl).trans (sameModes_decideGranted _ p true _ _ _)
    · cases h
  · cases h

theorem sameModes_removeHead (s : State) (p : Port) : SameModes s (s.removeHead p) := .of_eq (by simp) (by simp)

theorem sameModes_withoutHold {s g : State} {p : Port} (h : s.withoutHold p = some g) : SameModes s g := by
  unfold State.withoutHold at h
  split at h
  · split at h
    · cases h; exact sameModes_removeHead s p
    · cases h
  · split at h
    · cases h; exact sameModes_removeHead s p
    · cases h
  · split at h
    · cases h; exact sameModes_removeHead s p
    · cases h
  · split at h
    · cases h
      split
      · exact (sameModes_removeHead s p).trans (.of_eq rfl rfl)
      · exact sameModes_removeHead s p
    · cases h
  · cases h

theorem sameModes_demandGranted {s g : State} {p : Port} (h : s.demandGranted p = some g) : SameModes s g := by
  unfold State.demandGranted at h
  split at h
  · split at h
    · split at h <;> cases h <;> exact .of_eq rfl rfl
    · cases h
      exact .of_eq rfl rfl
  · cases h

theorem sameModes_plainWriteGranted {s g : State} {p : Port} (h : s.plainWriteGranted p = some g) : SameModes s g := by
  unfold State.plainWriteGranted at h
  split at h
  · split at h
    · split at h
      · cases h
        exact .of_eq (by simp) (by simp)
      · cases h
        exact .of_eq rfl rfl
    · cases h
  · cases h

theorem sameModes_profileGranted {s g : State} {p : Port} {row : ProfileRow} (h : s.profileGranted p row = some g) :
    SameModes s g := by
  unfold State.profileGranted at h
  split at h
  · split at h
    · cases h
      exact .of_eq rfl rfl
    · cases h
  · cases h

theorem sameModes_plainReadGranted {s g : State} {p : Port} (h : s.plainReadGranted p = some g) : SameModes s g := by
  unfold State.plainReadGranted at h
  split at h
  · split at h
    · cases h
      exact .of_eq rfl rfl
    · cases h
  · cases h

theorem sameModes_viewReadGranted {s g : State} {p : Port} (h : s.viewReadGranted p = some g) : SameModes s g := by
  unfold State.viewReadGranted at h
  split at h
  · split at h
    · cases h
    · split at h
      · cases h
        exact .of_eq (by simp [State.viewReadGone]) (by simp [State.viewReadGone])
      · split at h
        · cases h
          exact .of_eq rfl rfl
        · cases h
  · cases h

theorem sameModes_profileReadGranted {s g : State} (h : s.profileReadGranted = some g) : SameModes s g := by
  unfold State.profileReadGranted at h
  split at h
  · cases h
    split <;> exact ⟨rfl, rfl, rfl, rfl, rfl, rfl⟩
  · cases h

theorem sameModes_outcomeGranted {s g : State} (h : s.outcomeGranted = some g) : SameModes s g := by
  unfold State.outcomeGranted at h
  split at h
  · cases h
    split <;> exact ⟨rfl, rfl, rfl, rfl, rfl, rfl⟩
  · cases h

theorem sameModes_recordGranted {s g : State} (h : s.recordGranted = some g) : SameModes s g := by
  unfold State.recordGranted at h
  split at h
  · cases h
    split
    · split <;> exact .of_eq rfl rfl
    · exact .of_eq rfl rfl
  · cases h

theorem sameModes_statusGranted {s g : State} (h : s.statusGranted = some g) : SameModes s g := by
  unfold State.statusGranted at h
  split at h
  · cases h
    split <;> exact .of_eq rfl rfl
  · cases h

theorem sameModes_pointerGranted {s g : State} (h : s.pointerGranted = some g) : SameModes s g := by
  unfold State.pointerGranted at h
  split at h
  · cases h
    exact .of_eq rfl rfl
  · cases h

/-! ## Acceptance and arrivals -/

theorem sameModes_setPort (s : State) (p : Port) (x : PortState) : SameModes s (s.setPort p x) :=
  .of_eq (by simp) (by simp)

theorem sameModes_planView {s after : State} {x : SlotSettings} {i : Fin 8} {offset : Nat} {enables : Enables} {data : Word}
    {es : List Entry} (h : s.planView x i offset enables data = .queue after es) : SameModes s after := by
  unfold State.planView at h
  split at h
  · cases h
    exact .refl s
  · unfold State.planStream at h
    split at h <;> cases h <;> exact .of_eq rfl rfl

theorem sameModes_planWrite {s after : State} {p : Port} {a : Nat} {enables : Enables} {data : Word} {es : List Entry}
    (h : s.planWrite p a enables data = .queue after es) : SameModes s after := by
  have hsame : ∀ es', WritePlan.queue s es' = .queue after es → SameModes s after := by
    intro es' heq
    cases heq
    exact .refl s
  cases hclass : s.classify a with
  | profileBlock => exact hsame _ ((planWrite_profileBlock hclass).symm.trans h)
  | view i offset =>
    rw [planWrite_view hclass] at h
    split at h
    · cases h
    · split at h
      · exact sameModes_planView h
      · cases h
  | rawRing =>
    rw [planWrite_rawRing hclass] at h
    split at h
    · cases h
    · exact hsame _ h
  | reportRing => exact hsame _ ((planWrite_reportRing hclass).symm.trans h)
  | plain => exact hsame _ ((planWrite_plain hclass).symm.trans h)

theorem sameModes_acceptWrite (s : State) (p : Port) (t : Transfer) : SameModes s (s.acceptWrite p t) := by
  cases hplan : s.planWrite p (wordAddress t.address) t.enables t.data with
  | refuse =>
    rw [acceptWrite_refuse hplan]
    exact sameModes_setPort _ _ _
  | queue after es =>
    rw [acceptWrite_queue hplan]
    split
    · exact (sameModes_planWrite hplan).trans (sameModes_setPort _ _ _)
    · exact sameModes_setPort _ _ _

theorem sameModes_acceptRead (s : State) (p : Port) (t : Transfer) : SameModes s (s.acceptRead p t) := by
  cases hplan : s.planRead p (wordAddress t.address) with
  | none =>
    rw [acceptRead_refused hplan]
    exact sameModes_setPort _ _ _
  | some r =>
    rw [acceptRead_pending hplan]
    exact sameModes_setPort _ _ _

theorem modes_drainEnded {s g : State} (hs : s.Modes) (h : s.drainEnded = some g) : g.Modes := by
  unfold State.drainEnded at h
  split at h
  · next v _ hv =>
    split at h
    · split at h
      · split at h
        · cases h
          exact modes_endDrain _ _ hs hv
        · cases h
      · cases h
    · cases h
  · cases h

/-- In RUNNING the part is ready for an advance. -/
theorem State.Modes.ready {s : State} (hs : s.Modes) (h : s.seq.tracking = .running) : s.Ready := by
  obtain ⟨-, hmarking, hindex⟩ := hs.calm (by simp [h]) (by simp [h])
  have hprofile : s.cmd.profile ≠ none := fun hp => by cases h.symm.trans (hs.profile.mpr hp)
  refine ⟨.inl h, hprofile, hmarking, hindex, ?_⟩
  cases hr : s.cmd.running with
  | none => rfl
  | some r =>
    cases r with
    | apply tag => obtain h' | h' := hs.apply tag hr <;> cases h.symm.trans h'
    | startFresh tag => cases h.symm.trans (hs.start tag hr).1

theorem modes_takeIndex {s : State} (hs : s.Modes) : s.takeIndex.Modes := by
  unfold State.takeIndex
  split
  · next h => exact modes_acceptAdvance (hs.ready h)
  · next h =>
    unfold State.indexWaits
    split
    · obtain ⟨m1, m2, m3, -, -, m6, m7⟩ := hs
      exact ⟨m1, m2, m3, le_rfl, fun _ => h, m6, m7⟩
    · exact modes_fault _ _ hs
  all_goals exact hs.of_eq rfl rfl

theorem sameModes_takeRowstep (s : State) : SameModes s s.takeRowstep := by
  unfold State.takeRowstep
  split <;> exact .of_eq rfl rfl

theorem sameModes_takeAbort (s : State) (p : Port) : SameModes s (s.takeAbort p) := by
  have hcursors : ∀ t : State, SameModes t (t.abortCursors p) := by
    intro t
    unfold State.abortCursors
    split <;> exact .of_eq rfl rfl
  unfold State.takeAbort
  refine SameModes.trans ?_ (sameModes_produceAll _ _)
  exact SameModes.trans (.of_eq (by simp [State.abandonWork]) (by simp [State.abandonWork])) (hcursors _)

theorem sameModes_abortAtDecision (s : State) (p : Port) (isStream : Bool) (t : Target) (data : Word) (enables : Enables) :
    SameModes s (s.abortAtDecision p isStream t data enables) := by
  unfold State.abortAtDecision
  refine SameModes.trans ?_ (sameModes_decideGranted _ _ _ _ _ _)
  refine SameModes.trans (SameModes.trans (.of_eq rfl rfl) (sameModes_takeAbort
    ((s.grantTo (portRequester p)).holds (.pass p t.slot t.frame t.card Staged.empty data)) p)) ?_
  exact .of_eq (by simp) (by simp)

theorem sameModes_abortDeciding {s g : State} {p : Port} (h : s.abortDeciding p = some g) : SameModes s g := by
  unfold State.abortDeciding at h
  split at h
  · split at h
    · cases h
      exact sameModes_abortAtDecision _ _ _ _ _ _
    · cases h
      exact sameModes_abortAtDecision _ _ _ _ _ _
    · cases h
  · cases h

theorem sameModes_expire (s : State) (i : Fin 8) : SameModes s (s.expire i) := by
  unfold State.expire
  split
  · split
    · unfold State.startScan
      split <;> exact .of_eq rfl rfl
    · exact .refl s
  · exact .refl s

theorem sameModes_tick (s : State) : SameModes s s.tick := by
  have hfold : ∀ (is : List (Fin 8)) (t : State), SameModes t (is.foldl State.expire t) := by
    intro is
    induction is with
    | nil => exact SameModes.refl
    | cons i is ih => exact fun t => (sameModes_expire t i).trans (ih _)
  unfold State.tick
  exact (hfold slotNumbers s).trans (.of_eq rfl rfl)

theorem sameModes_settle (spare : Option Nat) (before s : State) : SameModes s (State.settle spare before s) :=
  .of_eq (by simp) (by simp)

/-! ## Every command -/

theorem modes_concludeIf {s t : State} {after : Option State} (hs : s.Modes) (h : s.concludeIf after = .next t)
    (hafter : ∀ g, after = some g → g.Modes) : t.Modes := by
  cases after with
  | none =>
    cases h
    exact hs
  | some g =>
    cases h
    exact (sameModes_settle _ _ _).modes (hafter g rfl)

theorem modes_runSpan {s t : State} {span : Span} {granted : Option State} {mine : Work → Bool} (hs : s.Modes)
    (h : s.runSpan span granted mine = .next t) (hgranted : ∀ g, granted = some g → SameModes s g) : t.Modes := by
  obtain rfl | ⟨g, hg, rfl⟩ | ⟨g, error, hg, -, -, rfl⟩ | ⟨error, -, -, rfl⟩ := runSpan_cases h
  · exact hs
  · exact (sameModes_settle _ _ _).modes ((hgranted g hg).modes hs)
  · exact (sameModes_settle _ _ _).modes (modes_endHold error ((hgranted g hg).modes hs))
  · exact (sameModes_settle _ _ _).modes (modes_endHold error hs)

theorem modes_transfer {s t : State} {p : Port} {x : Transfer} {after : State} (hs : s.Modes) (hafter : SameModes s after)
    (h : (if !s.mayPresent p x then Host.Outcome.next s
      else if s.portWaits p then s.conclude (s.holdTransfer p x) none
      else s.conclude after none) = .next t) : t.Modes := by
  split at h
  · cases h
    exact hs
  · split at h
    · cases h
      exact (sameModes_settle _ _ _).modes ((sameModes_setPort _ _ _).modes hs)
    · cases h
      exact (sameModes_settle _ _ _).modes (hafter.modes hs)

theorem modes_applyProfileRead {s t : State} {span : Span} (hs : s.Modes) (h : execApplyProfileRead span s = .next t) :
    t.Modes := by
  obtain rfl | ⟨g, hg, rfl⟩ | ⟨g, error, hg, -, -, rfl⟩ | ⟨error, -, -, rfl⟩ | ⟨error, -, -, -, -, rfl⟩ :=
    applyProfileRead_cases h
  · exact hs
  · exact (sameModes_settle _ _ _).modes ((sameModes_profileReadGranted hg).modes hs)
  · exact (sameModes_settle _ _ _).modes
      (modes_makeChecks (modes_endHold error ((sameModes_profileReadGranted hg).modes hs)))
  · exact (sameModes_settle _ _ _).modes (modes_endHold error hs)
  · exact (sameModes_settle _ _ _).modes (modes_makeChecks hs)

theorem modes_afterReset (s : State) (m : Memory) : (s.afterReset m).Modes :=
  modes_quiet (t := .unconfigured) rfl (by decide) rfl rfl rfl ⟨fun _ => rfl, fun _ => rfl⟩ rfl

/-- Every command keeps the agreement. -/
theorem modes_exec {i : Instr} {s t : State} (hs : s.Modes) (h : exec i s = .next t) : t.Modes := by
  cases i with
  | writeAcceptance p address enables data => exact modes_transfer hs (sameModes_acceptWrite s p _) h
  | readAcceptance p address enables => exact modes_transfer hs (sameModes_acceptRead s p _) h
  | viewEntryPerformance p span => exact modes_runSpan hs h fun _ => sameModes_viewGranted
  | streamEntryPerformance p span => exact modes_runSpan hs h fun _ => sameModes_streamGranted
  | entryWithoutHold p =>
    refine modes_concludeIf hs h fun g hg => ?_
    split at hg
    · exact (sameModes_withoutHold hg).modes hs
    · cases hg
  | demandInitialisation p span => exact modes_runSpan hs h fun _ => sameModes_demandGranted
  | plainWrite p span => exact modes_runSpan hs h fun _ => sameModes_plainWriteGranted
  | profileWrite p span => exact modes_runSpan hs h fun _ => sameModes_profileGranted
  | pendingPlainRead p span => exact modes_runSpan hs h fun _ => sameModes_plainReadGranted
  | pendingViewRead p span => exact modes_runSpan hs h fun _ => sameModes_viewReadGranted
  | apply p span => exact modes_runSpan hs h fun _ => sameModes_profileGranted
  | applyProfileRead span => exact modes_applyProfileRead hs h
  | startFresh p span => exact modes_runSpan hs h fun _ => sameModes_profileGranted
  | startCarry p span => exact modes_runSpan hs h fun _ => sameModes_profileGranted
  | stop p span => exact modes_runSpan hs h fun _ => sameModes_profileGranted
  | recover p span => exact modes_runSpan hs h fun _ => sameModes_profileGranted
  | quiet p span => exact modes_runSpan hs h fun _ => sameModes_profileGranted
  | unknownCommand p span => exact modes_runSpan hs h fun _ => sameModes_profileGranted
  | commandCodeNone p span => exact modes_runSpan hs h fun _ => sameModes_profileGranted
  | resultWordWrite span => exact modes_runSpan hs h fun _ => sameModes_outcomeGranted
  | readPointerWrite p span => exact modes_runSpan hs h fun _ => sameModes_profileGranted
  | quietExtendWrite p span => exact modes_runSpan hs h fun _ => sameModes_profileGranted
  | indexArrival =>
    refine modes_concludeIf hs h fun g hg => ?_
    split at hg
    · cases hg
    · cases hg
      exact modes_takeIndex hs
  | cardInitialisation span => exact modes_runSpan hs h fun _ => sameModes_sequencerGranted
  | drainWaitEnd =>
    refine modes_concludeIf hs h fun g hg => ?_
    split at hg
    · cases hg
    · exact modes_drainEnded hs hg
  | cardCheck span => exact modes_runSpan hs h fun _ => sameModes_sequencerGranted
  | judgement span => exact modes_runSpan hs h fun _ => sameModes_sequencerGranted
  | rowstepArrival =>
    refine modes_concludeIf hs h fun g hg => ?_
    split at hg
    · cases hg
    · cases hg
      exact (sameModes_takeRowstep s).modes hs
  | abortArrival p =>
    refine modes_concludeIf hs h fun g hg => ?_
    split at hg
    · cases hg
    · split at hg
      · exact (sameModes_abortDeciding hg).modes hs
      · cases hg
        exact (sameModes_takeAbort s p.port).modes hs
  | deadlineExpiry slot =>
    refine modes_concludeIf hs h fun g hg => ?_
    split at hg
    · cases hg
    · cases hg
      exact (sameModes_expire s slot).modes hs
  | lateScanRead span => exact modes_runSpan hs h fun _ => sameModes_lateGranted
  | markingInitialisation span => exact modes_runSpan hs h fun _ => sameModes_sequencerGranted
  | markingCardCheck span => exact modes_runSpan hs h fun _ => sameModes_sequencerGranted
  | reportRecordWrite span => exact modes_runSpan hs h fun _ => sameModes_recordGranted
  | statusWordWrite span => exact modes_runSpan hs h fun _ => sameModes_statusGranted
  | readPointerResetWrite span => exact modes_runSpan hs h fun _ => sameModes_pointerGranted
  | deviceReset completed =>
    cases h
    split
    · exact hs
    · exact modes_afterReset _ _
  | resetRelease straps =>
    cases h
    split
    · exact hs.of_eq rfl rfl
    · exact hs
  | microsecondCounterTick =>
    refine modes_concludeIf hs h fun g hg => ?_
    split at hg
    · cases hg
    · cases hg
      exact (sameModes_tick s).modes hs

/-! ## While RESET is held -/

/-- The part is in RESET with no unit of work under its hold, and UNCONFIGURED. -/
structure State.Held (s : State) : Prop where
  inReset : s.inReset = true
  tracking : s.seq.tracking = .unconfigured
  hold : s.arb.hold = none

theorem canGrant_inReset {s : State} (hs : s.inReset = true) (r : Requester) (q : Request) : s.canGrant r q = false := by
  simp [State.canGrant, hs]

section InReset

variable {s : State} (hs : s.inReset = true)
include hs

theorem sequencerGranted_inReset (q : Request) (w : Option Work) : s.sequencerGranted q w = none := by
  simp [State.sequencerGranted, canGrant_inReset hs]

theorem lateGranted_inReset : s.lateGranted = none := by
  unfold State.lateGranted
  split
  · simp [canGrant_inReset hs]
  · simp [hs]

theorem viewGranted_inReset (p : Port) : s.viewGranted p = none := by
  unfold State.viewGranted
  split
  · simp [canGrant_inReset hs]
  · rfl

theorem streamGranted_inReset (p : Port) : s.streamGranted p = none := by
  unfold State.streamGranted
  split
  · simp [canGrant_inReset hs]
  · rfl

theorem demandGranted_inReset (p : Port) : s.demandGranted p = none := by
  simp [State.demandGranted, canGrant_inReset hs]

theorem plainWriteGranted_inReset (p : Port) : s.plainWriteGranted p = none := by
  unfold State.plainWriteGranted
  split
  · simp [canGrant_inReset hs]
  · rfl

theorem profileGranted_inReset (p : Port) (row : ProfileRow) : s.profileGranted p row = none := by
  unfold State.profileGranted
  split
  · simp [canGrant_inReset hs]
  · rfl

theorem plainReadGranted_inReset (p : Port) : s.plainReadGranted p = none := by
  unfold State.plainReadGranted
  split
  · simp [canGrant_inReset hs]
  · rfl

theorem viewReadGranted_inReset (p : Port) : s.viewReadGranted p = none := by
  unfold State.viewReadGranted
  split
  · simp [hs]
  · rfl

theorem profileReadGranted_inReset : s.profileReadGranted = none := by
  simp [State.profileReadGranted, canGrant_inReset hs]

theorem outcomeGranted_inReset : s.outcomeGranted = none := by simp [State.outcomeGranted, canGrant_inReset hs]

theorem recordGranted_inReset : s.recordGranted = none := by simp [State.recordGranted, canGrant_inReset hs]

theorem statusGranted_inReset : s.statusGranted = none := by simp [State.statusGranted, canGrant_inReset hs]

theorem pointerGranted_inReset : s.pointerGranted = none := by simp [State.pointerGranted, canGrant_inReset hs]

end InReset

/-- No unit of work begins or ends while RESET is held. -/
theorem held_runSpan {s t : State} {span : Span} {granted : Option State} {mine : Work → Bool} (hs : s.Held)
    (hgranted : granted = none) (h : s.runSpan span granted mine = .next t) : t = s := by
  subst hgranted
  rw [runSpan_none s span mine (holdIs_free s mine hs.hold)] at h
  cases h
  rfl

theorem held_concludeIf {s t : State} {after : Option State} (h : s.concludeIf after = .next t) (hafter : after = none) :
    t = s := by
  subst hafter
  cases h
  rfl

/-- A transfer presented while RESET is held waits, and nothing else comes of it (R81). -/
theorem held_transfer {s t : State} {p : Port} {x : Transfer} {after : State} (hs : s.Held)
    (h : (if !s.mayPresent p x then Host.Outcome.next s
      else if s.portWaits p then s.conclude (s.holdTransfer p x) none
      else s.conclude after none) = .next t) : t.Held := by
  have hwaits : s.portWaits p = true := by simp [State.portWaits, hs.inReset]
  rw [if_pos hwaits] at h
  split at h
  · cases h
    exact hs
  · cases h
    have hhold : (State.settle none s (s.holdTransfer p x)).arb.hold = s.arb.hold := by
      simp [State.settle, State.raise, State.holdTransfer]
    exact ⟨by simpa [State.holdTransfer] using hs.inReset, by simpa [State.holdTransfer] using hs.tracking,
      hhold.trans hs.hold⟩

theorem held_applyProfileRead {s t : State} {span : Span} (hs : s.Held) (h : execApplyProfileRead span s = .next t) :
    t = s := by
  unfold execApplyProfileRead at h
  split at h
  · exact held_concludeIf h (profileReadGranted_inReset hs.inReset)
  · exact held_concludeIf h (by rw [profileReadGranted_inReset hs.inReset]; rfl)
  · refine held_concludeIf h ?_
    simp [State.profileReadEnded, holdIs_free s isProfileRead hs.hold, hs.inReset]

/-- While RESET is held no command but its release changes what the part holds for RESET (R146). -/
theorem held_exec {i : Instr} {s t : State} (hs : s.Held) (h : exec i s = .next t) (ht : t.inReset = true) : t.Held := by
  have hsame : t = s → t.Held := fun heq => heq ▸ hs
  cases i with
  | writeAcceptance p address enables data => exact held_transfer hs h
  | readAcceptance p address enables => exact held_transfer hs h
  | viewEntryPerformance p span => exact hsame (held_runSpan hs (viewGranted_inReset hs.inReset p) h)
  | streamEntryPerformance p span => exact hsame (held_runSpan hs (streamGranted_inReset hs.inReset p) h)
  | entryWithoutHold p => exact hsame (held_concludeIf h (by simp [hs.inReset]))
  | demandInitialisation p span => exact hsame (held_runSpan hs (demandGranted_inReset hs.inReset p) h)
  | plainWrite p span => exact hsame (held_runSpan hs (plainWriteGranted_inReset hs.inReset p) h)
  | profileWrite p span => exact hsame (held_runSpan hs (profileGranted_inReset hs.inReset p _) h)
  | pendingPlainRead p span => exact hsame (held_runSpan hs (plainReadGranted_inReset hs.inReset p) h)
  | pendingViewRead p span => exact hsame (held_runSpan hs (viewReadGranted_inReset hs.inReset p) h)
  | apply p span => exact hsame (held_runSpan hs (profileGranted_inReset hs.inReset p _) h)
  | applyProfileRead span => exact hsame (held_applyProfileRead hs h)
  | startFresh p span => exact hsame (held_runSpan hs (profileGranted_inReset hs.inReset p _) h)
  | startCarry p span => exact hsame (held_runSpan hs (profileGranted_inReset hs.inReset p _) h)
  | stop p span => exact hsame (held_runSpan hs (profileGranted_inReset hs.inReset p _) h)
  | recover p span => exact hsame (held_runSpan hs (profileGranted_inReset hs.inReset p _) h)
  | quiet p span => exact hsame (held_runSpan hs (profileGranted_inReset hs.inReset p _) h)
  | unknownCommand p span => exact hsame (held_runSpan hs (profileGranted_inReset hs.inReset p _) h)
  | commandCodeNone p span => exact hsame (held_runSpan hs (profileGranted_inReset hs.inReset p _) h)
  | resultWordWrite span => exact hsame (held_runSpan hs (outcomeGranted_inReset hs.inReset) h)
  | readPointerWrite p span => exact hsame (held_runSpan hs (profileGranted_inReset hs.inReset p _) h)
  | quietExtendWrite p span => exact hsame (held_runSpan hs (profileGranted_inReset hs.inReset p _) h)
  | indexArrival => exact hsame (held_concludeIf h (by simp [hs.inReset]))
  | cardInitialisation span => exact hsame (held_runSpan hs (sequencerGranted_inReset hs.inReset _ _) h)
  | drainWaitEnd => exact hsame (held_concludeIf h (by simp [hs.inReset]))
  | cardCheck span => exact hsame (held_runSpan hs (sequencerGranted_inReset hs.inReset _ _) h)
  | judgement span => exact hsame (held_runSpan hs (sequencerGranted_inReset hs.inReset _ _) h)
  | rowstepArrival => exact hsame (held_concludeIf h (by simp [hs.inReset]))
  | abortArrival p => exact hsame (held_concludeIf h (by simp [hs.inReset]))
  | deadlineExpiry slot => exact hsame (held_concludeIf h (by simp [hs.inReset]))
  | lateScanRead span => exact hsame (held_runSpan hs (lateGranted_inReset hs.inReset) h)
  | markingInitialisation span => exact hsame (held_runSpan hs (sequencerGranted_inReset hs.inReset _ _) h)
  | markingCardCheck span => exact hsame (held_runSpan hs (sequencerGranted_inReset hs.inReset _ _) h)
  | reportRecordWrite span => exact hsame (held_runSpan hs (recordGranted_inReset hs.inReset) h)
  | statusWordWrite span => exact hsame (held_runSpan hs (statusGranted_inReset hs.inReset) h)
  | readPointerResetWrite span => exact hsame (held_runSpan hs (pointerGranted_inReset hs.inReset) h)
  | deviceReset completed =>
    cases h
    rw [if_pos hs.inReset]
    exact hs
  | resetRelease straps =>
    cases h
    rw [if_pos hs.inReset] at ht
    cases ht
  | microsecondCounterTick => exact hsame (held_concludeIf h (by simp [hs.inReset]))

theorem held_step {s t : State} (hs : s.Held) (h : step s = .next t) (ht : t.inReset = true) : t.Held := by
  unfold step at h
  split at h
  · next i rest hpending =>
    exact held_exec (s := { s with pending := rest }) ⟨hs.inReset, hs.tracking, hs.hold⟩ h ht
  · cases h
    rw [State.clock, if_pos hs.inReset]
    exact hs

/-- RESET is asserted by device reset alone (R146). -/
theorem held_of_asserted {s t : State} (hs : s.inReset = false) (h : step s = .next t) (ht : t.inReset = true) : t.Held := by
  have hkeeps : ∀ {u : State}, Keeps s u → u.inReset = false := by
    intro u hk
    obtain ⟨-, hreset⟩ := Prod.mk.injEq .. ▸ hk.straps
    exact hreset.trans hs
  unfold step at h
  split at h
  · next i rest hpending =>
    obtain hk | ⟨completed, rfl⟩ | ⟨hreset, -⟩ := keeps_exec h
    · exact absurd ht (by simp [hkeeps ((keeps_pending s rest).trans hk)])
    · exact ⟨rfl, rfl, rfl⟩
    · exact absurd hreset (by simp [hs])
  · cases h
    exact absurd ht (by simp [hkeeps (keeps_clock s)])

theorem modes_step {s t : State} (hs : s.Modes) (h : step s = .next t) : t.Modes := by
  unfold step at h
  split at h
  · next i rest hpending =>
    exact modes_exec (s := { s with pending := rest }) (hs.of_eq rfl rfl) h
  · cases h
    unfold State.clock
    split
    · exact hs
    · split
      · exact hs.of_eq rfl rfl
      · exact (sameModes_settle _ _ _).modes ((sameModes_tick s).modes hs)

/-- Settles O10: outside RESET the blocks agree step by step, and while RESET is held nothing but its release changes them. -/
theorem stepKeepsModesAgree : Obligations.StepKeepsModesAgree := by
  intro s t hs h
  obtain ⟨hmodes, hreset⟩ := (modesAgree_iff s).mp hs
  refine (modesAgree_iff t).mpr ⟨modes_step hmodes h, fun ht => ?_⟩
  have hheld : t.Held := by
    cases hin : s.inReset with
    | true =>
      obtain ⟨htracking, hhold⟩ := hreset hin
      exact held_step ⟨hin, htracking, hhold⟩ h ht
    | false => exact held_of_asserted hin h ht
  exact ⟨hheld.tracking, hheld.hold⟩

end Sys2Proof.Machine
end

