-- ==== Sys2Proof/Proofs/Steps.lean ====
section
/-! PROOF. Steps, the reset state, and the arrivals that need no more than their own definition: INDEX that waits, ROWSTEP, the
tick and the deadlines (R81, R97, R111, R113, R124, R146). -/

namespace Sys2Proof.Machine

/-! ## Steps -/

/-- Settles O1: it is how a step is defined. -/
theorem stepRunsFrontCommand : Obligations.StepRunsFrontCommand := fun _ _ _ => rfl

/-- With no command waiting a step is a clock cycle. -/
theorem step_of_empty {s : State} (h : s.pending = []) : step s = .next s.clock := by
  rw [step, h]

/-- Settles O2, by the branches of a clock cycle. -/
theorem emptyQueueClocks : Obligations.EmptyQueueClocks := by
  intro s h
  rw [step_of_empty h]
  refine ⟨fun hreset => ?_, fun hreset hcycles => ?_, fun hreset hcycles => ?_⟩
  · rw [State.clock, if_pos hreset]
  · rw [State.clock, if_neg (by simp [hreset]), if_pos hcycles]
  · rw [State.clock, if_neg (by simp [hreset]), if_neg (by omega)]
    simp [exec, execMicrosecondCounterTick, hreset, State.concludeIf, State.conclude]

theorem concludeIf_next (s : State) (after : Option State) : ∃ t, s.concludeIf after = .next t := by
  cases after <;> exact ⟨_, rfl⟩

/-- A presented transfer always answers a next state. -/
theorem transfer_next (s : State) (p : Port) (x : Transfer) (after : State) :
    ∃ t, (if !s.mayPresent p x then Host.Outcome.next s
      else if s.portWaits p then s.conclude (s.holdTransfer p x) none
      else s.conclude after none : Host.Outcome State Fault Refusal) = .next t := by
  split
  · exact ⟨_, rfl⟩
  · split <;> exact ⟨_, rfl⟩

/-- Settles O3, command by command: a transfer, a unit of work, or a step without accesses. -/
theorem everyCommandAnswersNext : Obligations.EveryCommandAnswersNext := by
  intro i s
  cases i with
  | writeAcceptance p address enables data => exact transfer_next s p _ _
  | readAcceptance p address enables => exact transfer_next s p _ _
  | applyProfileRead span => exact applyProfileRead_next s span
  | entryWithoutHold p => exact concludeIf_next s _
  | indexArrival => exact concludeIf_next s _
  | drainWaitEnd => exact concludeIf_next s _
  | rowstepArrival => exact concludeIf_next s _
  | abortArrival p => exact concludeIf_next s _
  | deadlineExpiry slot => exact concludeIf_next s _
  | microsecondCounterTick => exact concludeIf_next s _
  | deviceReset completed => exact ⟨_, rfl⟩
  | resetRelease straps => exact ⟨_, rfl⟩
  | _ => exact runSpan_next s _ _ _

/-! ## The reset state -/

/-- Settles O4: the reset state is what a device reset leaves of itself. -/
theorem resetMeetsInvariants : Obligations.ResetMeetsInvariants := by
  obtain ⟨⟨hqueues, hreports, hclaims⟩, hwaits, hcounters, hframes, hprofile, hseq, hroom⟩ :=
    bounds_afterReset State.reset []
  have hmodes : State.reset.modesAgree :=
    (modesAgree_iff _).mpr ⟨modes_afterReset State.reset [], fun _ => ⟨rfl, rfl⟩⟩
  exact ⟨rfl, rfl, hqueues, hreports, hclaims, hwaits, hmodes, hseq, hroom, hcounters, hframes, hprofile⟩

/-! ## INDEX and ROWSTEP -/

theorem exec_indexArrival {s : State} (h : s.inReset = false) :
    exec .indexArrival s = .next (State.settle none s s.takeIndex) := by
  simp [exec, execIndexArrival, h, State.concludeIf, State.conclude]

theorem exec_rowstepArrival {s : State} (h : s.inReset = false) :
    exec .rowstepArrival s = .next (State.settle none s s.takeRowstep) := by
  simp [exec, execRowstepArrival, h, State.concludeIf, State.conclude]

/-- Settles O52, by the lines of the table of R97. -/
theorem indexWaitsOrIgnored : Obligations.IndexWaitsOrIgnored := by
  intro s hreset
  refine ⟨fun htracking hindex => ?_, fun hrunning hadvancing => ?_⟩
  · rw [exec_indexArrival hreset, State.takeIndex, htracking]
    simp [State.indexWaits, hindex]
  · rw [exec_indexArrival hreset]
    unfold State.takeIndex
    split
    · contradiction
    · contradiction
    all_goals rfl

/-- Settles O58, by the lines of the table of R124. -/
theorem rowstepSteps : Obligations.RowstepSteps := by
  intro s hreset
  rw [exec_rowstepArrival hreset]
  refine ⟨fun hloaded hleft => ?_, fun f hloaded hdone => ?_, fun hloaded => ?_⟩
  · rw [State.takeRowstep, if_pos (by simp [Discharge.rowsLeft, hloaded, hleft])]
  · rw [State.takeRowstep, if_neg (by simp [Discharge.rowsLeft, hdone])]
    simp [rowstepExtra, hloaded]
  · rw [State.takeRowstep, if_neg (by simp [Discharge.rowsLeft, hloaded])]
    simp [rowstepExtra, hloaded]

/-! ## The tick and the deadlines (R111, R113, R114) -/

/-- A deadline that is not due stays. -/
theorem expire_not_due {s : State} {i : Fin 8} (h : ∀ f e, s.time.deadlines.get i = .armed f e → e ≠ s.time.counter) :
    s.expire i = s := by
  unfold State.expire
  split
  · next f e harmed => rw [if_neg (h f e harmed)]
  · rfl

theorem foldl_expire_not_due {s : State} (h : ∀ i f e, s.time.deadlines.get i = .armed f e → e ≠ s.time.counter)
    (is : List (Fin 8)) : is.foldl State.expire s = s := by
  induction is with
  | nil => rfl
  | cons i is ih => rw [List.foldl_cons, expire_not_due (h i), ih]

/-- A scan of a slot without a waiting scan goes to the tail of the list (R114). -/
theorem placeScan_tail {n : WaitingScan} {ws : List WaitingScan} (h : ∀ w ∈ ws, w.slot ≠ n.slot) :
    placeScan n ws = ws ++ [n] := by
  induction ws with
  | nil => rfl
  | cons w ws ih =>
    obtain ⟨hw, hws⟩ := List.forall_mem_cons.mp h
    rw [placeScan, if_neg hw, ih hws, List.cons_append]

/-- A deadline that is due: disarmed, and its scan placed (R113). -/
def State.expired (s : State) (i : Fin 8) (f : Nat) : State :=
  { s with time := { s.time with
      deadlines := s.time.deadlines.set i .disarmed
      scans := placeScan { slot := i, frame := f, expiry := s.time.counter } s.time.scans } }

theorem expire_due {s : State} {i : Fin 8} {f : Nat} (h : s.time.deadlines.get i = .armed f s.time.counter) :
    s.expire i = (s.expired i f).startScan := by
  unfold State.expire
  rw [h]
  exact if_pos rfl

/-- The oldest waiting scan starts, or nothing does; either way the Time Base keeps its counter and deadlines (R114). -/
theorem startScan_fields (s : State) :
    s.startScan.time.counter = s.time.counter ∧ s.startScan.time.deadlines = s.time.deadlines ∧
    ∃ x, s.startScan = { s with time := x } := by
  unfold State.startScan
  split <;> exact ⟨rfl, rfl, _, rfl⟩

theorem startScan_running {s : State} {n : RunningScan} (h : s.time.running = some n) : s.startScan = s := by
  unfold State.startScan
  rw [h]

theorem startScan_idle {s : State} {w : WaitingScan} {rest : List WaitingScan} {p : Profile} (hrunning : s.time.running = none)
    (hscans : s.time.scans = w :: rest) (hprofile : s.cmd.profile = some p) :
    s.startScan = { s with time := { s.time with
      scans := rest
      running := some { slot := w.slot, frame := w.frame, expiry := w.expiry,
                        todo := windowCards p (p.slots.get w.slot), late := 0, first := none } } } := by
  unfold State.startScan
  rw [hrunning, hscans, hprofile]

theorem settle_time (spare : Option Nat) (before s : State) : (State.settle spare before s).time = s.time := by simp

/-- Settles O14: a tick expires what is due first, and then counts. -/
theorem tickAndDeadline : Obligations.TickAndDeadline := by
  refine ⟨fun s hreset hdue => ?_, fun s i f p hreset hprofile harmed => ?_⟩
  · have htick : s.tick = { s with time := { s.time with counter := s.time.counter + 1, cycles := 0 } } := by
      rw [State.tick, foldl_expire_not_due hdue]
    simp [exec, execMicrosecondCounterTick, hreset, State.concludeIf, State.conclude, htick]
  · obtain ⟨hcounter, hdeadlines, x, hx⟩ := startScan_fields (s.expired i f)
    refine ⟨State.settle none s (s.expire i),
      by simp [exec, execDeadlineExpiry, hreset, State.concludeIf, State.conclude], ?_⟩
    rw [expire_due harmed]
    refine ⟨?memory, ?ports, ?blocks, ?seq, ?counter, ?disarmed, fun j hj => ?others, fun n hn hslots => ?behind,
      fun hidle hempty => ?first⟩
    case memory => rw [hx]; simp [SameMemory, State.expired]
    case ports => rw [hx]; simp [SamePorts, State.expired]
    case blocks =>
      rw [hx]
      refine ⟨by simp [State.expired], by simp [State.expired], by simp [State.expired], by simp [State.expired], ?_⟩
      exact sameReportRegisters_settle (SameUnit.refl _)
    case seq => rw [hx]; simp [State.expired]
    case counter => rw [settle_time, hcounter]; rfl
    case disarmed =>
      rw [settle_time, hdeadlines]
      exact get_set_same _ _ _
    case others =>
      rw [settle_time, hdeadlines]
      exact get_set_other _ _ _ _ hj
    case behind =>
      rw [settle_time, startScan_running (s := s.expired i f) hn]
      exact ⟨hn, placeScan_tail hslots⟩
    case first =>
      have hscans : (s.expired i f).time.scans = [{ slot := i, frame := f, expiry := s.time.counter }] := by
        simp [State.expired, hempty, placeScan]
      rw [settle_time, startScan_idle (s := s.expired i f) hidle hscans hprofile]
      exact ⟨rfl, rfl⟩

end Sys2Proof.Machine
end

