-- ==== Sys2Proof/Proofs/Tables.lean ====
section
/-! PROOF. The tables of the Rules Unit, the cursor, judgement, the arbiter and the internal queue (R11, R36, R50 to R59, R87,
R118, R147, R149). -/

namespace Sys2Proof.Machine

/-! ## The arbiter (R87) -/

theorem choose_isSome {x : Arbiter} {q : Requester} (h : x.waits q = true) : ∃ r, x.choose = some r := by
  unfold Arbiter.choose
  split
  · exact ⟨_, rfl⟩
  · exact Option.isSome_iff_exists.mp (List.find?_isSome.mpr ⟨q, mem_requesterOrder q, h⟩)

/-- Settles O22: the choice falls on the first count of 8 or more, and else on the first that waits. -/
theorem arbiterChoosesAndCounts : Obligations.ArbiterChoosesAndCounts := by
  refine fun x => ⟨fun ⟨q, hq⟩ => choose_isSome hq, fun r hr => ?_⟩
  obtain ⟨hwaits, hchoice⟩ := choose_some hr
  refine ⟨hwaits, fun ⟨q, hq, hhigh⟩ => ?_, fun hlow => ?_, ?_, fun q hne hq => ?_, fun q hne hq => ?_⟩
  · obtain hpassed | ⟨hlow, -⟩ := hchoice
    · exact hpassed
    · exact absurd (hlow q hq) (Nat.not_lt.mpr hhigh)
  · obtain ⟨hhigh, -⟩ | ⟨-, hfirst⟩ := hchoice
    · exact absurd (hlow r hwaits) (Nat.not_lt.mpr hhigh)
    · exact hfirst
  · rw [grant_desk, Arbiter.granted, if_pos rfl]
    rfl
  · rw [grant_desk, Arbiter.granted, if_neg hne, if_pos hq]
  · rw [grant_desk, Arbiter.granted, if_neg hne, if_neg (by simp [hq])]

/-! ## Judgement (R118) -/

section Judged

variable {good : BitVec 4} {frame : Nat} {read : Word}

theorem judged_void (h : cardState read = stVoid) : judged good frame read = (none, .void) := if_pos h

theorem judged_rejected (h : cardState read = stRejected) :
    judged good frame read = (none, .rejected (cardCause read)) := by
  have hvoid : cardState read ≠ stVoid := by
    rw [h]
    decide
  rw [judged, if_neg hvoid, if_pos h]

variable (hvoid : cardState read ≠ stVoid) (hrejected : cardState read ≠ stRejected)
include hvoid hrejected

theorem judged_corrupt (hgen : cardGeneration read ≠ generationOf frame) :
    judged good frame read = (some (rejectedWord0 read causeCorrupt), .rejected causeCorrupt) := by
  rw [judged, if_neg hvoid, if_neg hrejected, if_pos hgen]

theorem judged_good (hgen : cardGeneration read = generationOf frame) (h : cardState read = good) :
    judged good frame read = (none, .good) := by
  rw [judged, if_neg hvoid, if_neg hrejected, if_neg (not_not.mpr hgen), if_pos h]

theorem judged_unfinished (hgen : cardGeneration read = generationOf frame) (h : cardState read ≠ good) :
    judged good frame read = (some (rejectedWord0 read causeUnfinished), .rejected causeUnfinished) := by
  rw [judged, if_neg hvoid, if_neg hrejected, if_neg (not_not.mpr hgen), if_neg h]

end Judged

/-- Settles O21, by the lines of the table. -/
theorem judgementTable : Obligations.JudgementTable := by
  refine fun good frame read _ => ⟨judged_void, judged_rejected, fun hrejected hvoid => ⟨?_, fun hgen => ⟨?_, ?_⟩⟩⟩
  · exact judged_corrupt hvoid hrejected
  · exact judged_good hvoid hrejected hgen
  · exact judged_unfinished hvoid hrejected hgen

/-! ## The field mask (R50, R51) -/

theorem getLsbD_enableMask (enables : Enables) {i : Nat} (h : i < 32) :
    (enableMask enables).getLsbD i = enables.getLsbD (i / 8) := by
  have hall : ∀ (e : Enables) (n : Fin 32), (enableMask e).getLsbD n.val = e.getLsbD (n.val / 8) := by decide
  exact hall enables ⟨i, h⟩

/-- No field of word 0 reaches the marks or the generation. -/
theorem getLsbD_fieldMask_zero (f : FieldSet) {i : Nat} (hlow : 16 ≤ i) (h : i < 32) :
    (fieldMask f 0).getLsbD i = false := by
  have hall : ∀ (a b c : Bool) (n : Fin 32), 16 ≤ n.val →
      ((if a then 0x0000000F else 0) ||| (if b then 0x000000F0 else 0) ||| (if c then 0x0000FF00 else 0) : Word).getLsbD
        n.val = false := by decide
  exact hall f.state f.cause f.count ⟨i, h⟩ hlow

/-- A masked word takes its bit from the data where the field mask and the byte's enable are set, and else from memory. -/
theorem getLsbD_maskedWord (x : SlotSettings) (w : Fin 4) (c : StagedWord) (read : Word) {i : Nat} (h : i < 32) :
    (maskedWord x w (some c) read).getLsbD i =
      if (fieldMask x.fields w).getLsbD i && c.enables.getLsbD (i / 8) then c.data.getLsbD i else read.getLsbD i := by
  rw [maskedWord, getLsbD_overlay _ _ _ _ h, mergeBytes, getLsbD_overlay _ _ _ _ h, getLsbD_enableMask _ h]
  cases (fieldMask x.fields w).getLsbD i <;> simp

/-- Settles O18: a masked word takes its bit from the data where the mask and the enable are set, and the mask of word 0 has
no bit of the marks or the generation. -/
theorem maskKeepsProtectedBits : Obligations.MaskKeepsProtectedBits := by
  intro x w data read enables
  refine ⟨fun i hi hmask => ?_, fun i hi henable => ?_, fun i hi hmask henable => ?_, ?_⟩
  · simp [getLsbD_maskedWord x w _ read hi, hmask]
  · simp [getLsbD_maskedWord x w _ read hi, henable]
  · simp [getLsbD_maskedWord x w _ read hi, hmask, henable]
  · rintro rfl
    have hhigh : ∀ i, 16 ≤ i → i < 32 →
        (maskedWord x 0 (some { data := data, enables := enables }) read).getLsbD i = read.getLsbD i := fun i hlow hi => by
      simp [getLsbD_maskedWord x 0 _ read hi, getLsbD_fieldMask_zero x.fields hlow hi]
    constructor
    · ext i hi
      simpa [cardMarks] using hhigh (16 + i) (by omega) (by omega)
    · ext i hi
      simpa [cardGeneration] using hhigh (24 + i) (by omega) (by omega)

/-! ## The ring address (R11) -/

theorem laneOf_cardAt {lane row : Nat} (h1 : 1 ≤ lane) (h8 : lane ≤ 8) : laneOf (cardAt lane row) = lane := by
  unfold laneOf cardAt
  omega

theorem rowOf_cardAt {lane row : Nat} (h1 : 1 ≤ lane) (h8 : lane ≤ 8) (hrow : 1 ≤ row) : rowOf (cardAt lane row) = row := by
  unfold rowOf cardAt
  omega

/-- Settles O19, by the arithmetic of the address. -/
theorem ringAddressFormula : Obligations.RingAddressFormula :=
  fun _ _ _ _ _ h1 h8 hrow _ => ⟨rfl, laneOf_cardAt h1 h8, rowOf_cardAt h1 h8 hrow⟩

end Sys2Proof.Machine
end

