-- ==== Sys2Proof/Proofs/PassOutcomes.lean ====
section
/-! PROOF. What the Rules Unit makes of the words it reads: guard, limit check and the composed word 0 (R51 to R59). -/

namespace Sys2Proof.Machine

/-! ## The state guard (R52, R54) -/

theorem guardRefusal_same (state : BitVec 4) : guardRefusal state state = none := if_pos rfl

/-- A pass that does not write the state requests the stored one (R52). -/
theorem cardState_maskedRecord {x : SlotSettings} {carried : Staged} {read : Record}
    (h : carried.w0 = none ∨ x.fields.state = false ∨ ∃ c, carried.w0 = some c ∧ c.enables.getLsbD 0 = false) :
    cardState (maskedRecord x carried read).w0 = cardState read.w0 := by
  cases hw : carried.w0 with
  | none => simp [maskedRecord, hw, maskedWord]
  | some c =>
    have hlow : ∀ i, i < 4 → ((fieldMask x.fields 0).getLsbD i && c.enables.getLsbD (i / 8)) = false := by
      intro i hi
      obtain h | h | ⟨c', hc', h⟩ := h
      · rw [hw] at h
        cases h
      · have hall : ∀ (a b d : Bool) (n : Fin 4), a = false → ((if a then 0x0000000F else 0) |||
            (if b then 0x000000F0 else 0) ||| (if d then 0x0000FF00 else 0) : Word).getLsbD n.val = false := by decide
        have hmask : (fieldMask x.fields 0).getLsbD i = false := hall _ x.fields.cause x.fields.count ⟨i, hi⟩ h
        simp [hmask]
      · cases hw.symm.trans hc'
        rw [Nat.div_eq_of_lt (by omega), h, Bool.and_false]
    ext i hi
    have hbit := getLsbD_maskedWord x 0 c read.w0 (i := i) (by omega)
    rw [hlow i hi] at hbit
    simpa [cardState, maskedRecord, hw] using hbit

/-! ## The limit check (R57) -/

theorem byteOf_one (w : Word) : byteOf w 1 = (w.extractLsb' 8 8).toNat := by
  rw [BitVec.extractLsb'_toNat, Nat.shiftRight_eq_div_pow]
  rfl

theorem halfOf_zero (w : Word) : halfOf w 0 = (w.extractLsb' 0 16).toNat := by
  rw [BitVec.extractLsb'_toNat, Nat.shiftRight_eq_div_pow]
  rfl

theorem halfOf_one (w : Word) : halfOf w 1 = (w.extractLsb' 16 16).toNat := by
  rw [BitVec.extractLsb'_toNat, Nat.shiftRight_eq_div_pow]
  rfl

theorem anyEnabled_iff (carried : Option StagedWord) (i j : Nat) :
    anyEnabled carried i j = true ↔ ∃ c, carried = some c ∧ (c.enables.getLsbD i = true ∨ c.enables.getLsbD j = true) := by
  cases carried <;> simp [anyEnabled]

theorem ite_some_iff {c : Prop} [Decidable c] {n v : Nat} : (if c then some n else none) = some v ↔ c ∧ v = n := by
  split <;> simp [*, eq_comm]

theorem limitValue_iff (x : SlotSettings) (carried : Staged) (masked : Record) (v : Nat) :
    limitValue x carried masked = some v ↔
      (x.limit = .count ∧ x.fields.count = true ∧ (∃ c, carried.w0 = some c ∧ c.enables.getLsbD 1 = true) ∧
        v = (masked.w0.extractLsb' 8 8).toNat) ∨
      (x.limit = .score ∧ x.fields.score = true ∧
        (∃ c, carried.w2 = some c ∧ (c.enables.getLsbD 0 = true ∨ c.enables.getLsbD 1 = true)) ∧
        v = (masked.w2.extractLsb' 0 16).toNat) ∨
      (x.limit = .reading ∧ x.fields.reading = true ∧
        (∃ c, carried.w2 = some c ∧ (c.enables.getLsbD 2 = true ∨ c.enables.getLsbD 3 = true)) ∧
        v = (masked.w2.extractLsb' 16 16).toNat) := by
  unfold limitValue
  split
  · next h => simp [h]
  · next h =>
    rw [ite_some_iff, Bool.and_eq_true, anyEnabled_iff, byteOf_one]
    simp [h, and_assoc]
  · next h =>
    rw [ite_some_iff, Bool.and_eq_true, anyEnabled_iff, halfOf_zero]
    simp [h, and_assoc]
  · next h =>
    rw [ite_some_iff, Bool.and_eq_true, anyEnabled_iff, halfOf_one]
    simp [h, and_assoc]

theorem limitViolation_some {x : SlotSettings} {carried : Staged} {masked : Record} {v : Nat}
    (hvalue : limitValue x carried masked = some v) (hout : v < x.low ∨ x.high < v) :
    limitViolation x carried masked = some v := by
  rw [limitViolation, hvalue]
  exact if_neg (by omega)

theorem limitViolation_none {x : SlotSettings} {carried : Staged} {masked : Record}
    (h : ∀ v, limitValue x carried masked = some v → x.low ≤ v ∧ v ≤ x.high) :
    limitViolation x carried masked = none := by
  unfold limitViolation
  split
  · next v hv => exact if_pos (h v hv)
  · rfl

/-! ## The outcome of a pass -/

/-- The words of a performed pass with a state and a cause (R59). -/
def performedWords (slot : Fin 8) (state cause : BitVec 4) (read masked : Record) : Record :=
  { masked with w0 := composedWord0 slot state cause read.w0 masked.w0 }

section Outcome

variable {x : SlotSettings} {slot : Fin 8} {carried : Staged} {read : Record}

theorem passOutcome_refused {d : Nat}
    (h : guardRefusal (cardState read.w0) (cardState (maskedRecord x carried read).w0) = some d) :
    passOutcome x slot carried read = .refused d := by
  simp only [passOutcome, h]

variable (hguard : guardRefusal (cardState read.w0) (cardState (maskedRecord x carried read).w0) = none)
include hguard

/-- A violated limit on a card that is neither REJECTED nor VOID forces it (R58). -/
theorem passOutcome_forced {v : Nat} (hlimit : limitViolation x carried (maskedRecord x carried read) = some v)
    (hend : isEndState (cardState (maskedRecord x carried read).w0) = false) :
    passOutcome x slot carried read =
      .performed (performedWords slot stRejected causeOutOfLimit read (maskedRecord x carried read)) (some v) := by
  simp only [passOutcome, hguard, hlimit, hend]
  rfl

/-- Without a violated limit, and on an end state, a pass stores the state and the cause that the guard and R56 leave. -/
theorem passOutcome_kept
    (h : limitViolation x carried (maskedRecord x carried read) = none ∨
      isEndState (cardState (maskedRecord x carried read).w0) = true) :
    passOutcome x slot carried read =
      .performed (performedWords slot (cardState (maskedRecord x carried read).w0)
        (settledCause read.w0 (maskedRecord x carried read).w0) read (maskedRecord x carried read)) none := by
  cases hlimit : limitViolation x carried (maskedRecord x carried read) with
  | none =>
    simp only [passOutcome, hguard, hlimit]
    rfl
  | some v =>
    obtain h | hend := h
    · cases hlimit.symm.trans h
    · simp only [passOutcome, hguard, hlimit, hend, if_true]
      rfl

end Outcome

theorem passOutcome_refused_iff {x : SlotSettings} {slot : Fin 8} {carried : Staged} {read : Record} {d : Nat} :
    passOutcome x slot carried read = .refused d ↔
      guardRefusal (cardState read.w0) (cardState (maskedRecord x carried read).w0) = some d := by
  refine ⟨fun h => ?_, passOutcome_refused⟩
  cases hguard : guardRefusal (cardState read.w0) (cardState (maskedRecord x carried read).w0) with
  | some d' =>
    rw [passOutcome_refused hguard] at h
    cases h
    rfl
  | none =>
    cases hlimit : limitViolation x carried (maskedRecord x carried read) with
    | none =>
      rw [passOutcome_kept hguard (.inl hlimit)] at h
      cases h
    | some v =>
      cases hend : isEndState (cardState (maskedRecord x carried read).w0) with
      | false =>
        rw [passOutcome_forced hguard hlimit hend] at h
        cases h
      | true =>
        rw [passOutcome_kept hguard (.inr hend)] at h
        cases h

/-- The words of a performed pass, field by field (R59). -/
theorem performedWords_fields (slot : Fin 8) (state cause : BitVec 4) (read masked : Record) :
    cardGeneration (performedWords slot state cause read masked).w0 = cardGeneration read.w0 ∧
    cardMarks (performedWords slot state cause read masked).w0 = cardMarks read.w0 ||| markBit slot ∧
    cardCount (performedWords slot state cause read masked).w0 = cardCount masked.w0 ∧
    cardState (performedWords slot state cause read masked).w0 = state ∧
    cardCause (performedWords slot state cause read masked).w0 = cause := by
  obtain ⟨h1, h2, h3, h4, h5⟩ := recordWord0_fields state cause (cardCount masked.w0) (cardMarks read.w0 ||| markBit slot)
    (cardGeneration read.w0)
  exact ⟨h5, h4, h3, h1, h2⟩

/-- Every performed pass composes word 0 with a state and a cause. -/
theorem passOutcome_performed {x : SlotSettings} {slot : Fin 8} {carried : Staged} {read words : Record}
    {forced : Option Nat} (h : passOutcome x slot carried read = .performed words forced) :
    guardRefusal (cardState read.w0) (cardState (maskedRecord x carried read).w0) = none ∧
    ∃ state cause, words = performedWords slot state cause read (maskedRecord x carried read) := by
  cases hguard : guardRefusal (cardState read.w0) (cardState (maskedRecord x carried read).w0) with
  | some d =>
    rw [passOutcome_refused hguard] at h
    cases h
  | none =>
    refine ⟨rfl, ?_⟩
    cases hlimit : limitViolation x carried (maskedRecord x carried read) with
    | none =>
      rw [passOutcome_kept hguard (.inl hlimit)] at h
      cases h
      exact ⟨_, _, rfl⟩
    | some v =>
      cases hend : isEndState (cardState (maskedRecord x carried read).w0) with
      | false =>
        rw [passOutcome_forced hguard hlimit hend] at h
        cases h
        exact ⟨_, _, rfl⟩
      | true =>
        rw [passOutcome_kept hguard (.inr hend)] at h
        cases h
        exact ⟨_, _, rfl⟩

/-- Settles O17, by the four ways a pass can come out. -/
theorem passComposesWordZero : Obligations.PassComposesWordZero := by
  refine fun x slot carried read => ⟨fun d => passOutcome_refused_iff, fun d hsame => ?_, limitValue_iff x carried _, ?_⟩
  · have hstate : cardState (maskedRecord x carried read).w0 = cardState read.w0 := by
      obtain h | h | h | h := hsame
      · exact cardState_maskedRecord (.inl h)
      · exact cardState_maskedRecord (.inr (.inl h))
      · exact cardState_maskedRecord (.inr (.inr h))
      · exact h
    rw [ne_eq, passOutcome_refused_iff, hstate, guardRefusal_same]
    exact nofun
  · intro words forced h
    obtain ⟨hguard, state, cause, hwords⟩ := passOutcome_performed h
    obtain ⟨hgeneration, hmarks, hcount, -, -⟩ :=
      performedWords_fields slot state cause read (maskedRecord x carried read)
    have hkept : limitViolation x carried (maskedRecord x carried read) = none ∨
        isEndState (cardState (maskedRecord x carried read).w0) = true →
        cardState words.w0 = cardState (maskedRecord x carried read).w0 ∧
        cardCause words.w0 = settledCause read.w0 (maskedRecord x carried read).w0 ∧ forced = none := by
      intro hcase
      rw [passOutcome_kept hguard hcase] at h
      cases h
      obtain ⟨-, -, -, hstate, hcause⟩ := performedWords_fields slot (cardState (maskedRecord x carried read).w0)
        (settledCause read.w0 (maskedRecord x carried read).w0) read (maskedRecord x carried read)
      exact ⟨hstate, hcause, rfl⟩
    refine ⟨hwords ▸ hgeneration, hwords ▸ hmarks, hwords ▸ hcount, by rw [hwords]; rfl, by rw [hwords]; rfl,
      by rw [hwords]; rfl, fun v hvalue hout hrejected hvoid => ?_, fun v hvalue hout hend => ?_, fun hin => ?_⟩
    · have hend : isEndState (cardState (maskedRecord x carried read).w0) = false := by
        rw [← Bool.not_eq_true, isEndState_iff]
        exact not_or.mpr ⟨hrejected, hvoid⟩
      rw [passOutcome_forced hguard (limitViolation_some hvalue hout) hend] at h
      cases h
      obtain ⟨-, -, -, hstate, hcause⟩ :=
        performedWords_fields slot stRejected causeOutOfLimit read (maskedRecord x carried read)
      exact ⟨hstate, hcause, rfl⟩
    · exact hkept (.inr ((isEndState_iff _).mpr hend))
    · exact hkept (.inl (limitViolation_none hin))

end Sys2Proof.Machine
end

