-- ==== Sys2Proof/Proofs/InternalQueue.lean ====
section
/-! PROOF. The internal queue: which report is the weakest, and what an offer does (R147, R149). -/

namespace Sys2Proof.Machine

/-! ## The weakest report (R149) -/

/-- The report `w` at place `n` of a queue is its weakest: of lowest level, among those of highest kind number, among those the
newest (R149). -/
def IsWeakest (q : List Report) (n : Nat) (w : Report) : Prop :=
  ∃ older newer, q = older ++ w :: newer ∧ older.length = n ∧
    (∀ x ∈ older ++ newer, w.level < x.level ∨ (x.level = w.level ∧ kindNumber x.kind ≤ kindNumber w.kind)) ∧
    ∀ x ∈ newer, ¬(x.level = w.level ∧ kindNumber x.kind = kindNumber w.kind)

theorem weakerOrNewer_iff (a b : Report) :
    weakerOrNewer a b = true ↔ b.level < a.level ∨ (b.level = a.level ∧ kindNumber a.kind ≤ kindNumber b.kind) := by
  simp [weakerOrNewer]

/-- A newer report that is at least as weak takes the place of the weakest. -/
theorem isWeakest_append_weaker {q : List Report} {n : Nat} {w r : Report} (h : IsWeakest q n w)
    (hr : weakerOrNewer w r = true) : IsWeakest (q ++ [r]) q.length r := by
  obtain ⟨older, newer, rfl, -, hall, -⟩ := h
  rw [weakerOrNewer_iff] at hr
  refine ⟨older ++ w :: newer, [], rfl, rfl, fun x hx => ?_, nofun⟩
  have hx : x = w ∨ x ∈ older ++ newer := by
    rw [List.append_nil, List.mem_append, List.mem_cons] at hx
    rw [List.mem_append]
    tauto
  obtain rfl | hx := hx
  · omega
  · have := hall x hx
    omega

/-- A newer report that is less weak leaves the weakest where it stands. -/
theorem isWeakest_append_stronger {q : List Report} {n : Nat} {w r : Report} (h : IsWeakest q n w)
    (hr : weakerOrNewer w r = false) : IsWeakest (q ++ [r]) n w := by
  obtain ⟨older, newer, rfl, hn, hall, hnewer⟩ := h
  rw [← Bool.not_eq_true, weakerOrNewer_iff] at hr
  refine ⟨older, newer ++ [r], by simp, hn, fun x hx => ?_, fun x hx => ?_⟩
  · rw [← List.append_assoc, List.mem_append, List.mem_singleton] at hx
    obtain hx | rfl := hx
    · exact hall x hx
    · omega
  · rw [List.mem_append, List.mem_singleton] at hx
    obtain hx | rfl := hx
    · exact hnewer x hx
    · omega

theorem isWeakest_weakestFrom {q rs : List Report} {best : Nat × Report} (h : IsWeakest q best.1 best.2) :
    IsWeakest (q ++ rs) (weakestFrom best q.length rs).1 (weakestFrom best q.length rs).2 := by
  induction rs generalizing q best with
  | nil => simpa [weakestFrom] using h
  | cons r rs ih =>
    have hnext : IsWeakest (q ++ [r]) (if weakerOrNewer best.2 r then (q.length, r) else best).1
        (if weakerOrNewer best.2 r then (q.length, r) else best).2 := by
      split
      · next hr => exact isWeakest_append_weaker h hr
      · next hr => exact isWeakest_append_stronger h (by simpa using hr)
    simpa [weakestFrom] using ih hnext

/-- A queue that is not empty has a weakest report, and it is the one that `weakest` finds. -/
theorem weakest_some {q : List Report} (h : q ≠ []) : ∃ n w, weakest q = some (n, w) ∧ IsWeakest q n w := by
  cases q with
  | nil => exact absurd rfl h
  | cons r rs =>
    have hone : IsWeakest [r] 0 r := ⟨[], [], rfl, rfl, nofun, nofun⟩
    exact ⟨_, _, rfl, isWeakest_weakestFrom (rs := rs) (best := (0, r)) hone⟩

theorem level_weakest {q : List Report} {n : Nat} {w : Report} (h : IsWeakest q n w) : ∀ x ∈ q, w.level ≤ x.level := by
  obtain ⟨older, newer, rfl, -, hall, -⟩ := h
  intro x hx
  rw [List.mem_append, List.mem_cons] at hx
  obtain hx | rfl | hx := hx
  · have := hall x (List.mem_append_left _ hx)
    omega
  · exact le_rfl
  · have := hall x (List.mem_append_right _ hx)
    omega

/-! ## An offer (R149) -/

section Offer

variable {u : ReportUnit} {r : Report}

theorem offer_room (h : u.queue.length < 16) : u.offer r = { u with queue := u.queue ++ [r] } := if_pos h

variable (hfull : 16 ≤ u.queue.length)
include hfull

theorem offer_full {n : Nat} {w : Report} (hw : weakest u.queue = some (n, w)) :
    u.offer r = if w.level < r.level then
        { (u.removeAt n).drop 1 with queue := ((u.removeAt n).drop 1).queue ++ [r] }
      else u.drop 1 := by
  have hsize : ¬ u.queue.length < Config.reportQueueSize := Nat.not_lt.mpr hfull
  rw [ReportUnit.offer, if_neg hsize, hw]

/-- A full queue without a report of a lower level drops the one that is offered. -/
theorem offer_dropped (h : ∀ x ∈ u.queue, r.level ≤ x.level) : u.offer r = u.drop 1 := by
  obtain ⟨n, w, hw, older, newer, hqueue, -⟩ := weakest_some (q := u.queue) (by rintro hnil; simp [hnil] at hfull)
  rw [offer_full hfull hw, if_neg (Nat.not_lt.mpr (h w (by simp [hqueue])))]

/-- A full queue with a report of a lower level drops its weakest for the one that is offered. -/
theorem offer_displaces (h : ∃ x ∈ u.queue, x.level < r.level) :
    (u.offer r).dropped = addUpTo Config.maxWord u.dropped 1 ∧
    ∃ older weak newer, u.queue = older ++ weak :: newer ∧ (u.offer r).queue = older ++ newer ++ [r] ∧
      weak.level < r.level ∧
      (∀ x ∈ older ++ newer, weak.level < x.level ∨
        (x.level = weak.level ∧ kindNumber x.kind ≤ kindNumber weak.kind)) ∧
      ∀ x ∈ newer, ¬(x.level = weak.level ∧ kindNumber x.kind = kindNumber weak.kind) := by
  obtain ⟨x, hx, hlow⟩ := h
  obtain ⟨n, w, hw, hweakest⟩ := weakest_some (q := u.queue) (List.ne_nil_of_mem hx)
  have hlevel : w.level < r.level := (level_weakest hweakest x hx).trans_lt hlow
  obtain ⟨older, newer, hqueue, hn, hall, hnewer⟩ := hweakest
  rw [offer_full hfull hw, if_pos hlevel]
  refine ⟨rfl, older, w, newer, hqueue, ?_, hlevel, hall, hnewer⟩
  show u.queue.eraseIdx n ++ [r] = _
  rw [hqueue, ← hn, List.eraseIdx_append_of_length_le le_rfl, Nat.sub_self, List.eraseIdx_cons_zero]

end Offer

/-- Settles O23, by the three ways a report can come to the queue: not at all, suppressed, or offered. -/
theorem reportOffered : Obligations.ReportOffered := by
  refine fun s c => ⟨fun h => ?_, fun p hp hhalted hlevel => ?_, fun p r hp hhalted hlevel hr => ?_⟩
  · have hdrop : (s.produce c).rep = s.rep.drop 1 := by
      show s.rep.produced s c = _
      unfold ReportUnit.produced
      split
      · rfl
      · next p hp =>
        obtain h | h := h
        · cases hp.symm.trans h
        · rw [if_pos h]
    rw [hdrop]
    exact ⟨rfl, rfl⟩
  · rw [State.produce, ReportUnit.produced, hp]
    simp [hhalted, hlevel]
  · have hoffer : (s.produce c).rep = s.rep.offer r := by
      show s.rep.produced s c = _
      rw [ReportUnit.produced, hp]
      simp [hhalted, hlevel, hr]
    rw [hoffer]
    refine ⟨by rw [hr]; exact ⟨rfl, rfl, rfl⟩, fun hroom => ?_, fun hfull hall => ?_, fun hfull hlow => ?_⟩
    · rw [offer_room hroom]
      exact ⟨rfl, rfl⟩
    · rw [offer_dropped hfull hall]
      exact ⟨rfl, rfl⟩
    · exact offer_displaces hfull hlow

end Sys2Proof.Machine
end

