-- ==== Sys2Proof/Proofs/Cursor.lean ====
section
/-! PROOF. The steps of a cursor reach every card of the window, each once, in the order of the table of R36. -/

namespace Sys2Proof.Machine

/-! ## One direction of a window -/

/-- The number of places from the start at which a direction reaches `v`. -/
def placeIn (d : Direction) (first last v : Nat) : Nat :=
  match d with
  | .increasing => v - first
  | .decreasing => last - v

theorem moved_bounds {d : Direction} {first last k : Nat} (h : k < last + 1 - first) :
    first ≤ moved d first last k ∧ moved d first last k ≤ last := by
  cases d <;> simp only [moved] <;> omega

theorem moved_injective {d : Direction} {first last j k : Nat} (hj : j < last + 1 - first) (hk : k < last + 1 - first)
    (h : moved d first last j = moved d first last k) : j = k := by
  cases d <;> simp only [moved] at h <;> omega

theorem moved_placeIn {d : Direction} {first last v : Nat} (hfirst : first ≤ v) (hlast : v ≤ last) :
    moved d first last (placeIn d first last v) = v ∧ placeIn d first last v < last + 1 - first := by
  cases d <;> simp only [moved, placeIn] <;> omega

/-! ## The place of a step -/

/-- The lanes between the start lane and step `k` (R36). -/
def stepLane (x : SlotSettings) (k : Nat) : Nat :=
  if x.order = .laneMajor then k % windowLanes x else k / windowRows x

/-- The rows between the start row and step `k` (R36). -/
def stepRow (x : SlotSettings) (k : Nat) : Nat :=
  if x.order = .laneMajor then k / windowLanes x else k % windowRows x

/-- The step that stands `l` lanes and `r` rows from the start. -/
def stepAt (x : SlotSettings) (l r : Nat) : Nat :=
  if x.order = .laneMajor then r * windowLanes x + l else l * windowRows x + r

theorem stepCard_eq (x : SlotSettings) (k : Nat) :
    stepCard x k = cardAt (moved x.laneDirection x.firstLane x.lastLane (stepLane x k))
      (moved x.rowDirection x.firstRow x.lastRow (stepRow x k)) := by
  unfold stepCard stepLane stepRow
  split
  · next h => rw [if_pos h, if_pos h]
  · next h => rw [if_neg (by simp [h]), if_neg (by simp [h])]

/-- A step of the window stands inside it. -/
theorem step_place_lt {x : SlotSettings} {k : Nat} (h : k < windowSize x) :
    stepLane x k < windowLanes x ∧ stepRow x k < windowRows x := by
  unfold windowSize at h
  have hlanes : 0 < windowLanes x := Nat.pos_of_mul_pos_right (Nat.zero_lt_of_lt h)
  have hrows : 0 < windowRows x := Nat.pos_of_mul_pos_left (Nat.zero_lt_of_lt h)
  unfold stepLane stepRow
  split
  · exact ⟨Nat.mod_lt _ hlanes, Nat.div_lt_of_lt_mul h⟩
  · exact ⟨Nat.div_lt_of_lt_mul (Nat.mul_comm .. ▸ h), Nat.mod_lt _ hrows⟩

/-- A step is the one that stands at its place. -/
theorem stepAt_place (x : SlotSettings) (k : Nat) : stepAt x (stepLane x k) (stepRow x k) = k := by
  unfold stepAt stepLane stepRow
  split
  · exact Nat.div_add_mod' k _
  · exact Nat.div_add_mod' k _

/-- Every place of the window is that of a step. -/
theorem place_stepAt {x : SlotSettings} {l r : Nat} (hl : l < windowLanes x) (hr : r < windowRows x) :
    stepLane x (stepAt x l r) = l ∧ stepRow x (stepAt x l r) = r ∧ stepAt x l r < windowSize x := by
  unfold stepAt stepLane stepRow windowSize
  split
  · refine ⟨Nat.mul_add_mod_of_lt hl, ?_, ?_⟩
    · rw [Nat.mul_comm, Nat.mul_add_div (by omega), Nat.div_eq_of_lt hl, Nat.add_zero]
    · calc r * windowLanes x + l < r * windowLanes x + windowLanes x := by omega
        _ = (r + 1) * windowLanes x := (Nat.succ_mul _ _).symm
        _ ≤ windowRows x * windowLanes x := Nat.mul_le_mul_right _ hr
        _ = windowLanes x * windowRows x := Nat.mul_comm _ _
  · refine ⟨?_, Nat.mul_add_mod_of_lt hr, ?_⟩
    · rw [Nat.mul_comm, Nat.mul_add_div (by omega), Nat.div_eq_of_lt hr, Nat.add_zero]
    · calc l * windowRows x + r < l * windowRows x + windowRows x := by omega
        _ = (l + 1) * windowRows x := (Nat.succ_mul _ _).symm
        _ ≤ windowLanes x * windowRows x := Nat.mul_le_mul_right _ hl

/-! ## The card of a step -/

theorem cardAt_lane_row (c : Nat) : cardAt (laneOf c) (rowOf c) = c := by
  unfold cardAt laneOf rowOf
  omega

theorem inWindow_iff (x : SlotSettings) (c : Nat) :
    inWindow x c = true ↔
      (x.firstLane ≤ laneOf c ∧ laneOf c ≤ x.lastLane) ∧ x.firstRow ≤ rowOf c ∧ rowOf c ≤ x.lastRow := by
  simp [inWindow, and_assoc]

/-- The lane and the row that a step of the window reaches (R36). -/
theorem laneRow_stepCard {x : SlotSettings} {k : Nat} (hlane : 1 ≤ x.firstLane) (hlast : x.lastLane ≤ 8)
    (hrow : 1 ≤ x.firstRow) (h : k < windowSize x) :
    laneOf (stepCard x k) = moved x.laneDirection x.firstLane x.lastLane (stepLane x k) ∧
    rowOf (stepCard x k) = moved x.rowDirection x.firstRow x.lastRow (stepRow x k) := by
  obtain ⟨hl, hr⟩ := step_place_lt h
  obtain ⟨hl1, hl2⟩ := moved_bounds (d := x.laneDirection) hl
  obtain ⟨hr1, -⟩ := moved_bounds (d := x.rowDirection) hr
  rw [stepCard_eq]
  exact ⟨laneOf_cardAt (hlane.trans hl1) (hl2.trans hlast),
    rowOf_cardAt (hlane.trans hl1) (hl2.trans hlast) (hrow.trans hr1)⟩

/-- Settles O20: a step and its place in the window determine each other. -/
theorem cursorFollowsTable : Obligations.CursorFollowsTable := by
  intro x hlane hlanes hlast hrow hrows hbottom
  refine ⟨fun k hk => ?_, fun j k hj hk hcard => ?_, fun c hc hin => ?_, fun k hk => ?_⟩
  · obtain ⟨hl, hr⟩ := step_place_lt hk
    obtain ⟨hlaneOf, hrowOf⟩ := laneRow_stepCard hlane hlast hrow hk
    rw [inWindow_iff, hlaneOf, hrowOf]
    exact ⟨moved_bounds hl, moved_bounds hr⟩
  · obtain ⟨hlj, hrj⟩ := step_place_lt hj
    obtain ⟨hlk, hrk⟩ := step_place_lt hk
    obtain ⟨hlanej, hrowj⟩ := laneRow_stepCard hlane hlast hrow hj
    obtain ⟨hlanek, hrowk⟩ := laneRow_stepCard hlane hlast hrow hk
    have hl : stepLane x j = stepLane x k := moved_injective hlj hlk (by rw [← hlanej, ← hlanek, hcard])
    have hr : stepRow x j = stepRow x k := moved_injective hrj hrk (by rw [← hrowj, ← hrowk, hcard])
    rw [← stepAt_place x j, ← stepAt_place x k, hl, hr]
  · obtain ⟨⟨hl1, hl2⟩, hr1, hr2⟩ := (inWindow_iff x c).mp hin
    obtain ⟨hl, hlt⟩ := moved_placeIn (d := x.laneDirection) hl1 hl2
    obtain ⟨hr, hrt⟩ := moved_placeIn (d := x.rowDirection) hr1 hr2
    obtain ⟨hplaceLane, hplaceRow, hsize⟩ := place_stepAt hlt hrt
    refine ⟨_, hsize, ?_⟩
    rw [stepCard_eq, hplaceLane, hplaceRow, hl, hr, cardAt_lane_row]
  · have hwl : x.lastLane - x.firstLane + 1 = windowLanes x := by
      unfold windowLanes
      omega
    have hwr : x.lastRow - x.firstRow + 1 = windowRows x := by
      unfold windowRows
      omega
    obtain ⟨hl, hr⟩ := step_place_lt hk
    obtain ⟨hlaneOf, hrowOf⟩ := laneRow_stepCard hlane hlast hrow hk
    rw [hwl, hwr]
    refine ⟨rfl, fun hd => ?_, fun hd => ?_, fun hd => ?_, fun hd => ?_⟩
    · rw [hlaneOf, hd]
      rfl
    · rw [hlaneOf, hd]
      show x.lastLane - stepLane x k + stepLane x k = x.lastLane
      unfold windowLanes at hl
      omega
    · rw [hrowOf, hd]
      rfl
    · rw [hrowOf, hd]
      show x.lastRow - stepRow x k + stepRow x k = x.lastRow
      unfold windowRows at hr
      omega

end Sys2Proof.Machine
end

