-- ==== Sys2Proof/Proofs/Acceptance.lean ====
section
/-! PROOF. What an accepted transfer becomes: an entry, a pending read, ERROR, a transfer held, or a stream value (R14, R15,
R24 to R27, R37 to R44, R80 to R83). -/

namespace Sys2Proof.Machine

/-! ## A presented transfer -/

/-- A write as it is presented. -/
def writeTransfer (address : Addr) (enables : Enables) (data : Word) : Transfer :=
  { isWrite := true, address := address, enables := enables, data := data }

/-- A read as it is presented. -/
def readTransfer (address : Addr) (enables : Enables) : Transfer :=
  { isWrite := false, address := address, enables := enables, data := 0 }

section Presented

variable {s : State} {p : Port} {address : Addr} {enables : Enables} {data : Word}

theorem exec_write_taken (hmay : s.mayPresent p (writeTransfer address enables data) = true)
    (hwaits : s.portWaits p = false) :
    exec (.writeAcceptance p address enables data) s =
      .next (State.settle none s (s.acceptWrite p (writeTransfer address enables data))) := by
  show execWriteAcceptance p address enables data s = _
  unfold execWriteAcceptance
  dsimp only
  rw [if_neg (by simpa [writeTransfer] using hmay), if_neg (by simp [hwaits])]
  rfl

theorem exec_write_waits (hmay : s.mayPresent p (writeTransfer address enables data) = true)
    (hwaits : s.portWaits p = true) :
    exec (.writeAcceptance p address enables data) s =
      .next (State.settle none s (s.holdTransfer p (writeTransfer address enables data))) := by
  show execWriteAcceptance p address enables data s = _
  unfold execWriteAcceptance
  dsimp only
  rw [if_neg (by simpa [writeTransfer] using hmay), if_pos hwaits]
  rfl

theorem exec_read_taken (hmay : s.mayPresent p (readTransfer address enables) = true) (hwaits : s.portWaits p = false) :
    exec (.readAcceptance p address enables) s =
      .next (State.settle none s (s.acceptRead p (readTransfer address enables))) := by
  show execReadAcceptance p address enables s = _
  unfold execReadAcceptance
  dsimp only
  rw [if_neg (by simpa [readTransfer] using hmay), if_neg (by simp [hwaits])]
  rfl

theorem exec_read_waits (hmay : s.mayPresent p (readTransfer address enables) = true) (hwaits : s.portWaits p = true) :
    exec (.readAcceptance p address enables) s =
      .next (State.settle none s (s.holdTransfer p (readTransfer address enables))) := by
  show execReadAcceptance p address enables s = _
  unfold execReadAcceptance
  dsimp only
  rw [if_neg (by simpa [readTransfer] using hmay), if_pos hwaits]
  rfl

end Presented

/-! ## What it leaves alone -/

theorem otherPort_ne (p : Port) : otherPort p ≠ p := by cases p <;> decide

/-- A step that replaces one port leaves everything else as it was. -/
theorem sameButPort_settle (s : State) (p : Port) (x : PortState) :
    (State.settle none s (s.setPort p x)).port p = x ∧ SameButPort p s (State.settle none s (s.setPort p x)) := by
  refine ⟨by simp, ⟨by simp, by simp, by simp⟩, ?_, ⟨by simp, by simp, by simp, by simp, by simp, by simp⟩, ?_⟩
  · rw [settle_port, setPort_other _ _ _ _ (otherPort_ne p)]
  · exact sameReportRegisters_settle (by simpa using SameUnit.refl s.rep)

theorem hasRoom_one {s : State} {p : Port} (e : Entry) : s.hasRoom p [e] = decide ((s.port p).queue.length < 16) := by
  rfl

/-- A write outside the apertures that is not refused makes one entry (R15, R82). -/
theorem planWrite_one {s : State} {p : Port} {a : Nat} {enables : Enables} {data : Word} {e : Entry}
    (h : s.classify a = .profileBlock ∧ e = .profile a data enables ∨
      s.classify a = .rawRing ∧ s.seq.tracking.ringHeld = false ∧ e = .plain a data enables ∨
      (s.classify a = .reportRing ∨ s.classify a = .plain) ∧ e = .plain a data enables) :
    s.planWrite p a enables data = .queue s [e] := by
  obtain ⟨h, rfl⟩ | ⟨h, hheld, rfl⟩ | ⟨h | h, rfl⟩ := h
  · exact planWrite_profileBlock h
  · rw [planWrite_rawRing h, if_neg (by simp [hheld])]
  · exact planWrite_reportRing h
  · exact planWrite_plain h

/-- A view access that is not refused finds the settings of its slot (R26). -/
theorem settings_of_not_refused {s : State} {p : Port} {isWrite : Bool} {i : Fin 8} {offset : Nat}
    (h : s.viewRefused p isWrite i offset = false) : ∃ x, s.settings i = some x := by
  cases hp : s.cmd.profile with
  | none =>
    rw [State.viewRefused, hp] at h
    cases h
  | some pr => exact ⟨pr.slots.get i, by rw [State.settings, hp]; rfl⟩

/-- A write of the direct card area that is not refused makes one VIEW entry (R24, R27). -/
theorem planWrite_card {s : State} {p : Port} {a : Nat} {enables : Enables} {data : Word} {i : Fin 8} {offset : Nat}
    (hclass : s.classify a = .view i offset) (hrefused : s.viewRefused p true i offset = false) (hoffset : offset < 0x400) :
    s.planWrite p a enables data = .queue s
      [.view { slot := i, frame := (s.view.get i).currentFrame.getD 0, card := offset / 16, word := offsetWord offset }
        data enables] := by
  obtain ⟨x, hx⟩ := settings_of_not_refused hrefused
  rw [planWrite_view hclass, if_neg (by simp [hrefused]), hx]
  exact if_pos hoffset

section Outcomes

variable {s : State} {p : Port} {address : Addr} {enables : Enables} {data : Word}

/-- A planned entry joins the queue when there is room, and else the transfer is held (R80, R82). -/
theorem acceptWrite_one {e : Entry} (hplan : s.planWrite p (wordAddress address) enables data = .queue s [e]) :
    s.acceptWrite p (writeTransfer address enables data) =
      if (s.port p).queue.length < 16 then
        s.setPort p { s.port p with transfer := none, queue := (s.port p).queue ++ [e], answer := some .ok }
      else s.holdTransfer p (writeTransfer address enables data) := by
  rw [acceptWrite_queue (t := writeTransfer address enables data) hplan, hasRoom_one]
  simp only [decide_eq_true_eq]
  rfl

theorem exec_write_one {e : Entry} (hmay : s.mayPresent p (writeTransfer address enables data) = true)
    (hwaits : s.portWaits p = false) (hroom : (s.port p).queue.length < 16)
    (hplan : s.planWrite p (wordAddress address) enables data = .queue s [e]) :
    ∃ t, exec (.writeAcceptance p address enables data) s = .next t ∧
      t.port p = { s.port p with transfer := none, queue := (s.port p).queue ++ [e], answer := some .ok } ∧
      SameButPort p s t := by
  refine ⟨_, exec_write_taken hmay hwaits, ?_⟩
  rw [acceptWrite_one hplan, if_pos hroom]
  exact sameButPort_settle _ _ _

theorem exec_write_full {e : Entry} (hmay : s.mayPresent p (writeTransfer address enables data) = true)
    (hwaits : s.portWaits p = false) (hfull : 16 ≤ (s.port p).queue.length)
    (hplan : s.planWrite p (wordAddress address) enables data = .queue s [e]) :
    exec (.writeAcceptance p address enables data) s =
      .next (State.settle none s (s.holdTransfer p (writeTransfer address enables data))) := by
  rw [exec_write_taken hmay hwaits, acceptWrite_one hplan, if_neg (Nat.not_lt.mpr hfull)]

/-- A refused write is answered ERROR (R15, R26). -/
theorem exec_write_refused (hmay : s.mayPresent p (writeTransfer address enables data) = true)
    (hwaits : s.portWaits p = false) (hplan : s.planWrite p (wordAddress address) enables data = .refuse) :
    ∃ t, exec (.writeAcceptance p address enables data) s = .next t ∧
      t.port p = { s.port p with transfer := none, answer := some .error } ∧ SameButPort p s t := by
  refine ⟨_, exec_write_taken hmay hwaits, ?_⟩
  rw [acceptWrite_refuse (t := writeTransfer address enables data) hplan]
  exact sameButPort_settle _ _ _

end Outcomes

/-- Settles O24: both kinds of write make one entry. -/
theorem writeBecomesEntry : Obligations.WriteBecomesEntry := by
  refine ⟨fun p address enables data s e hmay hwaits hroom hclass => ?_,
    fun p address enables data s i offset frame hmay hwaits hroom hclass hrefused hoffset hframe => ?_⟩
  · exact exec_write_one hmay hwaits hroom (planWrite_one hclass)
  · have hplan := planWrite_card (enables := enables) (data := data) hclass hrefused hoffset
    rw [hframe] at hplan
    exact exec_write_one hmay hwaits hroom hplan

/-- Settles O25: a refused write is planned as such, a refused read is none, and the six cases are those of R26. -/
theorem refusedAtAcceptance : Obligations.RefusedAtAcceptance := by
  refine ⟨fun p address enables data s hmay hwaits hclass => exec_write_refused hmay hwaits ?_,
    fun p address enables s i offset hmay hwaits hclass hrefused => ?_, fun s p isWrite i offset pr hp => ?_⟩
  · obtain ⟨hclass, hheld⟩ | ⟨i, offset, hclass, hrefused⟩ := hclass
    · rw [planWrite_rawRing hclass, if_pos hheld]
    · rw [planWrite_view hclass, if_pos hrefused]
  · refine ⟨_, exec_read_taken hmay hwaits, ?_⟩
    have hplan : s.planRead p (wordAddress (readTransfer address enables).address) = none := by
      rw [readTransfer, planRead_view hclass, if_pos hrefused]
    rw [acceptRead_refused hplan]
    exact sameButPort_settle _ _ _
  · rw [State.viewRefused, hp]
    simp only [Bool.or_eq_true, decide_eq_true_eq, Bool.not_eq_true', Bool.or_eq_false_iff, decide_eq_false_iff_not,
      Bool.and_eq_true, Option.isNone_iff_eq_none, Bool.and_eq_false_iff, or_assoc]
    have hused : ∀ b c : Bool, (b = false ∨ c = false) ↔ ¬(b = true ∧ c = true) := by decide
    rw [hused]

/-- Settles O26: a full queue has no room for the one entry that the write would make. -/
theorem transferHeld : Obligations.TransferHeld := by
  refine ⟨fun p address enables data s hmay hcase => ?_, fun p address enables s hmay hcase => ?_⟩
  · have hheld : exec (.writeAcceptance p address enables data) s =
        .next (State.settle none s (s.holdTransfer p (writeTransfer address enables data))) := by
      cases hwaits : s.portWaits p with
      | true => exact exec_write_waits hmay hwaits
      | false =>
        obtain ⟨hreset, hpending⟩ := Bool.or_eq_false_iff.mp hwaits
        obtain hcase | hcase | ⟨hfull, hclass⟩ := hcase
        · exact absurd hcase (by simp [hreset])
        · exact absurd hcase (by simp [hpending])
        · obtain hclass | hclass | hclass | ⟨hclass, hring⟩ | ⟨i, offset, hclass, hoffset, hrefused⟩ := hclass
          · exact exec_write_full hmay hwaits hfull (planWrite_profileBlock hclass)
          · exact exec_write_full hmay hwaits hfull (planWrite_plain hclass)
          · exact exec_write_full hmay hwaits hfull (planWrite_reportRing hclass)
          · exact exec_write_full hmay hwaits hfull (planWrite_one (.inr (.inl ⟨hclass, hring, rfl⟩)))
          · exact exec_write_full hmay hwaits hfull (planWrite_card hclass hrefused hoffset)
    exact ⟨_, hheld, sameButPort_settle _ _ _⟩
  · have hwaits : s.portWaits p = true := Bool.or_eq_true_iff.mpr hcase
    exact ⟨_, exec_read_waits hmay hwaits, sameButPort_settle _ _ _⟩

/-- Settles O28: a read outside the apertures waits as a PLAIN read, one of a card as a VIEW read. -/
theorem readBecomesPending : Obligations.ReadBecomesPending := by
  intro p address enables s r hmay hwaits hclass
  have hplan : s.planRead p (wordAddress (readTransfer address enables).address) = some r := by
    obtain ⟨hclass, rfl⟩ | ⟨i, offset, frame, hclass, hrefused, hframe, rfl⟩ := hclass
    · refine planRead_plain fun i offset hview => ?_
      rw [readTransfer] at hview
      simp [hview] at hclass
    · rw [readTransfer, planRead_view hclass, if_neg (by simp [hrefused]), hframe]
      rfl
  refine ⟨_, exec_read_taken hmay hwaits, ?_⟩
  rw [acceptRead_pending hplan]
  exact sameButPort_settle _ _ _

end Sys2Proof.Machine
end

