-- ==== Sys2Proof/Proofs/StreamWrites.lean ====
section
/-! PROOF. What a stream write becomes: held, a resync, entries, or dropped values (R37, R38, R41 to R44). -/

namespace Sys2Proof.Machine

/-! ## The entries of stream values (R37, R42) -/

theorem length_streamEntries (x : SlotSettings) (i : Fin 8) (frame k : Nat) (vs : List (Word × Enables)) :
    (streamEntries x i frame k vs).length = vs.length := by
  induction vs generalizing k with
  | nil => rfl
  | cons v vs ih => rw [streamEntries, List.length_cons, List.length_cons, ih]

theorem streamEntries_append (x : SlotSettings) (i : Fin 8) (frame k : Nat) (us vs : List (Word × Enables)) :
    streamEntries x i frame k (us ++ vs) =
      streamEntries x i frame k us ++ streamEntries x i frame (k + us.length) vs := by
  induction us generalizing k with
  | nil => rfl
  | cons u us ih =>
    rw [List.cons_append, streamEntries, streamEntries, ih, List.cons_append, List.length_cons, Nat.add_assoc,
      Nat.add_comm 1]

/-- The entries of the same value given to `n` cards. -/
theorem streamEntries_replicate (x : SlotSettings) (i : Fin 8) (frame k n : Nat) (d : Word) (e : Enables) :
    streamEntries x i frame k (List.replicate n (d, e)) = (List.range n).map fun m =>
      .stream { slot := i, frame := frame, card := stepCard x (k + m), word := x.streamWord } d e := by
  induction n with
  | zero => rfl
  | succ n ih =>
    rw [List.replicate_succ', streamEntries_append, ih, List.length_replicate, List.range_succ, List.map_append]
    rfl

/-! ## The four outcomes of a stream write -/

section Outcomes

variable {x : SlotSettings} {i : Fin 8} {st : Station} {enables : Enables} {data : Word}

theorem matchesSync_iff : matchesSync x enables data = true ↔ x.sync = true ∧ enables = 0xF ∧ data = x.syncValue := by
  simp [matchesSync, and_assoc]

theorem streamWrite_held (hsync : matchesSync x enables data = true) (h : st.held < 3) :
    streamWrite x i st enables data = .held { st with held := st.held + 1 } := by
  rw [streamWrite, if_pos hsync, if_pos h]

theorem streamWrite_resync (hsync : matchesSync x enables data = true) (h : st.held = 3) :
    streamWrite x i st enables data =
      .resync { st with held := 0, cursor := .step 0 } (cursorResync x i st 4 Config.resyncDetail) := by
  rw [streamWrite, if_pos hsync, if_neg (by omega)]

variable (hsync : matchesSync x enables data = false)
include hsync

/-- With the cursor exhausted every value is dropped (R38, R42). -/
theorem streamWrite_exhausted (hcursor : st.cursor = .exhausted) :
    streamWrite x i st enables data =
      .data { st with held := 0, overflow := addUpTo Config.maxHalf st.overflow (st.held + 1), lastDropped := data } [] := by
  rw [streamWrite, if_neg (by simp [hsync])]
  simp [streamRoom, streamValues, hcursor, streamEntries]

/-- With the cursor at a step the values get as many cards as the window has left (R42). -/
theorem streamWrite_step {k : Nat} (hcursor : st.cursor = .step k) :
    streamWrite x i st enables data =
      .data
        { st with
          held := 0
          cursor := cursorAt x (k + min (st.held + 1) (windowSize x - k))
          overflow := addUpTo Config.maxHalf st.overflow (st.held + 1 - min (st.held + 1) (windowSize x - k))
          lastDropped := if st.held + 1 - min (st.held + 1) (windowSize x - k) = 0 then st.lastDropped else data }
        (streamEntries x i (st.currentFrame.getD 0) k
          ((streamValues x st.held enables data).take (min (st.held + 1) (windowSize x - k)))) := by
  have hlength : (streamValues x st.held enables data).length = st.held + 1 := by simp [streamValues]
  rw [streamWrite, if_neg (by simp [hsync])]
  simp only [streamRoom, hcursor, hlength, cursorStep]

end Outcomes

/-! ## A stream write at acceptance -/

/-- The state with a slot's station, the Report Unit and the port's queue replaced, and the write answered OK. -/
def State.streamed (s : State) (p : Port) (i : Fin 8) (st : Station) (u : ReportUnit) (es : List Entry) : State :=
  ({ s.setStation i st with rep := u } : State).enqueue p es

theorem port_streamed (s : State) (p : Port) (i : Fin 8) (st : Station) (u : ReportUnit) (es : List Entry) :
    (s.streamed p i st u es).port p =
      { s.port p with transfer := none, queue := (s.port p).queue ++ es, answer := some .ok } := by
  cases p <;> rfl

/-- What it leaves alone. -/
theorem sameButStation_streamed (s : State) (p : Port) (i : Fin 8) (st : Station) {u : ReportUnit} (es : List Entry)
    (hu : SameUnit s.rep u) :
    (State.settle none s (s.streamed p i st u es)).view.get i = st ∧
    SameButStation p i s (State.settle none s (s.streamed p i st u es)) := by
  have hview : (State.settle none s (s.streamed p i st u es)).view = s.view.set i st := by
    simp [State.streamed, State.enqueue, State.setStation]
  have hrep : (s.streamed p i st u es).rep = u := by simp [State.streamed, State.enqueue]
  refine ⟨by rw [hview, get_set_same], ⟨?memory, ?other, fun j hj => by rw [hview, get_set_other _ _ _ _ hj], ?claims, ?seq,
    ?time, ?disch, ?cmd, sameReportRegisters_settle (by rwa [hrep])⟩⟩
  case memory => simp [SameMemory, State.streamed, State.enqueue, State.setStation]
  case other =>
    rw [settle_port, State.streamed, State.enqueue, setPort_other _ _ _ _ (otherPort_ne p)]
    cases p <;> rfl
  all_goals simp [State.streamed, State.enqueue, State.setStation]

section Accepted

variable {s : State} {p : Port} {address : Addr} {enables : Enables} {data : Word} {i : Fin 8} {x : SlotSettings}

/-- A stream write that is not refused is planned by its slot's stream (R37). -/
theorem planWrite_stream (hclass : s.classify (wordAddress address) = .view i 0x400)
    (hrefused : s.viewRefused p true i 0x400 = false) (hx : s.settings i = some x) :
    s.planWrite p (wordAddress address) enables data = s.planStream x i enables data := by
  rw [planWrite_view hclass, if_neg (by simp [hrefused]), hx]
  exact if_neg (by decide)

variable (hmay : s.mayPresent p (writeTransfer address enables data) = true) (hwaits : s.portWaits p = false)
  (hclass : s.classify (wordAddress address) = .view i 0x400) (hrefused : s.viewRefused p true i 0x400 = false)
  (hx : s.settings i = some x)
include hmay hwaits hclass hrefused hx

theorem exec_stream {after : State} {es : List Entry} (hplan : s.planStream x i enables data = .queue after es)
    (hroom : s.hasRoom p es = true) :
    exec (.writeAcceptance p address enables data) s = .next (State.settle none s (after.enqueue p es)) := by
  rw [exec_write_taken hmay hwaits, acceptWrite_queue (t := writeTransfer address enables data)
    ((planWrite_stream hclass hrefused hx).trans hplan), if_pos hroom]

theorem exec_stream_held {after : State} {es : List Entry} (hplan : s.planStream x i enables data = .queue after es)
    (hroom : s.hasRoom p es = false) :
    exec (.writeAcceptance p address enables data) s =
      .next (State.settle none s (s.holdTransfer p (writeTransfer address enables data))) := by
  rw [exec_write_taken hmay hwaits, acceptWrite_queue (t := writeTransfer address enables data)
    ((planWrite_stream hclass hrefused hx).trans hplan), if_neg (by simp [hroom])]

/-- A stream write whose plan has room, with what it leaves alone. -/
theorem exec_streamed {st : Station} {u : ReportUnit} {es : List Entry}
    (hplan : s.planStream x i enables data = .queue { s.setStation i st with rep := u } es) (hu : SameUnit s.rep u)
    (hroom : s.hasRoom p es = true) :
    ∃ t, exec (.writeAcceptance p address enables data) s = .next t ∧ t = State.settle none s (s.streamed p i st u es) ∧
      t.view.get i = st ∧
      t.port p = { s.port p with transfer := none, queue := (s.port p).queue ++ es, answer := some .ok } ∧
      SameButStation p i s t := by
  obtain ⟨hview, hsame⟩ := sameButStation_streamed s p i st es hu
  exact ⟨_, exec_stream hmay hwaits hclass hrefused hx hplan hroom, rfl, hview,
    (settle_port ..).trans (port_streamed s p i st u es), hsame⟩

end Accepted

theorem planStream_data {s : State} {x : SlotSettings} {i : Fin 8} {enables : Enables} {data : Word} {st : Station}
    {es : List Entry} (hwrite : streamWrite x i (s.view.get i) enables data = .data st es) :
    s.planStream x i enables data = .queue (s.setStation i st) es := by rw [State.planStream, hwrite]

theorem hasRoom_of_le {s : State} {p : Port} {es : List Entry} (h : (s.port p).queue.length + es.length ≤ 16) :
    s.hasRoom p es = true := by
  rw [State.hasRoom, Bool.or_eq_true, decide_eq_true_eq]
  exact .inr h

/-- Settles O27, outcome by outcome. -/
theorem streamWriteOutcomes : Obligations.StreamWriteOutcomes := by
  intro p address enables data s i frame x st hmay hwaits hclass hrefused hx hst hframe hheld
  subst hst
  have hdata := fun {st : Station} {es : List Entry} (hwrite : streamWrite x i (s.view.get i) enables data = .data st es) =>
    exec_streamed hmay hwaits hclass hrefused hx (u := s.rep) (planStream_data hwrite) (SameUnit.refl _)
  have hget : (s.view.get i).currentFrame.getD 0 = frame := by rw [hframe]; rfl
  have hsync : ¬(x.sync = true ∧ enables = 0xF ∧ data = x.syncValue) → matchesSync x enables data = false := by
    rw [← matchesSync_iff, Bool.not_eq_true]
    exact id
  have hvalues : ∀ n, n ≤ (s.view.get i).held →
      (streamValues x (s.view.get i).held enables data).take n = List.replicate n (x.syncValue, 0xF#4) := by
    intro n hn
    rw [streamValues, List.take_append_of_le_length (by simpa using hn), List.take_replicate, Nat.min_eq_left hn]
  refine ⟨fun hmatch hlow => ?hold, fun hmatch hthree => ?resync, fun hmatch hcursor => ?exhausted,
    fun k hmatch hcursor hfits hover hroom => ?whole, fun k hmatch hcursor hk hpast hroom => ?part,
    fun k hmatch hcursor hk hfull => ?waits⟩
  case hold =>
    have hplan : s.planStream x i enables data =
        .queue (s.setStation i { s.view.get i with held := (s.view.get i).held + 1 }) [] := by
      rw [State.planStream, streamWrite_held (matchesSync_iff.mpr hmatch) hlow]
    obtain ⟨t, ht, -, hview, hport, hsame⟩ := exec_streamed (u := s.rep) hmay hwaits hclass hrefused hx hplan (SameUnit.refl _) rfl
    exact ⟨t, ht, hview, by rw [hport, List.append_nil], hsame⟩
  case resync =>
    have hplan : s.planStream x i enables data =
        .queue ((s.setStation i { s.view.get i with held := 0, cursor := .step 0 }).produce
          (cursorResync x i (s.view.get i) 4 Config.resyncDetail)) [] := by
      rw [State.planStream, streamWrite_resync (matchesSync_iff.mpr hmatch) hthree]
    obtain ⟨t, ht, heq, hview, hport, hsame⟩ := exec_streamed hmay hwaits hclass hrefused hx hplan (sameUnit_produce _ _) rfl
    refine ⟨t, ht, hview, by rw [hport, List.append_nil], hsame, (cursorPlace x (s.view.get i).cursor).1,
      (cursorPlace x (s.view.get i).cursor).2, fun k hk => by rw [hk]; exact ⟨rfl, rfl⟩, fun hk => by rw [hk]; exact ⟨rfl, rfl⟩,
      ?_⟩
    rw [heq, ← hget]
    refine congrArg (State.settle none s) ?_
    cases p <;> simp [State.streamed, State.enqueue, State.setPort, State.port, State.produce, State.setStation, cursorResync]
  case exhausted =>
    obtain ⟨t, ht, -, hview, hport, hsame⟩ := hdata (streamWrite_exhausted (hsync hmatch) hcursor) rfl
    exact ⟨t, ht, hview, by rw [hport, List.append_nil], hsame⟩
  case whole =>
    have hmin : min ((s.view.get i).held + 1) (windowSize x - k) = (s.view.get i).held + 1 := by omega
    have hkept : addUpTo Config.maxHalf (s.view.get i).overflow 0 = (s.view.get i).overflow := Nat.min_eq_left hover
    have hwrite := streamWrite_step (i := i) (hsync hmatch) hcursor
    rw [hmin, hget, Nat.sub_self, if_pos rfl, hkept, List.take_of_length_le (by simp [streamValues]), streamValues,
      streamEntries_append, streamEntries_replicate, List.length_replicate] at hwrite
    obtain ⟨t, ht, -, hview, hport, hsame⟩ := hdata hwrite (hasRoom_of_le (by simp [streamEntries]; omega))
    refine ⟨t, ht, hview, by rw [hport], ?_, hsame⟩
    rw [hport, List.append_assoc]
    rfl
  case part =>
    have hmin : min ((s.view.get i).held + 1) (windowSize x - k) = windowSize x - k := by omega
    have hleft : (s.view.get i).held + 1 - (windowSize x - k) = k + (s.view.get i).held + 1 - windowSize x := by omega
    have hpastEnd : cursorAt x (k + (windowSize x - k)) = .exhausted := if_neg (by omega)
    have hwrite := streamWrite_step (i := i) (hsync hmatch) hcursor
    rw [hmin, hget, hleft, if_neg (by omega), hpastEnd, hvalues _ (by omega), streamEntries_replicate] at hwrite
    obtain ⟨t, ht, -, hview, hport, hsame⟩ := hdata hwrite (hasRoom_of_le (by simpa using hroom))
    exact ⟨t, ht, hview, by rw [hport], by rw [hport]; rfl, hsame⟩
  case waits =>
    have hplan := planStream_data (streamWrite_step (i := i) (hsync hmatch) hcursor)
    refine ⟨_, exec_stream_held hmay hwaits hclass hrefused hx hplan ?_, sameButPort_settle _ _ _⟩
    have hlength : (streamValues x (s.view.get i).held enables data).length = (s.view.get i).held + 1 := by
      simp [streamValues]
    rw [State.hasRoom, Bool.or_eq_false_iff, decide_eq_false_iff_not, List.isEmpty_eq_false_iff, ← List.length_pos_iff,
      length_streamEntries, List.length_take, hlength]
    have hsize : Config.queueSize = 16 := rfl
    omega

end Sys2Proof.Machine
end

