-- ==== Sys2Proof/Proofs/EntryDecisions.lean ====
section
/-! PROOF. VIEW and STREAM entries: the decision at the grant, the pass under its hold, and what a whole performance leaves
(R40, R48, R49, R54, R60, R63 to R73). -/

namespace Sys2Proof.Machine

/-! ## Reports of a pass -/

/-- Reports produced one after the other touch the Report Unit alone. -/
theorem foldl_produce_rep (cs : List Content) (s : State) :
    ∃ u, cs.foldl State.produce s = { s with rep := u } ∧ SameUnit s.rep u := by
  induction cs generalizing s with
  | nil => exact ⟨s.rep, rfl, SameUnit.refl _⟩
  | cons c cs ih =>
    obtain ⟨u, hu, hsame⟩ := ih (s.produce c)
    exact ⟨u, hu, (sameUnit_produce s c).trans hsame⟩

/-! ## The accesses of a pass (R49) -/

section Pass

variable {m : Memory} {pr : Profile} {slot : Fin 8} {frame card : Nat} {carried : Staged}

theorem passAccesses_performed {words : Record} {forced : Option Nat}
    (h : passOn m pr slot frame card carried = .performed words forced) :
    passAccesses (Bus.start m none) pr slot frame card carried =
      (recordRead m pr frame card carried, .performed words forced,
        Bus.start (writesTo m (passWrites pr frame card carried words)) none) := by
  have houtcome : passOutcome (pr.slots.get slot) slot carried
      (passReads (Bus.start m none) pr frame card carried).1 = .performed words forced := h
  simp only [passAccesses, houtcome, passReads_ok, busWrites_ok]
  rfl

theorem passAccesses_refused {detail : Nat} (h : passOn m pr slot frame card carried = .refused detail) :
    passAccesses (Bus.start m none) pr slot frame card carried =
      (recordRead m pr frame card carried, .refused detail, Bus.start m none) := by
  have houtcome : passOutcome (pr.slots.get slot) slot carried
      (passReads (Bus.start m none) pr frame card carried).1 = .refused detail := h
  simp only [passAccesses, houtcome, passReads_ok]
  rfl

/-- The reports of a performed pass: LIMIT_REJECT when the card was forced (R58). -/
def forcedReports (pr : Profile) (slot : Fin 8) (frame card : Nat) (forced : Option Nat) : List Content :=
  (forced.map fun v => limitRejectReport (pr.slots.get slot) slot frame card v).toList

/-- GUARD_REFUSED of a pass that the state guard refuses (R55). -/
def refusedReport (m : Memory) (pr : Profile) (slot : Fin 8) (frame card : Nat) (carried : Staged) (detail : Nat) : Content :=
  guardRefusedReport (pr.slots.get slot) slot frame card (cardState (recordRead m pr frame card carried).w0)
    (cardState (maskedRecord (pr.slots.get slot) carried (recordRead m pr frame card carried)).w0) detail

variable {s : State} {p : Port} {data : Word}

theorem makePass_performed {words : Record} {forced : Option Nat} (hp : s.cmd.profile = some pr)
    (h : passOn s.mem pr slot frame card carried = .performed words forced) :
    s.makePass p slot frame card carried data none =
      (forcedReports pr slot frame card forced).foldl State.produce
        { s with mem := writesTo s.mem (passWrites pr frame card carried words) } := by
  rw [State.makePass, hp]
  simp only [passAccesses_performed h]
  cases forced <;> rfl

theorem makePass_refused {detail : Nat} (hp : s.cmd.profile = some pr)
    (h : passOn s.mem pr slot frame card carried = .refused detail) :
    s.makePass p slot frame card carried data none =
      s.produce (refusedReport s.mem pr slot frame card carried detail) := by
  rw [State.makePass, hp]
  simp only [passAccesses_refused h]
  rfl

end Pass

/-! ## A whole performance (R65) -/

/-- The entry that a VIEW or a STREAM command performs. -/
def entryOf (isStream : Bool) (g : Target) (data : Word) (enables : Enables) : Entry :=
  match isStream with
  | false => .view g data enables
  | true => .stream g data enables

/-- The command that performs it whole. -/
def entryCommand (isStream : Bool) (p : Port) (error : Option Nat) : Instr :=
  match isStream with
  | false => .viewEntryPerformance p (.whole error)
  | true => .streamEntryPerformance p (.whole error)

theorem release_of_free {s : State} (h : s.arb.hold = none) : s.release = s := by
  rw [State.release, ← h]

section Entry

variable {s u : State} {p : Port} {isStream : Bool} {g : Target} {data : Word} {enables : Enables} {rest : List Entry}
  {pr : Profile} {carried : Staged} {error : Option Nat}

theorem exec_entry (hgrant : s.canGrant (portRequester p) .own = true)
    (hqueue : (s.port p).queue = entryOf isStream g data enables :: rest) :
    exec (entryCommand isStream p error) s =
      s.runSpan (.whole error) (some (s.grantEntry p isStream g data enables)) (isPass p) := by
  cases isStream with
  | false =>
    have hgranted : s.viewGranted p = some (s.grantEntry p false g data enables) := by
      rw [State.viewGranted, hqueue]
      exact if_pos hgrant
    show s.runSpan (.whole error) (s.viewGranted p) (isPass p) = _
    rw [hgranted]
  | true =>
    have hgranted : s.streamGranted p = some (s.grantEntry p true g data enables) := by
      rw [State.streamGranted, hqueue]
      exact if_pos hgrant
    show s.runSpan (.whole error) (s.streamGranted p) (isPass p) = _
    rw [hgranted]

variable (hp : s.cmd.profile = some pr) (hgrant : s.canGrant (portRequester p) .own = true)
  (hqueue : (s.port p).queue = entryOf isStream g data enables :: rest)
include hp hgrant hqueue

/-- An entry that its decision drops or stages leaves the queue without an access. -/
theorem exec_entry_noAccess
    (hdecide : (s.grantTo (portRequester p)).decideEntry p (pr.slots.get g.slot) isStream g
      { data := data, enables := enables } = (u, .noAccess)) :
    exec (entryCommand isStream p error) s = .next (State.settle none s (u.removeHead p)) := by
  obtain ⟨-, hfree, -, -⟩ := (canGrant_iff s _ _).mp hgrant
  have hdecided : s.grantEntry p isStream g data enables = u.removeHead p := by
    simp only [State.grantEntry, State.decideGranted, State.settings, grantTo_fields, hp, Option.map_some, hdecide]
  have harb : u.arb = (s.grantTo (portRequester p)).arb := by
    rw [← arb_decideEntry (s.grantTo (portRequester p)) p (pr.slots.get g.slot) isStream g
      { data := data, enables := enables }, hdecide]
  rw [exec_entry hgrant hqueue, hdecided]
  refine runSpan_whole_done _ _ _ _ (holdIs_free _ _ ?_)
  simp [harb, hfree]

/-- An entry whose decision hands words on ends with the Rules Unit's pass over them. -/
theorem exec_entry_pass
    (hdecide : (s.grantTo (portRequester p)).decideEntry p (pr.slots.get g.slot) isStream g
      { data := data, enables := enables } = (u, .pass carried)) :
    exec (entryCommand isStream p error) s =
      .next (State.settle none s ((u.removeHead p).makePass p g.slot g.frame g.card carried data error)) := by
  obtain ⟨-, hfree, -, -⟩ := (canGrant_iff s _ _).mp hgrant
  have hdecided : s.grantEntry p isStream g data enables =
      u.holds (.pass p g.slot g.frame g.card carried data) := by
    simp only [State.grantEntry, State.decideGranted, State.settings, grantTo_fields, hp, Option.map_some, hdecide]
  have harb : u.arb = (s.grantTo (portRequester p)).arb := by
    rw [← arb_decideEntry (s.grantTo (portRequester p)) p (pr.slots.get g.slot) isStream g
      { data := data, enables := enables }, hdecide]
  have hreleased : u.release = u := release_of_free (by simp [harb, hfree])
  rw [exec_entry hgrant hqueue, hdecided, runSpan_whole_held _ _ _ _ (by simp [isPass]), endHold_holds, hreleased]
  rfl

end Entry

/-! ## What a performance leaves of the ports -/

theorem headGone_settle {s x : State} {p : Port} {e : Entry} {rest : List Entry} {spare : Option Nat} {before : State}
    (hqueue : (s.port p).queue = e :: rest) (hports : ∀ q, x.port q = (s.removeHead p).port q) :
    HeadGone p rest s (State.settle spare before x) := by
  refine ⟨?_, ?_⟩
  · rw [settle_port, hports, removeHead_same, hqueue]
    rfl
  · rw [settle_port, hports, removeHead_other _ _ _ (otherPort_ne p)]

theorem ports_removeHead_congr {s u : State} (h : SamePorts s u) (p q : Port) :
    (u.removeHead p).port q = (s.removeHead p).port q := by
  obtain ⟨hA, hB⟩ := h
  cases p <;> cases q <;> simp [State.removeHead, State.setPort, State.port, hA, hB]

/-! ## Decisions (R63 to R73) -/

section Decisions

variable {s : State} {p : Port} {x : SlotSettings} {isStream : Bool} {g : Target} {word : StagedWord} {c : Claim}

theorem decideEntry_free (h : s.claimOn g.frame g.card = none) :
    s.decideEntry p x isStream g word = s.decideOwn p x isStream g word := by
  rw [State.decideEntry, h]

theorem decideEntry_own (h : ∀ c, s.claimOn g.frame g.card = some c → c.slot = g.slot) :
    s.decideEntry p x isStream g word = s.decideOwn p x isStream g word := by
  cases hc : s.claimOn g.frame g.card with
  | none => exact decideEntry_free hc
  | some c =>
    rw [State.decideEntry, hc]
    exact if_pos (h c hc)

theorem decideEntry_collision (h : s.claimOn g.frame g.card = some c) (hslot : c.slot ≠ g.slot)
    (hport : ¬(p = .a ∧ c.port = .b)) :
    s.decideEntry p x isStream g word = (s.produce (collisionReport p g c.slot word.data), .noAccess) := by
  rw [State.decideEntry, h]
  dsimp only
  rw [if_neg hslot, if_neg hport]

theorem decideEntry_preempt (h : s.claimOn g.frame g.card = some c) (hslot : c.slot ≠ g.slot) (hport : c.port = .b) :
    s.decideEntry .a x isStream g word =
      ((s.tear (sameCard c)).produce (stageTorn c tornPreempted g.slot.val)).decideOwn .a x isStream g word := by
  rw [State.decideEntry, h]
  dsimp only
  rw [if_neg hslot, if_pos ⟨rfl, hport⟩]

/-- A STREAM entry, and one of a WORD-mode slot, is a pass over its word (R40, R62, R73). -/
theorem decideOwn_word (h : isStream = true ∨ x.mode = .word) :
    s.decideOwn p x isStream g word = (s, .pass (Staged.empty.put g.word word)) := by
  refine if_pos ?_
  obtain h | h := h <;> simp [h]

section Group

variable (hmode : x.mode = .record) (hwritable : holdsWritable x.fields g.word = true)
include hmode hwritable

/-- A group write whose frame has departed is dropped (R71). -/
theorem decideOwn_departed (h : (s.view.get g.slot).currentFrame ≠ some g.frame) :
    s.decideOwn p x false g word = (s.produce (departedReport p x g), .noAccess) := by
  rw [State.decideOwn, if_neg (by simp [hmode, hwritable]), if_pos h]

variable (hframe : (s.view.get g.slot).currentFrame = some g.frame)
include hframe

theorem decideOwn_one (h : groupWordCount x.fields = 1) :
    s.decideOwn p x false g word = (s, .pass (Staged.empty.put g.word word)) := by
  rw [State.decideOwn, if_neg (by simp [hmode, hwritable]), if_neg (not_not.mpr hframe), if_pos h]

theorem decideOwn_open (h : groupWordCount x.fields ≠ 1) (hclaim : s.claimOn g.frame g.card = none) :
    s.decideOwn p x false g word = (s.openGroup p g word, .noAccess) := by
  rw [State.decideOwn, if_neg (by simp [hmode, hwritable]), if_neg (not_not.mpr hframe), if_neg h, hclaim]

theorem decideOwn_stage (h : groupWordCount x.fields ≠ 1) (hclaim : s.claimOn g.frame g.card = some c) :
    s.decideOwn p x false g word = s.stageInto x c g word := by
  rw [State.decideOwn, if_neg (by simp [hmode, hwritable]), if_neg (not_not.mpr hframe), if_neg h, hclaim]

end Group

theorem stageInto_incomplete (h : groupComplete x.fields (c.staged.put g.word word) = false) :
    s.stageInto x c g word =
      ({ s with claims := s.claims.map fun d => if sameCard c d then { d with staged := c.staged.put g.word word } else d },
        .noAccess) := by
  rw [State.stageInto]
  exact if_neg (by simp [h])

theorem stageInto_complete (h : groupComplete x.fields (c.staged.put g.word word) = true) :
    s.stageInto x c g word = (s.tear (sameCard c), .pass (c.staged.put g.word word)) := by
  rw [State.stageInto]
  exact if_pos h

/-- The claim that a group write opens (R68). -/
def openedClaim (p : Port) (g : Target) (word : StagedWord) : Claim :=
  { frame := g.frame, card := g.card, slot := g.slot, port := p, staged := Staged.empty.put g.word word }

theorem toEvict_none (h : (claimsOf s.claims p).length < 4) : s.toEvict p = none := by
  rw [State.toEvict]
  exact if_neg (Nat.not_le.mpr h)

theorem toEvict_some {old : Claim} {more : List Claim} (h : claimsOf s.claims p = old :: more) (hmore : 3 ≤ more.length) :
    s.toEvict p = some old := by
  have hown : (s.claims.filter fun c => decide (c.port = p)) = old :: more := h
  have hfour : Config.claimsPerPort ≤ (old :: more).length := Nat.succ_le_succ hmore
  rw [State.toEvict, hown]
  exact if_pos hfour

theorem openGroup_room (h : s.toEvict p = none) :
    s.openGroup p g word = { s with claims := s.claims ++ [openedClaim p g word] } := by
  rw [State.openGroup, h]
  rfl

theorem openGroup_evicts {old : Claim} (h : s.toEvict p = some old) :
    s.openGroup p g word =
      ({ s with claims := s.claims.filter (fun d => !sameCard old d) ++ [openedClaim p g word] }).produce
        (stageTorn old tornEvicted (s.claimWords old)) := by
  rw [State.openGroup, h]
  rfl

theorem claimWords_of_profile {pr : Profile} (h : s.cmd.profile = some pr) (c : Claim) :
    s.claimWords c = groupWordCount (pr.slots.get c.slot).fields := by
  simp [State.claimWords, State.settings, h]

/-- The claim on a card is of that frame and card (R64). -/
theorem claimOn_some {frame card : Nat} (h : s.claimOn frame card = some c) : c.frame = frame ∧ c.card = card := by
  simpa using List.find?_some h

/-- With its claim torn a card carries none (R64). -/
theorem claimOn_torn {frame card : Nat} (h : s.claimOn frame card = some c) :
    (s.claims.filter fun d => !sameCard c d).find? (fun d => decide (d.frame = frame) && decide (d.card = card)) = none := by
  obtain ⟨rfl, rfl⟩ := claimOn_some h
  rw [List.find?_eq_none]
  intro d hd
  obtain ⟨-, hother⟩ := List.mem_filter.mp hd
  simp only [sameCard, Bool.not_eq_true', Bool.and_eq_false_iff, decide_eq_false_iff_not] at hother
  rintro hsame
  simp only [Bool.and_eq_true, decide_eq_true_eq] at hsame
  exact hother.elim (fun hf => hf hsame.1.symm) (fun hc => hc hsame.2.symm)

end Decisions

theorem removeHead_produce (s : State) (p : Port) (c : Content) :
    (s.produce c).removeHead p = (s.removeHead p).produce c := by cases p <;> rfl

end Sys2Proof.Machine
end

