-- ==== Sys2Proof/Proofs/Entries.lean ====
section
/-! PROOF. The performances of VIEW and STREAM entries: passes, refusals, groups staged and committed, collisions and
preemptions, and the bytes that none of them reaches (R40, R48, R49, R54, R55, R60, R63 to R73). -/

namespace Sys2Proof.Machine

/-! ## A pass with every access answered OK -/

section Performed

variable {s : State} {p : Port} {isStream : Bool} {g : Target} {data : Word} {enables : Enables} {rest : List Entry}
  {pr : Profile} {carried : Staged} {claims : List Claim}

variable (hp : s.cmd.profile = some pr) (hgrant : s.canGrant (portRequester p) .own = true)
  (hqueue : (s.port p).queue = entryOf isStream g data enables :: rest)
  (hdecide : (s.grantTo (portRequester p)).decideEntry p (pr.slots.get g.slot) isStream g
    { data := data, enables := enables } = ({ s.grantTo (portRequester p) with claims := claims }, .pass carried))
include hp hgrant hqueue hdecide

/-- A pass that the state guard allows writes its words, and its entry is gone. -/
theorem exec_entry_performed {words : Record} {forced : Option Nat}
    (h : passOn s.mem pr g.slot g.frame g.card carried = .performed words forced) :
    ∃ t, exec (entryCommand isStream p none) s = .next t ∧
      t.mem = writesTo s.mem (passWrites pr g.frame g.card carried words) ∧ HeadGone p rest s t ∧ t.claims = claims ∧
      t.seq = s.seq ∧ t.view = s.view ∧ t.time = s.time ∧ t.disch = s.disch ∧ t.cmd = s.cmd ∧ SameReportRegisters s t := by
  have hpass := makePass_performed (p := p) (data := data)
    (s := ({ s.grantTo (portRequester p) with claims := claims } : State).removeHead p) (words := words) (forced := forced)
    (by simpa using hp) (by simpa using h)
  obtain ⟨u, hu, hsame⟩ := foldl_produce_rep (forcedReports pr g.slot g.frame g.card forced)
    { ({ s.grantTo (portRequester p) with claims := claims } : State).removeHead p with
      mem := writesTo (({ s.grantTo (portRequester p) with claims := claims } : State).removeHead p).mem
        (passWrites pr g.frame g.card carried words) }
  rw [hu] at hpass
  refine ⟨_, exec_entry_pass hp hgrant hqueue hdecide, ?_⟩
  rw [hpass]
  refine ⟨by simp, headGone_settle hqueue fun q => ?_, by simp, by simp, by simp, by simp, by simp, by simp, ?_⟩
  · cases p <;> cases q <;> rfl
  · exact sameReportRegisters_settle (by simpa using hsame)

/-- A pass that the state guard refuses makes its report, and its entry is gone (R54). -/
theorem exec_entry_refused {detail : Nat} (h : passOn s.mem pr g.slot g.frame g.card carried = .refused detail) :
    exec (entryCommand isStream p none) s = .next (State.settle none s
      ((({ s.grantTo (portRequester p) with claims := claims } : State).removeHead p).produce
        (refusedReport s.mem pr g.slot g.frame g.card carried detail))) := by
  have hpass := makePass_refused (p := p) (data := data)
    (s := ({ s.grantTo (portRequester p) with claims := claims } : State).removeHead p) (detail := detail)
    (by simpa using hp) (by simpa using h)
  rw [exec_entry_pass hp hgrant hqueue hdecide, hpass]
  simp

end Performed

/-- Settles O29: the decision hands the word on, and the pass writes it. -/
theorem entryPassPerformed : Obligations.EntryPassPerformed := by
  intro p g data enables rest s pr words forced hp hgrant hclaim hpass
  have hfree : (s.grantTo (portRequester p)).claimOn g.frame g.card = none := hclaim
  have hperformed : ∀ isStream, (s.port p).queue = entryOf isStream g data enables :: rest →
      (isStream = true ∨ (pr.slots.get g.slot).mode = .word) →
      ∃ t, exec (entryCommand isStream p none) s = .next t ∧
        t.mem = writesTo s.mem (passWrites pr g.frame g.card (carriedWord g.word data enables) words) ∧
        HeadGone p rest s t ∧ SameInner s t ∧ SameReportRegisters s t := by
    intro isStream hqueue hmode
    obtain ⟨t, ht, hmem, hhead, hclaims, hseq, hview, htime, hdisch, hcmd, hregisters⟩ :=
      exec_entry_performed (claims := s.claims) hp hgrant hqueue ((decideEntry_free hfree).trans (decideOwn_word hmode)) hpass
    exact ⟨t, ht, hmem, hhead, ⟨hview, hclaims, hseq, htime, hdisch, hcmd⟩, hregisters⟩
  exact ⟨fun hqueue hmode => hperformed false hqueue (.inr hmode), fun hqueue => hperformed true hqueue (.inl rfl)⟩

/-- Settles O30: the decision hands the word on, and the pass refuses it. -/
theorem entryPassRefused : Obligations.EntryPassRefused := by
  intro p g data enables rest s pr detail hp hgrant hclaim hpass
  have hfree : (s.grantTo (portRequester p)).claimOn g.frame g.card = none := hclaim
  have hrefused : ∀ isStream, (s.port p).queue = entryOf isStream g data enables :: rest →
      (isStream = true ∨ (pr.slots.get g.slot).mode = .word) →
      exec (entryCommand isStream p none) s = .next (State.settle none s
        (((s.grantTo (portRequester p)).removeHead p).produce
          (refusedReport s.mem pr g.slot g.frame g.card (carriedWord g.word data enables) detail))) :=
    fun isStream hqueue hmode =>
      exec_entry_refused (claims := s.claims) hp hgrant hqueue ((decideEntry_free hfree).trans (decideOwn_word hmode)) hpass
  exact ⟨fun hqueue hmode => hrefused false hqueue (.inr hmode), fun hqueue => hrefused true hqueue (.inl rfl)⟩

/-! ## Groups (R63 to R72) -/

/-- An entry that is staged changes the claims and leaves the queue. -/
theorem exec_entry_staged {s : State} {p : Port} {g : Target} {data : Word} {enables : Enables} {rest : List Entry}
    {pr : Profile} {claims : List Claim} (hp : s.cmd.profile = some pr) (hgrant : s.canGrant (portRequester p) .own = true)
    (hqueue : (s.port p).queue = .view g data enables :: rest)
    (hdecide : (s.grantTo (portRequester p)).decideEntry p (pr.slots.get g.slot) false g
      { data := data, enables := enables } = ({ s.grantTo (portRequester p) with claims := claims }, .noAccess)) :
    ∃ t, exec (.viewEntryPerformance p (.whole none)) s = .next t ∧ t.claims = claims ∧ SameMemory s t ∧
      HeadGone p rest s t ∧ t.seq = s.seq ∧ t.view = s.view ∧ t.time = s.time ∧ t.disch = s.disch ∧ t.cmd = s.cmd ∧
      SameReportRegisters s t := by
  refine ⟨_, exec_entry_noAccess (isStream := false) hp hgrant hqueue hdecide, by simp, by simp [SameMemory],
    headGone_settle hqueue fun q => ?_, by simp, by simp, by simp, by simp, by simp, ?_⟩
  · cases p <;> cases q <;> rfl
  · exact sameReportRegisters_settle (by simpa using SameUnit.refl s.rep)

/-- Settles O31, by the lines of the decision of a group write. -/
theorem groupWriteStaged : Obligations.GroupWriteStaged := by
  intro p g data enables rest s pr hp hgrant hqueue hmode hwritable
  refine ⟨fun hframe hwords => ⟨fun hclaim hfew => ?opens, fun old more hclaim hown hmore => ?evicts,
    fun c hclaim hslot hincomplete => ?joins⟩, fun hframe hown => ?departed⟩
  case opens =>
    have hfree : (s.grantTo (portRequester p)).claimOn g.frame g.card = none := hclaim
    have hroom : (s.grantTo (portRequester p)).toEvict p = none := toEvict_none hfew
    refine exec_entry_staged hp hgrant hqueue ?_
    rw [decideEntry_free hfree, decideOwn_open (s := s.grantTo (portRequester p)) hmode hwritable hframe (by omega) hfree, openGroup_room hroom]
    rfl
  case evicts =>
    have hfree : (s.grantTo (portRequester p)).claimOn g.frame g.card = none := hclaim
    have hfull : (s.grantTo (portRequester p)).toEvict p = some old := toEvict_some hown hmore
    have hdecide := (decideEntry_free (p := p) (isStream := false) hfree).trans
      (decideOwn_open (word := { data := data, enables := enables }) hmode hwritable hframe (by omega) hfree)
    rw [openGroup_evicts hfull, claimWords_of_profile (s := s.grantTo (portRequester p)) hp] at hdecide
    exact exec_entry_noAccess (isStream := false) hp hgrant hqueue hdecide
  case joins =>
    have hclaimed : (s.grantTo (portRequester p)).claimOn g.frame g.card = some c := hclaim
    have hown : ∀ d, (s.grantTo (portRequester p)).claimOn g.frame g.card = some d → d.slot = g.slot := by
      intro d hd
      cases hclaimed.symm.trans hd
      exact hslot
    refine exec_entry_staged hp hgrant hqueue ?_
    rw [decideEntry_own hown, decideOwn_stage (s := s.grantTo (portRequester p)) hmode hwritable hframe (by omega) hclaimed,
      stageInto_incomplete hincomplete]
    rfl
  case departed =>
    have hdecide := (decideEntry_own (s := s.grantTo (portRequester p)) (p := p) (isStream := false) hown).trans
      (decideOwn_departed (word := { data := data, enables := enables }) hmode hwritable hframe)
    exact exec_entry_noAccess (isStream := false) hp hgrant hqueue hdecide

/-- Settles O32: the last word hands the group on, and a group of one word is handed on at once. -/
theorem groupCommitted : Obligations.GroupCommitted := by
  intro p g data enables rest s pr hp hgrant hqueue hmode hwritable hframe
  refine ⟨fun c hwords hclaim hslot hcomplete => ?_, fun words forced hone hown hpass => ?_⟩
  · have hown : ∀ d, (s.grantTo (portRequester p)).claimOn g.frame g.card = some d → d.slot = g.slot := by
      intro d hd
      cases hclaim.symm.trans hd
      exact hslot
    have hdecide := ((decideEntry_own (p := p) (isStream := false) hown).trans (decideOwn_stage hmode hwritable hframe
      (by omega) hclaim)).trans (stageInto_complete (word := { data := data, enables := enables }) hcomplete)
    refine ⟨fun words forced hpass => ?_, fun detail hpass => ?_⟩
    · obtain ⟨t, ht, hmem, hhead, hclaims, hrest⟩ :=
        exec_entry_performed (isStream := false) (claims := s.claims.filter fun d => !sameCard c d) hp hgrant hqueue hdecide hpass
      exact ⟨t, ht, hclaims, hmem, hhead, hrest⟩
    · exact exec_entry_refused (isStream := false) (claims := s.claims.filter fun d => !sameCard c d) hp hgrant hqueue
        hdecide hpass
  · obtain ⟨t, ht, hmem, hhead, hclaims, hseq, hview, htime, hdisch, hcmd, hregisters⟩ :=
      exec_entry_performed (isStream := false) (claims := s.claims) hp hgrant hqueue
        ((decideEntry_own (s := s.grantTo (portRequester p)) hown).trans (decideOwn_one hmode hwritable hframe hone)) hpass
    exact ⟨t, ht, hmem, hhead, ⟨hview, hclaims, hseq, htime, hdisch, hcmd⟩, hregisters⟩

end Sys2Proof.Machine
end

