-- ==== Sys2Proof/Proofs/Collisions.lean ====
section
/-! PROOF. Entries on a card that carries a claim, and the bytes that no entry reaches (R59, R60, R66, R67, R69, R73). -/

namespace Sys2Proof.Machine

/-! ## Preemption (R67) -/

/-- STAGE_TORN, PREEMPTED, for a claim of Port B (R67). -/
def preemptedReport (c : Claim) (g : Target) : Content :=
  { kind := .stageTorn, source := .portB, slot := some c.slot, frame := c.frame, lane := laneOf c.card, row := rowOf c.card,
    count := c.staged.count, detail := 3, data := wordOf g.slot.val }

theorem stageTorn_preempted {c : Claim} {g : Target} (h : c.port = .b) :
    stageTorn c tornPreempted g.slot.val = preemptedReport c g := by
  rw [stageTorn, h]
  rfl

/-- The state in which the preempting entry of Port A is decided (R67). -/
def State.preempted (s : State) (c : Claim) (g : Target) : State :=
  ({ s.grantTo .portA with claims := s.claims.filter fun d => !sameCard c d }).produce (preemptedReport c g)

section Preempting

variable {s : State} {g : Target} {data : Word} {enables : Enables} {rest : List Entry} {pr : Profile} {c : Claim}
  {isStream : Bool}

theorem preempted_claimOn (h : s.claimOn g.frame g.card = some c) : (s.preempted c g).claimOn g.frame g.card = none :=
  claimOn_torn h

theorem decideEntry_preempting {x : SlotSettings} {word : StagedWord} (hclaim : s.claimOn g.frame g.card = some c)
    (hslot : c.slot ≠ g.slot) (hport : c.port = .b) :
    (s.grantTo .portA).decideEntry .a x isStream g word = (s.preempted c g).decideOwn .a x isStream g word := by
  have hclaimed : (s.grantTo .portA).claimOn g.frame g.card = some c := hclaim
  rw [decideEntry_preempt hclaimed hslot hport, stageTorn_preempted hport]
  rfl

variable (hp : s.cmd.profile = some pr) (hgrant : s.canGrant .portA .own = true)
  (hclaim : s.claimOn g.frame g.card = some c) (hslot : c.slot ≠ g.slot) (hport : c.port = .b)
  (hqueue : s.portA.queue = entryOf isStream g data enables :: rest)
include hp hgrant hclaim hslot hport hqueue

/-- The preempting entry as a WORD-mode write. -/
theorem exec_preempting_word (hword : isStream = true ∨ (pr.slots.get g.slot).mode = .word) :
    exec (entryCommand isStream .a none) s = .next (State.settle none s
      (((s.preempted c g).removeHead .a).makePass .a g.slot g.frame g.card (carriedWord g.word data enables) data none)) := by
  have hdecide := (decideEntry_preempting (word := { data := data, enables := enables }) hclaim hslot hport).trans
    (decideOwn_word hword)
  exact exec_entry_pass (p := .a) hp hgrant hqueue hdecide

theorem exec_preempting_performed (hword : isStream = true ∨ (pr.slots.get g.slot).mode = .word) {words : Record}
    {forced : Option Nat}
    (hpass : passOn s.mem pr g.slot g.frame g.card (carriedWord g.word data enables) = .performed words forced) :
    exec (entryCommand isStream .a none) s = .next (State.settle none s
      ((forcedReports pr g.slot g.frame g.card forced).foldl State.produce
        { (s.preempted c g).removeHead .a with
          mem := writesTo s.mem (passWrites pr g.frame g.card (carriedWord g.word data enables) words) })) := by
  rw [exec_preempting_word hp hgrant hclaim hslot hport hqueue hword,
    makePass_performed (s := (s.preempted c g).removeHead .a) hp hpass]
  rfl

theorem exec_preempting_refused (hword : isStream = true ∨ (pr.slots.get g.slot).mode = .word) {detail : Nat}
    (hpass : passOn s.mem pr g.slot g.frame g.card (carriedWord g.word data enables) = .refused detail) :
    exec (entryCommand isStream .a none) s = .next (State.settle none s
      (((s.preempted c g).removeHead .a).produce
        (refusedReport s.mem pr g.slot g.frame g.card (carriedWord g.word data enables) detail))) := by
  rw [exec_preempting_word hp hgrant hclaim hslot hport hqueue hword,
    makePass_refused (s := (s.preempted c g).removeHead .a) hp hpass]
  rfl

end Preempting

/-- A preempting group write opens its group (R67, R68, R69). -/
theorem exec_preempting_group {s : State} {g : Target} {data : Word} {enables : Enables} {rest : List Entry} {pr : Profile}
    {c : Claim} (hp : s.cmd.profile = some pr) (hgrant : s.canGrant .portA .own = true)
    (hclaim : s.claimOn g.frame g.card = some c) (hslot : c.slot ≠ g.slot) (hport : c.port = .b)
    (hqueue : s.portA.queue = .view g data enables :: rest) (hmode : (pr.slots.get g.slot).mode = .record)
    (hwritable : holdsWritable (pr.slots.get g.slot).fields g.word = true)
    (hwords : 2 ≤ groupWordCount (pr.slots.get g.slot).fields) (hframe : (s.view.get g.slot).currentFrame = some g.frame) :
    exec (.viewEntryPerformance .a (.whole none)) s = .next (State.settle none s
      (((s.preempted c g).openGroup .a g { data := data, enables := enables }).removeHead .a)) := by
  have hfree := preempted_claimOn hclaim
  have hdecide := (decideEntry_preempting (word := { data := data, enables := enables }) hclaim hslot hport).trans
    (decideOwn_open (p := .a) hmode hwritable (s := s.preempted c g) hframe (by omega) hfree)
  exact exec_entry_noAccess (p := .a) (isStream := false) hp hgrant hqueue hdecide

/-- An entry on a claim of another slot that it cannot preempt is dropped (R66). -/
theorem exec_collision {s : State} {p : Port} {isStream : Bool} {g : Target} {data : Word} {enables : Enables}
    {rest : List Entry} {pr : Profile} {c : Claim} (hp : s.cmd.profile = some pr)
    (hgrant : s.canGrant (portRequester p) .own = true) (hclaim : s.claimOn g.frame g.card = some c)
    (hslot : c.slot ≠ g.slot) (hport : ¬(p = .a ∧ c.port = .b))
    (hqueue : (s.port p).queue = entryOf isStream g data enables :: rest) :
    exec (entryCommand isStream p none) s = .next (State.settle none s
      (((s.grantTo (portRequester p)).produce (collisionReport p g c.slot data)).removeHead p)) := by
  have hclaimed : (s.grantTo (portRequester p)).claimOn g.frame g.card = some c := hclaim
  exact exec_entry_noAccess hp hgrant hqueue
    (decideEntry_collision (word := { data := data, enables := enables }) hclaimed hslot hport)

/-- Settles O33: a collision drops the entry, a preemption tears the owner's group first, and a STREAM entry of the owner is a
WORD-mode write. -/
theorem collisionDropsEntry : Obligations.CollisionDropsEntry := by
  refine ⟨fun p g data enables rest s pr c hp hgrant hclaim hslot hport => ?collision,
    fun g data enables rest s pr c hp hgrant hclaim hslot hport => ⟨?performed, ?refused, ?group⟩,
    fun p g data enables rest s pr c words forced hp hgrant hclaim hslot hqueue hpass => ?owner⟩
  case collision =>
    exact ⟨fun hqueue => exec_collision (isStream := false) hp hgrant hclaim hslot hport hqueue,
      fun hqueue => exec_collision (isStream := true) hp hgrant hclaim hslot hport hqueue⟩
  case performed =>
    intro i words forced hcase hpass
    have hexec : exec i s = .next (State.settle none s
        ((forcedReports pr g.slot g.frame g.card forced).foldl State.produce
          { (s.preempted c g).removeHead .a with
            mem := writesTo s.mem (passWrites pr g.frame g.card (carriedWord g.word data enables) words) })) := by
      obtain ⟨hqueue, hmode, rfl⟩ | ⟨hqueue, rfl⟩ := hcase
      · exact exec_preempting_performed (isStream := false) hp hgrant hclaim hslot hport hqueue (.inr hmode) hpass
      · exact exec_preempting_performed (isStream := true) hp hgrant hclaim hslot hport hqueue (.inl rfl) hpass
    refine ⟨fun hforced => ?_, fun v hforced => ?_⟩
    · rw [hexec, hforced]
      rfl
    · rw [hexec, hforced]
      rfl
  case refused =>
    intro i detail hcase hpass
    obtain ⟨hqueue, hmode, rfl⟩ | ⟨hqueue, rfl⟩ := hcase
    · exact exec_preempting_refused (isStream := false) hp hgrant hclaim hslot hport hqueue (.inr hmode) hpass
    · exact exec_preempting_refused (isStream := true) hp hgrant hclaim hslot hport hqueue (.inl rfl) hpass
  case group =>
    intro hqueue hmode hwritable hwords hframe
    have hexec := exec_preempting_group hp hgrant hclaim hslot hport hqueue hmode hwritable hwords hframe
    refine ⟨fun hfew => ?_, fun old more hown hmore => ?_⟩
    · have hroom : (s.preempted c g).toEvict .a = none := toEvict_none hfew
      rw [hexec, openGroup_room hroom]
      rfl
    · have hfull : (s.preempted c g).toEvict .a = some old := toEvict_some hown hmore
      have hold : old.port = .a := by
        have hmem : old ∈ claimsOf (s.claims.filter fun d => !sameCard c d) .a := hown ▸ List.mem_cons_self
        simpa using (List.mem_filter.mp hmem).2
      rw [hexec, openGroup_evicts hfull, claimWords_of_profile (s := s.preempted c g) hp, stageTorn, hold]
      rfl
  case owner =>
    have hown : ∀ d, (s.grantTo (portRequester p)).claimOn g.frame g.card = some d → d.slot = g.slot := by
      intro d hd
      cases hclaim.symm.trans hd
      exact hslot
    obtain ⟨t, ht, hmem, hhead, hclaims, hseq, hview, htime, hdisch, hcmd, hregisters⟩ :=
      exec_entry_performed (isStream := true) (claims := s.claims) hp hgrant hqueue
        ((decideEntry_own (s := s.grantTo (portRequester p)) hown).trans (decideOwn_word (.inl rfl))) hpass
    exact ⟨t, ht, hmem, hhead, ⟨hview, hclaims, hseq, htime, hdisch, hcmd⟩, hregisters⟩

/-! ## The bytes outside the record (R59, R60) -/

/-- The writes of a pass lie in the record (R49). -/
theorem passWrites_inside (p : Profile) (frame card : Nat) (carried : Staged) (words : Record) :
    ∀ w ∈ passWrites p frame card carried words,
      ringAddress p frame card 0 ≤ w.1 ∧ w.1 + 4 ≤ ringAddress p frame card 0 + 16 := by
  intro w hw
  obtain ⟨i, -, rfl⟩ := List.mem_map.mp hw
  have hi := i.isLt
  simp only [ringAddress, Fin.val_zero]
  omega

theorem readByte_passAccesses {b : Bus} {p : Profile} {slot : Fin 8} {frame card : Nat} {carried : Staged} {a : Nat}
    (h : a < ringAddress p frame card 0 ∨ ringAddress p frame card 0 + 16 ≤ a) :
    (passAccesses b p slot frame card carried).2.2.mem.readByte a = b.mem.readByte a := by
  unfold passAccesses
  dsimp only
  split
  · rw [passReads_mem]
  · rw [readByte_busWrites_outside, passReads_mem]
    intro w hw
    have := passWrites_inside p frame card carried _ w hw
    omega

theorem readByte_makePass {s : State} {p : Port} {slot : Fin 8} {frame card : Nat} {carried : Staged} {data : Word}
    {error : Option Nat} {pr : Profile} {a : Nat} (hp : s.cmd.profile = some pr)
    (h : a < ringAddress pr frame card 0 ∨ ringAddress pr frame card 0 + 16 ≤ a) :
    (s.makePass p slot frame card carried data error).mem.readByte a = s.mem.readByte a := by
  rw [State.makePass, hp]
  dsimp only
  obtain ⟨u, hu, -⟩ := foldl_produce_rep (passReports p (pr.slots.get slot) slot frame card data
    (passAccesses (Bus.start s.mem error) pr slot frame card carried).1
    (maskedRecord (pr.slots.get slot) carried (passAccesses (Bus.start s.mem error) pr slot frame card carried).1)
    (passAccesses (Bus.start s.mem error) pr slot frame card carried).2.2.failed
    (passAccesses (Bus.start s.mem error) pr slot frame card carried).2.1)
    { s with mem := (passAccesses (Bus.start s.mem error) pr slot frame card carried).2.2.mem }
  rw [hu]
  exact readByte_passAccesses h

theorem mem_decideOwn (s : State) (p : Port) (x : SlotSettings) (isStream : Bool) (t : Target) (word : StagedWord) :
    (s.decideOwn p x isStream t word).1.mem = s.mem := by
  have hopen : (s.openGroup p t word).mem = s.mem := by
    unfold State.openGroup
    dsimp only
    split <;> rfl
  have hstage : ∀ c, (s.stageInto x c t word).1.mem = s.mem := by
    intro c
    unfold State.stageInto
    dsimp only
    split <;> rfl
  unfold State.decideOwn
  dsimp only
  split
  · rfl
  · split
    · rfl
    · split
      · rfl
      · split
        · exact hstage _
        · exact hopen

/-- The Group Unit's decision makes no access and keeps the profile (R65). -/
theorem mem_decideEntry (s : State) (p : Port) (x : SlotSettings) (isStream : Bool) (t : Target) (word : StagedWord) :
    (s.decideEntry p x isStream t word).1.mem = s.mem := by
  unfold State.decideEntry
  split
  · split
    · exact mem_decideOwn _ _ _ _ _ _
    · split
      · exact mem_decideOwn _ _ _ _ _ _
      · rfl
  · exact mem_decideOwn _ _ _ _ _ _

/-- An entry that is not granted stays where it is. -/
theorem exec_entry_ungranted {s : State} {p : Port} {isStream : Bool} {g : Target} {data : Word} {enables : Enables}
    {rest : List Entry} {error : Option Nat} (hgrant : s.canGrant (portRequester p) .own = false)
    (hqueue : (s.port p).queue = entryOf isStream g data enables :: rest) :
    exec (entryCommand isStream p error) s = .next s := by
  cases isStream with
  | false =>
    have hnone : s.viewGranted p = none := by
      rw [State.viewGranted, hqueue]
      exact if_neg (by simp [hgrant])
    show s.runSpan (.whole error) (s.viewGranted p) (isPass p) = _
    rw [hnone]
    rfl
  | true =>
    have hnone : s.streamGranted p = none := by
      rw [State.streamGranted, hqueue]
      exact if_neg (by simp [hgrant])
    show s.runSpan (.whole error) (s.streamGranted p) (isPass p) = _
    rw [hnone]
    rfl

/-- Settles O34: what is granted is dropped or handed on, and a pass writes its record alone. -/
theorem entryKeepsOtherBytes : Obligations.EntryKeepsOtherBytes := by
  intro p g data enables rest s t pr error a hp hout h
  have hkept : ∀ isStream, (s.port p).queue = entryOf isStream g data enables :: rest →
      exec (entryCommand isStream p error) s = .next t → SameByte s t a := by
    intro isStream hqueue hexec
    cases hgrant : s.canGrant (portRequester p) .own with
    | false =>
      cases (exec_entry_ungranted hgrant hqueue).symm.trans hexec
      rfl
    | true =>
      have hmem := mem_decideEntry (s.grantTo (portRequester p)) p (pr.slots.get g.slot) isStream g
        { data := data, enables := enables }
      have hmodes := sameModes_decideEntry (s.grantTo (portRequester p)) p (pr.slots.get g.slot) isStream g
        { data := data, enables := enables }
      cases hdecide : (s.grantTo (portRequester p)).decideEntry p (pr.slots.get g.slot) isStream g
          { data := data, enables := enables } with
      | mk u d =>
        rw [hdecide] at hmem hmodes
        change u.mem = s.mem at hmem
        obtain ⟨-, -, -, -, hprofile, -⟩ := hmodes
        cases d with
        | noAccess =>
          cases (exec_entry_noAccess hp hgrant hqueue hdecide).symm.trans hexec
          simp [SameByte, hmem]
        | pass carried =>
          cases (exec_entry_pass hp hgrant hqueue hdecide).symm.trans hexec
          have hpass : ((u.removeHead p).makePass p g.slot g.frame g.card carried data error).mem.readByte a =
              (u.removeHead p).mem.readByte a :=
            readByte_makePass (by simpa using hprofile.trans hp) hout
          simpa [SameByte, hmem] using hpass
  obtain ⟨hqueue, hexec⟩ | ⟨hqueue, hexec⟩ := h
  · exact hkept false hqueue hexec
  · exact hkept true hqueue hexec

end Sys2Proof.Machine
end

