-- ==== Sys2Proof/Proofs/PortWork.lean ====
section
/-! PROOF. The other units of work of the ports and the initialisations: entries without a hold, PLAIN and PROFILE writes,
pending reads, and the words of a record (R8, R16, R31, R32, R51, R74, R84 to R86, R90, R102, R103, R144). -/

namespace Sys2Proof.Machine

/-! ## Entries without a hold (R85) -/

theorem exec_entryWithoutHold {s : State} {p : Port} (hreset : s.inReset = false) (hidle : s.executorIdle p = true) :
    exec (.entryWithoutHold p) s = s.concludeIf (s.withoutHold p) := by
  show s.concludeIf _ = _
  rw [if_pos (by simp [hreset, hidle])]

/-- Settles O35, by the kinds of the head entry. -/
theorem entryRemovedWithoutHold : Obligations.EntryRemovedWithoutHold := by
  intro p s e rest hreset hidle hqueue
  rw [exec_entryWithoutHold hreset hidle]
  refine ⟨fun hcase => ?_, fun a data he hheld => ?_⟩
  · have hgone : s.withoutHold p = some (s.removeHead p) := by
      rw [State.withoutHold, hqueue]
      obtain ⟨g, data, enables, rfl | rfl, heffect, hneeds⟩ | ⟨a, data, rfl⟩ | ⟨a, data, rfl, hheld⟩ := hcase
      · simp [heffect, hneeds]
      · simp [heffect, hneeds]
      · rfl
      · simp [hheld]
    rw [hgone]
    rfl
  · subst he
    have hlost : s.withoutHold p = some ((s.removeHead p).produce (writeLostPlain p 2 a data)) := by
      rw [State.withoutHold, hqueue]
      simp [hheld]
    rw [hlost]
    rfl

/-! ## Initialisation (R8, R102, R103, R144) -/

theorem nextInit_some {s : State} {pr : Profile} {f c : Nat} (hp : s.cmd.profile = some pr) (h : s.nextInit = some (f, c)) :
    s.needsInit f c = true := by
  rw [State.nextInit, hp] at h
  split at h
  · next hf =>
    obtain ⟨d, hd, heq⟩ := Option.map_eq_some_iff.mp h
    cases heq
    have hmissing := List.find?_some hd
    rw [State.needsInit, hf, hmissing]
    simp
  · cases h

/-- A card that joins the init set while another card is missing changes nothing else (R101). -/
theorem addToInitSet_more {s : State} {pr : Profile} {f c : Nat} (hp : s.cmd.profile = some pr)
    (hneeds : s.needsInit f c = true) (hmore : ∃ d ∈ usedCards pr, d ≠ c ∧ d ∉ s.seq.initSet) :
    s.addToInitSet f c = { s with seq := { s.seq with initSet := s.seq.initSet ++ [c] } } := by
  obtain ⟨d, hd, hne, hmissing⟩ := hmore
  have hunder : s.seq.underInit = some f := by
    simp only [State.needsInit, Bool.and_eq_true, decide_eq_true_eq] at hneeds
    exact hneeds.1
  have hnext : ({ s with seq := { s.seq with initSet := s.seq.initSet ++ [c] } } : State).nextInit.isSome = true := by
    simp only [State.nextInit, hp, hunder, Option.isSome_map, List.find?_isSome]
    exact ⟨d, hd, by simp [hne, hmissing]⟩
  rw [State.addToInitSet, hp]
  dsimp only
  rw [if_pos hneeds, if_pos hnext]

/-- A unit of the part's own work with every access answered OK. -/
theorem ownUnit_ok (s : State) (r : Requester) (m : Memory) (ok : State → State) :
    s.ownUnit r (Bus.start m none) ok = ok { s with mem := m } := by
  rfl

/-- An initialisation with every access answered OK (R8, R101). -/
theorem finishInit_ok (s : State) (pr : Profile) (f c : Nat) :
    s.finishInit pr f c none = ({ s with mem := writesTo s.mem (initWrites pr f c) } : State).addToInitSet f c := by
  have hbus : (Bus.start s.mem none).writes (initWrites pr f c) = Bus.start (writesTo s.mem (initWrites pr f c)) none :=
    busWrites_ok _ _
  unfold State.finishInit
  generalize writesTo s.mem (initWrites pr f c) = m at hbus ⊢
  rw [hbus]
  exact ownUnit_ok _ _ _ _

theorem finishDemandInit_ok (s : State) (pr : Profile) (p : Port) (f c : Nat) (purpose : InitFor) :
    s.finishDemandInit pr p f c purpose none =
      ({ s with mem := writesTo s.mem (initWrites pr f c) } : State).addToInitSet f c := by
  have hbus : (Bus.start s.mem none).writes (initWrites pr f c) = Bus.start (writesTo s.mem (initWrites pr f c)) none :=
    busWrites_ok _ _
  unfold State.finishDemandInit
  generalize writesTo s.mem (initWrites pr f c) = m at hbus ⊢
  rw [hbus]
  rfl

/-- What a finished initialisation leaves: the memory after its writes, and the card in the init set while another is missing. -/
theorem initialised_settle {s x : State} {pr : Profile} {f c : Nat} (m : Memory) (hx : SamePorts s x ∧ SameBlocks s x ∧
      x.time = s.time ∧ SameUnit s.rep x.rep) (hp : s.cmd.profile = some pr) (hneeds : x.needsInit f c = true)
    (hset : x.seq.initSet = s.seq.initSet) :
    (State.settle none s (({ x with mem := m } : State).addToInitSet f c)).mem = m ∧
    ((∃ d ∈ usedCards pr, d ≠ c ∧ d ∉ s.seq.initSet) →
      (State.settle none s (({ x with mem := m } : State).addToInitSet f c)).seq =
        { x.seq with initSet := s.seq.initSet ++ [c] } ∧
      SamePorts s (State.settle none s (({ x with mem := m } : State).addToInitSet f c)) ∧
      SameBlocks s (State.settle none s (({ x with mem := m } : State).addToInitSet f c)) ∧
      (State.settle none s (({ x with mem := m } : State).addToInitSet f c)).time = s.time) := by
  obtain ⟨⟨hA, hB⟩, ⟨hview, hclaims, hdisch, hcmd, -⟩, htime, hunit⟩ := hx
  obtain ⟨hkept, -⟩ := outer_addToInitSet { x with mem := m } f c
  refine ⟨(settle_fields none s _).1.trans hkept, fun hmore => ?_⟩
  rw [addToInitSet_more (s := { x with mem := m }) (hcmd ▸ hp) hneeds (hset ▸ hmore)]
  exact ⟨by simp [hset], ⟨by simp [hA], by simp [hB]⟩, ⟨by simp [hview], by simp [hclaims], by simp [hdisch],
    by simp [hcmd], sameReportRegisters_settle hunit⟩, by simp [htime]⟩

theorem finishWith_some {s : State} {pr : Profile} {f : Profile → State} (hp : s.cmd.profile = some pr) :
    s.finishWith f = f pr := by rw [State.finishWith, hp]

/-- A whole unit of work is its end on the state after the grant. -/
theorem runSpan_port {s : State} {r : Requester} {q : Request} {granted : Option State} {w : Work} {mine : Work → Bool}
    {error : Option Nat} (hgrant : s.canGrant r q = true) (hgranted : granted = some ((s.grantTo r).holds w))
    (hmine : mine w = true) (hw : ((s.grantTo r).holds w).sparedWord error = none) :
    s.runSpan (.whole error) granted mine = .next (State.settle none s ((s.grantTo r).finishWork w error)) := by
  obtain ⟨-, hfree, -, -⟩ := (canGrant_iff s _ _).mp hgrant
  have hreleased : (s.grantTo r).release = s.grantTo r := release_of_free hfree
  rw [hgranted, runSpan_whole_held _ _ _ _ (by simpa using hmine), hw, endHold_holds, hreleased]

/-- A grant of the Ring Sequencer for work of its own, with that work under its hold. -/
theorem sequencerGranted_some {s : State} {q : Request} {w : Work} (hgrant : s.canGrant .sequencer q = true) :
    s.sequencerGranted q (some w) = some ((s.grantSequencer false).holds w) := if_pos hgrant

/-- A whole unit of the Ring Sequencer's own work is its end on the state after the grant. -/
theorem runSpan_sequencer {s : State} {q : Request} {w : Work} {mine : Work → Bool} {error : Option Nat}
    (hgrant : s.canGrant .sequencer q = true) (hmine : mine w = true) (hw : ((s.grantSequencer false).holds w).sparedWord error = none) :
    s.runSpan (.whole error) (s.sequencerGranted q (some w)) mine =
      .next (State.settle none s ((s.grantSequencer false).finishWork w error)) := by
  obtain ⟨-, hfree, -, -⟩ := (canGrant_iff s _ _).mp hgrant
  have hreleased : (s.grantSequencer false).release = s.grantSequencer false := release_of_free hfree
  rw [sequencerGranted_some hgrant, runSpan_whole_held _ _ _ _ (by simpa using hmine), hw, endHold_holds, hreleased]

theorem sameAll_grantSequencer (s : State) (scan : Bool) :
    SameMemory s (s.grantSequencer scan) ∧ SamePorts s (s.grantSequencer scan) ∧ SameBlocks s (s.grantSequencer scan) ∧
    (s.grantSequencer scan).time = s.time ∧ SameUnit s.rep (s.grantSequencer scan).rep :=
  ⟨⟨rfl, rfl, rfl⟩, ⟨rfl, rfl⟩, ⟨rfl, rfl, rfl, rfl, ⟨rfl, rfl, rfl, rfl, rfl, rfl, rfl⟩⟩, rfl, SameUnit.refl _⟩

theorem sameAll_grantTo (s : State) (r : Requester) :
    SameMemory s (s.grantTo r) ∧ SamePorts s (s.grantTo r) ∧ SameBlocks s (s.grantTo r) ∧
    (s.grantTo r).time = s.time ∧ SameUnit s.rep (s.grantTo r).rep :=
  ⟨⟨rfl, rfl, rfl⟩, ⟨rfl, rfl⟩, ⟨rfl, rfl, rfl, rfl, ⟨rfl, rfl, rfl, rfl, rfl, rfl, rfl⟩⟩, rfl, SameUnit.refl _⟩

/-- Settles O36: each kind of initialisation is the same four writes, and the card joins the init set. -/
theorem initialisationWritesRecord : Obligations.InitialisationWritesRecord := by
  refine ⟨fun pr f c => rfl, fun s pr f c hp hgrant hnext => ?card, fun s pr f c hp hgrant hnext => ?mark,
    fun s pr p g purpose hp hgrant htarget hneeds => ?demand⟩
  case card =>
    have hwork : s.cardInitWork = some (.cardInit f c) := by rw [State.cardInitWork, hnext]; rfl
    have hrun := runSpan_sequencer (w := .cardInit f c) (mine := isCardInit) (error := none) hgrant rfl rfl
    rw [← hwork] at hrun
    refine ⟨_, hrun, ?_⟩
    rw [State.finishWork, finishWith_some (s := s.grantSequencer false) hp, finishInit_ok]
    exact initialised_settle _ (sameAll_grantSequencer s false).2 hp (nextInit_some hp hnext) rfl
  case mark =>
    have hwork : s.markInitWork = some (.markInit f c) := by rw [State.markInitWork, hnext]; rfl
    have hrun := runSpan_sequencer (w := .markInit f c) (mine := isMarkInit) (error := none) hgrant rfl rfl
    rw [← hwork] at hrun
    refine ⟨_, hrun, ?_⟩
    rw [State.finishWork, finishWith_some (s := s.grantSequencer false) hp, finishInit_ok]
    exact initialised_settle _ (sameAll_grantSequencer s false).2 hp (nextInit_some hp hnext) rfl
  case demand =>
    have hgranted : s.demandGranted p =
        some ((s.grantTo (portRequester p)).holds (.demandInit p g.frame g.card purpose)) := by
      rw [State.demandGranted, if_pos hgrant, htarget]
      exact if_pos hneeds
    have hrun := runSpan_port (w := .demandInit p g.frame g.card purpose) (mine := isDemandInit p) (error := none) hgrant
      hgranted (by simp [isDemandInit]) rfl
    refine ⟨_, hrun, ?_⟩
    rw [State.finishWork, finishWith_some (s := s.grantTo (portRequester p)) hp, finishDemandInit_ok]
    exact initialised_settle _ (sameAll_grantTo s (portRequester p)).2 hp hneeds rfl

end Sys2Proof.Machine
end

