-- ==== Sys2Proof/Proofs/PlainWork.lean ====
section
/-! PROOF. PLAIN and PROFILE writes and pending reads (R16, R31, R32, R74, R84, R86). -/

namespace Sys2Proof.Machine

/-! ## Writes (R86) -/

section Written

variable {s : State} {p : Port} {a : Nat} {data v : Word} {enables : Enables} {e : Entry} {rest : List Entry}

/-- A stored word: memory holds it, the other bytes and everything but the head of the queue are as before. -/
theorem stored_settle (hqueue : (s.port p).queue = e :: rest) :
    (State.settle none s (s.rowPerformed p a v)).mem = s.mem.writeWord a v ∧
    (∀ x, (x < a ∨ a + 4 ≤ x) → SameByte s (State.settle none s (s.rowPerformed p a v)) x) ∧
    HeadGone p rest s (State.settle none s (s.rowPerformed p a v)) ∧
    SameInner s (State.settle none s (s.rowPerformed p a v)) ∧
    SameReportRegisters s (State.settle none s (s.rowPerformed p a v)) := by
  obtain ⟨hmem, hhead, -, -⟩ := rowWritten_settle (spare := none) (a := a) (v := v) (x := s.rowPerformed p a v) hqueue
    ⟨rfl, rfl, rfl⟩ ⟨rfl, rfl⟩
  refine ⟨hmem, fun x hx => ?_, hhead, by simp [SameInner], sameReportRegisters_settle (by simpa using SameUnit.refl _)⟩
  rw [SameByte, hmem, readByte_writeWord_outside _ _ _ _ hx]

/-- A PLAIN write that memory answers OK stores the merged word and removes its entry. -/
theorem finishWrite_plain_ok (s : State) (p : Port) (a : Nat) (data : Word) (enables : Enables) :
    s.finishWrite p a data enables false none =
      ({ s with mem := s.mem.writeWord a (leftInMemory s.mem a enables data) }).removeHead p := by
  rw [State.finishWrite, writeAccesses_ok]
  rfl

/-- The PLAIN write outside the held ring is granted and held (R86). -/
theorem plainWriteGranted_some (hgrant : s.canGrant (portRequester p) .own = true)
    (hqueue : (s.port p).queue = .plain a data enables :: rest) (hring : (s.inRawRing a && s.seq.tracking.ringHeld) = false) :
    s.plainWriteGranted p = some ((s.grantTo (portRequester p)).holds (.write p a data enables false)) := by
  rw [State.plainWriteGranted, hqueue]
  dsimp only
  rw [if_pos hgrant, hring]
  rfl

/-- A whole PLAIN write outside the held ring is its end on the state after the grant. -/
theorem exec_plainWrite {error : Option Nat} (hgrant : s.canGrant (portRequester p) .own = true)
    (hqueue : (s.port p).queue = .plain a data enables :: rest) (hring : (s.inRawRing a && s.seq.tracking.ringHeld) = false) :
    exec (.plainWrite p (.whole error)) s =
      .next (State.settle none s ((s.grantTo (portRequester p)).finishWrite p a data enables false error)) :=
  runSpan_port (w := .write p a data enables false) (mine := isPlainWrite p) hgrant (plainWriteGranted_some hgrant hqueue hring) (by simp [isPlainWrite]) rfl

/-- A PLAIN write into the held ring ends with its report at its grant (R16, R86). -/
theorem exec_plainWrite_held {error : Option Nat} (hgrant : s.canGrant (portRequester p) .own = true)
    (hqueue : (s.port p).queue = .plain a data enables :: rest) (hring : (s.inRawRing a && s.seq.tracking.ringHeld) = true) :
    exec (.plainWrite p (.whole error)) s =
      .next (State.settle none s (((s.grantTo (portRequester p)).removeHead p).produce (writeLostPlain p 2 a data))) := by
  have hgranted : s.plainWriteGranted p =
      some (((s.grantTo (portRequester p)).removeHead p).produce (writeLostPlain p 2 a data)) := by
    rw [State.plainWriteGranted, hqueue]
    dsimp only
    rw [if_pos hgrant, if_pos hring]
  obtain ⟨-, hfree, -, -⟩ := (canGrant_iff s _ _).mp hgrant
  show s.runSpan (.whole error) (s.plainWriteGranted p) (isPlainWrite p) = _
  rw [hgranted]
  exact runSpan_whole_done _ _ _ _ (holdIs_free _ _ (by simp [hfree]))

/-- A command word is in a row of its own. -/
theorem commandRow_ne_word (v : Word) : commandRow v ≠ .plain ∧ commandRow v ≠ .readPointer := by
  unfold commandRow
  cases commandOf (commandCode v) with
  | none => dsimp only; split <;> decide
  | some c =>
    cases c with
    | start => dsimp only; split <;> decide
    | _ => exact ⟨nofun, nofun⟩

/-- A write of a word of the profile block that no unit watches hands nothing over (R86). -/
theorem handOver_plain {x : State} (hwords : ∀ n, x.blockWord n = s.blockWord n)
    (hrow : s.profileRow a data enables = .plain) : x.handOver p a v = x := by
  rw [State.profileRow] at hrow
  split at hrow
  · exact absurd hrow ((commandRow_ne_word _).1)
  · next hcommand =>
    split at hrow
    · cases hrow
    · next hpointer =>
      split at hrow
      · cases hrow
      · next hextend =>
        rw [State.handOver, hwords, hwords, hwords, if_neg hcommand, if_neg hpointer, if_neg hextend]

end Written

/-- Settles O37, by the row of the write. -/
theorem plainAndProfileWritesStore : Obligations.PlainAndProfileWritesStore := by
  intro p a data enables rest s hgrant
  refine ⟨fun hqueue hring => ?plain, fun hqueue hrow => ?profile, fun error hqueue hring => ?held⟩
  case plain =>
    have hexec := exec_plainWrite (error := none) hgrant hqueue hring
    rw [finishWrite_plain_ok] at hexec
    exact ⟨_, hexec, stored_settle hqueue⟩
  case profile =>
    have hexec := runProfile_whole (row := .plain) ⟨hqueue, hgrant, hrow, rfl⟩
    rw [handOver_plain (rowPerformed_blockWord s p a _) hrow] at hexec
    exact ⟨_, hexec, stored_settle hqueue⟩
  case held => exact exec_plainWrite_held hgrant hqueue hring

/-! ## Pending reads (R31, R84) -/

/-- A read is answered: nothing but its port changes, whatever the arbiter did for it. -/
theorem answered_settle {s x : State} {p : Port} {answer : Answer} (hx : ∃ arb, x = { s with arb := arb }) :
    (State.settle none s (x.answerRead p answer)).port p =
      { s.port p with pending := none, answer := some answer } ∧
    SameButPort p s (State.settle none s (x.answerRead p answer)) := by
  obtain ⟨arb, rfl⟩ := hx
  have hother : (State.settle none s (({ s with arb := arb } : State).answerRead p answer)).port (otherPort p) =
      s.port (otherPort p) := by
    rw [settle_port, answerRead_other _ _ _ _ (otherPort_ne p)]
    cases p <;> rfl
  refine ⟨?_, ⟨by simp, by simp, by simp⟩, hother, ⟨by simp, by simp, by simp, by simp, by simp, by simp⟩, ?_⟩
  · rw [settle_port, answerRead_same]
    cases p <;> rfl
  · exact sameReportRegisters_settle (by simpa using SameUnit.refl _)

theorem grantTo_arb (s : State) (r : Requester) : ∃ arb, s.grantTo r = { s with arb := arb } := ⟨_, rfl⟩

section Read

variable {s : State} {p : Port} {error : Option Nat}

/-- A whole pending PLAIN read is its end on the state after the grant. -/
theorem exec_plainRead {a : Nat} (hqueue : (s.port p).queue = []) (hpending : (s.port p).pending = some (.plain a))
    (hgrant : s.canGrant (portRequester p) .own = true) :
    exec (.pendingPlainRead p (.whole error)) s =
      .next (State.settle none s ((s.grantTo (portRequester p)).finishPlainRead p a error)) := by
  have hgranted : s.plainReadGranted p = some ((s.grantTo (portRequester p)).holds (.plainRead p a)) := by
    rw [State.plainReadGranted, hqueue, hpending]
    exact if_pos hgrant
  exact runSpan_port (w := .plainRead p a) (mine := isPlainRead p) hgrant hgranted (by simp [isPlainRead]) rfl

/-- A read that memory answers OK returns the word of memory. -/
theorem finishPlainRead_ok (a : Nat) : s.finishPlainRead p a none = s.answerRead p (.data (s.mem.readWord a)) := by
  simp only [State.finishPlainRead, Bus.read, answer_ok (Bus.start s.mem none) a rfl rfl]
  rfl

/-- A whole pending VIEW read of a resident frame is its end on the state after the grant. -/
theorem exec_viewRead {g : Target} (hqueue : (s.port p).queue = []) (hpending : (s.port p).pending = some (.view g))
    (hresident : s.resident g.frame = true) (hgrant : s.canGrant (portRequester p) .own = true) :
    exec (.pendingViewRead p (.whole error)) s =
      .next (State.settle none s ((s.grantTo (portRequester p)).finishWork (.viewRead p g (s.stagedFor p g)) error)) := by
  obtain ⟨hreset, hfree, -, -⟩ := (canGrant_iff s _ _).mp hgrant
  have hgranted : s.viewReadGranted p =
      some ((s.grantTo (portRequester p)).holds (.viewRead p g (s.stagedFor p g))) := by
    rw [State.viewReadGranted, hqueue, hpending]
    dsimp only
    rw [if_neg (by simp [State.holder, hreset, hfree]), if_neg (by simp [hresident]), if_pos hgrant]
  exact runSpan_port (w := .viewRead p g (s.stagedFor p g)) (mine := isViewRead p) hgrant hgranted (by simp [isViewRead]) rfl

/-- A VIEW read that memory answers OK returns the record's word with the staged bytes in it. -/
theorem finishViewRead_ok (pr : Profile) (g : Target) (staged : Option StagedWord) :
    s.finishViewRead pr p g staged none =
      s.answerRead p (.data (composedWord staged (s.mem.readWord (ringAddress pr g.frame g.card g.word)))) := by
  simp only [State.finishViewRead, Bus.read, answer_ok (Bus.start s.mem none) _ rfl rfl]
  rfl

theorem requester_isViewRead {w : Work} (h : isViewRead p w = true) : w.requester = portRequester p := by
  cases w with
  | viewRead q g staged => exact congrArg portRequester (of_decide_eq_true h)
  | _ => cases h

/-- A VIEW read of a frame that is gone is answered ERROR without a hold (R31 step 1). -/
theorem exec_viewRead_gone {g : Target} (hqueue : (s.port p).queue = []) (hpending : (s.port p).pending = some (.view g))
    (hresident : s.resident g.frame = false) (hreset : s.inReset = false) (hholder : s.holder ≠ some (portRequester p)) :
    exec (.pendingViewRead p (.whole error)) s = .next (State.settle none s (s.viewReadGone p)) := by
  have hgranted : s.viewReadGranted p = some (s.viewReadGone p) := by
    rw [State.viewReadGranted, hqueue, hpending]
    dsimp only
    rw [if_neg (by simp [hreset, hholder]), if_pos (by simp [hresident])]
  have hdone : (s.viewReadGone p).holdIs (isViewRead p) = false := by
    refine Bool.eq_false_iff.mpr fun hheld => ?_
    obtain ⟨w, hw, hmine⟩ := (holdIs_iff _ _).mp hheld
    have hhold : s.arb.hold = some w := by cases p <;> exact hw
    exact hholder ((congrArg (Option.map Work.requester) hhold).trans (congrArg some (requester_isViewRead hmine)))
  show s.runSpan (.whole error) (s.viewReadGranted p) (isViewRead p) = _
  rw [hgranted]
  exact runSpan_whole_done _ _ _ _ hdone

/-- No staged word is returned without a claim of the port on the card that holds the word (R32). -/
theorem stagedFor_none {g : Target} (h : ∀ c, s.claimOn g.frame g.card = some c → c.port ≠ p ∨ c.staged.get g.word = none) :
    s.stagedFor p g = none := by
  rw [State.stagedFor]
  split
  · next c hc =>
    obtain hport | hstaged := h c hc
    · exact if_neg hport
    · rw [hstaged, ite_self]
  · rfl

theorem stagedFor_some {g : Target} {c : Claim} {w : StagedWord} (hc : s.claimOn g.frame g.card = some c) (hport : c.port = p)
    (hw : c.staged.get g.word = some w) : s.stagedFor p g = some w := by
  rw [State.stagedFor, hc]
  exact (if_pos hport).trans hw

end Read

/-- Settles O39: each read is answered by what its end finds. -/
theorem pendingReadsAnswer : Obligations.PendingReadsAnswer := by
  intro p s hqueue
  refine ⟨fun a hpending hgrant => ?plain, fun g pr hp hpending hresident hgrant => ?view,
    fun g hpending hresident hreset hholder => ?gone⟩
  case plain =>
    have hexec := exec_plainRead (error := none) hqueue hpending hgrant
    rw [finishPlainRead_ok] at hexec
    exact ⟨_, hexec, answered_settle (grantTo_arb s _)⟩
  case view =>
    have hexec := exec_viewRead (error := none) hqueue hpending hresident hgrant
    rw [State.finishWork, finishWith_some (s := s.grantTo (portRequester p)) hp, finishViewRead_ok] at hexec
    obtain ⟨hport, hsame⟩ := answered_settle (p := p) (answer := .data (composedWord (s.stagedFor p g)
      (s.mem.readWord (ringAddress pr g.frame g.card g.word)))) (grantTo_arb s (portRequester p))
    refine ⟨_, hexec, hsame, congrArg PortState.pending hport, fun hnone => ?_, fun c w hc hown hw => ?_⟩
    · rw [stagedFor_none hnone] at hport
      rw [stagedFor_none hnone]
      exact congrArg PortState.answer hport
    · rw [stagedFor_some hc hown hw] at hport
      rw [stagedFor_some hc hown hw]
      exact congrArg PortState.answer hport
  case gone =>
    exact ⟨_, exec_viewRead_gone (error := none) hqueue hpending hresident hreset hholder, answered_settle ⟨_, rfl⟩⟩

end Sys2Proof.Machine
end

