-- ==== Sys2Proof/Proofs/ReportingContext.lean ====
section
/-! PROOF. What reports depend on: the Report Unit, the profile's levels, H, the counter and whether the model is HALTED (R147,
R149, R164). A state that differs elsewhere, or in its quiet count, produces the same reports. -/

namespace Sys2Proof.Machine

/-- The two states make the same of a report. Their quiet counts may differ. -/
structure SameReporting (s t : State) : Prop where
  rep : t.rep = { s.rep with quiet := t.rep.quiet }
  choices : t.choices = s.choices
  profile : t.cmd.profile = s.cmd.profile
  head : t.seq.head = s.seq.head
  halted : t.seq.tracking = .halted ↔ s.seq.tracking = .halted
  counter : t.time.counter = s.time.counter

theorem offer_withQuiet (u : ReportUnit) (n : Nat) (r : Report) :
    ({ u with quiet := n } : ReportUnit).offer r = { u.offer r with quiet := n } := by
  unfold ReportUnit.offer
  dsimp only
  split
  · rfl
  · cases weakest u.queue with
    | none => rfl
    | some best =>
      dsimp only
      split <;> rfl

theorem rep_produce {s t : State} (h : SameReporting s t) (c : Content) :
    (t.produce c).rep = { (s.produce c).rep with quiet := t.rep.quiet } := by
  obtain ⟨hrep, -, hprofile, hhead, hhalted, hcounter⟩ := h
  generalize t.rep.quiet = n at hrep
  simp only [State.produce, ReportUnit.produced, hprofile, hrep, hhalted, State.reportOf, hhead, hcounter]
  cases s.cmd.profile with
  | none => rfl
  | some p =>
    dsimp only
    split
    · rfl
    · split
      · rfl
      · exact offer_withQuiet _ _ _

theorem quiet_produce (s : State) (c : Content) : (s.produce c).rep.quiet = s.rep.quiet := by
  obtain ⟨-, -, -, -, hquiet, -⟩ := sameUnit_produce s c
  exact hquiet

theorem SameReporting.produce {s t : State} (h : SameReporting s t) (c : Content) :
    SameReporting (s.produce c) (t.produce c) where
  rep := by rw [quiet_produce]; exact rep_produce h c
  choices := h.choices
  profile := h.profile
  head := h.head
  halted := h.halted
  counter := h.counter

theorem SameReporting.foldl {s t : State} (h : SameReporting s t) (b : List Content) :
    SameReporting (b.foldl State.produce s) (b.foldl State.produce t) := by
  induction b generalizing s t with
  | nil => exact h
  | cons c b ih => exact ih (h.produce c)

theorem SameReporting.produceLoop {s t : State} (h : SameReporting s t) (fuel : Nat) (bs : List (List Content)) :
    SameReporting (produceLoop fuel s bs) (produceLoop fuel t bs) := by
  induction fuel generalizing s t bs with
  | zero => exact h
  | succ fuel ih =>
    unfold Machine.produceLoop
    rw [h.choices]
    split
    · exact h
    · exact h.foldl _
    · dsimp only
      split
      · exact h
      · next c _ _ =>
        obtain ⟨hrep, hchoices, hprofile, hhead, hhalted, hcounter⟩ := h.produce c
        have hnext : SameReporting ({ s.produce c with choices := s.choices + 1 } : State)
            { t.produce c with choices := s.choices + 1 } := ⟨hrep, rfl, hprofile, hhead, hhalted, hcounter⟩
        exact ih hnext _

/-- Two states that make the same of a report make the same of reports produced together. -/
theorem SameReporting.produceAll {s t : State} (h : SameReporting s t) (bs : List (List Content)) :
    SameReporting (s.produceAll bs) (t.produceAll bs) := h.produceLoop _ bs

/-- Producing changes the Report Unit and the number of choices. -/
theorem produceAll_eq (s : State) (bs : List (List Content)) :
    s.produceAll bs = { s with rep := (s.produceAll bs).rep, choices := (s.produceAll bs).choices } := by
  obtain ⟨h1, h2, h3, h4, h5, h6, h7, h8, h9, h10, h11, h12, h13, h14, -⟩ := produceAll_rest s bs
  cases hx : s.produceAll bs
  simp_all

/-- A change that reports do not look at can come before them or after them. -/
theorem produceAll_after {s t : State} (h : SameReporting s t) (bs : List (List Content)) :
    t.produceAll bs =
      { t with rep := { (s.produceAll bs).rep with quiet := t.rep.quiet }, choices := (s.produceAll bs).choices } := by
  have hall := h.produceAll bs
  have hquiet : (t.produceAll bs).rep.quiet = t.rep.quiet := by
    obtain ⟨-, -, -, -, hquiet, -⟩ := sameUnit_produceAll t bs
    exact hquiet
  rw [produceAll_eq t bs, hall.rep, hall.choices, hquiet]

end Sys2Proof.Machine
end

