-- ==== Sys2Proof/Proofs/Faults.lean ====
section
/-! PROOF. Faults in each tracking state, hard fault entry, and memory ERRORs (R84, R90, R91, R142, R143, R145, R162, R164). -/

namespace Sys2Proof.Machine

/-! ## A fault in each tracking state (R142) -/

/-- The fault count has risen (R142). -/
def State.faultCounted (s : State) : State :=
  { s with seq := { s.seq with faultCount := min (s.seq.faultCount + 1) 65535 } }

@[simp] theorem faultCounted_fields (s : State) :
    s.faultCounted.mem = s.mem ∧ s.faultCounted.psel = s.psel ∧ s.faultCounted.inReset = s.inReset ∧
    s.faultCounted.portA = s.portA ∧ s.faultCounted.portB = s.portB ∧ s.faultCounted.view = s.view ∧
    s.faultCounted.claims = s.claims ∧ s.faultCounted.arb = s.arb ∧ s.faultCounted.time = s.time ∧
    s.faultCounted.disch = s.disch ∧ s.faultCounted.cmd = s.cmd ∧ s.faultCounted.rep = s.rep ∧
    s.faultCounted.pins = s.pins ∧ s.faultCounted.choices = s.choices ∧ s.faultCounted.pending = s.pending :=
  ⟨rfl, rfl, rfl, rfl, rfl, rfl, rfl, rfl, rfl, rfl, rfl, rfl, rfl, rfl, rfl⟩

section Fault

variable {s : State} {f : FaultSignal} {extra : List (List Content)}

theorem fault_hard {pr : Profile} (hp : s.cmd.profile = some pr) (h : s.seq.tracking = .running ∨ s.seq.tracking = .advancing) :
    s.fault f extra = s.faultCounted.hardFault pr f extra := by
  obtain h | h := h <;> rw [State.fault, h, hp] <;> rfl

theorem fault_marking (h : s.seq.tracking = .marking) :
    s.fault f extra = (s.faultCounted.produceAll extra).enterHalted := by
  rw [State.fault, h]
  rfl

/-- Outside operation a fault is counted and reported. -/
theorem fault_soft (h : s.seq.tracking = .unconfigured ∨ s.seq.tracking = .idle ∨ s.seq.tracking = .lost) :
    s.fault f [] = s.faultCounted.produce (faultReport s.faultCounted f) := by
  obtain h | h | h := h <;> rw [State.fault, h] <;> rfl

end Fault

/-! ## The marking pass (R144) -/

/-- The marking pass begins its cards, is over, or stays as it is. -/
theorem progressMarking_eq (s : State) : ∃ pass tracking, (tracking = s.seq.tracking ∨ tracking = .lost) ∧
    s.progressMarking = { s with seq := { s.seq with marking := pass, tracking := tracking } } := by
  unfold State.progressMarking
  split
  · next h => exact ⟨none, _, .inl rfl, by rw [← h]⟩
  · next m h =>
    split
    · exact ⟨some m, _, .inl rfl, by rw [← h]⟩
    · split
      · exact ⟨none, .lost, .inr rfl, rfl⟩
      · exact ⟨_, _, .inl rfl, rfl⟩

@[simp] theorem progressMarking_fields (s : State) :
    s.progressMarking.mem = s.mem ∧ s.progressMarking.psel = s.psel ∧ s.progressMarking.inReset = s.inReset ∧
    s.progressMarking.portA = s.portA ∧ s.progressMarking.portB = s.portB ∧ s.progressMarking.view = s.view ∧
    s.progressMarking.claims = s.claims ∧ s.progressMarking.arb = s.arb ∧ s.progressMarking.time = s.time ∧
    s.progressMarking.disch = s.disch ∧ s.progressMarking.cmd = s.cmd ∧ s.progressMarking.rep = s.rep ∧
    s.progressMarking.pins = s.pins ∧ s.progressMarking.choices = s.choices ∧
    s.progressMarking.pending = s.pending := by
  obtain ⟨pass, tracking, -, heq⟩ := progressMarking_eq s
  rw [heq]
  exact ⟨rfl, rfl, rfl, rfl, rfl, rfl, rfl, rfl, rfl, rfl, rfl, rfl, rfl, rfl, rfl⟩

@[simp] theorem progressMarking_port (s : State) (p : Port) : s.progressMarking.port p = s.port p := by
  cases p <;> simp [State.port]

/-! ## Hard fault entry (R143) -/

/-- What hard fault entry does to every block but the ports, the views and the Command Unit. -/
structure FaultEntered (s t : State) (kind : FaultKind) : Prop where
  mem : t.mem = s.mem
  tracking : t.seq.tracking = .marking ∨ t.seq.tracking = .lost
  advance : t.seq.advance = none
  pendingIndex : t.seq.pendingIndex = 0
  faultCause : t.seq.faultCause = some kind
  faultCount : t.seq.faultCount = s.seq.faultCount
  head : t.seq.head = s.seq.head
  firstFrame : t.seq.firstFrame = s.seq.firstFrame
  claims : t.claims = []
  time : t.time = s.time.cleared

theorem faultEntered_hardFault (s : State) (pr : Profile) (f : FaultSignal) (extra : List (List Content)) :
    FaultEntered s (s.hardFault pr f extra) f.kind := by
  rw [hardFault_eq]
  obtain ⟨pass, tracking, htracking, heq⟩ :=
    progressMarking_eq ((s.faultEntered pr f.kind).produceAll (s.faultReports pr f ++ extra))
  rw [heq]
  simp only [produceAll_fields, faultEntered_fields, State.enterMarking] at htracking ⊢
  exact {
    mem := rfl, tracking := by simpa using htracking, advance := rfl, pendingIndex := rfl, faultCause := rfl
    faultCount := rfl, head := rfl, firstFrame := rfl, claims := rfl, time := rfl }

/-- Of the states with work in flight, one without a profile counts the fault and no more. -/
theorem fault_counts_active {s : State} {f : FaultSignal} {extra : List (List Content)}
    (h : s.seq.tracking = .running ∨ s.seq.tracking = .advancing) :
    (s.fault f extra).mem = s.mem ∧ (s.fault f extra).seq.faultCount = min (s.seq.faultCount + 1) 65535 ∧
    (s.fault f extra).seq.head = s.seq.head := by
  cases hp : s.cmd.profile with
  | some pr =>
    rw [fault_hard hp h]
    have hentered := faultEntered_hardFault s.faultCounted pr f extra
    exact ⟨hentered.mem, hentered.faultCount, hentered.head⟩
  | none =>
    have hcounted : s.fault f extra = s.faultCounted := by
      obtain h | h := h <;> rw [State.fault, h, hp] <;> rfl
    rw [hcounted]
    exact ⟨rfl, rfl, rfl⟩

/-- Every fault counts, and none moves H. -/
theorem fault_counts (s : State) (f : FaultSignal) (extra : List (List Content)) :
    (s.fault f extra).mem = s.mem ∧ (s.fault f extra).seq.faultCount = min (s.seq.faultCount + 1) 65535 ∧
    (s.fault f extra).seq.head = s.seq.head := by
  have hsame : ∀ x : State, x = s.faultCounted.produceAll extra ∨ x = s.faultCounted.produceAll ([faultReport s.faultCounted f] :: extra) →
      x.mem = s.mem ∧ x.seq.faultCount = min (s.seq.faultCount + 1) 65535 ∧ x.seq.head = s.seq.head := by
    rintro x (rfl | rfl) <;> simp [State.faultCounted]
  cases htracking : s.seq.tracking with
  | marking => rw [fault_marking htracking]; exact hsame (s.faultCounted.produceAll extra) (.inl rfl)
  | halted => rw [State.fault, htracking]; exact hsame _ (.inl rfl)
  | unconfigured => rw [State.fault, htracking]; exact hsame _ (.inr rfl)
  | idle => rw [State.fault, htracking]; exact hsame _ (.inr rfl)
  | lost => rw [State.fault, htracking]; exact hsame _ (.inr rfl)
  | running => exact fault_counts_active (.inl htracking)
  | advancing => exact fault_counts_active (.inr htracking)

/-! ## Memory ERRORs (R84, R90, R91, R162) -/

/-- An ERROR at the first access of a PLAIN write ends it with its report, and memory stays (R90). -/
theorem finishWrite_plain_error (s : State) (p : Port) (a : Nat) (data : Word) (enables : Enables) :
    s.finishWrite p a data enables false (some 0) = (s.removeHead p).produce (writeLostPlain p 1 a data) := by
  have hfailed : (writeAccesses (Bus.start s.mem (some 0)) a data enables).2 = (Bus.start s.mem (some 0)).answer a := by
    rw [writeAccesses]
    split <;> rfl
  rw [State.finishWrite, hfailed]
  rfl

/-- A PLAIN read that memory answers ERROR is answered ERROR (R84). -/
theorem finishPlainRead_error (s : State) (p : Port) (a : Nat) :
    s.finishPlainRead p a (some 0) = s.answerRead p .error := rfl

/-- The grant of a status write (R161). -/
def State.statusBegun (s : State) : State :=
  { s.grantReport true with rep := { (s.grantReport true).rep with changedAgain := false } }

/-- The state in which the fault of a failed status write is taken: the word is no longer due (R162). -/
def State.statusFailed (s : State) (n : Nat) : State :=
  { s.grantTo .report with rep := { s.rep with
      due := s.rep.due.filter (fun m => decide (m ≠ n)), changedAgain := false, lastWasStatus := true } }

/-- The MEMORY fault of a failed write of status word `n` (R91, R162). -/
def State.statusSignal (s : State) (n : Nat) : FaultSignal :=
  { memorySignal .report (s.statusAddress n) with ofStatusW := decide (n = statusOfW) }

theorem statusAddress_eq (s : State) (n : Nat) : s.statusAddress n = s.blockBase + 0x40 + 4 * n := by
  simp only [State.statusAddress, State.blockWord]
  omega

/-- The report of the fault of a failed status write (R142, R162). -/
theorem faultReport_status (s : State) (n : Nat) :
    faultReport (s.statusFailed n).faultCounted (s.statusSignal n) =
      { kind := .fault, source := .sequencer, frame := s.seq.head, lane := 2, row := stageNumber s.seq.advance
        count := min (s.seq.faultCount + 1) 65535, detail := 2, data := wordOf (s.blockBase + 0x40 + 4 * n)
        ofStatusW := decide (n = 6) } := by
  rw [faultReport, State.statusSignal, statusAddress_eq]
  rfl

/-- A whole status write that memory answers ERROR is its fault, and the word is not made due. -/
theorem exec_status_error {s : State} {n : Nat} {rest : List Nat} (hgrant : s.canGrant .report .status = true)
    (hdue : s.rep.due = n :: rest) :
    exec (.statusWordWrite (.whole (some 0))) s =
      .next (State.settle (some n) s ((s.statusFailed n).fault (s.statusSignal n) [])) := by
  obtain ⟨-, hfree, -, -⟩ := (canGrant_iff s _ _).mp hgrant
  have hgranted : s.statusGranted = some (s.statusBegun.holds (.status n (s.statusValue n))) := by
    rw [State.statusGranted, if_pos hgrant, hdue]
    rfl
  have hreleased : s.statusBegun.release = s.statusBegun := release_of_free hfree
  have hended : (s.statusBegun.holds (.status n (s.statusValue n))).endHold (some 0) =
      (s.statusFailed n).fault (s.statusSignal n) [] := by
    rw [endHold_holds, hreleased]
    rfl
  show s.runSpan (.whole (some 0)) s.statusGranted isStatusWrite = _
  rw [hgranted, runSpan_whole_held _ _ _ _ rfl, hended]
  rfl

/-- HALTED is entered with the Report Unit's queue empty, unless a record write is under its hold (R145, R164). -/
theorem queue_enterHalted {s : State} (h : s.rep.writing = none) : s.enterHalted.rep.queue = [] := by
  have hrep : s.enterHalted.rep = s.rep.halted.drop 1 := rfl
  rw [hrep, ReportUnit.halted, h]
  rfl

theorem queue_settle_empty {s x : State} {spare : Option Nat} (h : x.rep.queue = []) :
    (State.settle spare s x).rep.queue = [] := by
  obtain ⟨-, -, -, -, -, -, -, -, -, hqueue⟩ := settle_rep spare s x
  rw [h] at hqueue
  exact List.suffix_nil.mp hqueue

/-- With tracking lost or a fault entered, all the reject lines are driven (R121). -/
theorem rej_settle {s x : State} {spare : Option Nat}
    (h : x.seq.tracking = .marking ∨ x.seq.tracking = .lost ∨ x.seq.tracking = .halted) :
    (State.settle spare s x).pins.rej = 0xFF := by
  rw [(settle_pins spare s x).1, State.pinLevels, State.rejLevels]
  obtain h | h | h := h <;> rw [h]

/-- Settles O38: each unit is its end, and the status word's fault is one of the tracking state. -/
theorem memoryErrorsEndUnits : Obligations.MemoryErrorsEndUnits := by
  refine ⟨fun p a data enables rest s hgrant hqueue hring => ?write, fun p a s hgrant hqueue hpending => ?read,
    fun s n rest hgrant hdue => ?status⟩
  case write => rw [exec_plainWrite hgrant hqueue hring, finishWrite_plain_error]; rfl
  case read =>
    have hexec := exec_plainRead (error := some 0) hqueue hpending hgrant
    rw [finishPlainRead_error] at hexec
    exact ⟨_, hexec, answered_settle (grantTo_arb s _)⟩
  case status =>
    obtain ⟨hmem, hcount, hhead⟩ := fault_counts (s.statusFailed n) (s.statusSignal n) []
    refine ⟨_, exec_status_error hgrant hdue, by simp only [settle_fields]; exact hmem,
      by simp only [settle_fields]; exact hcount, by simp only [settle_fields]; exact hhead,
      fun hsoft => ?_, fun pr hp hactive => ?_, fun hmarking => ?_⟩
    · rw [fault_soft (s := s.statusFailed n) hsoft, faultReport_status]
      rfl
    · rw [fault_hard (s := s.statusFailed n) hp hactive]
      have h := faultEntered_hardFault (s.statusFailed n).faultCounted pr (s.statusSignal n) []
      simp only [settle_fields]
      exact ⟨h.tracking, h.faultCause, h.advance, h.pendingIndex, h.claims, congrArg TimeBase.running h.time,
        rej_settle (h.tracking.imp id .inl)⟩
    · have hhalted : (s.statusFailed n).fault (s.statusSignal n) [] = (s.statusFailed n).faultCounted.enterHalted :=
        fault_marking (s := s.statusFailed n) hmarking
      rw [hhalted]
      have hempty (hwriting : s.rep.writing = none) : (s.statusFailed n).faultCounted.enterHalted.rep.queue = [] :=
        queue_enterHalted hwriting
      refine ⟨by simp only [settle_fields]; rfl, by simp only [settle_fields]; rfl, by simp only [settle_fields]; rfl,
        by simp only [settle_fields]; rfl, by simp only [settle_fields]; rfl,
        fun hwriting => queue_settle_empty (hempty hwriting), rej_settle (.inr (.inr rfl)), ?_⟩
      simp [SamePorts, State.enterHalted, State.faultCounted, State.statusFailed]

end Sys2Proof.Machine
end

