-- ==== Sys2Proof/Proofs/IndexOverrun.lean ====
section
/-! PROOF. The reports that events of the ring have in common, and INDEX_OVERRUN (R39, R44, R75, R94, R97, R143). -/

namespace Sys2Proof.Machine

@[simp] theorem port_produceAll (s : State) (bs : List (List Content)) (p : Port) : (s.produceAll bs).port p = s.port p := by
  cases p <;> simp [State.port]

/-! ## Reports of claims and stations, field by field (R39, R44, R75, R94) -/

theorem flatMap_enabledSlots {α : Type} (p : Profile) (f : Fin 8 × SlotSettings → List α) :
    (enabledSlots p).flatMap f =
      (slotNumbers.filter fun i => (p.slots.get i).enabled).flatMap fun i => f (i, p.slots.get i) := by
  rw [enabledSlots, List.filter_map, List.flatMap_map]
  rfl

theorem heldDropped_eq (p : Profile) (i : Fin 8) (st : Station) :
    heldDropped (p.slots.get i) i st = if st.held = 0 then [] else [heldDroppedOf p i st] := by
  unfold heldDropped heldDroppedOf cursorResync
  cases st.cursor <;> rfl

theorem streamOverflow_eq (p : Profile) (i : Fin 8) (st : Station) :
    streamOverflow (p.slots.get i) i st = if st.overflow = 0 then [] else [overflowOf p i st] := rfl

theorem stageTorn_eq {s : State} {pr : Profile} (hp : s.cmd.profile = some pr) (c : Claim) (reason : Nat) :
    stageTorn c reason (s.claimWords c) = tornOf pr (wordOf reason) c := by
  rw [claimWords_of_profile hp]
  rfl

/-- Every claim is torn, in the order of the table (R75, R76). -/
theorem tearReports_all {s : State} {pr : Profile} (hp : s.cmd.profile = some pr) (reason : Nat) :
    s.tearReports reason (fun _ => true) = s.claims.map (tornOf pr (wordOf reason)) := by
  rw [State.tearReports, List.filter_true]
  exact List.map_congr_left fun c _ => stageTorn_eq hp c reason

/-- The reports of the streams that STOP and hard fault entry end, a batch each (R39, R44). -/
theorem stopStreamReports_eq (s : State) (p : Profile) :
    s.stopStreamReports p = (slotNumbers.filter fun i => (p.slots.get i).enabled).flatMap fun i =>
      [if (s.view.get i).held = 0 then [] else [heldDroppedOf p i (s.view.get i)],
       if (s.view.get i).overflow = 0 then [] else [overflowOf p i (s.view.get i)]] := by
  rw [State.stopStreamReports, flatMap_enabledSlots]
  simp only [heldDropped_eq, streamOverflow_eq]

/-! ## The marking pass at hard fault entry (R143, R144) -/

/-- With cards to mark, the pass goes on in one of its phases. -/
theorem progressMarking_cards {s : State} {m : Marking} (hm : s.seq.marking = some m) (htodo : m.todo ≠ []) :
    s.progressMarking = { s with seq := { s.seq with
      marking := some { m with phase := if s.nextInit.isSome then m.phase else .cards } } } := by
  rw [State.progressMarking, hm]
  dsimp only
  split
  · rw [← hm]
  · rw [if_neg (by simpa using htodo)]

/-- The Ring Sequencer's registers may change before reports or after them, where H and HALTED stay. -/
theorem produceAll_withSeq (s : State) (q : Sequencer) (hhead : q.head = s.seq.head)
    (hhalted : q.tracking = .halted ↔ s.seq.tracking = .halted) (bs : List (List Content)) :
    ({ s with seq := q } : State).produceAll bs = { s.produceAll bs with seq := q } := by
  have hsame : SameReporting s { s with seq := q } := ⟨rfl, rfl, rfl, hhead, hhalted, rfl⟩
  have hquiet : { (s.produceAll bs).rep with quiet := s.rep.quiet } = (s.produceAll bs).rep := by
    obtain ⟨-, -, -, -, hquiet, -⟩ := sameUnit_produceAll s bs
    rw [← hquiet]
  rw [produceAll_after hsame, hquiet]
  conv_rhs => rw [produceAll_eq s bs]

/-- The marking pass can go on before the reports of its event or after them. -/
theorem progressMarking_produceAll {s : State} {m : Marking} (hm : s.seq.marking = some m) (htodo : m.todo ≠ [])
    (bs : List (List Content)) : (s.produceAll bs).progressMarking = s.progressMarking.produceAll bs := by
  have hnext : (s.produceAll bs).nextInit = s.nextInit := by simp [State.nextInit]
  have hseq : (s.produceAll bs).seq = s.seq := by simp
  rw [progressMarking_cards hm htodo, progressMarking_cards (hseq.symm ▸ hm) htodo, hnext, hseq]
  refine (produceAll_withSeq s _ ?_ ?_ bs).symm
  · rfl
  · exact Iff.rfl

/-- The frames to mark are those that exist between the discharge position and H (R143). -/
theorem mem_markingFrames {s : State} {pr : Profile} (hring : s.seq.ringValid = true) (f : Nat) :
    f ∈ s.markingFrames pr ↔ s.seq.firstFrame ≤ f ∧ f ≤ s.seq.head ∧ s.seq.head ≤ f + pr.dischargeOffset := by
  rw [State.markingFrames, if_pos hring]
  simp only [List.mem_filterMap, List.mem_range, frameAtOffset]
  constructor
  · rintro ⟨n, hn, h⟩
    split at h
    · cases h
      omega
    · cases h
  · rintro ⟨hfirst, hhead, hoffset⟩
    refine ⟨pr.dischargeOffset - (s.seq.head - f), by omega, ?_⟩
    rw [if_pos (by omega)]
    exact congrArg some (by omega)

/-- With a used card, H is among what there is to mark. -/
theorem markingCards_ne_nil {s : State} {pr : Profile} (hring : s.seq.ringValid = true) (hfirst : s.seq.firstFrame ≤ s.seq.head)
    (hcards : usedCards pr ≠ []) : markingCards pr (s.markingFrames pr) ≠ [] := by
  have hhead : s.seq.head ∈ s.markingFrames pr := (mem_markingFrames hring _).mpr ⟨hfirst, le_rfl, by omega⟩
  obtain ⟨c, hc⟩ := List.exists_mem_of_ne_nil _ hcards
  refine List.ne_nil_of_mem (a := (s.seq.head, c)) ?_
  rw [markingCards, List.mem_flatMap]
  exact ⟨_, hhead, List.mem_map_of_mem hc⟩

theorem get_allDisarmed (i : Fin 8) : allDisarmed.get i = .disarmed := by fin_cases i <;> rfl

/-- How START FRESH ends depends on the Command Unit alone. -/
theorem endStart_cmd_congr {s t : State} (h : t.cmd = s.cmd) (code : OutcomeCode) (detail : BitVec 16) :
    (t.endStart code detail).cmd = (s.endStart code detail).cmd := by
  rw [State.endStart, State.endStart, h]
  cases s.cmd.running with
  | none => exact h
  | some r =>
    cases r with
    | apply tag => exact h
    | startFresh tag => rfl

/-! ## INDEX_OVERRUN (R97, R99) -/

/-- An index that finds another one waiting, or H at its largest, is the fault INDEX_OVERRUN. -/
theorem takeIndex_overrun {s : State} {pr : Profile} (hp : s.cmd.profile = some pr)
    (h : s.seq.tracking = .advancing ∧ s.seq.pendingIndex = 1 ∨ s.seq.tracking = .running ∧ s.seq.head = 4294967295) :
    s.takeIndex = s.fault overrunSignal [] := by
  obtain ⟨htracking, hindex⟩ | ⟨htracking, hhead⟩ := h
  · rw [State.takeIndex, htracking]
    exact if_neg (by omega)
  · rw [State.takeIndex, htracking]
    dsimp only
    rw [State.acceptAdvance, hp]
    exact if_pos hhead

/-- Every block at INDEX_OVERRUN, before the reports. -/
def State.overrun (s : State) (pr : Profile) : State := (s.faultCounted.faultEntered pr .indexOverrun).progressMarking

/-- The reports of INDEX_OVERRUN. -/
def State.overrunReports (s : State) (pr : Profile) : List (List Content) := s.faultCounted.faultReports pr overrunSignal

section Overrun

variable {s : State} {pr : Profile}

theorem overrun_cards (hring : s.seq.ringValid = true) (hfirst : s.seq.firstFrame ≤ s.seq.head) (hcards : usedCards pr ≠ []) :
    (s.faultCounted.faultEntered pr .indexOverrun).seq.marking =
      some { frames := s.markingFrames pr, phase := .initialising, todo := markingCards pr (s.markingFrames pr) } ∧
    markingCards pr (s.markingFrames pr) ≠ [] := by
  refine ⟨?_, markingCards_ne_nil hring hfirst hcards⟩
  simp [State.enterMarking, State.faultCounted, State.markingFrames]

/-- INDEX_OVERRUN with cards to mark: the event at every block, and its reports. -/
theorem fault_overrun (hp : s.cmd.profile = some pr) (hactive : s.seq.tracking = .running ∨ s.seq.tracking = .advancing)
    (hring : s.seq.ringValid = true) (hfirst : s.seq.firstFrame ≤ s.seq.head) (hcards : usedCards pr ≠ []) :
    s.fault overrunSignal [] = (s.overrun pr).produceAll (s.overrunReports pr) := by
  obtain ⟨hmarking, htodo⟩ := overrun_cards hring hfirst hcards
  rw [fault_hard hp hactive, hardFault_eq, List.append_nil]
  exact progressMarking_produceAll hmarking htodo _

/-- The Ring Sequencer at INDEX_OVERRUN (R142, R143). -/
theorem overrun_seq (hring : s.seq.ringValid = true) (hfirst : s.seq.firstFrame ≤ s.seq.head) (hcards : usedCards pr ≠ []) :
    ∃ phase, (s.overrun pr).seq = { s.seq with
      tracking := .marking, advance := none, pendingIndex := 0, faultCause := some .indexOverrun
      faultCount := min (s.seq.faultCount + 1) 65535
      marking := some { frames := s.markingFrames pr, phase := phase, todo := markingCards pr (s.markingFrames pr) } } := by
  obtain ⟨hmarking, htodo⟩ := overrun_cards hring hfirst hcards
  obtain ⟨phase, hphase⟩ : ∃ phase, (s.overrun pr).seq = { (s.faultCounted.faultEntered pr .indexOverrun).seq with
      marking := some { frames := s.markingFrames pr, phase := phase, todo := markingCards pr (s.markingFrames pr) } } :=
    ⟨_, congrArg State.seq (progressMarking_cards hmarking htodo)⟩
  refine ⟨phase, hphase.trans ?_⟩
  simp only [faultEntered_fields]
  rfl

/-- The other blocks at INDEX_OVERRUN. -/
theorem overrun_fields (s : State) (pr : Profile) :
    (s.overrun pr).mem = s.mem ∧ (s.overrun pr).psel = s.psel ∧ (s.overrun pr).inReset = s.inReset ∧
    (s.overrun pr).claims = [] ∧ (s.overrun pr).time = s.time.cleared ∧ (s.overrun pr).disch = s.disch ∧
    (s.overrun pr).rep = s.rep ∧ (s.overrun pr).choices = s.choices ∧
    (s.overrun pr).cmd = (s.endStart .wrongState 4).cmd ∧
    (∀ q, (s.overrun pr).port q = s.portWithoutViews q) ∧
    ∀ i, (s.overrun pr).view.get i =
      if (pr.slots.get i).enabled then { ((s.view.get i).onFrame none) with held := 0, overflow := 0 }
      else s.view.get i := by
  have hcmd : (s.overrun pr).cmd = (s.endStart .wrongState 4).cmd := by
    simp only [State.overrun, progressMarking_fields, faultEntered_cmd, endStartAtFault_eq]
    exact endStart_cmd_congr (s := s) (t := s.faultCounted) rfl _ _
  have hport (q : Port) : (s.overrun pr).port q = s.portWithoutViews q := by
    simp only [State.overrun, progressMarking_port, faultEntered_port]
    exact portWithoutViews_congr (by cases q <;> rfl) rfl rfl
  have hview (i : Fin 8) := faultEntered_view s.faultCounted pr .indexOverrun i
  simp only [faultCounted_fields] at hview
  exact ⟨by simp [State.overrun], by simp [State.overrun], by simp [State.overrun], by simp [State.overrun],
    by simp [State.overrun], by simp [State.overrun], by simp [State.overrun], by simp [State.overrun], hcmd, hport,
    by simpa only [State.overrun, progressMarking_fields] using hview⟩

/-- The reports of INDEX_OVERRUN, field by field (R39, R44, R75, R94, R142). -/
theorem overrunReports_eq (hp : s.cmd.profile = some pr) :
    s.overrunReports pr =
      [faultReport s.faultCounted overrunSignal] :: s.claims.map (tornOf pr 6) ::
        abandoned .a (s.viewEntries .a) 0 3 :: abandoned .b (s.viewEntries .b) 0 3 ::
        (slotNumbers.filter fun i => (pr.slots.get i).enabled).flatMap fun i =>
          [if (s.view.get i).held = 0 then [] else [heldDroppedOf pr i (s.view.get i)],
           if (s.view.get i).overflow = 0 then [] else [overflowOf pr i (s.view.get i)]] := by
  rw [State.overrunReports, State.faultReports, tearReports_all (s := s.faultCounted) hp, stopStreamReports_eq]
  rfl

theorem stageNumber_eq (x : Option Advance) :
    stageNumber x = match x.map Advance.stage with
      | none => 0
      | some .initialising => 1
      | some .checking => 2
      | some .judging => 3 := by
  cases x with
  | none => rfl
  | some v =>
    simp only [stageNumber, Option.map_some]
    cases v.stage <;> rfl

/-- FAULT of INDEX_OVERRUN (R142). -/
theorem faultReport_overrun (s : State) :
    faultReport s.faultCounted overrunSignal =
      { kind := .fault, source := .sequencer, frame := s.seq.head, lane := 0
        row := (match s.seq.advance.map Advance.stage with
          | none => 0
          | some .initialising => 1
          | some .checking => 2
          | some .judging => 3)
        count := min (s.seq.faultCount + 1) 65535, detail := 1, data := 0 } := by
  rw [← stageNumber_eq]
  rfl

end Overrun

/-- Settles O53: the index is the fault, hard fault entry comes before its reports, and the marking pass has cards. -/
theorem indexOverrunEntersMarking : Obligations.IndexOverrunEntersMarking := by
  intro s pr hreset hwhen hp hring hfirst hcards fault notBegun discards held overflows slots
  have hactive : s.seq.tracking = .running ∨ s.seq.tracking = .advancing :=
    hwhen.elim (fun h => .inr h.1) fun h => .inl h.1
  have hexec := exec_indexArrival hreset
  rw [takeIndex_overrun hp hwhen, fault_overrun hp hactive hring hfirst hcards, overrunReports_eq hp] at hexec
  rw [faultReport_overrun] at hexec
  obtain ⟨phase, hseq⟩ := overrun_seq hring hfirst hcards
  obtain ⟨hmem, hpsel, hinReset, hclaims, htime, hdisch, hrep, hchoices, hcmd, hport, hview⟩ := overrun_fields s pr
  refine ⟨_, s.overrun pr, hexec, rfl, hrep, hchoices, ?_⟩
  simp only [settle_fields, produceAll_fields, settle_port, port_produceAll, hseq, hmem, hpsel, hinReset, hclaims, htime,
    hdisch, hcmd, hport, hview, SameMemory, queue_portWithoutViews]
  refine ⟨trivial, trivial, trivial, rfl, ⟨trivial, trivial, trivial⟩, trivial, trivial, trivial, trivial, trivial, trivial,
    trivial, trivial, trivial, trivial, ?_⟩
  refine ⟨⟨_, rfl, mem_markingFrames hring⟩, trivial, fun p hp => ?_, fun p hp => ?_, fun p g hg hr => ?_,
    fun p g hg hr => ?_, fun p b hb => ?_, fun tag htag => ?_, fun hidle => ?_, trivial, fun i hi => ?_, fun i hi => ?_,
    fun i => ?_, rfl, rfl, ?_, ?_⟩
  · simp [hp, begunPart, Machine.notBegun]
  · simp [hp, begunPart, Machine.notBegun]
  · obtain ⟨hview, -, -⟩ := pending_portWithoutViews s p
    exact hview g hg hr
  · obtain ⟨-, hview, -⟩ := pending_portWithoutViews s p
    exact hview g hg hr
  · obtain ⟨-, -, hplain⟩ := pending_portWithoutViews s p
    exact hplain b hb
  · exact endStart_running htag _ _
  · rw [endStart_idle hidle]
  · rw [if_pos hi]
    exact ⟨rfl, rfl, rfl, rfl⟩
  · exact if_neg (by simp [hi])
  · exact get_allDisarmed i
  · exact rej_settle (.inl (by simp [hseq]))
  · rw [(settle_pins none s _).1]
    simp [State.pinLevels, State.holdLevel, hseq]

end Sys2Proof.Machine
end

