-- ==== Sys2Proof/Proofs/CommandRulings.lean ====
section
/-! PROOF. The rows of the command word, and the rulings of R130 that take no command (R129 to R131, R137). -/

namespace Sys2Proof.Machine

/-! ## The rows of the command word (R86, 11.2) -/

/-- The rows of the command word, the one of a code 0 among them. -/
def ProfileRow.ofCommandWord (row : ProfileRow) : Bool :=
  match row with
  | .plain => false
  | .readPointer => false
  | .quietExtend => false
  | _ => true

/-- The row of the command word says what its value's code is. -/
theorem commandRow_none_iff (v : Word) : commandRow v = .none ↔ commandCode v = 0 := by
  unfold commandRow
  constructor
  · intro h
    split at h
    · cases h
    · split at h <;> cases h
    · cases h
    · cases h
    · cases h
    · split at h
      · assumption
      · cases h
  · intro h
    rw [h]
    rfl

theorem commandRow_start (v : Word) :
    (commandRow v = .startCarry → (commandParameter v).toNat = 2) ∧
    (commandRow v = .startFresh → (commandParameter v).toNat ≠ 2) := by
  unfold commandRow
  split
  · exact ⟨nofun, nofun⟩
  · split
    · next h => exact ⟨fun _ => h, nofun⟩
    · next h => exact ⟨nofun, fun _ => h⟩
  · exact ⟨nofun, nofun⟩
  · exact ⟨nofun, nofun⟩
  · exact ⟨nofun, nofun⟩
  · split <;> exact ⟨nofun, nofun⟩

section Row

variable {s : State} {p : Port} {a : Nat} {data v : Word} {enables : Enables} {rest : List Entry} {row : ProfileRow}

/-- Only a write of the command word is in a row of the command word. -/
theorem profileRow_commandWord (h : s.profileRow a data enables = row) (hrow : row.ofCommandWord = true) :
    a = s.blockWord 0 ∧ commandRow (leftInMemory s.mem a enables data) = row := by
  rw [State.profileRow] at h
  split at h
  · next ha => exact ⟨ha, h⟩
  · split at h
    · rw [← h] at hrow
      cases hrow
    · split at h <;> (rw [← h] at hrow; cases hrow)

/-- A performed write of the command word hands its value over. -/
theorem runProfile_commandWord (h : WritesRow s p a data enables rest row v) (hrow : row.ofCommandWord = true) :
    commandRow v = row ∧
    s.runProfile p (.whole none) row = .next (State.settle none s ((s.rowPerformed p a v).takeCommand v)) := by
  have hrun := runProfile_whole h
  obtain ⟨-, -, hprofile, rfl⟩ := h
  obtain ⟨ha, hcommand⟩ := profileRow_commandWord hprofile hrow
  rw [State.handOver, if_pos (ha.trans (rowPerformed_blockWord s p _ _ 0).symm)] at hrun
  exact ⟨hcommand, hrun⟩

/-- The command of a row performs a write in that row. -/
theorem exec_commandOfRow {i : Instr} (h : commandOfRow row p = some i) :
    row.ofCommandWord = true ∧ row ≠ .none ∧ exec i s = s.runProfile p (.whole none) row := by
  cases row <;> cases h <;> exact ⟨rfl, by decide, rfl⟩

/-- The tracking states of a row are those of its command (R130). -/
theorem allowed_of_row {c : Command} {t : Tracking} (hrow : row.command = some c) : c.allowed t = true ↔ rowAllowedIn row t := by
  cases row <;> cases hrow <;> simp [Command.allowed, rowAllowedIn]

end Row

/-! ## Rulings without effect (R130) -/

section Ruling

variable {s : State} {v : Word}

/-- A code 0 is no command (R129). -/
theorem takeCommand_none (hcode : commandCode v = 0) : s.takeCommand v = s := if_pos (.inr hcode)

/-- Outside HALTED a code other than 0 is ruled on. -/
theorem takeCommand_refused {code : OutcomeCode} {detail : BitVec 16} (hcode : commandCode v ≠ 0)
    (hhalted : s.seq.tracking ≠ .halted) (hrule : s.rule v = .refused code detail) :
    s.takeCommand v = s.produceOutcome { tag := commandTag v, code := code, detail := detail } := by
  rw [State.takeCommand, if_neg (by simp [hcode, hhalted]), hrule]

/-- With a command in progress every other one is refused BUSY. -/
theorem rule_running {r : RunningCommand} (h : s.cmd.running = some r) :
    s.rule v = .refused .busy (BitVec.ofNat 16 (runningCode r)) := by rw [State.rule, h]

theorem rule_idle (h : s.cmd.running = none) : s.rule v = s.ruleIdle v := by rw [State.rule, h]

theorem ruleIdle_unknown (h : commandOf (commandCode v) = none) :
    s.ruleIdle v = .refused .unknownCommand (BitVec.ofNat 16 (commandCode v)) := by rw [State.ruleIdle, h]

/-- STOP is refused BUSY while an advance runs. -/
theorem ruleIdle_stop (h : commandOf (commandCode v) = some .stop) (hadvancing : s.seq.tracking = .advancing) :
    s.ruleIdle v = .refused .busy 0 := by
  rw [State.ruleIdle, h]
  exact if_pos ⟨rfl, hadvancing⟩

theorem ruleIdle_wrongState {c : Command} (h : commandOf (commandCode v) = some c) (hstop : ¬(c = .stop ∧ s.seq.tracking = .advancing))
    (hallowed : c.allowed s.seq.tracking = false) :
    s.ruleIdle v = .refused .wrongState (BitVec.ofNat 16 (trackingCode s.seq.tracking)) := by
  rw [State.ruleIdle, h]
  dsimp only
  rw [if_neg hstop, hallowed]
  rfl

end Ruling

/-! ## What an outcome leaves (R131) -/

section Outcome

variable {s : State} {p : Port} {a : Nat} {data v : Word} {enables : Enables} {rest : List Entry} {row : ProfileRow}
  {i : Instr}

/-- A command that is refused with an outcome other than BUSY leaves its outcome alone. -/
theorem exec_refused {code : OutcomeCode} {detail : BitVec 16} (hexec : exec i s = s.runProfile p (.whole none) row)
    (h : WritesRow s p a data enables rest row v) (hrow : row.ofCommandWord = true) (hnone : row ≠ .none)
    (hhalted : s.seq.tracking ≠ .halted) (hcode : code ≠ .busy)
    (hrule : (s.rowPerformed p a v).rule v = .refused code detail) :
    ∃ t, exec i s = .next t ∧ RowWritten s t p a rest v ∧
      OnlyResult s t { tag := commandTag v, code := code, detail := detail } := by
  obtain ⟨hcommand, hrun⟩ := runProfile_commandWord h hrow
  have hzero : commandCode v ≠ 0 := fun h0 => hnone (hcommand ▸ (commandRow_none_iff v).mpr h0)
  obtain ⟨hqueue, -, -, -⟩ := h
  rw [takeCommand_refused hzero (by simpa using hhalted) hrule, State.produceOutcome, if_neg hcode] at hrun
  refine ⟨_, hexec.trans hrun, rowWritten_settle hqueue (by simp [SameMemory]) (by simp [SamePorts]), by simp, by simp,
    by simp, by simp, by simp, by simp, sameReportRegisters_settle (by simpa using SameUnit.refl _)⟩

/-- A command that is refused BUSY leaves its outcome alone. -/
theorem exec_busy {detail : BitVec 16} (hexec : exec i s = s.runProfile p (.whole none) row)
    (h : WritesRow s p a data enables rest row v) (hrow : row.ofCommandWord = true) (hnone : row ≠ .none)
    (hhalted : s.seq.tracking ≠ .halted) (hrule : (s.rowPerformed p a v).rule v = .refused .busy detail) :
    ∃ t, exec i s = .next t ∧ RowWritten s t p a rest v ∧
      OnlyBusy s t { tag := commandTag v, code := .busy, detail := detail } := by
  obtain ⟨hcommand, hrun⟩ := runProfile_commandWord h hrow
  have hzero : commandCode v ≠ 0 := fun h0 => hnone (hcommand ▸ (commandRow_none_iff v).mpr h0)
  obtain ⟨hqueue, -, -, -⟩ := h
  rw [takeCommand_refused hzero (by simpa using hhalted) hrule, State.produceOutcome, if_pos rfl] at hrun
  refine ⟨_, hexec.trans hrun, rowWritten_settle hqueue (by simp [SameMemory]) (by simp [SamePorts]), by simp, by simp,
    by simp, by simp, by simp, by simp, sameReportRegisters_settle (by simpa using SameUnit.refl _)⟩

/-- A command word that is not ruled on is written and no more. -/
theorem exec_ignored (hexec : exec i s = s.runProfile p (.whole none) row) (h : WritesRow s p a data enables rest row v)
    (hrow : row.ofCommandWord = true) (hignored : (s.rowPerformed p a v).takeCommand v = s.rowPerformed p a v) :
    ∃ t, exec i s = .next t ∧ RowWritten s t p a rest v ∧ SameInner s t ∧ SameReportRegisters s t := by
  obtain ⟨-, hrun⟩ := runProfile_commandWord h hrow
  obtain ⟨hqueue, -, -, -⟩ := h
  rw [hignored] at hrun
  exact ⟨_, hexec.trans hrun, rowWritten_settle hqueue (by simp [SameMemory]) (by simp [SamePorts]),
    by simp [SameInner], sameReportRegisters_settle (by simpa using SameUnit.refl _)⟩

end Outcome

/-- A row whose command is not allowed in the tracking state names a command. -/
theorem command_of_not_allowed {row : ProfileRow} {t : Tracking} (hword : row.ofCommandWord = true) (h : ¬rowAllowedIn row t) :
    ∃ c, row.command = some c := by
  cases row <;> simp_all [ProfileRow.command, rowAllowedIn, ProfileRow.ofCommandWord]

/-- START FRESH is refused with a parameter other than FRESH or with H at its largest (R130, R137). -/
theorem ruleIdle_startFresh {s : State} {v : Word} (hrow : commandRow v = .startFresh) (hidle : s.seq.tracking = .idle)
    (hinvalid : (commandParameter v).toNat ≠ 1 ∨ s.seq.head = 4294967295) :
    s.ruleIdle v = .refused .invalidParameter (commandParameter v) := by
  have hcode : commandOf (commandCode v) = some .start := by
    rw [← command_commandRow, hrow]
    rfl
  obtain ⟨-, hcarry⟩ := commandRow_start v
  have hvalid : s.validParameter .start (commandParameter v).toNat = false := by
    have hfresh : ¬((commandParameter v).toNat = paramFresh ∧ s.seq.head < Config.maxWord) := by
      rintro ⟨hparam, hhead⟩
      obtain h | h := hinvalid
      · exact h hparam
      · exact absurd hhead (by rw [h]; decide)
    have hcarried : (commandParameter v).toNat ≠ paramCarry := hcarry hrow
    simp only [State.validParameter, Bool.or_eq_false_iff, Bool.and_eq_false_iff, decide_eq_false_iff_not]
    exact ⟨not_and_or.mp hfresh, .inl hcarried⟩
  rw [State.ruleIdle, hcode]
  dsimp only
  rw [if_neg (by simp), hidle, if_neg (by decide), hvalid]
  rfl

/-- Settles O47, by the lines of R130. -/
theorem commandsWithoutEffect : Obligations.CommandsWithoutEffect := by
  intro p a data v enables rest s
  refine ⟨fun row i hi h => ?rows, fun h hrunning hhalted => ?unknown, fun h => ?none, fun h hrunning hadvancing => ?stop,
    fun h hrunning hidle hinvalid => ?fresh⟩
  case rows =>
    obtain ⟨hword, hnone, hexec⟩ := exec_commandOfRow (s := s) hi
    obtain ⟨hcommand, -⟩ := runProfile_commandWord h hword
    refine ⟨fun hhalted => ?_, fun r hhalted hrunning => ?_, fun hrunning hhalted hallowed hstop => ?_⟩
    · exact exec_ignored hexec h hword (takeCommand_halted v (by simpa using hhalted))
    · exact exec_busy hexec h hword hnone hhalted (rule_running (by simpa using hrunning))
    · obtain ⟨c, hc⟩ := command_of_not_allowed hword hallowed
      have hcode : commandOf (commandCode v) = some c := by rw [← command_commandRow, hcommand, hc]
      have hrefused : c.allowed s.seq.tracking = false :=
        Bool.eq_false_iff.mpr fun h => hallowed ((allowed_of_row hc).mp h)
      have hother : ¬(c = .stop ∧ s.seq.tracking = .advancing) := by
        rintro ⟨rfl, hadvancing⟩
        refine hstop ⟨?_, hadvancing⟩
        revert hc
        cases row <;> simp [ProfileRow.command]
      have hruling := ruleIdle_wrongState (s := s.rowPerformed p a v) hcode (by simpa using hother) (by simpa using hrefused)
      rw [← rule_idle (s := s.rowPerformed p a v) (by simpa using hrunning)] at hruling
      simpa only [rowPerformed_fields] using
        exec_refused (code := .wrongState) hexec h hword hnone hhalted (by decide) hruling
  case unknown =>
    obtain ⟨hcommand, -⟩ := runProfile_commandWord h rfl
    have hcode : commandOf (commandCode v) = none := by rw [← command_commandRow, hcommand]; rfl
    exact exec_refused (code := .unknownCommand) rfl h rfl (by decide) hhalted (by decide)
      ((rule_idle (by simpa using hrunning)).trans (ruleIdle_unknown hcode))
  case none =>
    obtain ⟨hcommand, -⟩ := runProfile_commandWord h rfl
    exact exec_ignored rfl h rfl (takeCommand_none ((commandRow_none_iff v).mp hcommand))
  case stop =>
    obtain ⟨hcommand, -⟩ := runProfile_commandWord h rfl
    have hcode : commandOf (commandCode v) = some .stop := by rw [← command_commandRow, hcommand]; rfl
    exact exec_busy rfl h rfl (by decide) (by rw [hadvancing]; decide)
      ((rule_idle (by simpa using hrunning)).trans (ruleIdle_stop hcode (by simpa using hadvancing)))
  case fresh =>
    obtain ⟨hcommand, -⟩ := runProfile_commandWord h rfl
    exact exec_refused (code := .invalidParameter) rfl h rfl (by decide) (by rw [hidle]; decide) (by decide)
      ((rule_idle (by simpa using hrunning)).trans
        (ruleIdle_startFresh hcommand (by simpa using hidle) (by simpa using hinvalid)))

end Sys2Proof.Machine
end

