-- ==== Sys2Proof/Proofs/StartStop.lean ====
section
/-! PROOF. START FRESH, START CARRY and STOP that are taken (R18, R46, R112, R130, R137 to R139). -/

namespace Sys2Proof.Machine

/-! ## Current frames and deadlines (R18, R46, R112) -/

section Deadlines

variable {s : State} {pr : Profile} {i : Fin 8}

/-- A deadline is armed for the slot's current frame (R112). -/
theorem armDeadlines_armed {f : Nat} (hi : (pr.slots.get i).enabled = true) (hf : (s.view.get i).currentFrame = some f)
    (hd : (pr.slots.get i).deadline ≠ 0) :
    (s.armDeadlines pr).time.deadlines.get i = .armed f (s.time.counter + wordOf (pr.slots.get i).deadline) := by
  refine (get_make _ i).trans ?_
  rw [hi, hf]
  exact if_neg hd

/-- No deadline is armed for a slot without a deadline, without a current frame, or not enabled (R112). -/
theorem armDeadlines_disarmed
    (h : (pr.slots.get i).enabled = false ∨ (s.view.get i).currentFrame = none ∨ (pr.slots.get i).deadline = 0) :
    (s.armDeadlines pr).time.deadlines.get i = .disarmed := by
  refine (get_make _ i).trans ?_
  cases hi : (pr.slots.get i).enabled with
  | false => cases (s.view.get i).currentFrame <;> rfl
  | true =>
    cases hf : (s.view.get i).currentFrame with
    | none => rfl
    | some f =>
      have hd : (pr.slots.get i).deadline = 0 := by simpa [hi, hf] using h
      exact if_pos hd

theorem armDeadlines_time (s : State) (pr : Profile) :
    (s.armDeadlines pr).time = { s.time with deadlines := (s.armDeadlines pr).time.deadlines } := rfl

/-- At a START the station of an enabled slot goes to the frame at its offset (R46). -/
theorem startViews_get (hi : (pr.slots.get i).enabled = true) :
    (s.startViews pr).view.get i =
      (s.view.get i).onFrame (frameAtOffset s.seq.head s.seq.firstFrame (pr.slots.get i).offset) := by
  rw [State.startViews, mapStations_view, if_pos hi]

theorem startViews_get_disabled (hi : (pr.slots.get i).enabled = false) : (s.startViews pr).view.get i = s.view.get i := by
  rw [State.startViews, mapStations_view, if_neg (by simp [hi])]

end Deadlines

@[simp] theorem startViews_fields (s : State) (p : Profile) :
    (s.startViews p).mem = s.mem ∧ (s.startViews p).psel = s.psel ∧ (s.startViews p).inReset = s.inReset ∧
    (s.startViews p).portA = s.portA ∧ (s.startViews p).portB = s.portB ∧ (s.startViews p).claims = s.claims ∧
    (s.startViews p).arb = s.arb ∧ (s.startViews p).seq = s.seq ∧ (s.startViews p).time = s.time ∧
    (s.startViews p).disch = s.disch ∧ (s.startViews p).cmd = s.cmd ∧ (s.startViews p).rep = s.rep ∧
    (s.startViews p).pins = s.pins ∧ (s.startViews p).choices = s.choices ∧
    (s.startViews p).pending = s.pending := mapStations_fields s p _

theorem frameAtOffset_some {head first offset : Nat} (h : first + offset ≤ head) :
    frameAtOffset head first offset = some (head - offset) := if_pos h

theorem frameAtOffset_none {head first offset : Nat} (h : head < first + offset) :
    frameAtOffset head first offset = none := if_neg (by omega)

/-! ## START FRESH (R137) -/

section Start

variable {s : State} {v : Word} {pr : Profile}

/-- START is allowed in IDLE (R130). -/
theorem takeCommand_start (hcode : commandOf (commandCode v) = some .start) (hrunning : s.cmd.running = none)
    (hidle : s.seq.tracking = .idle) :
    s.takeCommand v =
      if s.validParameter .start (commandParameter v).toNat then s.runCommand .start (commandTag v) (commandParameter v).toNat
      else s.produceResult { tag := commandTag v, code := .invalidParameter, detail := commandParameter v } :=
  takeCommand_allowed hcode hrunning (by rw [hidle]; rfl)

theorem code_of_row {row : ProfileRow} {c : Command} (hrow : commandRow v = row) (hc : row.command = some c) :
    commandOf (commandCode v) = some c := by rw [← command_commandRow, hrow, hc]

/-- START FRESH that is taken (R137). -/
theorem takeCommand_startFresh (hrow : commandRow v = .startFresh) (hrunning : s.cmd.running = none)
    (hidle : s.seq.tracking = .idle) (hp : s.cmd.profile = some pr) (hparam : (commandParameter v).toNat = 1)
    (hhead : s.seq.head < 4294967295) :
    s.takeCommand v = ((s.beginStart (commandTag v)).startViews pr).armDeadlines pr := by
  have hvalid : s.validParameter .start 1 = true := by
    simp only [State.validParameter, Bool.or_eq_true, Bool.and_eq_true, decide_eq_true_eq]
    exact .inl ⟨rfl, hhead⟩
  rw [takeCommand_start (code_of_row hrow rfl) hrunning hidle, hparam, if_pos hvalid]
  show s.takeStartFresh (commandTag v) = _
  rw [State.takeStartFresh, hp]

/-- START CARRY that is taken (R138). -/
theorem takeCommand_startCarry (hrow : commandRow v = .startCarry) (hrunning : s.cmd.running = none)
    (hidle : s.seq.tracking = .idle) (hp : s.cmd.profile = some pr) (hring : s.seq.ringValid = true) :
    s.takeCommand v =
      ((({ s with seq := { s.seq with tracking := .running } } : State).startViews pr).armDeadlines pr).done (commandTag v) := by
  obtain ⟨hcarry, -⟩ := commandRow_start v
  have hvalid : s.validParameter .start 2 = true := by
    simp only [State.validParameter, Bool.or_eq_true, Bool.and_eq_true, decide_eq_true_eq]
    exact .inr ⟨rfl, hring⟩
  rw [takeCommand_start (code_of_row hrow rfl) hrunning hidle, hcarry hrow, if_pos hvalid]
  show s.takeStartCarry (commandTag v) = _
  rw [State.takeStartCarry, hp]

/-- START CARRY is refused without a ring to carry (R130, R138). -/
theorem takeCommand_startCarry_refused (hrow : commandRow v = .startCarry) (hrunning : s.cmd.running = none)
    (hidle : s.seq.tracking = .idle) (hring : s.seq.ringValid = false) :
    s.takeCommand v = s.produceResult { tag := commandTag v, code := .invalidParameter, detail := 2 } := by
  obtain ⟨hcarry, -⟩ := commandRow_start v
  have hparam : commandParameter v = 2 := BitVec.eq_of_toNat_eq (hcarry hrow)
  have hvalid : s.validParameter .start 2 = false := by simp [State.validParameter, hring, paramFresh]
  rw [takeCommand_start (code_of_row hrow rfl) hrunning hidle, hparam]
  exact if_neg (by simpa using hvalid)

end Start

/-- Settles O42: the ring begins anew at H + 1, and the views and deadlines follow it. -/
theorem startFreshTaken : Obligations.StartFreshTaken := by
  intro p a data v enables rest s pr h hrunning hidle hp hparam hhead
  obtain ⟨hcommand, hexec⟩ := runProfile_commandWord h rfl
  obtain ⟨hqueue, -, -, -⟩ := h
  rw [takeCommand_startFresh hcommand (by simpa using hrunning) (by simpa using hidle) (by simpa using hp) hparam
    (by simpa using hhead)] at hexec
  refine ⟨_, hexec, rowWritten_settle hqueue (by simp [SameMemory, State.beginStart]) (by simp [SamePorts, State.beginStart]),
    by simp [State.beginStart], by simp [State.beginStart], fun i hi hoffset => ?current, fun i hi hoffset => ?none,
    by simp [State.beginStart], by simp [State.beginStart],
    sameReportRegisters_settle (by simpa [State.beginStart] using SameUnit.refl _)⟩
  case current =>
    have hview : (((s.rowPerformed p a v).beginStart (commandTag v)).startViews pr).view.get i =
        (s.view.get i).onFrame (some (s.seq.head + 1)) := by
      rw [startViews_get hi, hoffset, frameAtOffset_some (by simp [State.beginStart])]
      simp [State.beginStart]
    simp only [settle_fields, armDeadlines_fields]
    rw [hview]
    refine ⟨rfl, rfl, fun hd => ?_⟩
    rw [armDeadlines_armed hi (congrArg Station.currentFrame hview) hd]
    simp [State.beginStart]
  case none =>
    have hview : (((s.rowPerformed p a v).beginStart (commandTag v)).startViews pr).view.get i =
        (s.view.get i).onFrame none := by
      rw [startViews_get hi, frameAtOffset_none (by simp [State.beginStart]; omega)]
      simp [State.beginStart]
    simp only [settle_fields, armDeadlines_fields]
    rw [hview, armDeadlines_disarmed (.inr (.inl (congrArg Station.currentFrame hview)))]
    exact ⟨rfl, rfl, rfl⟩

/-- Settles O43: with a valid ring its views and deadlines are taken up, without one the parameter is refused. -/
theorem startCarryTaken : Obligations.StartCarryTaken := by
  intro p a data v enables rest s pr h hrunning hidle hp
  obtain ⟨hcommand, hexec⟩ := runProfile_commandWord h rfl
  obtain ⟨hqueue, -, -, -⟩ := h
  cases hring : s.seq.ringValid with
  | true =>
    rw [takeCommand_startCarry hcommand (by simpa using hrunning) (by simpa using hidle) (by simpa using hp)
      (by simpa using hring)] at hexec
    refine ⟨_, hexec, rowWritten_settle hqueue (by simp [SameMemory, State.done]) (by simp [SamePorts, State.done]),
      by simp [State.done], by simp [State.done], sameReportRegisters_settle (by simpa [State.done] using SameUnit.refl _),
      fun _ => ⟨by simp [State.done], by simp [State.done], ?time, fun i hi => ?disabled, fun i hi => ⟨fun hle => ?current,
        fun hlt => ?none⟩⟩, nofun⟩
    case time =>
      simp only [settle_fields, State.done, produceResult_fields]
      rw [armDeadlines_time]
      simp
    case disabled =>
      simp only [settle_fields, State.done, produceResult_fields, armDeadlines_fields]
      rw [startViews_get_disabled hi, armDeadlines_disarmed (.inl hi)]
      simp
    case current =>
      have hview := startViews_get (s := { s.rowPerformed p a v with seq := { s.seq with tracking := .running } }) hi
      rw [frameAtOffset_some hle] at hview
      simp only [settle_fields, State.done, produceResult_fields, armDeadlines_fields, rowPerformed_fields] at hview ⊢
      rw [hview]
      refine ⟨rfl, fun hd => armDeadlines_disarmed (.inr (.inr hd)), fun hd => ?_⟩
      rw [armDeadlines_armed hi (congrArg Station.currentFrame hview) hd]
      simp
    case none =>
      have hview := startViews_get (s := { s.rowPerformed p a v with seq := { s.seq with tracking := .running } }) hi
      rw [frameAtOffset_none hlt] at hview
      simp only [settle_fields, State.done, produceResult_fields, armDeadlines_fields, rowPerformed_fields] at hview ⊢
      rw [hview]
      exact ⟨rfl, armDeadlines_disarmed (.inr (.inl (congrArg Station.currentFrame hview)))⟩
  | false =>
    rw [takeCommand_startCarry_refused hcommand (by simpa using hrunning) (by simpa using hidle)
      (by simpa using hring)] at hexec
    exact ⟨_, hexec, rowWritten_settle hqueue (by simp [SameMemory]) (by simp [SamePorts]), by simp, by simp,
      sameReportRegisters_settle (by simpa using SameUnit.refl _), nofun, fun _ => by simp⟩

/-! ## STOP (R139) -/

/-- Every block at the take of STOP, before the reports. -/
def State.stopped (s : State) (p : Profile) (tag : Byte) : State :=
  let s1 := ({ s with seq := { s.seq with tracking := .idle } }).withdrawScan
  let s2 := (((s1.tear fun _ => true).dropViews .a).dropViews .b).clearViews p
  ({ s2 with time := s2.time.cleared }).done tag

theorem withdrawScan_fields (s : State) : ∃ arb, s.withdrawScan = { s with arb := arb } ∧ arb.hold = s.arb.hold := by
  unfold State.withdrawScan
  split
  · exact ⟨_, rfl, rfl⟩
  · exact ⟨s.arb, rfl, rfl⟩

section Stop

variable {s : State} {pr : Profile} {v : Word}

/-- STOP in RUNNING is taken (R130). -/
theorem takeCommand_stop (hrow : commandRow v = .stop) (hrunning : s.cmd.running = none)
    (htracking : s.seq.tracking = .running) (hp : s.cmd.profile = some pr) :
    s.takeCommand v = (s.stopped pr (commandTag v)).produceAll
      (s.tearReports tornStopped (fun _ => true) :: s.abandonedReports 2 ++ s.stopStreamReports pr) := by
  have hallowed : Command.allowed .stop s.seq.tracking = true := by rw [htracking]; rfl
  rw [takeCommand_allowed (code_of_row hrow rfl) hrunning hallowed]
  show s.takeStop (commandTag v) = _
  rw [State.takeStop, hp]
  rfl

theorem stopped_fields (s : State) (pr : Profile) (tag : Byte) :
    (s.stopped pr tag).mem = s.mem ∧ (s.stopped pr tag).psel = s.psel ∧ (s.stopped pr tag).inReset = s.inReset ∧
    (s.stopped pr tag).claims = [] ∧ (s.stopped pr tag).seq = { s.seq with tracking := .idle } ∧
    (s.stopped pr tag).time = s.time.cleared ∧ (s.stopped pr tag).disch = s.disch ∧ (s.stopped pr tag).rep = s.rep ∧
    (s.stopped pr tag).choices = s.choices ∧
    (s.stopped pr tag).cmd = { s.cmd with waitingResult := some { tag := tag, code := .done, detail := 0 } } ∧
    (∀ q, (s.stopped pr tag).port q = s.portWithoutViews q) ∧
    ∀ i, (pr.slots.get i).enabled = true →
      (s.stopped pr tag).view.get i = { ((s.view.get i).onFrame none) with held := 0, overflow := 0 } := by
  obtain ⟨arb, harb, hhold⟩ := withdrawScan_fields { s with seq := { s.seq with tracking := .idle } }
  have hport (q : Port) : (s.stopped pr tag).port q = s.portWithoutViews q := by
    have hdropped : (s.stopped pr tag).port q =
        ((((({ s with seq := { s.seq with tracking := .idle } } : State).withdrawScan).tear fun _ => true).dropViews .a).dropViews
          .b).port q := by
      cases q <;> simp [State.stopped, State.done, State.port]
    rw [hdropped, dropViews_both, harb]
    exact portWithoutViews_congr (by cases q <;> rfl) (by simp [State.begun, hhold]) (by simp [State.reading, hhold])
  have hview (i : Fin 8) (hi : (pr.slots.get i).enabled = true) : (s.stopped pr tag).view.get i =
      { ((s.view.get i).onFrame none) with held := 0, overflow := 0 } := by
    simp [State.stopped, harb, State.done, State.clearViews, mapStations_view, hi]
  refine ⟨?_, ?_, ?_, ?_, ?_, ?_, ?_, ?_, ?_, ?_, hport, hview⟩
  all_goals simp [State.stopped, harb, State.done]

/-- The reports of STOP, field by field (R39, R44, R75, R94). -/
theorem stopReports_eq (hp : s.cmd.profile = some pr) :
    s.tearReports tornStopped (fun _ => true) :: s.abandonedReports 2 ++ s.stopStreamReports pr =
      s.claims.map (tornOf pr 5) ::
        abandoned .a (s.viewEntries .a) 0 2 :: abandoned .b (s.viewEntries .b) 0 2 ::
        (slotNumbers.filter fun i => (pr.slots.get i).enabled).flatMap fun i =>
          [if (s.view.get i).held = 0 then [] else [heldDroppedOf pr i (s.view.get i)],
           if (s.view.get i).overflow = 0 then [] else [overflowOf pr i (s.view.get i)]] := by
  rw [tearReports_all hp, stopStreamReports_eq]
  rfl

/-- With the Memory Port free no entry is begun and no read is under its hold. -/
theorem begun_of_free (hfree : s.arb.hold = none) (q : Port) : s.begun q = false ∧ s.reading q = false := by
  simp [State.begun, State.reading, hfree]

end Stop

theorem rowPerformed_queue {s : State} {p : Port} {a : Nat} {v : Word} {e : Entry} {rest : List Entry}
    (hqueue : (s.port p).queue = e :: rest) (q : Port) :
    ((s.rowPerformed p a v).port q).queue = if q = p then rest else (s.port q).queue := by
  obtain ⟨hhead, hother⟩ := headGone_rowPerformed (a := a) (v := v) hqueue
  split
  · next h => rw [h, hhead]
  · next h =>
    have hq : q = otherPort p := by revert h; cases p <;> cases q <;> simp [otherPort]
    rw [hq, hother]

theorem rowPerformed_pending {s : State} {p : Port} {a : Nat} {v : Word} {e : Entry} {rest : List Entry}
    (hqueue : (s.port p).queue = e :: rest) (q : Port) :
    ((s.rowPerformed p a v).port q).pending = (s.port q).pending := by
  obtain ⟨hhead, hother⟩ := headGone_rowPerformed (a := a) (v := v) hqueue
  by_cases h : q = p
  · rw [h, hhead]
  · have hq : q = otherPort p := by revert h; cases p <;> cases q <;> simp [otherPort]
    rw [hq, hother]

/-- Settles O44: the performed write hands STOP over, which ends the ring's views before its reports. -/
theorem stopTaken : Obligations.StopTaken := by
  intro p a data v enables rest s pr h hrunning htracking hp discards held overflows slots
  obtain ⟨hcommand, hexec⟩ := runProfile_commandWord h rfl
  obtain ⟨hqueue, hgrant, -, -⟩ := h
  have hfree : (s.rowPerformed p a v).arb.hold = none := by
    obtain ⟨-, hfree, -, -⟩ := (canGrant_iff s _ _).mp hgrant
    simpa [State.rowPerformed] using hfree
  rw [takeCommand_stop hcommand (by simpa using hrunning) (by simpa using htracking) (by simpa using hp),
    stopReports_eq (by simpa using hp)] at hexec
  obtain ⟨hmem, hpsel, hinReset, hclaims, hseq, htime, hdisch, hrep, hchoices, hcmd, hport, hview⟩ :=
    stopped_fields (s.rowPerformed p a v) pr (commandTag v)
  have hidle (q : Port) := begun_of_free hfree q
  have hdiscards (q : Port) : abandoned q ((s.rowPerformed p a v).viewEntries q) 0 2 = discards q := by
    simp only [abandoned, State.viewEntries, (hidle q).1, Machine.notBegun, rowPerformed_queue hqueue]
    rfl
  have hqueues (q : Port) : ((s.rowPerformed p a v).portWithoutViews q).queue =
      (if q = p then rest else (s.port q).queue).filter fun e => !e.isView := by
    rw [queue_portWithoutViews, (hidle q).1, rowPerformed_queue hqueue]
    rfl
  have hviews (q : Port) (g : Target) (hg : (s.port q).pending = some (.view g)) :
      ((s.rowPerformed p a v).portWithoutViews q).pending = none ∧
      ((s.rowPerformed p a v).portWithoutViews q).answer = some .error := by
    obtain ⟨hview, -, -⟩ := pending_portWithoutViews (s.rowPerformed p a v) q
    obtain ⟨-, hreading⟩ := hidle q
    exact hview g (by rw [rowPerformed_pending hqueue, hg]) hreading
  have hplain (q : Port) (b : Nat) (hb : (s.port q).pending = some (.plain b)) :
      ((s.rowPerformed p a v).portWithoutViews q).pending = some (.plain b) := by
    obtain ⟨-, -, hplain⟩ := pending_portWithoutViews (s.rowPerformed p a v) q
    exact hplain b (by rw [rowPerformed_pending hqueue, hb])
  rw [hdiscards, hdiscards] at hexec
  simp only [rowPerformed_fields] at hexec hmem hpsel hinReset hclaims hseq htime hdisch hrep hchoices hcmd hview
  refine ⟨_, (s.rowPerformed p a v).stopped pr (commandTag v), hexec, rfl, hrep, hchoices, ?_⟩
  obtain ⟨-, -, -, -, hquiet, -⟩ := sameUnit_produceAll ((s.rowPerformed p a v).stopped pr (commandTag v))
    (s.claims.map (tornOf pr 5) :: discards .a :: discards .b :: slots.flatMap fun i => [held i, overflows i])
  simp only [settle_fields, produceAll_fields, settle_port, port_produceAll, hseq, hmem, hclaims, htime, hdisch, hcmd, hport,
    hqueues]
  refine ⟨trivial, trivial, trivial, rfl, trivial, trivial, trivial, trivial, trivial, ?_, by rw [if_pos trivial], by rw [if_neg (otherPort_ne p)],
    fun g hg => hviews _ g hg, fun b hb => hplain _ b hb, fun g hg => hviews _ g hg, fun b hb => hplain _ b hb, fun i hi => ?_,
    get_allDisarmed, rfl, rfl⟩
  · obtain ⟨-, -, -, -, hsettled, -⟩ := settle_rep none s (((s.rowPerformed p a v).stopped pr (commandTag v)).produceAll
      (s.claims.map (tornOf pr 5) :: discards .a :: discards .b :: slots.flatMap fun i => [held i, overflows i]))
    exact (hsettled.trans hquiet).trans (congrArg ReportUnit.quiet hrep)
  · rw [hview i hi]
    exact ⟨rfl, rfl, rfl, rfl⟩

end Sys2Proof.Machine
end

