-- ==== Sys2Proof/Proofs/WatchedWords.lean ====
section
/-! PROOF. The result word and the read-pointer word (R131, R154, R159, R164). -/

namespace Sys2Proof.Machine

/-! ## The result word (R131) -/

/-- The fields of the result word (11.2). -/
theorem resultWord_fields (o : CommandOutcome) :
    (resultWord o).extractLsb' 0 8 = o.tag ∧ (resultWord o).extractLsb' 8 8 = BitVec.ofNat 8 (outcomeCode o.code) ∧
    (resultWord o).extractLsb' 16 16 = o.detail := by
  unfold resultWord
  generalize BitVec.ofNat 8 (outcomeCode o.code) = code
  refine ⟨?_, ?_, ?_⟩
  all_goals
    refine BitVec.eq_of_getLsbD_eq fun i hi => ?_
    simp only [BitVec.getLsbD_extractLsb', BitVec.getLsbD_append, hi, decide_true, Bool.true_and]
  · rw [if_pos (by omega)]
    simp
  · rw [if_neg (by omega), if_pos (by omega)]
    simp
  · rw [if_neg (by omega), if_neg (by omega)]
    exact congrArg _ (by omega)

/-- The state with the outcome taken from its place, under the grant. -/
def State.outcomeBegun (s : State) (cmd : CommandUnit) : State := { s.grantTo .command with cmd := cmd }

/-- A whole write of the result word puts the outcome into memory and takes it from its place. -/
theorem exec_outcome {s : State} {o : CommandOutcome} {cmd : CommandUnit} (hgrant : s.canGrant .command .outcome = true)
    (hgranted : s.outcomeGranted = some ((s.outcomeBegun cmd).holds (.outcome o))) :
    exec (.resultWordWrite (.whole none)) s = .next (State.settle none s
      { s.outcomeBegun cmd with mem := s.mem.writeWord (s.blockWord 1) (resultWord o) }) := by
  obtain ⟨-, hfree, -, -⟩ := (canGrant_iff s _ _).mp hgrant
  have hreleased : (s.outcomeBegun cmd).release = s.outcomeBegun cmd := release_of_free hfree
  show s.runSpan (.whole none) s.outcomeGranted isOutcome = _
  rw [hgranted, runSpan_whole_held _ _ _ _ rfl, endHold_holds, hreleased]
  rfl

/-- What a write of the result word leaves. -/
theorem outcome_settle (s : State) (cmd : CommandUnit) (m : Memory) :
    (State.settle none s { s.outcomeBegun cmd with mem := m }).mem = m ∧
    (State.settle none s { s.outcomeBegun cmd with mem := m }).cmd = cmd ∧
    SamePorts s (State.settle none s { s.outcomeBegun cmd with mem := m }) ∧
    (State.settle none s { s.outcomeBegun cmd with mem := m }).seq = s.seq ∧
    (State.settle none s { s.outcomeBegun cmd with mem := m }).view = s.view ∧
    (State.settle none s { s.outcomeBegun cmd with mem := m }).claims = s.claims ∧
    (State.settle none s { s.outcomeBegun cmd with mem := m }).time = s.time ∧
    (State.settle none s { s.outcomeBegun cmd with mem := m }).disch = s.disch ∧
    SameReportRegisters s (State.settle none s { s.outcomeBegun cmd with mem := m }) :=
  ⟨by simp, by simp [State.outcomeBegun], by simp [SamePorts, State.outcomeBegun], by simp [State.outcomeBegun],
    by simp [State.outcomeBegun], by simp [State.outcomeBegun], by simp [State.outcomeBegun], by simp [State.outcomeBegun],
    sameReportRegisters_settle (by simpa [State.outcomeBegun] using SameUnit.refl _)⟩

/-- Settles O48: the word's fields, and the waiting BUSY before the waiting result. -/
theorem resultWordWritten : Obligations.ResultWordWritten := by
  refine ⟨resultWord_fields, fun s o hgrant => ⟨fun hbusy => ?busy, fun hbusy hresult => ?result⟩⟩
  case busy =>
    have hgranted : s.outcomeGranted =
        some ((s.outcomeBegun { s.cmd with lastWasOutcome := true, waitingBusy := none }).holds (.outcome o)) := by
      rw [State.outcomeGranted, if_pos hgrant, hbusy]
      rfl
    exact ⟨_, exec_outcome hgrant hgranted, outcome_settle s _ _⟩
  case result =>
    have hgranted : s.outcomeGranted =
        some ((s.outcomeBegun { s.cmd with lastWasOutcome := true, waitingResult := none }).holds (.outcome o)) := by
      rw [State.outcomeGranted, if_pos hgrant, hbusy, hresult]
      rfl
    exact ⟨_, exec_outcome hgrant hgranted, outcome_settle s _ _⟩

/-! ## The read-pointer word (R154, R159, R164) -/

section ReadPointer

variable {s : State} {p : Port} {a : Nat} {data v : Word} {enables : Enables} {rest : List Entry}

/-- Only word 2 of the block is the read-pointer word. -/
theorem profileRow_readPointer (h : s.profileRow a data enables = .readPointer) :
    a ≠ s.blockWord 0 ∧ a = s.blockWord 2 := by
  rw [State.profileRow] at h
  split at h
  · exact absurd h (commandRow_ne_word _).2
  · next hcommand =>
    split at h
    · next hpointer => exact ⟨hcommand, hpointer⟩
    · split at h <;> cases h

/-- A performed write in the row hands its value over to the Report Unit. -/
theorem runProfile_readPointer (h : WritesRow s p a data enables rest .readPointer v) :
    exec (.readPointerWrite p (.whole none)) s =
      .next (State.settle none s ((s.rowPerformed p a v).takeReadPointer p v)) := by
  have hrun := runProfile_whole h
  obtain ⟨-, -, hrow, -⟩ := h
  obtain ⟨hcommand, hpointer⟩ := profileRow_readPointer hrow
  rw [State.handOver, if_neg (by simpa using hcommand), if_pos (by simpa using hpointer)] at hrun
  exact hrun

/-- The state with a new read pointer and its fill latch. -/
def State.pointerMoved (s : State) (n : Nat) : State := ({ s with rep := { s.rep with readSeq := n } }).updateLatch

theorem takeReadPointer_halted (h : s.seq.tracking = .halted) : s.takeReadPointer p v = s := if_pos h

/-- A value between Rs and W becomes Rs. -/
theorem takeReadPointer_valid (h : s.seq.tracking ≠ .halted) (hlow : s.rep.readSeq ≤ v.toNat) (hhigh : v.toNat ≤ s.rep.writeSeq) :
    s.takeReadPointer p v = s.pointerMoved v.toNat := by
  rw [State.takeReadPointer, if_neg h, if_pos ⟨hlow, hhigh⟩]
  rfl

/-- Any other value is reported. -/
theorem takeReadPointer_invalid (h : s.seq.tracking ≠ .halted) (hv : v.toNat < s.rep.readSeq ∨ s.rep.writeSeq < v.toNat) :
    s.takeReadPointer p v = s.produce (readPointerInvalid p s.rep v) := by
  rw [State.takeReadPointer, if_neg h, if_neg (by omega)]

/-- The fill latch is the Report Unit's own register. -/
theorem updateLatch_eq (s : State) : ∃ latch, s.updateLatch = { s with rep := { s.rep with fillLatch := latch } } := by
  unfold State.updateLatch
  split
  · exact ⟨_, rfl⟩
  · exact ⟨s.rep.fillLatch, rfl⟩

@[simp] theorem pointerMoved_fields (s : State) (n : Nat) :
    (s.pointerMoved n).mem = s.mem ∧ (s.pointerMoved n).psel = s.psel ∧ (s.pointerMoved n).inReset = s.inReset ∧
    (s.pointerMoved n).portA = s.portA ∧ (s.pointerMoved n).portB = s.portB ∧ (s.pointerMoved n).view = s.view ∧
    (s.pointerMoved n).claims = s.claims ∧ (s.pointerMoved n).seq = s.seq ∧ (s.pointerMoved n).time = s.time ∧
    (s.pointerMoved n).disch = s.disch ∧ (s.pointerMoved n).cmd = s.cmd ∧ (s.pointerMoved n).rep.readSeq = n ∧
    (s.pointerMoved n).rep.writeSeq = s.rep.writeSeq ∧ (s.pointerMoved n).rep.markA = s.rep.markA ∧
    (s.pointerMoved n).rep.markA7 = s.rep.markA7 ∧ (s.pointerMoved n).rep.quiet = s.rep.quiet := by
  obtain ⟨latch, h⟩ := updateLatch_eq { s with rep := { s.rep with readSeq := n } }
  rw [State.pointerMoved, h]
  exact ⟨rfl, rfl, rfl, rfl, rfl, rfl, rfl, rfl, rfl, rfl, rfl, rfl, rfl, rfl, rfl, rfl⟩

/-- The fill latch after the read pointer has moved, with a profile and without one (R159). -/
theorem pointerMoved_latch {s : State} (n : Nat) :
    (s.cmd.profile = none → (s.pointerMoved n).rep.fillLatch = s.rep.fillLatch) ∧
    ∀ pr, s.cmd.profile = some pr →
      (pr.capacity - (s.rep.writeSeq - n) ≤ pr.holdOn → (s.pointerMoved n).rep.fillLatch = true) ∧
      (pr.holdOn < pr.capacity - (s.rep.writeSeq - n) → pr.holdOff ≤ pr.capacity - (s.rep.writeSeq - n) →
        (s.pointerMoved n).rep.fillLatch = false) ∧
      (pr.holdOn < pr.capacity - (s.rep.writeSeq - n) → pr.capacity - (s.rep.writeSeq - n) < pr.holdOff →
        (s.pointerMoved n).rep.fillLatch = s.rep.fillLatch) := by
  refine ⟨fun hp => ?_, fun pr hp => ?_⟩
  · rw [State.pointerMoved, State.updateLatch]
    dsimp only
    rw [hp]
  · have hlatch := updateLatch_fillLatch { s with rep := { s.rep with readSeq := n } } pr hp
    have hfree : ({ s with rep := { s.rep with readSeq := n } } : State).free = pr.capacity - (s.rep.writeSeq - n) := by
      rw [State.free]
      dsimp only
      rw [hp]
    rw [hfree] at hlatch
    exact hlatch

end ReadPointer

/-- Settles O49: in HALTED nothing, a value in range moves Rs and the latch, any other is reported. -/
theorem readPointerMoves : Obligations.ReadPointerMoves := by
  intro p a data v enables rest s h
  have hexec := runProfile_readPointer h
  obtain ⟨hqueue, -, -, -⟩ := h
  have hrep : (s.rowPerformed p a v).rep = s.rep := by simp
  by_cases hhalted : s.seq.tracking = .halted
  · rw [takeReadPointer_halted (by simpa using hhalted)] at hexec
    obtain ⟨hwrite, hread, hmarkA, hmarkA7, hquiet, hlatch, -⟩ :=
      sameReportRegisters_settle (s := s) (before := s) (spare := none) (x := s.rowPerformed p a v)
        (by simpa using SameUnit.refl _)
    exact ⟨_, hexec, rowWritten_settle hqueue (by simp [SameMemory]) (by simp [SamePorts]), by simp [SameInner], hwrite, hquiet,
      hmarkA, hmarkA7, fun h => absurd hhalted h, fun h => absurd hhalted h, fun _ => ⟨hread, hlatch⟩⟩
  · by_cases hv : s.rep.readSeq ≤ v.toNat ∧ v.toNat ≤ s.rep.writeSeq
    · obtain ⟨hlow, hhigh⟩ := hv
      rw [takeReadPointer_valid (by simpa using hhalted) (by simpa using hlow) (by simpa using hhigh)] at hexec
      obtain ⟨hunprofiled, hprofiled⟩ := pointerMoved_latch (s := s.rowPerformed p a v) v.toNat
      obtain ⟨hwrite, hread, hmarkA, hmarkA7, hquiet, hlatch, -⟩ := settle_rep none s ((s.rowPerformed p a v).pointerMoved v.toNat)
      simp only [pointerMoved_fields, rowPerformed_fields] at hwrite hread hmarkA hmarkA7 hquiet hunprofiled hprofiled
      refine ⟨_, hexec, rowWritten_settle hqueue (by simp [SameMemory]) (by simp [SamePorts]), by simp [SameInner], hwrite,
        hquiet, hmarkA, hmarkA7, fun _ _ _ => ⟨hread, fun hp => hlatch.trans (hunprofiled hp), fun pr hp => ?_⟩,
        fun _ hout => by omega, fun hout => absurd hout (not_or.mpr ⟨hhalted, by omega⟩)⟩
      rw [LatchFollows, hlatch]
      exact hprofiled pr hp
    · have hinvalid : v.toNat < s.rep.readSeq ∨ s.rep.writeSeq < v.toNat := by omega
      rw [takeReadPointer_invalid (by simpa using hhalted) (by simpa using hinvalid), hrep] at hexec
      have hunit := sameUnit_produce (s.rowPerformed p a v) (readPointerInvalid p s.rep v)
      rw [hrep] at hunit
      obtain ⟨hwrite, hread, hmarkA, hmarkA7, hquiet, hlatch, -⟩ :=
        sameReportRegisters_settle (s := s) (before := s) (spare := none) hunit
      exact ⟨_, hexec, rowWritten_settle hqueue (by simp [SameMemory]) (by simp [SamePorts]), by simp [SameInner], hwrite,
        hquiet, hmarkA, hmarkA7, fun _ hlow hhigh => by omega, fun _ _ => rfl, fun _ => ⟨hread, hlatch⟩⟩

end Sys2Proof.Machine
end

