-- ==== Sys2Proof/Proofs/Apply.lean ====
section
/-! PROOF. APPLY: its take, the reads of the profile block, the checks and both ends (R126, R131, R133 to R136, R151, R155, R156,
R161). -/

namespace Sys2Proof.Machine

/-! ## The take of APPLY and its reads (R133) -/

section Reads

variable {s : State} {v : Word} {tag : Byte}

/-- APPLY is taken in UNCONFIGURED and IDLE (R130). -/
theorem takeCommand_apply (hrow : commandRow v = .apply) (hrunning : s.cmd.running = none)
    (htracking : s.seq.tracking = .unconfigured ∨ s.seq.tracking = .idle) : s.takeCommand v = s.takeApply (commandTag v) := by
  have hallowed : Command.allowed .apply s.seq.tracking = true := by
    obtain h | h := htracking <;> rw [h] <;> rfl
  exact takeCommand_allowed (code_of_row hrow rfl) hrunning hallowed

theorem readsProfile_apply (hrunning : s.cmd.running = some (.apply tag)) :
    s.cmd.readsProfile = decide (s.cmd.candidate.length < 256) := by rw [CommandUnit.readsProfile, hrunning]

/-- The state of the Command Unit with a candidate, under a grant. -/
def State.withCandidate (s : State) (arb : Arbiter) (ws : List Word) (last : Bool) : State :=
  { s with arb := arb, cmd := { s.cmd with candidate := ws, lastWasOutcome := last } }

/-- A read that memory answers OK puts the word into the candidate (R133). -/
theorem finishProfileRead_ok (hrunning : s.cmd.running = some (.apply tag)) (n : Nat) :
    s.finishProfileRead n none =
      s.withCandidate s.arb (s.cmd.candidate ++ [s.mem.readWord (s.blockWord n)]) s.cmd.lastWasOutcome := by
  simp only [State.finishProfileRead, Bus.read, answer_ok (Bus.start s.mem none) _ rfl rfl]
  show s.profileWordRead _ = _
  rw [State.profileWordRead, hrunning]
  rfl

/-- A whole read of a profile word: the word in the candidate, and then the checks if it was the last (R133). -/
theorem exec_profileRead (hgrant : s.canGrant .command .profileRead = true) (hrunning : s.cmd.running = some (.apply tag))
    (hlength : s.cmd.candidate.length < 256) :
    exec (.applyProfileRead (.whole none)) s = .next (State.settle none s
      (s.withCandidate (s.grantTo .command).arb
        (s.cmd.candidate ++ [s.mem.readWord (s.blockWord s.cmd.candidate.length)]) false).makeChecks) := by
  obtain ⟨-, hfree, -, -⟩ := (canGrant_iff s _ _).mp hgrant
  have hreads : s.cmd.readsProfile = true := (readsProfile_apply hrunning).trans (decide_eq_true hlength)
  have hgranted : s.profileReadGranted = some ((s.withCandidate (s.grantTo .command).arb s.cmd.candidate false).holds
      (.profileRead s.cmd.candidate.length)) := by
    simp only [State.profileReadGranted, hgrant, hreads, if_true]
    rfl
  have hreleased : (s.withCandidate (s.grantTo .command).arb s.cmd.candidate false).release =
      s.withCandidate (s.grantTo .command).arb s.cmd.candidate false := release_of_free hfree
  have hended : ((s.withCandidate (s.grantTo .command).arb s.cmd.candidate false).holds
      (.profileRead s.cmd.candidate.length)).endHold none = s.withCandidate (s.grantTo .command).arb
        (s.cmd.candidate ++ [s.mem.readWord (s.blockWord s.cmd.candidate.length)]) false := by
    rw [endHold_holds, hreleased]
    exact finishProfileRead_ok (s := s.withCandidate (s.grantTo .command).arb s.cmd.candidate false) hrunning _
  show s.concludeIf (s.profileReadGranted.map _) = _
  rw [hgranted, Option.map_some, if_pos (by rfl), hended]
  rfl

/-- The end of a read of a profile word under its hold, without the checks (R133). -/
theorem exec_profileRead_finish {n : Nat} (hhold : s.arb.hold = some (.profileRead n)) (hrunning : s.cmd.running = some (.apply tag)) :
    exec (.applyProfileRead (.finish none)) s = .next (State.settle none s
      (s.withCandidate { s.arb with hold := none } (s.cmd.candidate ++ [s.mem.readWord (s.blockWord n)])
        s.cmd.lastWasOutcome)) := by
  have hended : s.endHold none = s.withCandidate { s.arb with hold := none }
      (s.cmd.candidate ++ [s.mem.readWord (s.blockWord n)]) s.cmd.lastWasOutcome := by
    rw [State.endHold, hhold]
    exact finishProfileRead_ok (s := s.release) hrunning n
  have hmine : s.holdIs isProfileRead = true := (holdIs_iff _ _).mpr ⟨_, hhold, rfl⟩
  show s.concludeIf (s.profileReadEnded none) = _
  rw [State.profileReadEnded, if_pos hmine, hended]
  rfl

/-- The checks in a step of their own (R133). -/
theorem exec_checks (hreset : s.inReset = false) (hhold : s.holdIs isProfileRead = false)
    (hrunning : s.cmd.running = some (.apply tag)) (hlength : ¬s.cmd.candidate.length < 256) :
    exec (.applyProfileRead (.finish none)) s = .next (State.settle none s s.makeChecks) := by
  have hwait : s.checksWait = some tag := by
    rw [State.checksWait, hrunning]
    exact if_neg hlength
  show s.concludeIf (s.profileReadEnded none) = _
  rw [State.profileReadEnded, hhold, if_neg Bool.false_ne_true, if_neg (by simp [hreset, hwait])]
  rfl

/-- Before word 255 there are no checks to make. -/
theorem makeChecks_early (h : s.cmd.candidate.length < 256) : s.makeChecks = s := by
  have hwait : s.checksWait = none := by
    rw [State.checksWait]
    split
    · exact if_pos h
    · rfl
    · rfl
  rw [State.makeChecks, hwait]

end Reads

/-- What a word of the candidate leaves of every other block. -/
theorem withCandidate_settle (s : State) (arb : Arbiter) (ws : List Word) (last : Bool) :
    SameMemory s (State.settle none s (s.withCandidate arb ws last)) ∧
    SamePorts s (State.settle none s (s.withCandidate arb ws last)) ∧
    (State.settle none s (s.withCandidate arb ws last)).cmd = { s.cmd with candidate := ws, lastWasOutcome := last } ∧
    (State.settle none s (s.withCandidate arb ws last)).seq = s.seq ∧
    (State.settle none s (s.withCandidate arb ws last)).view = s.view ∧
    (State.settle none s (s.withCandidate arb ws last)).disch = s.disch ∧
    SameReportRegisters s (State.settle none s (s.withCandidate arb ws last)) :=
  ⟨by simp [SameMemory, State.withCandidate], by simp [SamePorts, State.withCandidate], by simp [State.withCandidate],
    by simp [State.withCandidate], by simp [State.withCandidate], by simp [State.withCandidate],
    sameReportRegisters_settle (by simpa [State.withCandidate] using SameUnit.refl _)⟩

/-- Settles O40: the take of APPLY, a whole read, and the end of a read under its hold. -/
theorem applyReadsProfile : Obligations.ApplyReadsProfile := by
  refine ⟨fun p a data v enables rest s h hrunning htracking => ?take, fun s tag hgrant hrunning hlength => ?whole,
    fun s tag n hhold hrunning => ?finish⟩
  case take =>
    obtain ⟨hcommand, hexec⟩ := runProfile_commandWord h rfl
    obtain ⟨hqueue, -, -, -⟩ := h
    rw [takeCommand_apply hcommand (by simpa using hrunning) (by simpa using htracking)] at hexec
    exact ⟨_, hexec, rowWritten_settle hqueue (by simp [SameMemory, State.takeApply]) (by simp [SamePorts, State.takeApply]),
      by simp [State.takeApply], by simp [State.takeApply], by simp [State.takeApply], by simp [State.takeApply],
      by simp [State.takeApply], by simp [State.takeApply],
      sameReportRegisters_settle (by simpa [State.takeApply] using SameUnit.refl _)⟩
  case whole =>
    have hexec := exec_profileRead hgrant hrunning (by omega)
    rw [makeChecks_early (by simp only [State.withCandidate, List.length_append, List.length_singleton]; omega)] at hexec
    exact ⟨_, hexec, withCandidate_settle s _ _ _⟩
  case finish => exact ⟨_, exec_profileRead_finish hhold hrunning, withCandidate_settle s _ _ _⟩

/-! ## The due marks at the end of a step (R161, R162) -/

theorem markChanged_due (b a : State) (sp : Option Nat) (ns : List Nat) (u : ReportUnit) :
    (∃ more, (ReportUnit.markChanged b a sp ns u).due = u.due ++ more) ∧
    (u.changedAgain = true → (ReportUnit.markChanged b a sp ns u).changedAgain = true) := by
  induction ns generalizing u with
  | nil => exact ⟨⟨[], (List.append_nil _).symm⟩, id⟩
  | cons n ns ih =>
    unfold ReportUnit.markChanged
    split
    · obtain ⟨⟨more, hmore⟩, hagain⟩ := ih (u.markDue (a.writingStatus n) n)
      refine ⟨?_, fun h => hagain (by simp [ReportUnit.markDue, h])⟩
      rw [hmore, ReportUnit.markDue]
      dsimp only
      split
      · exact ⟨more, rfl⟩
      · exact ⟨n :: more, by simp⟩
    · exact ih u

/-- The end of a step makes words due behind those that are. -/
theorem settle_dueMarks (sp : Option Nat) (b s : State) :
    (∃ more, (State.settle sp b s).rep.due = s.rep.due ++ more) ∧
    (s.rep.changedAgain = true → (State.settle sp b s).rep.changedAgain = true) := by
  obtain ⟨⟨-, -, -, -, -, -, hdue, hagain, -⟩, -, -⟩ := sameUnit_admissionDrops s
  have hrep : s.admissionDrops.drivePins.rep = s.admissionDrops.rep := rfl
  simp only [State.settle, raise_fields, State.refreshDue]
  rw [← hdue, ← hagain, ← hrep]
  split
  · exact markChanged_due b _ sp _ _
  · exact ⟨⟨[], (List.append_nil _).symm⟩, id⟩

/-! ## The end of APPLY (R133 to R136) -/

/-- APPLY fails (R136). -/
theorem makeChecks_fails {s : State} {tag : Byte} {check slot : Nat} (hrunning : s.cmd.running = some (.apply tag))
    (hlength : ¬s.cmd.candidate.length < 256) (hfailure : profileFailure s.blockBase s.cmd.candidate = some (check, slot)) :
    s.makeChecks = s.endApply tag .invalidProfile (BitVec.ofNat 8 slot ++ BitVec.ofNat 8 check) := by
  have hwait : s.checksWait = some tag := by
    rw [State.checksWait, hrunning]
    exact if_neg hlength
  rw [State.makeChecks, hwait]
  show s.checkProfile tag = _
  rw [State.checkProfile, hfailure]

/-- Every block at a successful APPLY, before the report of the rows left (R135). -/
def State.applied (s : State) (tag : Byte) (p : Profile) : State :=
  let s1 := (s.endApply tag .done 0).resetViews
  { s1 with
    cmd := { s1.cmd with profile := some p }, seq := s1.seq.applied, time := s1.time.applied p, disch := s1.disch.clear
    rep := s1.rep.applied ((List.range statusWords).any s.writingStatus) }

/-- APPLY succeeds (R135). -/
theorem makeChecks_succeeds {s : State} {tag : Byte} (hrunning : s.cmd.running = some (.apply tag))
    (hlength : ¬s.cmd.candidate.length < 256) (hfailure : profileFailure s.blockBase s.cmd.candidate = none) :
    s.makeChecks = (s.applied tag (profileOf s.cmd.candidate)).produceAll [undischargedOf s.disch 3] := by
  have hwait : s.checksWait = some tag := by
    rw [State.checksWait, hrunning]
    exact if_neg hlength
  rw [State.makeChecks, hwait]
  show s.checkProfile tag = _
  rw [State.checkProfile, hfailure]
  show s.applySucceeds tag _ = _
  rw [State.applySucceeds, undischarged_eq]
  rfl

@[simp] theorem applied_fields (s : State) (tag : Byte) (p : Profile) :
    (s.applied tag p).mem = s.mem ∧ (s.applied tag p).psel = s.psel ∧ (s.applied tag p).inReset = s.inReset ∧
    (s.applied tag p).portA = s.portA ∧ (s.applied tag p).portB = s.portB ∧ (s.applied tag p).choices = s.choices ∧
    (s.applied tag p).seq = s.seq.applied ∧ (s.applied tag p).time = s.time.applied p ∧
    (s.applied tag p).disch = s.disch.clear ∧
    (s.applied tag p).rep = s.rep.applied ((List.range statusWords).any s.writingStatus) ∧
    (s.applied tag p).cmd = { s.cmd with
      profile := some p, running := none, candidate := [], waitingResult := some { tag := tag, code := .done, detail := 0 } } :=
  ⟨rfl, rfl, rfl, rfl, rfl, rfl, rfl, rfl, rfl, rfl, rfl⟩

theorem applied_view (s : State) (tag : Byte) (p : Profile) (i : Fin 8) :
    (s.applied tag p).view.get i = { ((s.view.get i).onFrame none) with held := 0, overflow := 0 } := get_make _ i

/-- Every status word is due after a successful APPLY (R161). -/
theorem mem_due_applied (u : ReportUnit) (b : Bool) {n : Nat} (hn : n < 15) : n ∈ (u.applied b).due := by
  show n ∈ u.due ++ (List.range statusWords).filter fun n => !u.due.contains n
  by_cases h : n ∈ u.due
  · exact List.mem_append_left _ h
  · exact List.mem_append_right _ (List.mem_filter.mpr ⟨List.mem_range.mpr hn, by simpa using h⟩)

/-- The registers of the Report Unit after the step of a successful APPLY (R151, R155, R156, R159, R161). -/
theorem applied_settle_rep {s x : State} {tag : Byte} {p : Profile} {bs : List (List Content)} {t : State}
    (ht : t = State.settle none s ((x.applied tag p).produceAll bs)) :
    t.rep.writeSeq = 1 ∧ t.rep.readSeq = 1 ∧ t.rep.markA = none ∧ t.rep.markA7 = none ∧ t.rep.fillLatch = false ∧
    t.rep.readPointerDue = true ∧ t.rep.quiet = x.rep.quiet ∧ (∀ n, n < 15 → n ∈ t.rep.due) ∧
    (∀ n v, x.arb.hold = some (.status n v) → n < 15 → t.rep.changedAgain = true) ∧
    (x.rep.writing = none → t.rep.writing = none) ∧
    ∀ w, x.rep.writing = some w → ∃ queued, t.rep.writing = some { w with superseded := true, queued := queued } := by
  subst ht
  obtain ⟨kwrite, kread, kmarkA, kmarkA7, kquiet, klatch, kpointer, kwriting, -, -⟩ :=
    settle_rep none s ((x.applied tag p).produceAll bs)
  obtain ⟨hwrite, hread, hmarkA, hmarkA7, hquiet, hlatch, hdue, hagain, hpointer, -, hwriting⟩ :=
    sameUnit_produceAll (x.applied tag p) bs
  obtain ⟨⟨more, hmore⟩, kagain⟩ := settle_dueMarks none s ((x.applied tag p).produceAll bs)
  refine ⟨kwrite.trans hwrite, kread.trans hread, kmarkA.trans hmarkA, kmarkA7.trans hmarkA7, klatch.trans hlatch,
    kpointer.trans hpointer, kquiet.trans hquiet, fun n hn => ?due, fun n v hhold hn => kagain (hagain.trans ?again),
    fun hnone => ?none, fun w hw => ?some⟩
  case due =>
    rw [hmore, hdue]
    exact List.mem_append_left _ (mem_due_applied _ _ hn)
  case again =>
    have hstatus : (List.range statusWords).any x.writingStatus = true :=
      List.any_eq_true.mpr ⟨n, List.mem_range.mpr hn, by simp [State.writingStatus, hhold]⟩
    show (x.rep.changedAgain || (List.range statusWords).any x.writingStatus) = true
    rw [hstatus, Bool.or_true]
  case none =>
    have happlied : (x.applied tag p).rep.writing = none := congrArg (Option.map RecordWrite.supersede) hnone
    rw [happlied] at hwriting
    exact kwriting.trans (hwriting.elim id id)
  case some =>
    have happlied : (x.applied tag p).rep.writing = some w.supersede := congrArg (Option.map RecordWrite.supersede) hw
    rw [happlied] at hwriting
    exact hwriting.elim (fun h => ⟨w.queued, kwriting.trans h⟩) fun h => ⟨false, kwriting.trans h⟩

/-- The last step of an APPLY makes the checks on the candidate with all its words. -/
theorem exec_applyEnd {s : State} {tag : Byte} {ws : List Word} {i : Instr} {last : Bool}
    (hrunning : s.cmd.running = some (.apply tag))
    (h : (i = .applyProfileRead (.whole none) ∧ s.canGrant .command .profileRead = true ∧ s.cmd.candidate.length = 255 ∧
        ws = s.cmd.candidate ++ [s.mem.readWord (s.blockBase + 4 * 255)] ∧ last = false) ∨
      (i = .applyProfileRead (.finish none) ∧ s.inReset = false ∧ s.holdIs isProfileRead = false ∧
        s.cmd.candidate.length = 256 ∧ ws = s.cmd.candidate ∧ last = s.cmd.lastWasOutcome)) :
    ∃ arb : Arbiter, arb.hold = s.arb.hold ∧ ws.length = 256 ∧
      exec i s = .next (State.settle none s (s.withCandidate arb ws last).makeChecks) := by
  obtain ⟨rfl, hgrant, hlength, rfl, rfl⟩ | ⟨rfl, hreset, hhold, hlength, rfl, rfl⟩ := h
  · have hexec := exec_profileRead hgrant hrunning (by omega)
    rw [hlength] at hexec
    exact ⟨(s.grantTo .command).arb, by simp, by simp [hlength], hexec⟩
  · exact ⟨s.arb, rfl, hlength, exec_checks hreset hhold hrunning (by omega)⟩

/-- Settles O41: the step makes the checks, and APPLY ends by what they find. -/
theorem applyEnds : Obligations.ApplyEnds := by
  intro s tag ws i last hrunning hstep
  obtain ⟨arb, hhold, hlength, hexec⟩ := exec_applyEnd hrunning hstep
  have hfull : ¬(s.withCandidate arb ws last).cmd.candidate.length < 256 := by simp [State.withCandidate, hlength]
  refine ⟨fun check slot hfailure => ?fails, fun hfailure => ?succeeds⟩
  case fails =>
    rw [makeChecks_fails (s := s.withCandidate arb ws last) hrunning hfull hfailure] at hexec
    obtain ⟨-, -, -, -, -, -, -, hwriting, -, -⟩ := settle_rep none s ((s.withCandidate arb ws last).endApply tag
      .invalidProfile (BitVec.ofNat 8 slot ++ BitVec.ofNat 8 check))
    exact ⟨_, hexec, by simp [SameMemory, State.withCandidate, State.endApply],
      by simp [SamePorts, State.withCandidate, State.endApply], by simp [State.withCandidate, State.endApply],
      by simp [State.withCandidate, State.endApply], by simp [State.withCandidate, State.endApply],
      by simp [State.withCandidate, State.endApply], by simp [State.withCandidate, State.endApply],
      by simp [State.withCandidate, State.endApply], hwriting, sameReportRegisters_settle (SameUnit.refl _)⟩
  case succeeds =>
    have hchecks : (s.withCandidate arb ws last).makeChecks =
        ((s.withCandidate arb ws last).applied tag (profileOf ws)).produceAll [undischargedOf s.disch 3] :=
      makeChecks_succeeds (s := s.withCandidate arb ws last) hrunning hfull hfailure
    rw [hchecks] at hexec
    obtain ⟨hwrite, hread, hmarkA, hmarkA7, hlatch, hpointer, hquiet, hdue, hagain, hnone, hsome⟩ :=
      applied_settle_rep (s := s) (x := s.withCandidate arb ws last) (tag := tag) (p := profileOf ws)
        (bs := [undischargedOf s.disch 3]) rfl
    refine ⟨_, (s.withCandidate arb ws last).applied tag (profileOf ws), hexec, rfl, rfl, rfl, rfl, rfl, ?_, ?_, ?_, ?_, ?_,
      ?_, ?_, fun i => ?view, ?_, fun h => ?_, fun h => ?_, hwrite, hread, hmarkA, hmarkA7, hlatch, hpointer, hquiet, hdue,
      fun n v h => hagain n v (hhold.trans h), hnone, hsome⟩
    case view =>
      simp only [settle_fields, produceAll_fields, applied_view]
      exact ⟨rfl, rfl, trivial, trivial⟩
    · simp
    · simp
    · simp
    · simp [SameMemory, State.withCandidate]
    · simp [SamePorts, State.withCandidate]
    · simp [State.withCandidate]
    · simp [State.withCandidate, Sequencer.applied]
    · simp [State.withCandidate, TimeBase.applied, TimeBase.cleared, allDisarmed]
    · simp [State.withCandidate, clear_empty h]
    · simp [State.withCandidate, clear_loaded h]

end Sys2Proof.Machine
end

