-- ==== Sys2Proof/Proofs/IndexAccepted.lean ====
section
/-! PROOF. The acceptance of an advance (R18, R39, R44 to R46, R75, R76, R99, R104, R112, R157). -/

namespace Sys2Proof.Machine

/-! ## The departure list (R99, R104) -/

/-- Pairs in ascending order of offset, and of slot at equal offsets. -/
def DepartsBefore (p : Profile) (d e : Departure) : Prop :=
  (p.slots.get d.slot).offset < (p.slots.get e.slot).offset ∨
  ((p.slots.get d.slot).offset = (p.slots.get e.slot).offset ∧ d.slot < e.slot)

theorem mem_placePair (p : Profile) (n e : Departure) (ds : List Departure) : e ∈ placePair p n ds ↔ e = n ∨ e ∈ ds := by
  induction ds with
  | nil => simp [placePair]
  | cons d ds ih =>
    rw [placePair]
    split
    · simp only [List.mem_cons, ih]
      tauto
    · simp only [List.mem_cons]

/-- A pair of a lower slot than all of an ordered list takes its place in the order. -/
theorem pairwise_placePair {p : Profile} {n : Departure} {ds : List Departure} (hds : ds.Pairwise (DepartsBefore p))
    (hslot : ∀ d ∈ ds, n.slot < d.slot) : (placePair p n ds).Pairwise (DepartsBefore p) := by
  induction ds with
  | nil => exact List.pairwise_singleton _ _
  | cons d ds ih =>
    obtain ⟨hd, hrest⟩ := List.pairwise_cons.mp hds
    obtain ⟨hlower, hlowers⟩ := List.forall_mem_cons.mp hslot
    rw [placePair]
    split
    · next hless =>
      refine List.pairwise_cons.mpr ⟨fun e he => ?_, ih hrest hlowers⟩
      obtain rfl | he := (mem_placePair p n e ds).mp he
      · exact .inl hless
      · exact hd e he
    · next hless =>
      refine List.pairwise_cons.mpr ⟨fun e he => ?_, hds⟩
      obtain rfl | he := List.mem_cons.mp he
      · rw [DepartsBefore]
        omega
      · have hde := hd e he
        have hne := hlowers e he
        rw [DepartsBefore] at hde ⊢
        omega

/-- The pairs of the slots, before they are ordered. -/
def departingPairs (p : Profile) (head first : Nat) : List Departure :=
  (enabledSlots p).filterMap fun q =>
    (departingFrame head first q.2.offset).map fun f => { slot := q.1, frame := f, status := .waiting }

theorem mem_enabledSlots {p : Profile} {q : Fin 8 × SlotSettings} :
    q ∈ enabledSlots p ↔ q.2 = p.slots.get q.1 ∧ (p.slots.get q.1).enabled = true := by
  simp only [enabledSlots, List.mem_filter, List.mem_map]
  constructor
  · rintro ⟨⟨i, -, rfl⟩, henabled⟩
    exact ⟨rfl, henabled⟩
  · rintro ⟨hq, henabled⟩
    exact ⟨⟨q.1, mem_slotNumbers _, Prod.ext rfl hq.symm⟩, hq ▸ henabled⟩

theorem mem_departingPairs {p : Profile} {head first : Nat} {d : Departure} :
    d ∈ departingPairs p (head + 1) first ↔
      d.status = .waiting ∧ (p.slots.get d.slot).enabled = true ∧ first + (p.slots.get d.slot).offset ≤ head ∧
      d.frame = head - (p.slots.get d.slot).offset := by
  simp only [departingPairs, List.mem_filterMap, mem_enabledSlots, Option.map_eq_some_iff, departingFrame]
  constructor
  · rintro ⟨⟨i, x⟩, ⟨hx, henabled⟩, f, hf, rfl⟩
    dsimp only at hx henabled hf ⊢
    subst hx
    split at hf
    · cases hf
      exact ⟨rfl, henabled, by omega, by omega⟩
    · cases hf
  · rintro ⟨hstatus, henabled, hold, hframe⟩
    refine ⟨(d.slot, p.slots.get d.slot), ⟨rfl, henabled⟩, d.frame, ?_, ?_⟩
    · dsimp only
      rw [if_pos (by omega), hframe]
      exact congrArg some (by omega)
    · rw [← hstatus]

theorem pairwise_departingPairs (p : Profile) (head first : Nat) :
    (departingPairs p head first).Pairwise fun d e => d.slot < e.slot := by
  have hslots : slotNumbers.Pairwise (· < ·) := by decide
  have henabled : (enabledSlots p).Pairwise fun q r => q.1 < r.1 :=
    List.Pairwise.filter _ (List.pairwise_map.mpr hslots)
  refine List.pairwise_filterMap.mpr (henabled.imp fun h d hd e he => ?_)
  obtain ⟨f, -, rfl⟩ := Option.map_eq_some_iff.mp hd
  obtain ⟨g, -, rfl⟩ := Option.map_eq_some_iff.mp he
  exact h

theorem mem_foldr_placePair (p : Profile) (ds : List Departure) (d : Departure) :
    d ∈ ds.foldr (placePair p) [] ↔ d ∈ ds := by
  induction ds with
  | nil => rfl
  | cons n ds ih => rw [List.foldr_cons, mem_placePair, ih, List.mem_cons]

theorem pairwise_foldr_placePair {p : Profile} {ds : List Departure} (hslots : ds.Pairwise fun d e => d.slot < e.slot) :
    (ds.foldr (placePair p) []).Pairwise (DepartsBefore p) := by
  induction ds with
  | nil => exact List.Pairwise.nil
  | cons n ds ih =>
    obtain ⟨hn, hrest⟩ := List.pairwise_cons.mp hslots
    exact pairwise_placePair (ih hrest) fun d hd => hn d ((mem_foldr_placePair p ds d).mp hd)

theorem mem_departureList {p : Profile} {head first : Nat} {d : Departure} :
    d ∈ departureList p (head + 1) first ↔
      d.status = .waiting ∧ (p.slots.get d.slot).enabled = true ∧ first + (p.slots.get d.slot).offset ≤ head ∧
      d.frame = head - (p.slots.get d.slot).offset :=
  (mem_foldr_placePair p _ d).trans mem_departingPairs

theorem pairwise_departureList (p : Profile) (head first : Nat) :
    (departureList p head first).Pairwise (DepartsBefore p) :=
  pairwise_foldr_placePair (pairwise_departingPairs p head first)

/-! ## The acceptance at every block (R99) -/

@[simp] theorem advanceViews_fields (s : State) (p : Profile) :
    (s.advanceViews p).mem = s.mem ∧ (s.advanceViews p).psel = s.psel ∧ (s.advanceViews p).inReset = s.inReset ∧
    (s.advanceViews p).portA = s.portA ∧ (s.advanceViews p).portB = s.portB ∧ (s.advanceViews p).claims = s.claims ∧
    (s.advanceViews p).arb = s.arb ∧ (s.advanceViews p).seq = s.seq ∧ (s.advanceViews p).time = s.time ∧
    (s.advanceViews p).disch = s.disch ∧ (s.advanceViews p).cmd = s.cmd ∧ (s.advanceViews p).rep = s.rep ∧
    (s.advanceViews p).pins = s.pins ∧ (s.advanceViews p).choices = s.choices ∧
    (s.advanceViews p).pending = s.pending := mapStations_fields s p _

/-- Every block at the acceptance of an advance, before the reports. -/
def State.accepted (s : State) (p : Profile) : State :=
  let s1 := s.beginAdvance p
  let s3 := ((s1.tear s1.onDepartingFrame).advanceViews p).armDeadlines p
  { s3 with rep := { s3.rep with quiet := s3.rep.quiet - 1 } }

/-- The reports of the acceptance of an advance, produced together. -/
def State.acceptanceReports (s : State) (p : Profile) : List (List Content) :=
  [(s.beginAdvance p).tearReports tornDeparted (s.beginAdvance p).onDepartingFrame, s.advanceStreamReports p]

theorem sameReporting_accepted (s : State) (p : Profile) : SameReporting (s.beginAdvance p) (s.accepted p) :=
  ⟨rfl, rfl, rfl, rfl, Iff.rfl, rfl⟩

/-- The acceptance and its reports, in either order. -/
theorem advanceAll_eq (s : State) (p : Profile) : s.advanceAll p = (s.accepted p).produceAll (s.acceptanceReports p) := by
  obtain ⟨u, n, hproduced⟩ : ∃ u n, (s.beginAdvance p).produceAll (s.acceptanceReports p) =
      { s.beginAdvance p with rep := u, choices := n } := ⟨_, _, produceAll_eq _ _⟩
  have hquiet : u.quiet = s.rep.quiet := by
    obtain ⟨-, -, -, -, hquiet, -⟩ := sameUnit_produceAll (s.beginAdvance p) (s.acceptanceReports p)
    rw [hproduced] at hquiet
    exact hquiet
  have hadvanced : s.advanceAll p = { s.accepted p with rep := { u with quiet := u.quiet - 1 }, choices := n } := by
    show (let s2 := (s.beginAdvance p).produceAll (s.acceptanceReports p)
      let s3 := ((s2.tear s2.onDepartingFrame).advanceViews p).armDeadlines p
      ({ s3 with rep := { s3.rep with quiet := s3.rep.quiet - 1 } } : State)) = _
    rw [hproduced]
    rfl
  rw [produceAll_after (sameReporting_accepted s p), hproduced, hadvanced, hquiet]
  rfl

/-- The claims on the frames that depart (R76, R99). -/
theorem onDepartingFrame_begun {s : State} {pr : Profile} (hp : s.cmd.profile = some pr) (c : Claim) :
    (s.beginAdvance pr).onDepartingFrame c =
      decide (s.seq.firstFrame + (pr.slots.get c.slot).offset ≤ s.seq.head ∧
        c.frame = s.seq.head - (pr.slots.get c.slot).offset) := by
  have hsettings : (s.beginAdvance pr).settings c.slot = some (pr.slots.get c.slot) := by
    simp [State.settings, State.beginAdvance, hp]
  have hold : s.seq.firstFrame + (pr.slots.get c.slot).offset + 1 ≤ s.seq.head + 1 ↔
      s.seq.firstFrame + (pr.slots.get c.slot).offset ≤ s.seq.head := by omega
  rw [State.onDepartingFrame, hsettings, Bool.decide_and]
  show (decide (s.seq.firstFrame + (pr.slots.get c.slot).offset + 1 ≤ s.seq.head + 1) &&
    decide (c.frame = s.seq.head + 1 - 1 - (pr.slots.get c.slot).offset)) = _
  rw [decide_eq_decide.mpr hold, Nat.add_sub_cancel]

/-- The reports of the acceptance, field by field (R39, R44, R75). -/
theorem acceptanceReports_eq {s : State} {pr : Profile} (hp : s.cmd.profile = some pr) :
    s.acceptanceReports pr =
      [(s.claims.filter fun c => decide (s.seq.firstFrame + (pr.slots.get c.slot).offset ≤ s.seq.head ∧
          c.frame = s.seq.head - (pr.slots.get c.slot).offset)).map (tornOf pr 1),
       (slotNumbers.filter fun i => (pr.slots.get i).enabled).flatMap fun i =>
        (if (s.view.get i).held = 0 then [] else [heldDroppedOf pr i (s.view.get i)]) ++
        if (s.view.get i).overflow = 0 then [] else [overflowOf pr i (s.view.get i)]] := by
  have hstreams : s.advanceStreamReports pr = (slotNumbers.filter fun i => (pr.slots.get i).enabled).flatMap fun i =>
      (if (s.view.get i).held = 0 then [] else [heldDroppedOf pr i (s.view.get i)]) ++
      if (s.view.get i).overflow = 0 then [] else [overflowOf pr i (s.view.get i)] := by
    rw [State.advanceStreamReports, flatMap_enabledSlots]
    simp only [heldDropped_eq, streamOverflow_eq]
  have htorn : (s.beginAdvance pr).tearReports tornDeparted (s.beginAdvance pr).onDepartingFrame =
      (s.claims.filter fun c => decide (s.seq.firstFrame + (pr.slots.get c.slot).offset ≤ s.seq.head ∧
        c.frame = s.seq.head - (pr.slots.get c.slot).offset)).map (tornOf pr 1) := by
    rw [State.tearReports, funext (onDepartingFrame_begun hp)]
    exact List.map_congr_left fun c _ => stageTorn_eq (s := s.beginAdvance pr) hp c tornDeparted
  rw [State.acceptanceReports, hstreams, htorn]

section Accepted

variable {s : State} {pr : Profile}

/-- Every block at the acceptance but the views and the deadlines. -/
theorem accepted_fields (hp : s.cmd.profile = some pr) :
    (s.accepted pr).mem = s.mem ∧ (s.accepted pr).psel = s.psel ∧ (s.accepted pr).inReset = s.inReset ∧
    (s.accepted pr).portA = s.portA ∧ (s.accepted pr).portB = s.portB ∧
    (s.accepted pr).seq = (s.beginAdvance pr).seq ∧ (s.accepted pr).disch = s.disch ∧ (s.accepted pr).cmd = s.cmd ∧
    (s.accepted pr).rep = { s.rep with quiet := s.rep.quiet - 1 } ∧ (s.accepted pr).choices = s.choices ∧
    (s.accepted pr).time = { s.time with deadlines := (s.accepted pr).time.deadlines } ∧
    (s.accepted pr).claims = s.claims.filter fun c =>
      !decide (s.seq.firstFrame + (pr.slots.get c.slot).offset ≤ s.seq.head ∧
        c.frame = s.seq.head - (pr.slots.get c.slot).offset) := by
  refine ⟨rfl, rfl, rfl, rfl, rfl, rfl, rfl, rfl, rfl, rfl, rfl, ?_⟩
  show s.claims.filter (fun c => !(s.beginAdvance pr).onDepartingFrame c) = _
  simp only [onDepartingFrame_begun hp]

/-- The station of an enabled slot goes to the frame at its offset (R46). -/
theorem accepted_view {i : Fin 8} (hi : (pr.slots.get i).enabled = true) :
    (s.accepted pr).view.get i =
      { ((s.view.get i).onFrame (frameAtOffset (s.seq.head + 1) s.seq.firstFrame (pr.slots.get i).offset)) with
        held := 0, overflow := 0 } := by
  have hstations : (s.accepted pr).view =
      (((s.beginAdvance pr).tear (s.beginAdvance pr).onDepartingFrame).advanceViews pr).view := rfl
  rw [hstations, State.advanceViews, mapStations_view, if_pos hi]
  rfl

theorem accepted_view_disabled {i : Fin 8} (hi : (pr.slots.get i).enabled = false) :
    (s.accepted pr).view.get i = s.view.get i := by
  have hstations : (s.accepted pr).view =
      (((s.beginAdvance pr).tear (s.beginAdvance pr).onDepartingFrame).advanceViews pr).view := rfl
  rw [hstations, State.advanceViews, mapStations_view, if_neg (by simp [hi])]
  rfl

/-- The deadlines follow the current frames (R112). -/
theorem accepted_armed {i : Fin 8} {f : Nat} (hi : (pr.slots.get i).enabled = true)
    (hf : ((s.accepted pr).view.get i).currentFrame = some f) (hd : (pr.slots.get i).deadline ≠ 0) :
    (s.accepted pr).time.deadlines.get i = .armed f (s.time.counter + wordOf (pr.slots.get i).deadline) :=
  armDeadlines_armed (s := ((s.beginAdvance pr).tear (s.beginAdvance pr).onDepartingFrame).advanceViews pr) hi hf hd

theorem accepted_disarmed {i : Fin 8} (h : (pr.slots.get i).enabled = false ∨
    ((s.accepted pr).view.get i).currentFrame = none ∨ (pr.slots.get i).deadline = 0) :
    (s.accepted pr).time.deadlines.get i = .disarmed :=
  armDeadlines_disarmed (s := ((s.beginAdvance pr).tear (s.beginAdvance pr).onDepartingFrame).advanceViews pr) h

end Accepted

/-- An index in RUNNING with H below its largest is accepted. -/
theorem takeIndex_accepted {s : State} {pr : Profile} (htracking : s.seq.tracking = .running) (hp : s.cmd.profile = some pr)
    (hhead : s.seq.head < 4294967295) : s.takeIndex = (s.accepted pr).produceAll (s.acceptanceReports pr) := by
  rw [← advanceAll_eq, State.takeIndex, htracking]
  dsimp only
  rw [State.acceptAdvance, hp]
  exact if_neg (Nat.ne_of_lt hhead)

/-- Settles O51: the index is accepted, and the acceptance comes before its reports. -/
theorem indexAccepted : Obligations.IndexAccepted := by
  intro s pr hreset htracking hp hhead departs held overflows slots
  have hexec := exec_indexArrival hreset
  rw [takeIndex_accepted htracking hp hhead, acceptanceReports_eq hp] at hexec
  obtain ⟨hmem, hpsel, hinReset, hportA, hportB, hseq, hdisch, hcmd, hrep, hchoices, htime, hclaims⟩ :=
    accepted_fields (s := s) hp
  refine ⟨_, s.accepted pr, hexec, by simp [SameMemory, hmem, hpsel, hinReset], by simp [SamePorts, hportA, hportB], rfl, hrep,
    hchoices, ?_⟩
  have hregisters := sameReportRegisters_settle (s := s.accepted pr) (before := s) (spare := none)
    (sameUnit_produceAll (s.accepted pr) [(s.claims.filter fun c => decide (departs c)).map (tornOf pr 1),
      slots.flatMap fun i => held i ++ overflows i])
  obtain ⟨hwrite, hread, hmarkA, hmarkA7, hquiet, hlatch, -⟩ := hregisters
  rw [hrep] at hwrite hread hmarkA hmarkA7 hquiet hlatch
  have hlater (i : Fin 8) (h : s.seq.head + 1 < s.seq.firstFrame + (pr.slots.get i).offset) :
      frameAtOffset (s.seq.head + 1) s.seq.firstFrame (pr.slots.get i).offset = none := frameAtOffset_none h
  simp only [settle_fields, produceAll_fields, hseq, hcmd, hdisch, hclaims]
  refine ⟨trivial, trivial, trivial, rfl, rfl, rfl, rfl, rfl, rfl, rfl, ⟨_, rfl, rfl, rfl, rfl, fun h => ?_, fun h => ?_,
    fun d => mem_departureList, pairwise_departureList _ _ _⟩, fun i hi h => ?current, fun i hi h => ?none,
    fun i hi => ⟨accepted_view_disabled hi, accepted_disarmed (.inl hi)⟩, rfl, rfl, rfl, rfl, hquiet, hwrite,
    hread, hmarkA, hmarkA7, hlatch, trivial, trivial⟩
  · exact frameAtOffset_some h
  · exact frameAtOffset_none h
  case current =>
    have hview := accepted_view (s := s) hi
    rw [frameAtOffset_some h] at hview
    rw [hview]
    refine ⟨rfl, rfl, rfl, rfl, fun hd => accepted_disarmed (.inr (.inr hd)),
      accepted_armed hi (congrArg Station.currentFrame hview)⟩
  case none =>
    have hview := accepted_view (s := s) hi
    rw [hlater i h] at hview
    rw [hview]
    exact ⟨rfl, rfl, rfl, rfl, accepted_disarmed (.inr (.inl (congrArg Station.currentFrame hview)))⟩

end Sys2Proof.Machine
end

