-- ==== Sys2Proof/Proofs/Abort.lean ====
section
/-! PROOF. ABORTA and ABORTB, also between the grant of an entry and its decision (R44, R47, R75, R77, R92, R94). -/

namespace Sys2Proof.Machine

/-! ## Registers of the Report Unit over the end of a step -/

theorem registers_settle {s x before : State} {spare : Option Nat} (h : SameReportRegisters s x) :
    SameReportRegisters s (State.settle spare before x) := by
  obtain ⟨hwrite, hread, hmarkA, hmarkA7, hquiet, hlatch, hpointer⟩ := h
  obtain ⟨kwrite, kread, kmarkA, kmarkA7, kquiet, klatch, kpointer, -⟩ := settle_rep spare before x
  exact ⟨kwrite.trans hwrite, kread.trans hread, kmarkA.trans hmarkA, kmarkA7.trans hmarkA7, kquiet.trans hquiet,
    klatch.trans hlatch, kpointer.trans hpointer⟩

theorem registers_of_unit {s x : State} (h : SameUnit s.rep x.rep) : SameReportRegisters s x := by
  obtain ⟨hwrite, hread, hmarkA, hmarkA7, hquiet, hlatch, -, -, hpointer, -⟩ := h
  exact ⟨hwrite, hread, hmarkA, hmarkA7, hquiet, hlatch, hpointer⟩

theorem registers_refreshDue {s x before : State} {spare : Option Nat} (h : SameReportRegisters s x) :
    SameReportRegisters s (x.refreshDue spare before) := by
  obtain ⟨due, again, hrep⟩ := refreshDue_rep x spare before
  obtain ⟨hwrite, hread, hmarkA, hmarkA7, hquiet, hlatch, hpointer⟩ := h
  exact ⟨by rw [hrep]; exact hwrite, by rw [hrep]; exact hread, by rw [hrep]; exact hmarkA, by rw [hrep]; exact hmarkA7,
    by rw [hrep]; exact hquiet, by rw [hrep]; exact hlatch, by rw [hrep]; exact hpointer⟩

/-! ## The abort at every block (R92) -/

/-- Every block at the abort of a port, before the reports. -/
def State.aborted (s : State) (p : Port) (pr : Profile) : State :=
  ((((s.abandonWork p).setPort p (s.abortedPort p)).tear fun c => decide (c.port = p))).abortViews pr p

/-- The reports of an abort, produced together. -/
def State.abortReports (s : State) (p : Port) (pr : Profile) : List (List Content) :=
  s.abortReport p :: s.tearReports tornAborted (fun c => decide (c.port = p)) :: s.abortStreamReports pr p

section Aborted

variable {s : State} {p : Port} {pr : Profile}

theorem takeAbort_eq (hp : s.cmd.profile = some pr) : s.takeAbort p = (s.aborted p pr).produceAll (s.abortReports p pr) := by
  have hcursors (x : State) (hx : x.cmd.profile = some pr) : x.abortCursors p = x.abortViews pr p := by
    rw [State.abortCursors, hx]
  have hstream : s.abortStream p = s.abortStreamReports pr p := by rw [State.abortStream, hp]
  rw [State.takeAbort, hstream, hcursors _ (by simpa using hp)]
  rfl

theorem aborted_fields (s : State) (p : Port) (pr : Profile) :
    (s.aborted p pr).mem = s.mem ∧ (s.aborted p pr).psel = s.psel ∧ (s.aborted p pr).inReset = s.inReset ∧
    (s.aborted p pr).seq = s.seq ∧ (s.aborted p pr).time = s.time ∧ (s.aborted p pr).disch = s.disch ∧
    (s.aborted p pr).cmd = s.cmd ∧ (s.aborted p pr).rep = s.rep ∧ (s.aborted p pr).choices = s.choices ∧
    (s.aborted p pr).claims = s.claims.filter (fun c => !decide (c.port = p)) ∧
    (s.aborted p pr).arb.hold = s.arb.hold.map (fun w => w.orphaned p) ∧
    (s.aborted p pr).port p = s.abortedPort p ∧ (s.aborted p pr).port (otherPort p) = s.port (otherPort p) := by
  obtain ⟨hmem, hpsel, hinReset, hportA, hportB, hclaims, harb, hseq, htime, hdisch, hcmd, hrep, -, hchoices, -⟩ :=
    mapStations_fields ((((s.abandonWork p).setPort p (s.abortedPort p)).tear fun c => decide (c.port = p))) pr
      fun _ x st =>
        if x.port = p then { st with held := 0, cursor := if st.currentFrame.isSome then .step 0 else st.cursor } else st
  have hport (q : Port) : (s.aborted p pr).port q = ((s.abandonWork p).setPort p (s.abortedPort p)).port q := by
    cases q
    · exact hportA
    · exact hportB
  refine ⟨hmem.trans ?_, hpsel.trans ?_, hinReset.trans ?_, hseq.trans ?_, htime.trans ?_, hdisch.trans ?_, hcmd.trans ?_,
    hrep.trans ?_, hchoices.trans ?_, hclaims.trans ?_, (congrArg Arbiter.hold harb).trans ?_, (hport p).trans ?_,
    (hport _).trans ?_⟩
  all_goals simp [setPort_other _ _ _ _ (otherPort_ne p)]

/-- The stations of the port's slots lose their held values and go back to step 0 (R47). -/
theorem aborted_view (i : Fin 8) : (s.aborted p pr).view.get i =
    if (pr.slots.get i).enabled = true ∧ (pr.slots.get i).port = p then
      { s.view.get i with
        held := 0, cursor := if (s.view.get i).currentFrame.isSome then .step 0 else (s.view.get i).cursor }
    else s.view.get i := by
  rw [State.aborted, State.abortViews, mapStations_view]
  have hview : (((s.abandonWork p).setPort p (s.abortedPort p)).tear fun c => decide (c.port = p)).view = s.view := by simp
  rw [hview]
  by_cases henabled : (pr.slots.get i).enabled = true <;> by_cases hport : (pr.slots.get i).port = p <;>
    simp [henabled, hport]

/-- A state that differs from the aborted one in the port's queue, the claims and the arbiter is of an aborted port. -/
theorem abortedPort_settle {y : State} (hreading : s.reading p = false) (hmem : SameMemory s y)
    (hother : y.port (otherPort p) = s.port (otherPort p))
    (hport : y.port p = { s.abortedPort p with queue := (y.port p).queue }) (hview : ∀ i, y.view.get i = (s.aborted p pr).view.get i)
    (hseq : y.seq = s.seq) (htime : y.time = s.time) (hdisch : y.disch = s.disch) (hcmd : y.cmd = s.cmd)
    (hregisters : SameReportRegisters s y) : AbortedPort p pr s (State.settle none s y) := by
  refine ⟨by simpa [SameMemory] using hmem, by rw [settle_port, hother], ?_, ?_, ?_, fun i hi hp => ?_, fun i hi => ?_,
    by simpa using hseq, by simpa using htime, by simpa using hdisch, by simpa using hcmd, registers_settle hregisters⟩
  · rw [settle_port, hport]
    rfl
  · rw [settle_port, hport]
    exact if_neg (by simp [hreading])
  · rw [settle_port, hport]
    rfl
  · simp only [settle_fields, hview, aborted_view]
    exact if_pos ⟨hi, hp⟩
  · simp only [settle_fields, hview, aborted_view]
    refine if_neg fun h => ?_
    obtain ⟨henabled, hown⟩ := h
    exact hi.elim (fun hdisabled => by simp [hdisabled] at henabled) fun hne => hne hown

/-- The reports of an abort, field by field (R44, R75, R94). -/
theorem abortReports_eq (hp : s.cmd.profile = some pr) :
    s.abortReports p pr = s.abortReport p ::
      ((s.claims.filter fun c => decide (c.port = p)).map (tornOf pr 4)) ::
      (slotNumbers.filter fun i => (pr.slots.get i).enabled && decide ((pr.slots.get i).port = p)).map fun i =>
        if (s.view.get i).held = 0 then [] else [heldDroppedOf pr i (s.view.get i)] := by
  have htorn : s.tearReports tornAborted (fun c => decide (c.port = p)) =
      (s.claims.filter fun c => decide (c.port = p)).map (tornOf pr 4) :=
    List.map_congr_left fun c _ => stageTorn_eq hp c tornAborted
  have hstreams : s.abortStreamReports pr p =
      (slotNumbers.filter fun i => (pr.slots.get i).enabled && decide ((pr.slots.get i).port = p)).map fun i =>
        if (s.view.get i).held = 0 then [] else [heldDroppedOf pr i (s.view.get i)] := by
    rw [State.abortStreamReports, enabledSlots, List.filter_filter, List.filter_map, List.map_map]
    simp only [Function.comp_def, heldDropped_eq, Bool.and_comm]
  rw [State.abortReports, htorn, hstreams]

end Aborted

/-! ## An abort between a grant and its decision (R77) -/

section Deciding

variable {s : State} {p : Port} {pr : Profile} {g : Target} {data : Word} {enables : Enables} {isStream : Bool}
  {rest : List Entry}

/-- The grant of the entry, which the abort finds begun. -/
def State.entryBegun (s : State) (p : Port) (g : Target) (data : Word) : State :=
  (s.grantTo (portRequester p)).holds (.pass p g.slot g.frame g.card Staged.empty data)

@[simp] theorem entryBegun_fields (s : State) (p : Port) (g : Target) (data : Word) :
    (s.entryBegun p g data).mem = s.mem ∧ (s.entryBegun p g data).psel = s.psel ∧
    (s.entryBegun p g data).inReset = s.inReset ∧ (s.entryBegun p g data).view = s.view ∧
    (s.entryBegun p g data).claims = s.claims ∧ (s.entryBegun p g data).seq = s.seq ∧
    (s.entryBegun p g data).time = s.time ∧ (s.entryBegun p g data).disch = s.disch ∧
    (s.entryBegun p g data).cmd = s.cmd ∧ (s.entryBegun p g data).rep = s.rep :=
  ⟨rfl, rfl, rfl, rfl, rfl, rfl, rfl, rfl, rfl, rfl⟩

/-- The state in which the entry's decision is made: the abort is over, and the words it changed are due. -/
def State.entryAborted (s : State) (p : Port) (g : Target) (data : Word) : State :=
  (((s.entryBegun p g data).takeAbort p).release).refreshDue none s

theorem exec_abortDeciding (hreset : s.inReset = false) (hgrant : s.canGrant (portRequester p) .own = true)
    (hqueue : (s.port p).queue = entryOf isStream g data enables :: rest) :
    exec (.abortArrival { port := p, deciding := true }) s =
      .next (State.settle none s ((s.entryAborted p g data).decideGranted p isStream g data enables)) := by
  have hdeciding : s.abortDeciding p = some ((s.entryAborted p g data).decideGranted p isStream g data enables) := by
    rw [State.abortDeciding, if_pos hgrant, hqueue]
    cases isStream <;> rfl
  show s.concludeIf _ = _
  rw [if_neg (by simp [hreset]), if_pos rfl, hdeciding]
  rfl

/-- What the abort leaves for the decision. -/
theorem entryAborted_fields (hp : s.cmd.profile = some pr) :
    SameMemory s (s.entryAborted p g data) ∧
    (∀ i, (s.entryAborted p g data).view.get i = (s.aborted p pr).view.get i) ∧
    (s.entryAborted p g data).claims = s.claims.filter (fun c => !decide (c.port = p)) ∧
    (s.entryAborted p g data).arb.hold = none ∧ (s.entryAborted p g data).seq = s.seq ∧
    (s.entryAborted p g data).time = s.time ∧ (s.entryAborted p g data).disch = s.disch ∧
    (s.entryAborted p g data).cmd = s.cmd ∧ SameReportRegisters s (s.entryAborted p g data) ∧
    (s.entryAborted p g data).port p =
      { s.port p with transfer := none, queue := (s.port p).queue.take 1, pending := none } ∧
    (s.entryAborted p g data).port (otherPort p) = s.port (otherPort p) := by
  obtain ⟨hmem, hpsel, hinReset, hseq, htime, hdisch, hcmd, hrep, -, hclaims, -, hport, hother⟩ :=
    aborted_fields (s.entryBegun p g data) p pr
  have hbegun : (s.entryBegun p g data).begun p = true := decide_eq_true rfl
  have hentry (q : Port) : (s.entryBegun p g data).port q = s.port q := by cases q <;> rfl
  have hunit := sameUnit_produceAll ((s.entryBegun p g data).aborted p pr) ((s.entryBegun p g data).abortReports p pr)
  rw [hrep] at hunit
  have hfields : (s.entryAborted p g data) =
      ((((s.entryBegun p g data).aborted p pr).produceAll ((s.entryBegun p g data).abortReports p pr)).release).refreshDue
        none s := by
    rw [← takeAbort_eq (s := s.entryBegun p g data) (p := p) hp]
    rfl
  have hports (q : Port) : (s.entryAborted p g data).port q = ((s.entryBegun p g data).aborted p pr).port q := by
    rw [hfields]
    cases q <;> simp [State.port]
  have hreading : (s.entryBegun p g data).reading p = false := rfl
  rw [hports, hports, hport, hother, hentry, State.abortedPort, hentry, hbegun, hreading]
  simp only [entryBegun_fields] at hmem hpsel hinReset hseq htime hdisch hcmd hclaims hunit
  refine ⟨?_, fun i => ?_, ?_, ?_, ?_, ?_, ?_, ?_, ?_, rfl, rfl⟩
  · simp [SameMemory, hfields, hmem, hpsel, hinReset]
  · simp only [hfields, refreshDue_fields, release_fields, produceAll_fields, aborted_view, entryBegun_fields]
  · simp [hfields, hclaims]
  · simp [hfields]
  · simp [hfields, hseq]
  · simp [hfields, htime]
  · simp [hfields, hdisch]
  · simp [hfields, hcmd]
  · rw [hfields]
    exact registers_refreshDue (registers_of_unit hunit)

/-- With the port's groups torn, a card that only the port had claimed carries no claim. -/
theorem claimOn_entryAborted (hp : s.cmd.profile = some pr)
    (hclaims : ∀ c ∈ s.claims, c.frame = g.frame → c.card = g.card → c.port = p) :
    (s.entryAborted p g data).claimOn g.frame g.card = none := by
  obtain ⟨-, -, hleft, -⟩ := entryAborted_fields (g := g) (data := data) (p := p) hp
  rw [State.claimOn, hleft, List.find?_eq_none]
  intro c hc hcard
  obtain ⟨hmem, hport⟩ := List.mem_filter.mp hc
  simp only [Bool.and_eq_true, decide_eq_true_eq] at hcard
  obtain ⟨hframe, hcard⟩ := hcard
  simp [hclaims c hmem hframe hcard] at hport

/-- A decision without an access removes its entry. -/
theorem decideGranted_noAccess {u : State} (hp : s.cmd.profile = some pr)
    (hdecide : s.decideEntry p (pr.slots.get g.slot) isStream g { data := data, enables := enables } = (u, .noAccess)) :
    s.decideGranted p isStream g data enables = u.removeHead p := by
  simp only [State.decideGranted, State.settings, hp, Option.map_some, hdecide]

/-- A decision for a pass goes on under the hold. -/
theorem decideGranted_pass {u : State} {carried : Staged} (hp : s.cmd.profile = some pr)
    (hdecide : s.decideEntry p (pr.slots.get g.slot) isStream g { data := data, enables := enables } = (u, .pass carried)) :
    s.decideGranted p isStream g data enables = u.holds (.pass p g.slot g.frame g.card carried data) := by
  simp only [State.decideGranted, State.settings, hp, Option.map_some, hdecide]

end Deciding

/-- Settles O59: an abort leaves the port without its entries and groups, and an entry that has its grant is decided after
it. -/
theorem abortClearsPort : Obligations.AbortClearsPort := by
  intro p s pr hreset hp hreading
  refine ⟨?abort, fun g data enables rest hgrant hclaims => ⟨fun hqueue hmode hwritable hwords hframe => ?opens,
    fun e he hqueue => ?passes⟩⟩
  case abort =>
    intro left discards held slots
    have hexec : exec (.abortArrival { port := p, deciding := false }) s = .next (State.settle none s (s.takeAbort p)) := by
      show s.concludeIf _ = _
      rw [if_neg (by simp [hreset])]
      rfl
    rw [takeAbort_eq hp, abortReports_eq hp] at hexec
    obtain ⟨hmem, hpsel, hinReset, hseq, htime, hdisch, hcmd, hrep, hchoices, hclaims, -, hport, hother⟩ :=
      aborted_fields s p pr
    refine ⟨_, s.aborted p pr, hexec, abortedPort_settle hreading ?_ ?_ ?_ ?_ ?_ ?_ ?_ ?_ ?_, rfl, hrep, hchoices, hseq,
      htime, hcmd, fun hbegun => ?_, fun hbegun => ?_, ?_⟩
    · simp [SameMemory, hmem, hpsel, hinReset]
    · simp [hother]
    · rw [port_produceAll, hport]
    · simp
    · simp [hseq]
    · simp [htime]
    · simp [hdisch]
    · simp [hcmd]
    · exact registers_of_unit (hrep ▸ sameUnit_produceAll _ _)
    · rw [settle_port, port_produceAll, hport, State.abortedPort, hbegun]
      rfl
    · rw [settle_port, port_produceAll, hport, State.abortedPort, hbegun]
      rfl
    · simp [hclaims]
  case opens =>
    have hexec := exec_abortDeciding (isStream := false) hreset hgrant hqueue
    obtain ⟨hmem, hview, hleft, hfree, hseq, htime, hdisch, hcmd, hregisters, hport, hother⟩ :=
      entryAborted_fields (g := g) (data := data) (p := p) hp
    have hclaim := claimOn_entryAborted (data := data) hp hclaims
    have hcurrent : ((s.entryAborted p g data).view.get g.slot).currentFrame = some g.frame := by
      rw [hview, aborted_view, apply_ite Station.currentFrame, ite_self, hframe]
    have hroom : (s.entryAborted p g data).toEvict p = none := toEvict_none (by simp [claimsOf, hleft, List.filter_filter])
    have hdecide := (decideEntry_free hclaim).trans (decideOwn_open (p := p) (x := pr.slots.get g.slot)
      (word := { data := data, enables := enables }) hmode hwritable hcurrent (by omega) hclaim)
    rw [openGroup_room hroom] at hdecide
    rw [decideGranted_noAccess (hcmd ▸ hp) hdecide] at hexec
    have hsame (q : Port) : ({ s.entryAborted p g data with claims := (s.entryAborted p g data).claims ++
        [openedClaim p g { data := data, enables := enables }] } : State).port q = (s.entryAborted p g data).port q := by
      cases q <;> rfl
    refine ⟨_, hexec, abortedPort_settle hreading ?_ ?_ ?_ (fun i => ?_) ?_ ?_ ?_ ?_ ?_, ?_, ?_, ?_⟩
    · simpa [SameMemory] using hmem
    · rw [removeHead_other _ _ _ (otherPort_ne p), hsame, hother]
    · rw [removeHead_same, hsame, hport, State.abortedPort, hreading]
      rfl
    · simp [hview]
    · simp [hseq]
    · simp [htime]
    · simp [hdisch]
    · simp [hcmd]
    · simpa [SameReportRegisters] using hregisters
    · rw [settle_port, removeHead_same, hsame, hport, hqueue]
      rfl
    · simp [hfree]
    · simp [hleft, openedClaim, carriedWord]
  case passes =>
    obtain ⟨isStream, hentry, hword⟩ : ∃ isStream, e = entryOf isStream g data enables ∧
        (isStream = true ∨ (pr.slots.get g.slot).mode = .word) := by
      obtain ⟨rfl, hmode⟩ | rfl := he
      · exact ⟨false, rfl, .inr hmode⟩
      · exact ⟨true, rfl, .inl rfl⟩
    have hexec := exec_abortDeciding (isStream := isStream) hreset hgrant (hentry ▸ hqueue)
    obtain ⟨hmem, hview, hleft, hfree, hseq, htime, hdisch, hcmd, hregisters, hport, hother⟩ :=
      entryAborted_fields (g := g) (data := data) (p := p) hp
    have hdecide := (decideEntry_free (claimOn_entryAborted (data := data) hp hclaims)).trans (decideOwn_word (p := p)
      (x := pr.slots.get g.slot) (word := { data := data, enables := enables }) hword)
    rw [decideGranted_pass (hcmd ▸ hp) hdecide] at hexec
    have hsame (q : Port) (w : Work) : ((s.entryAborted p g data).holds w).port q = (s.entryAborted p g data).port q := by
      cases q <;> rfl
    refine ⟨_, hexec, abortedPort_settle hreading ?_ ?_ ?_ (fun i => ?_) ?_ ?_ ?_ ?_ ?_, ?_, ?_, ?_⟩
    · exact hmem
    · rw [hsame, hother]
    · rw [hsame, hport, State.abortedPort, hreading]
      rfl
    · exact hview i
    · exact hseq
    · exact htime
    · exact hdisch
    · exact hcmd
    · exact hregisters
    · rw [settle_port, hsame, hport, hqueue]
      rfl
    · simp [State.holds, carriedWord]
    · simp only [settle_fields]
      exact hleft

end Sys2Proof.Machine
end

