-- ==== Sys2Proof/Proofs/ReportWrites.lean ====
section
/-! PROOF. The writes of the Report Unit, and which status words become due (R151 to R153, R155, R156, R159, R161, R162). -/

namespace Sys2Proof.Machine

/-! ## Status words that become due (R161, R162) -/

/-- The status words are of registers that raising requests and marking words due leave alone. -/
theorem statusValue_settle (spare : Option Nat) (before x : State) (n : Nat) :
    (State.settle spare before x).statusValue n = x.admissionDrops.drivePins.statusValue n := by
  obtain ⟨due, again, hrep⟩ := refreshDue_rep x.admissionDrops.drivePins spare before
  simp [State.settle, State.statusValue, hrep]

/-- A status word that has not changed does not become due. -/
theorem not_mem_markChanged {before after : State} {spare : Option Nat} {n : Nat} (h : statusChanged before after n = false)
    (ns : List Nat) {u : ReportUnit} (hu : n ∉ u.due) : n ∉ (ReportUnit.markChanged before after spare ns u).due := by
  induction ns generalizing u with
  | nil => exact hu
  | cons m ns ih =>
    unfold ReportUnit.markChanged
    split
    · next hm =>
      have hne : n ≠ m := by
        rintro rfl
        simp [h] at hm
      refine ih ?_
      rw [ReportUnit.markDue]
      dsimp only
      split
      · exact hu
      · simp [hu, hne]
    · exact ih hu

theorem not_mem_due_settle {before x : State} {spare : Option Nat} {n : Nat} (hdue : n ∉ x.rep.due)
    (hclaims : x.claims = before.claims) (hvalue : (State.settle spare before x).statusValue n = before.statusValue n) :
    n ∉ (State.settle spare before x).rep.due := by
  obtain ⟨⟨-, -, -, -, -, -, hdrops, -⟩, -, -⟩ := sameUnit_admissionDrops x
  have hchanged : statusChanged before x.admissionDrops.drivePins n = false := by
    rw [statusValue_settle] at hvalue
    simp [statusChanged, hvalue, hclaims]
  have hrep : x.admissionDrops.drivePins.rep.due = x.rep.due := hdrops
  simp only [State.settle, raise_fields, State.refreshDue]
  split
  · exact not_mem_markChanged hchanged _ (hrep ▸ hdue)
  · exact hrep ▸ hdue

/-- Every changed status word is due after a step in upkeep, unless its own failed write changed it (R161, R162). -/
theorem exec_due {i : Instr} {s t : State} {n : Nat} (h : exec i s = .next t) (hunconfigured : t.seq.tracking ≠ .unconfigured)
    (hhalted : t.seq.tracking ≠ .halted) (hn : n < 15) (hchanged : t.statusValue n ≠ s.statusValue n) (hspares : ¬Spares i s n) :
    n ∈ t.rep.due := by
  cases exec_ends h with
  | idle => exact absurd rfl hchanged
  | settled spare u hspare =>
    have hupkeep : u.seq.tracking.upkeep = true := by
      simp only [settle_fields] at hunconfigured hhalted
      revert hunconfigured hhalted
      cases u.seq.tracking <;> simp [Tracking.upkeep]
    refine settle_due spare s u n hupkeep hn ?_ fun heq => hspares (hspare n heq)
    rw [statusValue_settle] at hchanged
    simp [statusChanged, hchanged.symm]
  | reset completed => exact absurd rfl hunconfigured
  | released straps => exact absurd rfl hchanged

/-! ## Record writes (R153, R155, R156, R159) -/

/-- The words of a record go out with word 0 last (R153). -/
theorem recordWrites_eq (w : RecordWrite) :
    recordWrites w =
      [(w.address + 4, recordWord w.report w.sequence 1), (w.address + 8, recordWord w.report w.sequence 2),
       (w.address + 12, recordWord w.report w.sequence 3), (w.address + 16, recordWord w.report w.sequence 4),
       (w.address + 20, recordWord w.report w.sequence 5), (w.address + 24, recordWord w.report w.sequence 6),
       (w.address + 28, recordWord w.report w.sequence 7), (w.address, recordWord w.report w.sequence 0)] := rfl

/-- A record write that memory answers OK. -/
theorem finishRecord_ok {s : State} {w : RecordWrite} (pr : Profile) (hw : s.rep.writing = some w) :
    s.finishRecord pr none = ({ s with mem := writesTo s.mem (recordWrites w) } : State).recordWritten pr w := by
  have hbus : (Bus.start s.mem none).writes (recordWrites w) = Bus.start (writesTo s.mem (recordWrites w)) none :=
    busWrites_ok _ _
  rw [State.finishRecord, hw]
  dsimp only
  generalize writesTo s.mem (recordWrites w) = m at hbus ⊢
  rw [hbus]
  rfl

/-- A record that is admitted: W, the marks and the latch follow it (R153, R155, R159). -/
def State.recordAdmitted (s : State) (pr : Profile) (w : RecordWrite) : State :=
  ({ s with rep := { (s.rep.leave w).mark pr.irqThreshold w with writeSeq := s.rep.writeSeq + 1 } }).updateLatch

@[simp] theorem recordAdmitted_fields (s : State) (pr : Profile) (w : RecordWrite) :
    (s.recordAdmitted pr w).mem = s.mem ∧ (s.recordAdmitted pr w).psel = s.psel ∧
    (s.recordAdmitted pr w).inReset = s.inReset ∧ (s.recordAdmitted pr w).portA = s.portA ∧
    (s.recordAdmitted pr w).portB = s.portB ∧ (s.recordAdmitted pr w).view = s.view ∧
    (s.recordAdmitted pr w).claims = s.claims ∧ (s.recordAdmitted pr w).seq = s.seq ∧
    (s.recordAdmitted pr w).time = s.time ∧ (s.recordAdmitted pr w).disch = s.disch ∧ (s.recordAdmitted pr w).cmd = s.cmd ∧
    (s.recordAdmitted pr w).rep.writeSeq = s.rep.writeSeq + 1 ∧ (s.recordAdmitted pr w).rep.readSeq = s.rep.readSeq ∧
    (s.recordAdmitted pr w).rep.quiet = s.rep.quiet ∧
    (s.recordAdmitted pr w).rep.markA = (if pr.irqThreshold ≤ w.report.level then some w.sequence else s.rep.markA) ∧
    (s.recordAdmitted pr w).rep.markA7 = (if w.report.level = 7 then some w.sequence else s.rep.markA7) ∧
    (s.recordAdmitted pr w).rep.queue = if w.queued then s.rep.queue.tail else s.rep.queue := by
  obtain ⟨latch, h⟩ := updateLatch_eq
    { s with rep := { (s.rep.leave w).mark pr.irqThreshold w with writeSeq := s.rep.writeSeq + 1 } }
  rw [State.recordAdmitted, h]
  exact ⟨rfl, rfl, rfl, rfl, rfl, rfl, rfl, rfl, rfl, rfl, rfl, rfl, rfl, rfl, rfl, rfl, rfl⟩

/-- The fill latch follows the room that the record leaves (R159). -/
theorem recordAdmitted_latch {s : State} {pr : Profile} (w : RecordWrite) (hp : s.cmd.profile = some pr) :
    LatchFollows pr (pr.capacity - (s.rep.writeSeq + 1 - s.rep.readSeq)) s (s.recordAdmitted pr w) := by
  have hlatch := updateLatch_fillLatch
    { s with rep := { (s.rep.leave w).mark pr.irqThreshold w with writeSeq := s.rep.writeSeq + 1 } } pr hp
  have hfree : ({ s with rep := { (s.rep.leave w).mark pr.irqThreshold w with writeSeq := s.rep.writeSeq + 1 } } : State).free =
      pr.capacity - (s.rep.writeSeq + 1 - s.rep.readSeq) := by
    rw [State.free]
    dsimp only
    rw [hp]
    rfl
  rw [hfree] at hlatch
  exact hlatch

/-- The write of the head report, at its grant (R153). -/
def State.headRecord (s : State) (pr : Profile) (r : Report) : RecordWrite :=
  { report := r, address := recordAddress pr s.rep.writeSeq, sequence := s.rep.writeSeq, queued := true, superseded := false }

/-- The state of the grant of a record write, without its hold. -/
def State.recordBegun (s : State) (pr : Profile) (r : Report) : State :=
  { s.grantReport false with rep := { (s.grantReport false).rep with writing := some (s.headRecord pr r) } }

/-- A whole write of the head report admits it. -/
theorem exec_record {s : State} {pr : Profile} {r : Report} {rest : List Report} (hgrant : s.canGrant .report .record = true)
    (hp : s.cmd.profile = some pr) (hqueue : s.rep.queue = r :: rest) (hready : s.recordReady = true) :
    ∃ spare, exec (.reportRecordWrite (.whole none)) s = .next (State.settle spare s
      (({ s.recordBegun pr r with mem := writesTo s.mem (recordWrites (s.headRecord pr r)) } : State).recordAdmitted pr
        (s.headRecord pr r))) := by
  obtain ⟨-, hfree, -, -⟩ := (canGrant_iff s _ _).mp hgrant
  have hgranted : s.recordGranted = some ((s.recordBegun pr r).holds .record) := by
    rw [State.recordGranted, if_pos hgrant, hp, hqueue]
    dsimp only
    rw [if_pos hready]
    rfl
  have hreleased : (s.recordBegun pr r).release = s.recordBegun pr r := release_of_free hfree
  have hended : ((s.recordBegun pr r).holds .record).endHold none =
      ({ s.recordBegun pr r with mem := writesTo s.mem (recordWrites (s.headRecord pr r)) } : State).recordAdmitted pr
        (s.headRecord pr r) := by
    rw [endHold_holds, hreleased, State.finishWork, finishWith_some (s := s.recordBegun pr r) hp,
      finishRecord_ok (s := s.recordBegun pr r) pr rfl, State.recordWritten, if_neg (by simp [State.headRecord])]
    rfl
  refine ⟨((s.recordBegun pr r).holds .record).sparedWord none, ?_⟩
  show s.runSpan (.whole none) s.recordGranted isRecordWrite = _
  rw [hgranted, runSpan_whole_held _ _ _ _ rfl, hended]

theorem finishRecord_superseded {s : State} {w : RecordWrite} (pr : Profile) (hw : s.rep.writing = some w)
    (hsuperseded : w.superseded = true) :
    s.finishRecord pr none = { s with mem := writesTo s.mem (recordWrites w), rep := s.rep.leave w } := by
  rw [finishRecord_ok pr hw]
  generalize writesTo s.mem (recordWrites w) = m
  exact if_pos hsuperseded

/-- The end of a record write whose grant an APPLY has overtaken: the report leaves the queue, and no number is given
(R156). -/
theorem exec_record_superseded {s : State} {pr : Profile} {w : RecordWrite} (hhold : s.arb.hold = some .record)
    (hp : s.cmd.profile = some pr) (hw : s.rep.writing = some w) (hsuperseded : w.superseded = true)
    (hstatus : w.report.ofStatusW = false) :
    exec (.reportRecordWrite (.finish none)) s = .next (State.settle none s
      { s.release with mem := writesTo s.mem (recordWrites w), rep := s.rep.leave w }) := by
  have hspared : s.sparedWord none = none := by
    rw [State.sparedWord, hhold]
    dsimp only
    rw [hw]
    exact if_neg (by simp [hstatus])
  have hended : s.endHold none = { s.release with mem := writesTo s.mem (recordWrites w), rep := s.rep.leave w } := by
    rw [State.endHold, hhold]
    show s.release.finishWork .record none = _
    rw [State.finishWork, finishWith_some (s := s.release) hp, finishRecord_superseded (s := s.release) pr hw hsuperseded]
    simp only [release_fields]
  have hmine : s.holdIs isRecordWrite = true := (holdIs_iff _ _).mpr ⟨_, hhold, rfl⟩
  show s.runSpan (.finish none) s.recordGranted isRecordWrite = _
  rw [State.runSpan]
  dsimp only
  rw [if_pos hmine, hspared, hended]
  rfl

/-! ## Status writes and the write of the read-pointer word (R156, R161) -/

/-- The state after a status write that memory answered OK. -/
def State.statusWritten (s : State) (n : Nat) : State :=
  { s.statusFailed n with mem := s.mem.writeWord (s.blockBase + 0x40 + 4 * n) (s.statusValue n) }

theorem exec_status_ok {s : State} {n : Nat} {rest : List Nat} (hgrant : s.canGrant .report .status = true)
    (hdue : s.rep.due = n :: rest) :
    exec (.statusWordWrite (.whole none)) s = .next (State.settle none s (s.statusWritten n)) := by
  obtain ⟨-, hfree, -, -⟩ := (canGrant_iff s _ _).mp hgrant
  have hgranted : s.statusGranted = some (s.statusBegun.holds (.status n (s.statusValue n))) := by
    rw [State.statusGranted, if_pos hgrant, hdue]
    rfl
  have hreleased : s.statusBegun.release = s.statusBegun := release_of_free hfree
  have hended : (s.statusBegun.holds (.status n (s.statusValue n))).endHold none = s.statusWritten n := by
    rw [endHold_holds, hreleased, State.statusWritten, ← statusAddress_eq]
    rfl
  show s.runSpan (.whole none) s.statusGranted isStatusWrite = _
  rw [hgranted, runSpan_whole_held _ _ _ _ rfl, hended]
  rfl

/-- The state of the grant of that write, without its hold. -/
def State.pointerBegun (s : State) : State := { s.grantTo .report with rep := { s.rep with readPointerDue := false } }

/-- The state after the write of 1 into the read-pointer word. -/
def State.pointerWritten (s : State) : State :=
  { s.grantTo .report with
    mem := s.mem.writeWord (s.blockBase + 8) 1, rep := { s.rep with readPointerDue := false } }

theorem exec_pointer_ok {s : State} (hgrant : s.canGrant .report .readPointer = true) :
    exec (.readPointerResetWrite (.whole none)) s = .next (State.settle none s s.pointerWritten) := by
  obtain ⟨-, hfree, -, -⟩ := (canGrant_iff s _ _).mp hgrant
  have hgranted : s.pointerGranted = some (s.pointerBegun.holds .readPointer) := if_pos hgrant
  have hreleased : s.pointerBegun.release = s.pointerBegun := release_of_free hfree
  show s.runSpan (.whole none) s.pointerGranted isPointerWrite = _
  rw [hgranted, runSpan_whole_held _ _ _ _ rfl, endHold_holds, hreleased]
  rfl

/-- Settles O60: the record, the status word, what becomes due, the read-pointer word, and the record that APPLY overtook. -/
theorem reportUnitWrites : Obligations.ReportUnitWrites := by
  refine ⟨fun s pr r rest hgrant hp hqueue hready => ?record, fun s n rest hgrant hdue => ?status,
    fun i s t n h hunconfigured hhalted hn hchanged hspares => exec_due h hunconfigured hhalted hn hchanged hspares,
    fun s hgrant => ?pointer, fun s pr w hhold hp hw hsuperseded hstatus => ?superseded⟩
  case record =>
    obtain ⟨spare, hexec⟩ := exec_record hgrant hp hqueue hready
    intro base word
    have hwords : writesTo s.mem (recordWrites (s.headRecord pr r)) = writesTo s.mem
        [(base + 4, word 1), (base + 8, word 2), (base + 12, word 3), (base + 16, word 4), (base + 20, word 5),
         (base + 24, word 6), (base + 28, word 7), (base, word 0)] := congrArg (writesTo s.mem) (recordWrites_eq _)
    generalize writesTo s.mem (recordWrites (s.headRecord pr r)) = m at hexec hwords
    have hlatch := recordAdmitted_latch (s := { s.recordBegun pr r with mem := m }) (s.headRecord pr r) hp
    obtain ⟨kwrite, kread, kmarkA, kmarkA7, kquiet, klatch, -, -, -, kqueue⟩ :=
      settle_rep spare s (({ s.recordBegun pr r with mem := m } : State).recordAdmitted pr (s.headRecord pr r))
    simp only [recordAdmitted_fields] at kwrite kread kmarkA kmarkA7 kquiet kqueue
    refine ⟨_, hexec, ?_, kwrite, kread, kquiet, fun h => kmarkA.trans (if_pos h), fun h => kmarkA.trans (if_neg (Nat.not_le.mpr h)),
      fun h => kmarkA7.trans (if_pos h), fun h => kmarkA7.trans (if_neg h), ?_, ?_, ?_, ?_⟩
    · simpa using hwords
    · rw [LatchFollows, klatch]
      exact hlatch
    · exact kqueue.trans (by simp [State.headRecord, State.recordBegun, State.grantReport, hqueue])
    · simp [SamePorts, State.recordBegun, State.grantReport]
    · simp [SameInner, State.recordBegun, State.grantReport]
  case status =>
    obtain ⟨⟨more, hmore⟩, -⟩ := settle_dueMarks none s (s.statusWritten n)
    have hleft : (s.statusWritten n).rep.due = rest.filter fun m => decide (m ≠ n) := by
      simp [State.statusWritten, State.statusFailed, hdue]
    refine ⟨_, exec_status_ok hgrant hdue, by simp [State.statusWritten], ⟨more, hleft ▸ hmore⟩,
      not_mem_due_settle (by simp [hleft]) rfl, ?_, ?_, ?_⟩
    · simp [SamePorts, State.statusWritten, State.statusFailed]
    · simp [SameInner, State.statusWritten, State.statusFailed]
    · exact registers_settle ⟨rfl, rfl, rfl, rfl, rfl, rfl, rfl⟩
  case pointer =>
    obtain ⟨hwrite, hread, -, -, -, -, hpointer, -⟩ := settle_rep none s s.pointerWritten
    exact ⟨_, exec_pointer_ok hgrant, by simp [State.pointerWritten], hpointer, hwrite, hread,
      by simp [SamePorts, State.pointerWritten], by simp [SameInner, State.pointerWritten]⟩
  case superseded => exact exec_record_superseded hhold hp hw hsuperseded hstatus

end Sys2Proof.Machine
end

