-- ==== Sys2Proof/Proofs/Stages.lean ====
section
/-! PROOF. The stages of an advance: pairs, drain waits, judgement and completion (R104, R105, R107 to R109). -/

namespace Sys2Proof.Machine

/-! ## Departure lists (R104, R105) -/

section Pairs

variable {before after : List Departure} {d : Departure} {status : PairStatus}

theorem pairDone_append (hbefore : ∀ e ∈ before, e.status ≠ status) (hd : d.status = status) :
    pairDone status (before ++ d :: after) = before ++ { d with status := .done } :: after := by
  induction before with
  | nil => exact if_pos hd
  | cons e before ih =>
    obtain ⟨he, hrest⟩ := List.forall_mem_cons.mp hbefore
    rw [List.cons_append, pairDone, if_neg he, ih hrest]
    rfl

theorem beginPair_append (hbefore : ∀ e ∈ before, e.status ≠ .waiting) (hd : d.status = .waiting) :
    beginPair (before ++ d :: after) = before ++ { d with status := .draining } :: after := by
  induction before with
  | nil => exact if_pos hd
  | cons e before ih =>
    obtain ⟨he, hrest⟩ := List.forall_mem_cons.mp hbefore
    rw [List.cons_append, beginPair, if_neg he, ih hrest]
    rfl

theorem anyWaiting_iff (ds : List Departure) : anyWaiting ds = true ↔ ∃ d ∈ ds, d.status = .waiting := by
  simp [anyWaiting]

end Pairs

/-! ## Completion of an advance (R109) -/

/-- With no index waiting, an advance that completes without START FRESH leaves the ring running. -/
theorem completeAdvance_running {s : State} (hindex : s.seq.pendingIndex = 0)
    (hstart : ∀ tag, s.cmd.running ≠ some (.startFresh tag)) :
    s.completeAdvance = { s with seq := { s.seq with advance := none, tracking := .running } } := by
  rw [State.completeAdvance, endStart_idle (s := { s with seq := { s.seq with advance := none } }) hstart]
  dsimp only
  rw [if_neg (by omega)]

/-- Stage JUDGING begins with a judgement frame (R108). -/
theorem enterJudging_some {s : State} {p : Profile} {v : Advance} {f : Nat} (h : v.judgeFrame = some f) :
    s.enterJudging p v = { s with seq := { s.seq with
      advance := some { v with stage := .judging, check := none, judge := some (JudgeProgress.start p) } } } := by
  rw [State.enterJudging, h]

theorem enterJudging_none {s : State} {p : Profile} {v : Advance} (h : v.judgeFrame = none) :
    s.enterJudging p v = s.completeAdvance := by
  rw [State.enterJudging, h]

theorem nextPair_waiting {s : State} {p : Profile} {v : Advance} (h : anyWaiting v.departures = true) :
    s.nextPair p v = { s with seq := { s.seq with
      advance := some { v with stage := .checking, departures := beginPair v.departures, check := none } } } := if_pos h

theorem nextPair_done {s : State} {p : Profile} {v : Advance} (h : ∀ d ∈ v.departures, d.status ≠ .waiting) :
    s.nextPair p v = s.enterJudging p v := by
  refine if_neg fun hwaiting => ?_
  obtain ⟨d, hd, hstatus⟩ := (anyWaiting_iff _).mp hwaiting
  exact h d hd hstatus

/-! ## The drain wait (R105) -/

section Drain

variable {s : State} {pr : Profile} {v : Advance} {d : Departure}

theorem exec_drainWaitEnd (hreset : s.inReset = false) (hp : s.cmd.profile = some pr) (hv : s.seq.advance = some v)
    (hstage : v.stage = .checking) (hd : drainingPair v.departures = some d)
    (hqueued : ∀ e ∈ s.portA.queue ++ s.portB.queue, e.mappedTo d.slot d.frame = false) :
    exec .drainWaitEnd s = .next (State.settle none s (s.endDrain pr v d)) := by
  have hdrained : s.drained d = true := by
    simp only [State.drained, Bool.not_eq_true', List.any_eq_false]
    exact fun e he => by simp [hqueued e he]
  have hended : s.drainEnded = some (s.endDrain pr v d) := by
    rw [State.drainEnded, hp, hv]
    dsimp only
    rw [if_pos hstage, hd]
    exact if_pos hdrained
  show s.concludeIf _ = _
  rw [if_neg (by simp [hreset]), hended]
  rfl

theorem endDrain_check (hexit : (pr.slots.get d.slot).exit ≠ .none) :
    s.endDrain pr v d = { s with seq := { s.seq with
      advance := some { v with
        departures := pairChecking v.departures
        check := some { todo := windowCards pr (pr.slots.get d.slot), written := 0, first := none } } } } := by
  rw [State.endDrain]
  dsimp only
  split
  · next h => exact absurd h hexit
  · rfl

theorem endDrain_none (hexit : (pr.slots.get d.slot).exit = .none) :
    s.endDrain pr v d = s.nextPair pr { v with departures := pairDone .draining v.departures } := by
  rw [State.endDrain, hexit]

end Drain

/-- Settles O54, by the exit condition and by what follows the pair. -/
theorem drainWaitEnds : Obligations.DrainWaitEnds := by
  intro s pr v d hreset hp hv hstage hd hqueued
  have hexec := exec_drainWaitEnd hreset hp hv hstage hd hqueued
  have hdraining : d.status = .draining := by simpa using List.find?_some hd
  have hlast {before : List Departure} (hlist : v.departures = before ++ [d]) (hbefore : ∀ e ∈ before, e.status = .done) :
      pairDone .draining v.departures = before ++ [{ d with status := .done }] ∧
      ∀ e ∈ before ++ [{ d with status := .done }], e.status ≠ .waiting := by
    refine ⟨by rw [hlist, pairDone_append (fun e he => by simp [hbefore e he]) hdraining], fun e he => ?_⟩
    obtain he | he := List.mem_append.mp he
    · simp [hbefore e he]
    · rw [List.mem_singleton.mp he]
      exact nofun
  refine ⟨fun hexit => ?check, fun hexit hwaiting => ?next, fun f before hexit hlist hbefore hjudge => ?judging,
    fun before hexit hlist hbefore hjudge hindex hstart => ?complete⟩
  case check => rw [hexec, endDrain_check hexit]
  case next =>
    rw [hexec, endDrain_none hexit, nextPair_waiting hwaiting, hstage]
  case judging =>
    obtain ⟨hdone, hwaiting⟩ := hlast hlist hbefore
    rw [hexec, endDrain_none hexit, hdone, nextPair_done hwaiting,
      enterJudging_some (v := { v with departures := before ++ [{ d with status := .done }] }) hjudge]
    rfl
  case complete =>
    obtain ⟨hdone, hwaiting⟩ := hlast hlist hbefore
    rw [hexec, endDrain_none hexit, hdone, nextPair_done hwaiting,
      enterJudging_none (v := { v with departures := before ++ [{ d with status := .done }] }) hjudge,
      completeAdvance_running hindex hstart]

end Sys2Proof.Machine
end

