-- ==== Sys2Proof/Proofs/CardUnits.lean ====
section
/-! PROOF. The units of work on a card: departure checks, judgement, marking and scan reads (R55, R106, R115, R116, R118, R119, R144). -/

namespace Sys2Proof.Machine

/-! ## The exit condition (R106) -/

theorem meetsExit_iff (x : SlotSettings) (i : Fin 8) (read : Word) :
    meetsExit x i read = true ↔
      (cardState read = 14 ∨ cardState read = 15 ∨ x.exit = .none ∨
       (∃ n, x.exit = .rank n ∧ n ≤ (if (cardState read).toNat ≤ 5 then (cardState read).toNat else 0)) ∨
       (x.exit = .mark ∧ (cardMarks read).getLsbD i.val = true)) := by
  rw [meetsExit, Bool.or_eq_true, isEndState_iff, or_assoc]
  refine or_congr_right (or_congr_right ?_)
  cases x.exit with
  | none => simp
  | rank r =>
    have hrank : decide (r ≤ rankOf (cardState read)) = true ↔ r ≤ rankOf (cardState read) := decide_eq_true_iff
    simpa [rankOf] using hrank
  | mark => simp [isMarked]

/-! ## The count of judgement (R119) -/

section Count

variable (j : JudgeProgress) (card : Nat) (cause : BitVec 4)

/-- A single bit, shifted to its place. -/
theorem getLsbD_bit {w n : Nat} (k : Nat) (hn : n < w) : (1#w <<< k).getLsbD n = decide (n = k) := by
  rw [BitVec.getLsbD_shiftLeft, BitVec.getLsbD_one]
  by_cases hk : n = k
  · simp [hk, hk ▸ hn]
    omega
  · simp [hk, hn]
    omega

theorem getLsbD_causes {n : Nat} (hn : n < 16) :
    (j.causes ||| (1#16 <<< cause.toNat)).getLsbD n = (j.causes.getLsbD n || decide (n = cause.toNat)) := by
  rw [BitVec.getLsbD_or, getLsbD_bit _ hn]

/-- The row set of a rejected card's row gains its lane, and no other row set changes. -/
theorem getLsbD_rowSets (sets : List (BitVec 8)) {lane row : Nat} (hlane : 1 ≤ lane) (hlane' : lane ≤ 8) (hrow : 1 ≤ row)
    (hrow' : row ≤ sets.length) :
    ((sets.modify (rowOf card - 1) fun x => x ||| (1#8 <<< (laneOf card - 1))).getD (row - 1) 0).getLsbD (lane - 1) =
      ((sets.getD (row - 1) 0).getLsbD (lane - 1) || (decide (row = card / 8 + 1) && decide (lane = card % 8 + 1))) := by
  have hget : sets[row - 1]? = some sets[row - 1] := List.getElem?_eq_getElem (by omega)
  simp only [List.getD_eq_getElem?_getD, List.getElem?_modify, hget, rowOf, laneOf, Nat.add_sub_cancel,
    Option.map_eq_map, Option.map_some, Option.getD_some]
  by_cases hcard : row = card / 8 + 1
  · have hsame : card / 8 = row - 1 := by omega
    have hlanes : lane - 1 = card % 8 ↔ lane = card % 8 + 1 := by omega
    rw [if_pos hsame, BitVec.getLsbD_or, getLsbD_bit _ (by omega),
      decide_eq_true hcard, Bool.true_and, decide_eq_decide.mpr hlanes]
  · have hother : ¬card / 8 = row - 1 := by omega
    rw [if_neg hother, decide_eq_false hcard, Bool.false_and, Bool.or_false]

theorem orElse_first (first : Option Nat) (b : Bool) :
    (if b && first.isNone then some card else first) = if b then first.or (some card) else first := by
  cases b <;> cases first <;> rfl

end Count

/-! ## A card check (R88) -/

/-- Memory after a card check, which writes word 0 at most. -/
def changedMemory (m : Memory) (a : Nat) (change : Option Word) : Memory :=
  match change with
  | some w => m.writeWord a w
  | none => m

theorem checkAccesses_ok (m : Memory) (a : Nat) (change : Word → Option Word) :
    checkAccesses (Bus.start m none) a change =
      (m.readWord a, Bus.start (changedMemory m a (change (m.readWord a))) none) := by
  simp only [checkAccesses, Bus.read, answer_ok (Bus.start m none) a rfl rfl]
  show (match change (m.readWord a) with
    | some v => (m.readWord a, (Bus.start m none).write a v)
    | none => (m.readWord a, Bus.start m none)) = _
  cases change (m.readWord a) with
  | none => rfl
  | some w => exact congrArg (Prod.mk _) (busWrite_ok m a w)

/-- The state after a card check of the word at an address. -/
def State.checked (s : State) (a : Nat) (change : Word → Option Word) : State :=
  { s with mem := changedMemory s.mem a (change (s.mem.readWord a)) }

section Finish

variable (s : State) (p : Profile) (slot : Fin 8) (frame card : Nat)

theorem finishCheck_ok :
    s.finishCheck p slot frame card none =
      (s.checked (ringAddress p frame card 0) (departureChange (p.slots.get slot) slot)).cardExamined p card
        (departureChange (p.slots.get slot) slot (s.mem.readWord (ringAddress p frame card 0))).isSome := by
  rw [State.finishCheck, checkAccesses_ok]
  exact ownUnit_ok _ _ _ _

theorem finishJudge_ok :
    s.finishJudge p frame card none =
      (s.checked (ringAddress p frame card 0) fun r => (judged p.goodState frame r).1).cardJudged p frame card
        (judged p.goodState frame (s.mem.readWord (ringAddress p frame card 0))).2 := by
  rw [State.finishJudge, checkAccesses_ok]
  exact ownUnit_ok _ _ _ _

theorem finishMark_ok :
    s.finishMark p frame card none = (s.checked (ringAddress p frame card 0) markingChange).cardMarked := by
  rw [State.finishMark, checkAccesses_ok]
  exact ownUnit_ok _ _ _ _

theorem finishScanRead_ok :
    s.finishScanRead p slot frame card none = s.cardScanned p slot frame card (s.mem.readWord (ringAddress p frame card 0)) := by
  simp only [State.finishScanRead, Bus.read, answer_ok (Bus.start s.mem none) _ rfl rfl]
  rfl

end Finish

/-! ## Whole units of work of the Ring Sequencer -/

/-- The state of a whole unit of the Ring Sequencer's own work, with the memory and the registers it leaves. -/
def State.unitDone (s : State) (m : Memory) (q : Sequencer) : State := { s.grantTo .sequencer with mem := m, seq := q }

@[simp] theorem unitDone_fields (s : State) (m : Memory) (q : Sequencer) :
    (s.unitDone m q).mem = m ∧ (s.unitDone m q).psel = s.psel ∧ (s.unitDone m q).inReset = s.inReset ∧
    (s.unitDone m q).portA = s.portA ∧ (s.unitDone m q).portB = s.portB ∧ (s.unitDone m q).view = s.view ∧
    (s.unitDone m q).claims = s.claims ∧ (s.unitDone m q).seq = q ∧ (s.unitDone m q).time = s.time ∧
    (s.unitDone m q).disch = s.disch ∧ (s.unitDone m q).cmd = s.cmd ∧ (s.unitDone m q).rep = s.rep ∧
    (s.unitDone m q).pins = s.pins ∧ (s.unitDone m q).choices = s.choices :=
  ⟨rfl, rfl, rfl, rfl, rfl, rfl, rfl, rfl, rfl, rfl, rfl, rfl, rfl, rfl⟩

/-- A unit that changes memory and the Ring Sequencer alone. -/
theorem unitDone_settle (s : State) (m : Memory) (q : Sequencer) :
    SamePorts s (State.settle none s (s.unitDone m q)) ∧ SameBlocks s (State.settle none s (s.unitDone m q)) ∧
    (State.settle none s (s.unitDone m q)).time = s.time ∧ (State.settle none s (s.unitDone m q)).mem = m ∧
    (State.settle none s (s.unitDone m q)).seq = q :=
  ⟨by simp [SamePorts, State.unitDone], ⟨by simp [State.unitDone], by simp [State.unitDone], by simp [State.unitDone],
    by simp [State.unitDone], registers_settle ⟨rfl, rfl, rfl, rfl, rfl, rfl, rfl⟩⟩, by simp [State.unitDone],
    by simp [State.unitDone], by simp [State.unitDone]⟩

/-- The registers at the end of a unit that is no scan read (R114). -/
def Sequencer.noScan (q : Sequencer) : Sequencer := { q with lastWasScan := false }

section Units

variable {s : State} {pr : Profile} {v : Advance} {card : Nat} {rest : List Nat}

theorem exec_cardCheck {d : Departure} {c : CheckProgress} (hp : s.cmd.profile = some pr)
    (hgrant : s.canGrant .sequencer .cardCheck = true) (hv : s.seq.advance = some v) (hd : checkingPair v.departures = some d)
    (hc : v.check = some c) (htodo : c.todo = card :: rest) :
    exec (.cardCheck (.whole none)) s = .next (State.settle none s
      ((s.unitDone (changedMemory s.mem (ringAddress pr d.frame card 0)
        (departureChange (pr.slots.get d.slot) d.slot (s.mem.readWord (ringAddress pr d.frame card 0)))) s.seq.noScan).cardExamined
        pr card (departureChange (pr.slots.get d.slot) d.slot (s.mem.readWord (ringAddress pr d.frame card 0))).isSome)) := by
  have hwork : s.cardCheckWork = some (.cardCheck d.slot d.frame card) := by
    rw [State.cardCheckWork, hv]
    dsimp only
    rw [hd, hc]
    simp [htodo]
  have hrun := runSpan_sequencer (w := .cardCheck d.slot d.frame card) (mine := isCardCheck) (error := none) hgrant rfl rfl
  rw [← hwork, State.finishWork, finishWith_some (s := s.grantSequencer false) hp, finishCheck_ok] at hrun
  exact hrun

theorem exec_judge {f : Nat} {j : JudgeProgress} (hp : s.cmd.profile = some pr)
    (hgrant : s.canGrant .sequencer .judge = true) (hv : s.seq.advance = some v) (hf : v.judgeFrame = some f)
    (hj : v.judge = some j) (htodo : j.todo = card :: rest) :
    exec (.judgement (.whole none)) s = .next (State.settle none s
      ((s.unitDone (changedMemory s.mem (ringAddress pr f card 0)
        (judged pr.goodState f (s.mem.readWord (ringAddress pr f card 0))).1) s.seq.noScan).cardJudged
        pr f card (judged pr.goodState f (s.mem.readWord (ringAddress pr f card 0))).2)) := by
  have hwork : s.judgeWork = some (.judge f card) := by
    rw [State.judgeWork, hv]
    dsimp only
    rw [hf, hj]
    simp [htodo]
  have hrun := runSpan_sequencer (w := .judge f card) (mine := isJudge) (error := none) hgrant rfl rfl
  rw [← hwork, State.finishWork, finishWith_some (s := s.grantSequencer false) hp, finishJudge_ok] at hrun
  exact hrun

theorem exec_markCheck {f : Nat} {m : Marking} {more : List (Nat × Nat)} (hp : s.cmd.profile = some pr)
    (hgrant : s.canGrant .sequencer .markCheck = true) (hm : s.seq.marking = some m) (htodo : m.todo = (f, card) :: more) :
    exec (.markingCardCheck (.whole none)) s = .next (State.settle none s
      (s.unitDone (changedMemory s.mem (ringAddress pr f card 0)
        (markingChange (s.mem.readWord (ringAddress pr f card 0)))) s.seq.noScan).cardMarked) := by
  have hwork : s.markCheckWork = some (.markCheck f card) := by
    rw [State.markCheckWork, hm]
    simp [htodo]
  have hrun := runSpan_sequencer (w := .markCheck f card) (mine := isMarkCheck) (error := none) hgrant rfl rfl
  rw [← hwork, State.finishWork, finishWith_some (s := s.grantSequencer false) hp, finishMark_ok] at hrun
  exact hrun

end Units

/-! ## A card that is not the last of its stage -/

section More

variable {s : State} {pr : Profile} {v : Advance} {card next : Nat} {rest : List Nat}

theorem cardExamined_more {d : Departure} {c : CheckProgress} (b : Bool) (hv : s.seq.advance = some v)
    (hd : checkingPair v.departures = some d) (hc : v.check = some c) (htodo : c.todo = card :: next :: rest) :
    s.cardExamined pr card b = { s with seq := { s.seq with advance := some { v with
      check := some { todo := next :: rest, written := c.written + b.toNat
                      first := if b then c.first.or (some card) else c.first } } } } := by
  rw [State.cardExamined, hv]
  dsimp only
  rw [hd, hc]
  dsimp only
  rw [htodo, orElse_first]
  rfl

theorem cardJudged_more {f : Nat} {j : JudgeProgress} (x : Verdict) (hv : s.seq.advance = some v) (hj : v.judge = some j)
    (htodo : j.todo = card :: next :: rest) :
    s.cardJudged pr f card x = { s with seq := { s.seq with advance := some { v with judge := some (j.count card x) } } } := by
  have hleft : (j.count card x).todo = next :: rest := by cases x <;> simp [JudgeProgress.count, htodo]
  rw [State.cardJudged, hv]
  dsimp only
  rw [hj]
  dsimp only
  rw [hleft]
  rfl

theorem cardMarked_more {m : Marking} {f g : Nat} {more : List (Nat × Nat)} (hm : s.seq.marking = some m)
    (hphase : m.phase = .cards) (htodo : m.todo = (f, card) :: (g, next) :: more) :
    s.cardMarked = { s with seq := { s.seq with marking := some { m with todo := (g, next) :: more } } } := by
  rw [State.cardMarked, hm]
  dsimp only
  rw [progressMarking_cards (m := { m with todo := m.todo.tail }) rfl (by simp [htodo]), htodo, hphase, ite_self]
  rfl

end More

theorem departureChange_met {x : SlotSettings} {i : Fin 8} {read : Word} (h : meetsExit x i read = true) :
    departureChange x i read = none := if_pos h

theorem departureChange_missed {x : SlotSettings} {i : Fin 8} {read : Word} (h : meetsExit x i read = false) :
    departureChange x i read = some (rejectedWord0 read x.missCause) := if_neg (by simp [h])

theorem markingChange_end {read : Word} (h : cardState read = 14 ∨ cardState read = 15) : markingChange read = none :=
  if_pos ((isEndState_iff _).mpr h)

theorem markingChange_working {read : Word} (h : cardState read ≠ 14) (h' : cardState read ≠ 15) :
    markingChange read = some (rejectedWord0 read 9) :=
  if_neg fun hend => ((isEndState_iff _).mp hend).elim h h'

/-- Settles O55: the exit condition, the count of judgement, and the three units on a card that is not the last. -/
theorem cardUnitsOfWork : Obligations.CardUnitsOfWork := by
  refine ⟨meetsExit_iff, fun j card => ⟨rfl, rfl, fun cause => ⟨_, _, ?count, fun n hn => getLsbD_causes j cause hn,
    List.length_modify _ _ _, fun lane row h1 h8 hrow hlast => getLsbD_rowSets card j.rowSets h1 h8 hrow hlast⟩⟩,
    fun s pr card next rest hp => ⟨fun v d c hgrant hv hd hc htodo => ?check, fun v f j hgrant hv hf hj htodo => ?judge,
    fun m f g more hgrant hm _ hphase htodo => ?mark⟩⟩
  case count =>
    rw [JudgeProgress.count]
    cases j.first <;> rfl
  case check =>
    intro a read x
    have hexec := exec_cardCheck hp hgrant hv hd hc htodo
    rw [cardExamined_more (s := s.unitDone _ s.seq.noScan) _ hv hd hc htodo] at hexec
    obtain ⟨hports, hblocks, htime, hmem, hseq⟩ := unitDone_settle s (changedMemory s.mem a (departureChange x d.slot read))
      { s.seq.noScan with advance := some { v with
        check := some { todo := next :: rest, written := c.written + (departureChange x d.slot read).isSome.toNat
                        first := if (departureChange x d.slot read).isSome then c.first.or (some card) else c.first } } }
    refine ⟨_, hexec, hports, hblocks, htime, fun hmet => ?_, fun hmissed => ?_⟩
    · exact ⟨hmem.trans (by rw [departureChange_met hmet]; rfl), hseq.trans (by rw [departureChange_met hmet]; rfl)⟩
    · exact ⟨hmem.trans (by rw [departureChange_missed hmissed]; rfl),
        hseq.trans (by rw [departureChange_missed hmissed]; rfl)⟩
  case judge =>
    intro a outcome
    have hexec := exec_judge hp hgrant hv hf hj htodo
    rw [cardJudged_more (s := s.unitDone _ s.seq.noScan) _ hv hj htodo] at hexec
    obtain ⟨hports, hblocks, htime, hmem, hseq⟩ := unitDone_settle s (changedMemory s.mem a outcome.1)
      { s.seq.noScan with advance := some { v with judge := some (j.count card outcome.2) } }
    exact ⟨_, hexec, hports, hblocks, htime, fun h => hmem.trans (by rw [h]; rfl),
      fun w h => hmem.trans (by rw [h]; rfl), hseq⟩
  case mark =>
    intro a read
    have hexec := exec_markCheck hp hgrant hm htodo
    rw [cardMarked_more (s := s.unitDone _ s.seq.noScan) hm hphase htodo] at hexec
    obtain ⟨hports, hblocks, htime, hmem, hseq⟩ := unitDone_settle s (changedMemory s.mem a (markingChange read))
      { s.seq.noScan with marking := some { m with todo := (g, next) :: more } }
    refine ⟨_, hexec, hports, hblocks, htime, fun hend => ?_, fun hr hv => ?_, hseq⟩
    · exact hmem.trans (by rw [markingChange_end hend]; rfl)
    · exact hmem.trans (by rw [markingChange_working hr hv]; rfl)

/-! ## Scan reads (R114 to R116) -/

section Scan

variable {s : State} {pr : Profile} {n : RunningScan} {card : Nat} {rest : List Nat}

/-- A whole scan read of a resident frame is its end on the state after the grant. -/
theorem exec_lateRead (hp : s.cmd.profile = some pr) (hgrant : s.canGrant .sequencer .lateScan = true)
    (hn : s.time.running = some n) (hresident : s.resident n.frame = true) (htodo : n.todo = card :: rest) :
    exec (.lateScanRead (.whole none)) s = .next (State.settle none s
      ((s.grantSequencer true).cardScanned pr n.slot n.frame card
        (s.mem.readWord (ringAddress pr n.frame card 0)))) := by
  obtain ⟨hreset, hfree, -, -⟩ := (canGrant_iff s _ _).mp hgrant
  have hwork : s.lateReadWork = some (.lateRead n.slot n.frame card) := by
    rw [State.lateReadWork, hn]
    simp [htodo]
  have hidle : s.scanReads = false := holdIs_free _ _ hfree
  have hgranted : s.lateGranted = some ((s.grantSequencer true).holds (.lateRead n.slot n.frame card)) := by
    rw [State.lateGranted, hn]
    dsimp only
    rw [if_neg (by simp [hreset, hidle]), if_neg (by simp [hresident]), if_pos hgrant, hwork]
    rfl
  have hreleased : (s.grantSequencer true).release = s.grantSequencer true := release_of_free hfree
  show s.runSpan (.whole none) s.lateGranted isLateRead = _
  rw [hgranted, runSpan_whole_held _ _ _ _ rfl, endHold_holds, hreleased, State.finishWork,
    finishWith_some (s := s.grantSequencer true) hp, finishScanRead_ok]
  rfl

/-- The scan after one of its cards has been read (R115). -/
def RunningScan.read (n : RunningScan) (rest : List Nat) (card : Nat) (late : Bool) : RunningScan :=
  { n with todo := rest, late := n.late + late.toNat, first := if late then n.first.or (some card) else n.first }

theorem cardScanned_eq (read : Word) (hn : s.time.running = some n) (htodo : n.todo = card :: rest) :
    s.cardScanned pr n.slot n.frame card read =
      if rest.isEmpty then s.finishScan pr (n.read rest card (!meetsExit (pr.slots.get n.slot) n.slot read))
      else { s with time := { s.time with
        running := some (n.read rest card (!meetsExit (pr.slots.get n.slot) n.slot read)) } } := by
  rw [State.cardScanned, hn]
  dsimp only
  rw [if_pos ⟨rfl, rfl⟩, htodo, List.tail_cons, orElse_first]
  rfl

/-- The end of a scan starts the oldest waiting one, if there is one (R114). -/
theorem endScan_eq {time : TimeBase} (hp : s.cmd.profile = some pr)
    (h : s.time.scans = [] ∧ time = { s.time with running := none } ∨
      ∃ w more, s.time.scans = w :: more ∧
        time = { s.time with
          scans := more
          running := some { slot := w.slot, frame := w.frame, expiry := w.expiry, todo := windowCards pr (pr.slots.get w.slot)
                            late := 0, first := none } }) :
    s.endScan = { s with time := time } := by
  obtain ⟨hscans, rfl⟩ | ⟨w, more, hscans, rfl⟩ := h
  · rw [State.endScan, State.startScan]
    dsimp only
    rw [hscans]
  · rw [State.endScan, startScan_idle (s := { s with time := { s.time with running := none } }) rfl hscans hp]

/-- The Time Base may change before a report or after it, where its counter stays. -/
theorem produce_withTime (s : State) {time : TimeBase} (h : time.counter = s.time.counter) (c : Content) :
    ({ s with time := time } : State).produce c = { s.produce c with time := time } := by
  simp only [State.produce, ReportUnit.produced, State.reportOf, h]

theorem finishScan_none (h : n.late = 0) : s.finishScan pr n = s.endScan := by rw [State.finishScan, if_pos h]

theorem finishScan_late (h : n.late ≠ 0) : s.finishScan pr n = (s.produce (lateReport pr n)).endScan := by
  rw [State.finishScan, if_neg h]

end Scan

/-- Settles O57: the read counts its card, and the last one ends the scan. -/
theorem lateScanCounts : Obligations.LateScanCounts := by
  intro s pr n card rest hp hgrant hn hresident htodo x late count first
  have hexec := exec_lateRead hp hgrant hn hresident htodo
  rw [cardScanned_eq (s := s.grantSequencer true) _ hn htodo] at hexec
  refine ⟨fun hrest => ?more, fun time hrest hscans => ?last⟩
  case more =>
    rw [if_neg (by simpa using hrest)] at hexec
    refine ⟨_, hexec, by simp [SameMemory, State.grantSequencer], by simp [SamePorts, State.grantSequencer], ?_,
      by simp [State.grantSequencer], by simp [State.grantSequencer, RunningScan.read, late, count, first, x]⟩
    exact ⟨by simp [State.grantSequencer], by simp [State.grantSequencer], by simp [State.grantSequencer],
      by simp [State.grantSequencer], registers_settle ⟨rfl, rfl, rfl, rfl, rfl, rfl, rfl⟩⟩
  case last =>
    intro ended
    have hcounter : time.counter = s.time.counter := by
      obtain ⟨-, rfl⟩ | ⟨w, more, -, rfl⟩ := hscans <;> rfl
    rw [hrest, if_pos (by rfl)] at hexec
    refine ⟨fun hcount => ?_, fun hcount => ?_⟩
    · rw [finishScan_none hcount, endScan_eq (s := s.grantSequencer true) hp hscans] at hexec
      exact hexec
    · rw [finishScan_late hcount, endScan_eq (s := (s.grantSequencer true).produce _) hp hscans,
        ← produce_withTime (s.grantSequencer true) hcounter] at hexec
      exact hexec

end Sys2Proof.Machine
end

