-- ==== Sys2Proof/Proofs/StageEnds.lean ====
section
/-! PROOF. The last unit of work of each stage (R99 to R109, R118 to R120, R123, R127, R137, R144). -/

namespace Sys2Proof.Machine

/-! ## The last card to initialise (R101, R102) -/

section Init

variable {s : State} {pr : Profile} {f card : Nat}

theorem exec_cardInit (hp : s.cmd.profile = some pr) (hgrant : s.canGrant .sequencer .cardInit = true)
    (hnext : s.nextInit = some (f, card)) :
    exec (.cardInitialisation (.whole none)) s = .next (State.settle none s
      ((s.unitDone (writesTo s.mem (initWrites pr f card)) s.seq.noScan).addToInitSet f card)) := by
  have hwork : s.cardInitWork = some (.cardInit f card) := by
    rw [State.cardInitWork, hnext]
    rfl
  have hrun := runSpan_sequencer (w := .cardInit f card) (mine := isCardInit) (error := none) hgrant rfl rfl
  rw [← hwork, State.finishWork, finishWith_some (s := s.grantSequencer false) hp, finishInit_ok] at hrun
  exact hrun

/-- With the last used card in the set, the frame is initialised (R101). -/
theorem addToInitSet_last (hp : s.cmd.profile = some pr) (hneeds : s.needsInit f card = true)
    (hall : ∀ d ∈ usedCards pr, d ≠ card → d ∈ s.seq.initSet) :
    s.addToInitSet f card =
      ({ s with seq := { s.seq with initSet := s.seq.initSet ++ [card], underInit := none } } : State).afterInitSet pr := by
  have hdone : ({ s with seq := { s.seq with initSet := s.seq.initSet ++ [card] } } : State).nextInit.isSome = false := by
    rw [State.nextInit, hp]
    cases hunder : s.seq.underInit with
    | none => rfl
    | some g =>
      refine Bool.eq_false_iff.mpr fun hsome => ?_
      obtain ⟨d, hd, hmissing⟩ := List.find?_isSome.mp (Option.isSome_map ▸ hsome)
      by_cases heq : d = card
      · simp [heq] at hmissing
      · simp [hall d hd heq] at hmissing
  rw [State.addToInitSet, hp]
  dsimp only
  rw [if_pos hneeds, if_neg (by simp [hdone])]

/-- Outside the marking pass an initialised frame ends stage INITIALISING (R102). -/
theorem afterInitSet_advance {v : Advance} (hmarking : s.seq.marking = none) (hv : s.seq.advance = some v)
    (hstage : v.stage = .initialising) : s.afterInitSet pr = s.initialised pr v := by
  rw [State.afterInitSet, if_neg (by simp [hmarking]), hv]
  exact if_pos hstage

theorem initialised_start {v : Advance} (h : v.kind = .start) : s.initialised pr v = s.completeAdvance := by
  rw [State.initialised, h]

theorem initialised_index {v : Advance} (h : v.kind = .index) : s.initialised pr v = s.nextPair pr v := by
  rw [State.initialised, h]

end Init

/-! ## The last card of a pair (R107) -/

section Check

variable {s : State} {pr : Profile} {v : Advance} {before after : List Departure} {d : Departure} {c : CheckProgress} {card : Nat}

theorem checkingPair_append (hbefore : ∀ e ∈ before, e.status = .done) (hd : d.status = .checking) :
    checkingPair (before ++ d :: after) = some d := by
  rw [checkingPair, List.find?_append, List.find?_eq_none.mpr fun e he => by simp [hbefore e he]]
  simp [hd]

/-- The progress of a pair whose last card has been examined. -/
def CheckProgress.last (c : CheckProgress) (card : Nat) (missed : Bool) : CheckProgress :=
  { todo := [], written := c.written + missed.toNat, first := if missed then c.first.or (some card) else c.first }

/-- The MISSED report of a pair, when a card of it was written (R107). -/
def State.missedReported (s : State) (pr : Profile) (d : Departure) (c : CheckProgress) : State :=
  if c.written = 0 then s else s.produce (missedReport pr d c)

theorem cardExamined_last (missed : Bool) (hv : s.seq.advance = some v) (hlist : v.departures = before ++ d :: after)
    (hbefore : ∀ e ∈ before, e.status = .done) (hd : d.status = .checking) (hc : v.check = some c) (htodo : c.todo = [card]) :
    s.cardExamined pr card missed =
      (s.missedReported pr d (c.last card missed)).nextPair pr
        { v with departures := before ++ { d with status := .done } :: after, check := none } := by
  have hpair : checkingPair v.departures = some d := hlist ▸ checkingPair_append hbefore hd
  have hdone : pairDone .checking v.departures = before ++ { d with status := .done } :: after := by
    rw [hlist, pairDone_append (fun e he => by simp [hbefore e he]) hd]
  rw [State.cardExamined, hv]
  dsimp only
  rw [hpair, hc]
  dsimp only
  rw [htodo, orElse_first, ← hdone]
  rfl

theorem produce_withSeq (s : State) {q : Sequencer} (hhead : q.head = s.seq.head)
    (hhalted : q.tracking = .halted ↔ s.seq.tracking = .halted) (c : Content) :
    ({ s with seq := q } : State).produce c = { s.produce c with seq := q } := by
  simp only [State.produce, ReportUnit.produced, State.reportOf, hhead, hhalted]

theorem missedReported_withSeq {q : Sequencer} (hhead : q.head = s.seq.head)
    (hhalted : q.tracking = .halted ↔ s.seq.tracking = .halted) :
    ({ s with seq := q } : State).missedReported pr d c = { s.missedReported pr d c with seq := q } := by
  unfold State.missedReported
  split
  · rfl
  · exact produce_withSeq s hhead hhalted _

@[simp] theorem missedReported_fields (s : State) (pr : Profile) (d : Departure) (c : CheckProgress) :
    (s.missedReported pr d c).seq = s.seq ∧ (s.missedReported pr d c).cmd = s.cmd := by
  unfold State.missedReported
  split <;> exact ⟨rfl, rfl⟩

end Check

/-! ## The last card judged (R109, R120, R123, R127) -/

section Judge

variable {s : State} {pr : Profile} {v : Advance} {j : JudgeProgress} {f card : Nat}

theorem cardJudged_last (x : Verdict) (hv : s.seq.advance = some v) (hj : v.judge = some j) (htodo : j.todo = [card]) :
    s.cardJudged pr f card x = s.judgementComplete pr f (j.count card x) := by
  have hleft : (j.count card x).todo = [] := by cases x <;> simp [JudgeProgress.count, htodo]
  rw [State.cardJudged, hv]
  dsimp only
  rw [hj]
  dsimp only
  rw [if_pos (by simp [hleft])]

/-- The state before the advance completes: the reports are produced and the rows loaded (R120, R123). -/
def State.judgedRows (s : State) (pr : Profile) (f : Nat) (j : JudgeProgress) : State :=
  { s.produceAll [[dischargeReport f j], undischargedOf s.disch 1] with disch := loadRows pr f j }

theorem judgementComplete_eq : s.judgementComplete pr f j = (s.judgedRows pr f j).completeAdvance := by
  rw [State.judgementComplete, State.judgedRows, undischarged_eq]
  rfl

/-- DISCHARGE, field by field (R120). -/
theorem dischargeReport_eq (f : Nat) (j : JudgeProgress) :
    dischargeReport f j =
      { kind := .discharge, source := .sequencer, frame := f
        lane := (match j.first with | some c => laneOf c | none => 0)
        row := (match j.first with | some c => rowOf c | none => 0)
        count := j.rejected, detail := j.causes.setWidth 32
        data := BitVec.ofNat 16 j.void ++ BitVec.ofNat 16 j.good } := by
  rw [dischargeReport]
  cases j.first <;> rfl

end Judge

/-! ## The stages end with no index waiting -/

/-- The last judgement completes the advance (R109, R120, R123). -/
theorem exec_judge_last {s : State} {pr : Profile} {v : Advance} {j : JudgeProgress} {f card : Nat}
    (hp : s.cmd.profile = some pr) (hgrant : s.canGrant .sequencer .judge = true) (hv : s.seq.advance = some v)
    (hf : v.judgeFrame = some f) (hj : v.judge = some j) (htodo : j.todo = [card]) :
    exec (.judgement (.whole none)) s = .next (State.settle none s
      (((s.unitDone (changedMemory s.mem (ringAddress pr f card 0)
        (judged pr.goodState f (s.mem.readWord (ringAddress pr f card 0))).1) s.seq.noScan).judgedRows pr f
          (j.count card (judged pr.goodState f (s.mem.readWord (ringAddress pr f card 0))).2)).completeAdvance)) := by
  have hexec := exec_judge hp hgrant hv hf hj htodo
  rw [cardJudged_last (s := s.unitDone _ s.seq.noScan) _ hv hj htodo, judgementComplete_eq] at hexec
  exact hexec

/-- The last card of the marking pass ends it (R144). -/
theorem cardMarked_last {s : State} {m : Marking} {n : Nat × Nat} (hm : s.seq.marking = some m) (htodo : m.todo = [n])
    (hnext : s.nextInit = none) :
    s.cardMarked = { s with seq := { s.seq with marking := none, tracking := .lost } } := by
  rw [State.cardMarked, hm]
  dsimp only
  rw [State.progressMarking]
  dsimp only
  have hnone : ({ s with seq := { s.seq with marking := some { m with todo := m.todo.tail } } } : State).nextInit = none := hnext
  rw [hnone, htodo]
  rfl

/-- The registers once the frame under initialisation has its last card (R101). -/
def Sequencer.initOver (q : Sequencer) (card : Nat) : Sequencer :=
  { q with initSet := q.initSet ++ [card], underInit := none }

/-- The last card to initialise ends stage INITIALISING (R102). -/
theorem exec_cardInit_last {s : State} {pr : Profile} {f card : Nat} {v : Advance} (hp : s.cmd.profile = some pr)
    (hgrant : s.canGrant .sequencer .cardInit = true) (hnext : s.nextInit = some (f, card))
    (hall : ∀ d ∈ usedCards pr, d ≠ card → d ∈ s.seq.initSet) (hmarking : s.seq.marking = none)
    (hv : s.seq.advance = some v) (hstage : v.stage = .initialising) :
    exec (.cardInitialisation (.whole none)) s = .next (State.settle none s
      ((s.unitDone (writesTo s.mem (initWrites pr f card)) (s.seq.noScan.initOver card)).initialised pr v)) := by
  have hexec := exec_cardInit hp hgrant hnext
  generalize writesTo s.mem (initWrites pr f card) = m at hexec ⊢
  have hneeds : (s.unitDone m s.seq.noScan).needsInit f card = true := nextInit_some hp hnext
  have hafter := afterInitSet_advance (s := s.unitDone m (s.seq.noScan.initOver card)) (pr := pr) hmarking hv hstage
  rw [addToInitSet_last (s := s.unitDone m s.seq.noScan) hp hneeds hall] at hexec
  exact hexec.trans (congrArg (fun x => Host.Outcome.next (State.settle none s x)) hafter)

/-- START FRESH completes with its outcome, and with no index waiting the ring runs (R109). -/
theorem completeAdvance_start {s : State} {tag : Byte} (hindex : s.seq.pendingIndex = 0)
    (hrunning : s.cmd.running = some (.startFresh tag)) :
    s.completeAdvance = { s with
      seq := { s.seq with advance := none, tracking := .running }
      cmd := { s.cmd with running := none, waitingResult := some { tag := tag, code := .done, detail := 0 } } } := by
  rw [State.completeAdvance, State.endStart]
  dsimp only
  rw [hrunning]
  dsimp only
  rw [if_neg (by omega)]

/-! ## A stage ends with no index waiting (R109, R144) -/

section Idle

variable {s : State} {pr : Profile} {card f : Nat}

/-- The last judgement of an advance that is no START FRESH leaves the ring running. -/
theorem exec_judge_idle {v : Advance} {j : JudgeProgress} (hp : s.cmd.profile = some pr) (hindex : s.seq.pendingIndex = 0)
    (hgrant : s.canGrant .sequencer .judge = true) (hv : s.seq.advance = some v) (hf : v.judgeFrame = some f)
    (hj : v.judge = some j) (htodo : j.todo = [card]) (hstart : ∀ tag, s.cmd.running ≠ some (.startFresh tag)) :
    exec (.judgement (.whole none)) s = .next (State.settle none s
      { (s.unitDone (changedMemory s.mem (ringAddress pr f card 0)
          (judged pr.goodState f (s.mem.readWord (ringAddress pr f card 0))).1) s.seq.noScan).judgedRows pr f
            (j.count card (judged pr.goodState f (s.mem.readWord (ringAddress pr f card 0))).2) with
        seq := { s.seq.noScan with advance := none, tracking := .running } }) := by
  have hexec := exec_judge_last hp hgrant hv hf hj htodo
  generalize changedMemory s.mem _ _ = m at hexec ⊢
  generalize j.count card _ = found at hexec ⊢
  have hseq : ((s.unitDone m s.seq.noScan).judgedRows pr f found).seq = s.seq.noScan := by simp [State.judgedRows]
  have hcmd : ((s.unitDone m s.seq.noScan).judgedRows pr f found).cmd = s.cmd := by simp [State.judgedRows]
  have hindex' : ((s.unitDone m s.seq.noScan).judgedRows pr f found).seq.pendingIndex = 0 := by rw [hseq]; exact hindex
  have hstart' (tag : Byte) : ((s.unitDone m s.seq.noScan).judgedRows pr f found).cmd.running ≠ some (.startFresh tag) := by
    rw [hcmd]
    exact hstart tag
  rw [completeAdvance_running hindex' hstart', hseq] at hexec
  exact hexec

/-- The last card of the marking pass leaves tracking lost. -/
theorem exec_markCheck_last {m : Marking} (hp : s.cmd.profile = some pr) (hgrant : s.canGrant .sequencer .markCheck = true)
    (hm : s.seq.marking = some m) (hnext : s.nextInit = none) (htodo : m.todo = [(f, card)]) :
    exec (.markingCardCheck (.whole none)) s = .next (State.settle none s
      (s.unitDone (changedMemory s.mem (ringAddress pr f card 0) (markingChange (s.mem.readWord (ringAddress pr f card 0))))
        { s.seq.noScan with marking := none, tracking := .lost })) := by
  have hexec := exec_markCheck hp hgrant hm htodo
  rw [cardMarked_last (s := s.unitDone _ s.seq.noScan) hm htodo hnext] at hexec
  exact hexec

/-- The last card of START FRESH leaves the ring running, and its outcome waits. -/
theorem exec_start_idle {v : Advance} {tag : Byte} (hp : s.cmd.profile = some pr) (hindex : s.seq.pendingIndex = 0)
    (hgrant : s.canGrant .sequencer .cardInit = true) (hv : s.seq.advance = some v) (hkind : v.kind = .start)
    (hstage : v.stage = .initialising) (hmarking : s.seq.marking = none) (hrunning : s.cmd.running = some (.startFresh tag))
    (hnext : s.nextInit = some (f, card)) (hall : ∀ d ∈ usedCards pr, d ≠ card → d ∈ s.seq.initSet) :
    exec (.cardInitialisation (.whole none)) s = .next (State.settle none s
      { s.unitDone (writesTo s.mem (initWrites pr f card)) { s.seq.noScan.initOver card with
          advance := none, tracking := .running } with
        cmd := { s.cmd with running := none, waitingResult := some { tag := tag, code := .done, detail := 0 } } }) := by
  have hexec := exec_cardInit_last hp hgrant hnext hall hmarking hv hstage
  generalize writesTo s.mem (initWrites pr f card) = m at hexec ⊢
  rw [initialised_start hkind,
    completeAdvance_start (s := s.unitDone m (s.seq.noScan.initOver card)) (tag := tag) hindex hrunning] at hexec
  exact hexec

end Idle

end Sys2Proof.Machine
end

