-- ==== Sys2Proof/Proofs/WaitingIndex.lean ====
section
/-! PROOF. The index that waits for the end of an advance (R99, R109, R142, R143). -/

namespace Sys2Proof.Machine

/-! ## The advance that ended -/

/-- An advance has ended, START FRESH with it, and the waiting index is taken next (R109). -/
def State.indexNext (s : State) : State :=
  let s1 := ({ s with seq := { s.seq with advance := none } }).endStart .done 0
  { s1 with seq := { s1.seq with pendingIndex := 0 } }

theorem completeAdvance_waiting {s : State} (h : s.seq.pendingIndex = 1) : s.completeAdvance = s.indexNext.acceptAdvance :=
  if_pos h

@[simp] theorem indexNext_fields (s : State) :
    s.indexNext.mem = s.mem ∧ s.indexNext.portA = s.portA ∧ s.indexNext.portB = s.portB ∧
    s.indexNext.seq = { s.seq with advance := none, pendingIndex := 0 } ∧ s.indexNext.time = s.time ∧
    s.indexNext.disch = s.disch ∧ s.indexNext.rep = s.rep ∧ s.indexNext.cmd = (s.endStart .done 0).cmd ∧
    s.indexNext.cmd.profile = s.cmd.profile := by
  have hcmd : s.indexNext.cmd = (s.endStart .done 0).cmd :=
    endStart_cmd_congr (s := s) (t := { s with seq := { s.seq with advance := none } }) rfl .done 0
  refine ⟨?_, ?_, ?_, ?_, ?_, ?_, ?_, hcmd, hcmd ▸ ?_⟩ <;> simp [State.indexNext]

/-- No START FRESH is in progress once it has ended. -/
theorem endStart_over (s : State) (code : OutcomeCode) (detail : BitVec 16) (tag : Byte) :
    (s.endStart code detail).cmd.running ≠ some (.startFresh tag) := by
  unfold State.endStart
  split
  · exact nofun
  · next h => simp [h]
  · next h => simp [h]

/-! ## The waiting index is accepted, or is INDEX_OVERRUN -/

/-- At state `x`, reached from `s`, an advance ends with an index waiting. -/
structure IndexWaits (pr : Profile) (s x : State) : Prop where
  profile : x.cmd.profile = some pr
  pendingIndex : x.seq.pendingIndex = 1
  tracking : x.seq.tracking = .advancing
  head : x.seq.head = s.seq.head
  firstFrame : x.seq.firstFrame = s.seq.firstFrame
  faultCount : x.seq.faultCount = s.seq.faultCount
  portA : x.portA = s.portA
  portB : x.portB = s.portB
  quiet : x.rep.quiet = s.rep.quiet
  counter : x.time.counter = s.time.counter

section Taken

variable {pr : Profile} {s x : State}

theorem completeAdvance_below (h : IndexWaits pr s x) (hhead : s.seq.head ≠ Config.maxWord) :
    x.completeAdvance = (x.indexNext.accepted pr).produceAll (x.indexNext.acceptanceReports pr) := by
  have hp : x.indexNext.cmd.profile = some pr := by simp [h.profile]
  have hne : x.indexNext.seq.head ≠ Config.maxWord := by simpa [h.head] using hhead
  rw [completeAdvance_waiting h.pendingIndex, ← advanceAll_eq, State.acceptAdvance, hp]
  exact if_neg hne

theorem completeAdvance_overrun (h : IndexWaits pr s x) (hhead : s.seq.head = Config.maxWord) :
    x.completeAdvance = x.indexNext.faultCounted.hardFault pr overrunSignal [] := by
  have hp : x.indexNext.cmd.profile = some pr := by simp [h.profile]
  have heq : x.indexNext.seq.head = Config.maxWord := by simpa [h.head] using hhead
  have htracking : x.indexNext.seq.tracking = .advancing := by simp [h.tracking]
  rw [completeAdvance_waiting h.pendingIndex, ← fault_hard hp (.inr htracking), State.acceptAdvance, hp]
  exact if_pos heq

/-- INDEX_OVERRUN leaves the Discharge Unit and, with no START FRESH to end, the Command Unit. -/
theorem hardFault_kept (s : State) (f : FaultSignal) (hstart : ∀ tag, s.cmd.running ≠ some (.startFresh tag)) :
    (s.hardFault pr f []).disch = s.disch ∧ (s.hardFault pr f []).cmd = s.cmd := by
  rw [hardFault_eq]
  simp [faultEntered_cmd, endStartAtFault_eq, endStart_idle hstart]

/-- What the waiting index leaves unchanged. -/
theorem completeAdvance_kept (h : IndexWaits pr s x) :
    x.completeAdvance.mem = x.mem ∧ x.completeAdvance.disch = x.disch ∧
    x.completeAdvance.cmd = (x.endStart .done 0).cmd := by
  by_cases hhead : s.seq.head = Config.maxWord
  · rw [completeAdvance_overrun h hhead]
    have hentered := faultEntered_hardFault x.indexNext.faultCounted pr overrunSignal []
    have hstart (tag : Byte) : x.indexNext.faultCounted.cmd.running ≠ some (.startFresh tag) := by
      simpa using endStart_over x .done 0 tag
    obtain ⟨hdisch, hcmd⟩ := hardFault_kept (pr := pr) x.indexNext.faultCounted overrunSignal hstart
    refine ⟨hentered.mem.trans ?_, hdisch.trans ?_, hcmd.trans ?_⟩ <;> simp
  · rw [completeAdvance_below h hhead]
    have hp : x.indexNext.cmd.profile = some pr := by simp [h.profile]
    obtain ⟨hmem, -, -, -, -, -, hdisch, hcmd, -⟩ := accepted_fields hp
    simp [hmem, hdisch, hcmd]

theorem taken_below (h : IndexWaits pr s x) (hhead : s.seq.head ≠ Config.maxWord) :
    WaitingIndexTaken s (State.settle none s x.completeAdvance) pr := by
  have hp : x.indexNext.cmd.profile = some pr := by simp [h.profile]
  obtain ⟨-, -, -, hportA, hportB, hseq, -, -, hrep, -⟩ := accepted_fields hp
  obtain ⟨-, -, -, -, hquiet, -⟩ := registers_settle (spare := none) (before := s) (registers_of_unit
    (sameUnit_produceAll (x.indexNext.accepted pr) (x.indexNext.acceptanceReports pr)))
  rw [completeAdvance_below h hhead]
  refine ⟨by simp [hseq, State.beginAdvance], by simp [hseq, State.beginAdvance, h.firstFrame], fun _ =>
    ⟨by simp [SamePorts, hportA, hportB, h.portA, h.portB], by simp [hseq, State.beginAdvance, h.head],
      by simp [hseq, State.beginAdvance], by simp [hseq, State.beginAdvance], by simp [hseq, State.beginAdvance, h.head],
      hquiet.trans (by simp [hrep, h.quiet]), ⟨_, by simp only [settle_fields, produceAll_fields, hseq]; rfl, rfl, rfl,
        by simp [h.counter]⟩, fun i hi hold => ?view⟩, fun hmax => absurd hmax hhead⟩
  have hview := accepted_view (s := x.indexNext) hi
  simp only [indexNext_fields, h.head, h.firstFrame, frameAtOffset_some hold] at hview
  simp only [settle_fields, produceAll_fields, hview]
  exact ⟨rfl, rfl⟩

theorem taken_overrun (h : IndexWaits pr s x) (hhead : s.seq.head = Config.maxWord) :
    WaitingIndexTaken s (State.settle none s x.completeAdvance) pr := by
  have hentered := faultEntered_hardFault x.indexNext.faultCounted pr overrunSignal []
  have hrej := rej_settle (s := s) (spare := none) (hentered.tracking.imp id .inl)
  rw [completeAdvance_overrun h hhead]
  simp only [WaitingIndexTaken, settle_fields]
  refine ⟨hentered.pendingIndex, hentered.firstFrame.trans ?_, fun hlt => absurd hhead (Nat.ne_of_lt hlt),
    fun _ => ⟨hentered.head.trans ?_, hentered.tracking, hentered.advance, hentered.faultCause, hentered.faultCount.trans ?_,
      hentered.claims, hrej⟩⟩
  · simp [State.faultCounted, h.firstFrame]
  · simp [State.faultCounted, h.head]
  · simp [State.faultCounted, h.faultCount]

theorem waitingIndexTaken (h : IndexWaits pr s x) : WaitingIndexTaken s (State.settle none s x.completeAdvance) pr := by
  by_cases hhead : s.seq.head = Config.maxWord
  · exact taken_overrun h hhead
  · exact taken_below h hhead

end Taken

end Sys2Proof.Machine
end

