-- ==== Sys2Proof/Proofs/LastUnits.lean ====
section
/-! PROOF. What follows the last unit of work of each stage (R102, R104, R107 to R109). -/

namespace Sys2Proof.Machine

section Next

variable {s : State} {pr : Profile} {m : Memory}

/-- After the last judgement the waiting index is taken. -/
theorem indexWaits_judged (hp : s.cmd.profile = some pr) (hindex : s.seq.pendingIndex = 1)
    (htracking : s.seq.tracking = .advancing) (f : Nat) (j : JudgeProgress) :
    IndexWaits pr s ((s.unitDone m s.seq.noScan).judgedRows pr f j) := by
  obtain ⟨-, -, -, -, hquiet, -⟩ :=
    sameUnit_produceAll (s.unitDone m s.seq.noScan) [[dischargeReport f j], undischargedOf s.disch 1]
  have hseq : ((s.unitDone m s.seq.noScan).judgedRows pr f j).seq = s.seq.noScan := by simp [State.judgedRows]
  exact {
    profile := by simp [State.judgedRows, hp]
    pendingIndex := by rw [hseq]; exact hindex
    tracking := by rw [hseq]; exact htracking
    head := by rw [hseq]; rfl
    firstFrame := by rw [hseq]; rfl
    faultCount := by rw [hseq]; rfl
    portA := by simp [State.judgedRows]
    portB := by simp [State.judgedRows]
    quiet := hquiet
    counter := by simp [State.judgedRows] }

/-- After the last card of START FRESH the waiting index is taken. -/
theorem indexWaits_started (hp : s.cmd.profile = some pr) (hindex : s.seq.pendingIndex = 1)
    (htracking : s.seq.tracking = .advancing) (card : Nat) :
    IndexWaits pr s (s.unitDone m (s.seq.noScan.initOver card)) :=
  { profile := hp, pendingIndex := hindex, tracking := htracking, head := rfl, firstFrame := rfl, faultCount := rfl
    portA := rfl, portB := rfl, quiet := rfl, counter := rfl }

end Next

/-- A card check that writes word 0 is one that finds its exit condition unmet (R106). -/
theorem departureChange_isSome (x : SlotSettings) (i : Fin 8) (read : Word) :
    (departureChange x i read).isSome = !meetsExit x i read := by
  cases h : meetsExit x i read with
  | true => rw [departureChange_met h]; rfl
  | false => rw [departureChange_missed h]; rfl

theorem changedMemory_departure (m : Memory) (a : Nat) (x : SlotSettings) (i : Fin 8) (read : Word) :
    changedMemory m a (departureChange x i read) =
      if (!meetsExit x i read) = true then
        m.writeWord a (recordWord0 14 x.missCause (cardCount read) (cardMarks read) (cardGeneration read))
      else m := by
  cases h : meetsExit x i read with
  | true => rw [departureChange_met h]; rfl
  | false => rw [departureChange_missed h]; rfl

/-! ## What follows a pair or the initialised frame -/

section Follow

variable {s : State} {pr : Profile} {v : Advance} {before after : List Departure} {d : Departure}

theorem nextPair_next (hbefore : ∀ e ∈ before, e.status = .done) (hd : d.status = .waiting)
    (hlist : v.departures = before ++ d :: after) :
    s.nextPair pr v = { s with seq := { s.seq with advance := some { v with
      stage := .checking, departures := before ++ { d with status := .draining } :: after, check := none } } } := by
  have hbegun := beginPair_append (before := before) (after := after) (fun e he => by simp [hbefore e he]) hd
  rw [nextPair_waiting ((anyWaiting_iff _).mpr ⟨d, by simp [hlist], hd⟩), hlist, hbegun]

theorem nextPair_judging {f : Nat} (hall : ∀ e ∈ v.departures, e.status = .done) (hf : v.judgeFrame = some f) :
    s.nextPair pr v = { s with seq := { s.seq with
      advance := some { v with stage := .judging, check := none, judge := some (JudgeProgress.start pr) } } } := by
  rw [nextPair_done fun e he => by simp [hall e he], enterJudging_some hf]

theorem nextPair_complete (hall : ∀ e ∈ v.departures, e.status = .done) (hf : v.judgeFrame = none)
    (hindex : s.seq.pendingIndex = 0) (hstart : ∀ tag, s.cmd.running ≠ some (.startFresh tag)) :
    s.nextPair pr v = { s with seq := { s.seq with advance := none, tracking := .running } } := by
  rw [nextPair_done fun e he => by simp [hall e he], enterJudging_none hf, completeAdvance_running hindex hstart]

end Follow

/-- The state after the last card of a pair, with the registers that what follows leaves. -/
def State.pairOver (s : State) (pr : Profile) (d : Departure) (c : CheckProgress) (card : Nat) (q : Sequencer) : State :=
  (s.unitDone (changedMemory s.mem (ringAddress pr d.frame card 0)
    (departureChange (pr.slots.get d.slot) d.slot (s.mem.readWord (ringAddress pr d.frame card 0)))) q.noScan).missedReported
      pr d (c.last card (!meetsExit (pr.slots.get d.slot) d.slot (s.mem.readWord (ringAddress pr d.frame card 0))))

/-- The advance once its pair under check is done. -/
def Advance.pairOver (v : Advance) (before after : List Departure) (d : Departure) : Advance :=
  { v with departures := before ++ { d with status := .done } :: after, check := none }

/-- The last card of a pair ends its check, and what follows changes the registers alone (R107). -/
theorem exec_cardCheck_last {s : State} {pr : Profile} {v : Advance} {card : Nat} {before after : List Departure}
    {d : Departure} {c : CheckProgress} {q : Sequencer} (hp : s.cmd.profile = some pr)
    (hgrant : s.canGrant .sequencer .cardCheck = true) (hv : s.seq.advance = some v)
    (hlist : v.departures = before ++ d :: after) (hbefore : ∀ e ∈ before, e.status = .done)
    (hd : d.status = .checking) (hc : v.check = some c) (htodo : c.todo = [card])
    (hhead : q.head = s.seq.head) (hhalted : q.tracking = .halted ↔ s.seq.tracking = .halted)
    (hnext : ∀ y : State, y.seq = s.seq.noScan → y.cmd = s.cmd →
      y.nextPair pr (v.pairOver before after d) = { y with seq := q.noScan }) :
    exec (.cardCheck (.whole none)) s = .next (State.settle none s (s.pairOver pr d c card q)) := by
  have hexec := exec_cardCheck hp hgrant hv (hlist ▸ checkingPair_append hbefore hd) hc htodo
  rw [cardExamined_last (s := s.unitDone _ s.seq.noScan) _ hv hlist hbefore hd hc htodo, departureChange_isSome] at hexec
  rw [hexec, State.pairOver]
  generalize changedMemory s.mem _ _ = m
  generalize c.last card _ = progress
  obtain ⟨hseq, hcmd⟩ := missedReported_fields (s.unitDone m s.seq.noScan) pr d progress
  have hregisters := missedReported_withSeq (s := s.unitDone m s.seq.noScan) (q := q.noScan) (pr := pr) (d := d) (c := progress)
    hhead hhalted
  exact congrArg (fun x => Host.Outcome.next (State.settle none s x)) ((hnext _ hseq hcmd).trans hregisters.symm)

/-- Settles O56: the last unit of a stage does its own work, then begins what follows: a pair, stage JUDGING, the completed
advance, or the waiting index. -/
theorem stagesEnd : Obligations.StagesEnd := by
  refine ⟨fun s pr card hp hindex => ⟨?judge, ?mark, ?start⟩,
    fun s pr card f v hp hindex htracking hv => ⟨?judgeIndex, ?startIndex⟩, ?pair, ?init⟩
  case judge =>
    intro v f j hgrant hv hf hj htodo hstart a outcome found judgedAll discharge undischarged
    have hexec := exec_judge_idle hp hindex hgrant hv hf hj htodo hstart
    rw [State.judgedRows, dischargeReport_eq] at hexec
    exact hexec
  case mark =>
    intro m f hgrant hm hnext htodo a read
    obtain ⟨hports, hblocks, htime, hmem, hseq⟩ := unitDone_settle s (changedMemory s.mem a (markingChange read))
      { s.seq.noScan with marking := none, tracking := .lost }
    exact ⟨_, exec_markCheck_last hp hgrant hm hnext htodo, hports, hblocks, htime,
      fun hend => hmem.trans (by rw [markingChange_end hend]; rfl),
      fun hr hv => hmem.trans (by rw [markingChange_working hr hv]; rfl), hseq⟩
  case start =>
    intro v f tag hgrant hv hkind hstage hmarking hrunning hnext hall
    have hexec := exec_start_idle hp hindex hgrant hv hkind hstage hmarking hrunning hnext hall
    generalize writesTo s.mem (initWrites pr f card) = m at hexec ⊢
    exact ⟨_, hexec, by simp [SamePorts], by simp, by simp [Sequencer.noScan, Sequencer.initOver], by simp, by simp, by simp,
      by simp, by simp, registers_settle ⟨rfl, rfl, rfl, rfl, rfl, rfl, rfl⟩⟩
  case judgeIndex =>
    intro j hgrant hf hj htodo hstart a outcome
    have hexec := exec_judge_last hp hgrant hv hf hj htodo
    have hwaits := indexWaits_judged (m := changedMemory s.mem a outcome.1) hp hindex htracking f (j.count card outcome.2)
    obtain ⟨hmem, hdisch, hcmd⟩ := completeAdvance_kept hwaits
    have hmem' : _ = changedMemory s.mem a outcome.1 := hmem.trans (by simp [State.judgedRows])
    refine ⟨_, hexec, fun h => ?_, fun w h => ?_, ?_, ?_, waitingIndexTaken hwaits⟩
    · simp only [settle_fields]
      exact hmem'.trans (by rw [h]; rfl)
    · simp only [settle_fields]
      exact hmem'.trans (by rw [h]; rfl)
    · simp only [settle_fields]
      exact hdisch
    · simp only [settle_fields]
      refine hcmd.trans ?_
      rw [endStart_idle (by simpa [State.judgedRows] using hstart)]
      simp [State.judgedRows]
  case startIndex =>
    intro tag hgrant hkind hstage hmarking hrunning hnext hall
    have hexec := exec_cardInit_last hp hgrant hnext hall hmarking hv hstage
    generalize writesTo s.mem (initWrites pr f card) = m at hexec ⊢
    rw [initialised_start hkind] at hexec
    have hwaits := indexWaits_started (m := m) hp hindex htracking card
    obtain ⟨hmem, hdisch, hcmd⟩ := completeAdvance_kept hwaits
    refine ⟨_, hexec, ?_, ?_, ?_, waitingIndexTaken hwaits⟩
    · simp only [settle_fields]
      exact hmem
    · simp only [settle_fields]
      exact hdisch
    · simp only [settle_fields]
      exact hcmd.trans (endStart_running (s := s.unitDone m (s.seq.noScan.initOver card)) hrunning _ _)
  case pair =>
    intro s pr card v before after d c hp hgrant htracking hv hlist hbefore hd hc htodo a read x missed written first ended
    have hended (q : Sequencer) : ended q = s.pairOver pr d c card q := by
      rw [State.pairOver, changedMemory_departure]
      rfl
    have hdone {e : Departure} (he : e ∈ before ++ [{ d with status := .done }]) : e.status = .done := by
      obtain he | he := List.mem_append.mp he
      · exact hbefore e he
      · rw [List.mem_singleton.mp he]
    refine ⟨fun w more hafter hw => ?_, fun f hafter hf => ?_, fun hafter hf hindex hstart => ?_⟩
    · rw [hended]
      refine exec_cardCheck_last hp hgrant hv hlist hbefore hd hc htodo rfl Iff.rfl fun y hseq _ => ?_
      rw [nextPair_next (v := v.pairOver before after d) (before := before ++ [{ d with status := .done }]) (after := more)
        (fun _ => hdone) hw (by simp [Advance.pairOver, hafter]), hseq, List.append_assoc]
      rfl
    · rw [hended]
      refine exec_cardCheck_last hp hgrant hv hlist hbefore hd hc htodo rfl Iff.rfl fun y hseq _ => ?_
      rw [hafter, nextPair_judging (v := v.pairOver before [] d) (fun _ => hdone) hf, hseq]
      rfl
    · rw [hended]
      refine exec_cardCheck_last hp hgrant hv hlist hbefore hd hc htodo rfl (by simp [htracking]) fun y hseq hcmd => ?_
      rw [hafter, nextPair_complete (v := v.pairOver before [] d) (fun _ => hdone) hf (hseq ▸ hindex)
        (hcmd ▸ hstart), hseq]
      rfl
  case init =>
    intro s pr card f v hp hgrant htracking hv hkind hstage hmarking hnext hall begun
    have hexec := exec_cardInit_last hp hgrant hnext hall hmarking hv hstage
    have hbegun (w : Option Advance) (tracking : Tracking) : begun w tracking =
      s.unitDone (writesTo s.mem (initWrites pr f card))
        { s.seq.noScan.initOver card with advance := w, tracking := tracking } := rfl
    rw [initialised_index hkind] at hexec
    clear_value begun
    generalize writesTo s.mem (initWrites pr f card) = m at hexec hbegun
    refine ⟨fun d more hlist hd => ?_, fun j hlist hj => ?_, fun hlist hj hindex hstart => ?_⟩
    · rw [hbegun, hexec, nextPair_next (before := []) (by simp) hd hlist, ← htracking]
      rfl
    · rw [hbegun, hexec, nextPair_judging (by simp [hlist]) hj, ← htracking]
      rfl
    · rw [hbegun, hexec, nextPair_complete (s := s.unitDone m (s.seq.noScan.initOver card)) (by simp [hlist]) hj hindex hstart]
      rfl

end Sys2Proof.Machine
end

