-- ==== Sys2Proof/Proofs/ResetCuts.lean ====
section
/-! PROOF. RESET in the middle of a unit of work, and its release (R81, R89, R95, R146, R163, R165). -/

namespace Sys2Proof.Machine

/-! ## The bus with an ERROR at one access (R60, R88) -/

/-- After the accesses `l` memory holds the first `n` of them: the bus counts down to the ERROR, and then stands still. -/
structure Bus.Cut (m : Memory) (n : Nat) (l : List (Option (Nat × Word))) (b : Bus) : Prop where
  mem : b.mem = writesTo m ((l.take n).filterMap id)
  state : (l.length ≤ n ∧ b.failed = none ∧ b.left = some (n - l.length)) ∨ (n < l.length ∧ b.failed.isSome = true)

section Cut

variable {m : Memory} {n : Nat} {l : List (Option (Nat × Word))} {b : Bus}

theorem Bus.cut_start (m : Memory) (n : Nat) : (Bus.start m (some n)).Cut m n [] :=
  ⟨by rw [List.take_nil]; rfl, .inl ⟨Nat.zero_le n, rfl, rfl⟩⟩

/-- Past the ERROR an access is not made. -/
theorem Bus.Cut.stopped (h : b.Cut m n l) (hn : n < l.length) (hfailed : b.failed.isSome = true)
    (x : Option (Nat × Word)) : b.Cut m n (l ++ [x]) :=
  ⟨by rw [h.mem, List.take_append_of_le_length (Nat.le_of_lt hn)],
    .inr ⟨by rw [List.length_append]; omega, hfailed⟩⟩

/-- Before the ERROR an access is answered OK or ERROR by its place. -/
theorem Bus.Cut.answer (h : b.Cut m n l) (hfailed : b.failed = none) (a : Nat) :
    l.length ≤ n ∧ (b.answer a).mem = b.mem ∧
    ((n = l.length ∧ (b.answer a).failed.isSome = true) ∨
     (l.length < n ∧ (b.answer a).failed = none ∧ (b.answer a).left = some (n - (l.length + 1)))) := by
  obtain ⟨hn, -, hleft⟩ | ⟨-, hsome⟩ := h.state
  · refine ⟨hn, ?_⟩
    rw [Bus.answer, if_neg (by simp [hfailed]), hleft]
    cases hk : n - l.length with
    | zero => exact ⟨rfl, .inl ⟨by omega, rfl⟩⟩
    | succ k => exact ⟨rfl, .inr ⟨by omega, hfailed, congrArg some (by omega)⟩⟩
  · simp [hfailed] at hsome

theorem writesTo_append (m : Memory) (xs ys : List (Nat × Word)) : writesTo m (xs ++ ys) = writesTo (writesTo m xs) ys :=
  List.foldl_append

theorem take_append_one_of_le (x : Option (Nat × Word)) (hn : n ≤ l.length) : (l ++ [x]).take n = l.take n :=
  List.take_append_of_le_length hn

theorem take_append_one_of_lt (x : Option (Nat × Word)) (hn : l.length < n) : (l ++ [x]).take n = l.take n ++ [x] := by
  rw [List.take_of_length_le (by rw [List.length_append]; exact hn), List.take_of_length_le (Nat.le_of_lt hn)]

theorem Bus.Cut.read (h : b.Cut m n l) (a : Nat) : (b.read a).2.Cut m n (l ++ [none]) := by
  cases hfailed : b.failed with
  | some e =>
    have hsame : (b.read a).2 = b := if_pos (by simp [hfailed])
    obtain ⟨-, hnone, -⟩ | ⟨hn, hsome⟩ := h.state
    · simp [hfailed] at hnone
    · rw [hsame]
      exact h.stopped hn hsome none
  | none =>
    obtain ⟨-, hmem, hwhen⟩ := h.answer hfailed a
    have hkept : (b.answer a).mem = writesTo m (((l ++ [none]).take n).filterMap id) := by
      rw [hmem, h.mem]
      obtain ⟨hn, -⟩ | ⟨hn, -⟩ := hwhen
      · rw [take_append_one_of_le _ (by omega)]
      · rw [take_append_one_of_lt _ hn]
        simp
    refine ⟨hkept, hwhen.symm.imp (fun ⟨hn, hnone, hleft⟩ => ?_) fun ⟨hn, hsome⟩ => ?_⟩
    · exact ⟨by rw [List.length_append]; exact hn, hnone, by rw [List.length_append]; exact hleft⟩
    · exact ⟨by rw [List.length_append, hn]; exact Nat.lt_succ_self _, hsome⟩

theorem Bus.Cut.write (h : b.Cut m n l) (a : Nat) (v : Word) : (b.write a v).Cut m n (l ++ [some (a, v)]) := by
  cases hfailed : b.failed with
  | some e =>
    have hsame : b.write a v = b := by simp [Bus.write, Bus.answer, hfailed]
    obtain ⟨-, hnone, -⟩ | ⟨hn, hsome⟩ := h.state
    · simp [hfailed] at hnone
    · rw [hsame]
      exact h.stopped hn hsome _
  | none =>
    obtain ⟨-, hmem, ⟨hn, hsome⟩ | ⟨hn, hnone, hleft⟩⟩ := h.answer hfailed a
    · have hwritten : b.write a v = b.answer a := if_pos hsome
      rw [hwritten]
      exact ⟨by rw [hmem, h.mem, take_append_one_of_le _ (by omega)],
        .inr ⟨by rw [List.length_append, hn]; exact Nat.lt_succ_self _, hsome⟩⟩
    · have hwritten : b.write a v = { b.answer a with mem := (b.answer a).mem.writeWord a v } := if_neg (by simp [hnone])
      rw [hwritten]
      refine ⟨?_, .inl ⟨by rw [List.length_append]; exact hn, hnone, by rw [List.length_append]; exact hleft⟩⟩
      rw [hmem, h.mem, take_append_one_of_lt _ hn, List.filterMap_append]
      exact (writesTo_append m _ [(a, v)]).symm

theorem Bus.Cut.writes (ws : List (Nat × Word)) : ∀ {l : List (Option (Nat × Word))} {b : Bus}, b.Cut m n l →
    (b.writes ws).Cut m n (l ++ ws.map some) := by
  induction ws with
  | nil =>
    intro l b h
    rw [List.map_nil, List.append_nil]
    exact h
  | cons w ws ih =>
    intro l b h
    have hrest := ih (h.write w.1 w.2)
    rw [List.append_assoc] at hrest
    exact hrest

end Cut

/-! ## The accesses of each kind of unit (R49, R86, R88) -/

section Kinds

variable (m : Memory) (n : Nat)

theorem cut_writes (ws : List (Nat × Word)) : ((Bus.start m (some n)).writes ws).Cut m n (ws.map some) :=
  (Bus.cut_start m n).writes ws

theorem cut_write (a : Nat) (v : Word) : ((Bus.start m (some n)).write a v).Cut m n [some (a, v)] :=
  (Bus.cut_start m n).write a v

theorem cut_check (s : State) (a : Nat) (change : Word → Option Word) :
    (checkAccesses (Bus.start s.mem (some n)) a change).2.Cut s.mem n (checkedCard s a change) := by
  have hread := (Bus.cut_start s.mem n).read a
  have hvalue : ((Bus.start s.mem (some n)).read a).1 = s.mem.readWord a := rfl
  rw [checkAccesses, checkedCard, hvalue]
  cases change (s.mem.readWord a) with
  | none => exact hread
  | some w => exact hread.write a w

theorem cut_writeAccesses (a : Nat) (data : Word) (enables : Enables) :
    (writeAccesses (Bus.start m (some n)) a data enables).2.Cut m n
      (if enables = 0xF then [some (a, data)] else [none, some (a, leftInMemory m a enables data)]) := by
  rw [writeAccesses]
  split
  · exact cut_write m n a data
  · exact ((Bus.cut_start m n).read a).write a _

/-! ## A pass (R49) -/

theorem readCarried_cut {l : List (Option (Nat × Word))} {b : Bus} (h : b.Cut m n l) (x : Option StagedWord) (a : Nat) :
    (readCarried b x a).2.Cut m n (l ++ List.replicate x.isSome.toNat none) := by
  cases x with
  | none =>
    show b.Cut m n (l ++ [])
    rwa [List.append_nil]
  | some w => exact h.read a

theorem cut_passReads (p : Profile) (frame card : Nat) (carried : Staged) :
    (passReads (Bus.start m (some n)) p frame card carried).2.Cut m n
      (List.replicate (1 + carried.w1.isSome.toNat + carried.w2.isSome.toNat + carried.w3.isSome.toNat) none) := by
  have h0 := (Bus.cut_start m n).read (ringAddress p frame card 0)
  have h1 := readCarried_cut m n h0 carried.w1 (ringAddress p frame card 1)
  have h2 := readCarried_cut m n h1 carried.w2 (ringAddress p frame card 2)
  have h3 := readCarried_cut m n h2 carried.w3 (ringAddress p frame card 3)
  rw [List.replicate_add, List.replicate_add, List.replicate_add]
  exact h3

/-- The words that a pass reads do not depend on where memory answers ERROR. -/
theorem passReads_words (error : Option Nat) (p : Profile) (frame card : Nat) (carried : Staged) :
    (passReads (Bus.start m error) p frame card carried).1 = recordRead m p frame card carried := by
  have hread (b : Bus) (x : Option StagedWord) (a : Nat) :
      (readCarried b x a).1 = (if x.isSome then b.mem.readWord a else 0) ∧ (readCarried b x a).2.mem = b.mem := by
    cases x <;> simp [readCarried, Bus.read]
  have hstart (error : Option Nat) : ((Bus.start m error).read (ringAddress p frame card 0)).2.mem = m := by
    simp [Bus.read, Bus.start]
  have hvalue (error : Option Nat) : ((Bus.start m error).read (ringAddress p frame card 0)).1 =
    m.readWord (ringAddress p frame card 0) := rfl
  simp only [recordRead, passReads, hread, hstart, hvalue]

theorem cut_pass {s : State} {pr : Profile} (hp : s.cmd.profile = some pr) (p : Port) (i : Fin 8) (f c : Nat) (carried : Staged)
    (data : Word) :
    (passAccesses (Bus.start s.mem (some n)) pr i f c carried).2.2.Cut s.mem n (heldAccesses s (.pass p i f c carried data)) := by
  have hreads := cut_passReads s.mem n pr f c carried
  have houtcome : passOutcome (pr.slots.get i) i carried (passReads (Bus.start s.mem (some n)) pr f c carried).1 =
      passOn s.mem pr i f c carried := by rw [passReads_words, passOn]
  rw [passAccesses]
  simp only [heldAccesses, hp, houtcome]
  cases passOn s.mem pr i f c carried with
  | refused detail =>
    rw [List.append_nil]
    exact hreads
  | performed words forced => exact hreads.writes _

end Kinds

/-! ## Memory at the end of each unit of work -/

section Ends

variable (s : State)

theorem ownUnit_mem (r : Requester) (b : Bus) {ok : State → State} (hok : ∀ t, (ok t).mem = t.mem) :
    (s.ownUnit r b ok).mem = b.mem := by
  rw [State.ownUnit]
  cases b.failed with
  | none => exact hok _
  | some a => exact (outer_fault _ _ _).1

theorem finishScan_mem (p : Profile) (n : RunningScan) : (s.finishScan p n).mem = s.mem := by
  rw [State.finishScan]
  split
  · exact (outer_endScan _).1
  · exact (outer_endScan _).1

theorem cardScanned_mem (p : Profile) (slot : Fin 8) (frame card : Nat) (read : Word) :
    (s.cardScanned p slot frame card read).mem = s.mem := by
  cases hn : s.time.running with
  | none => rw [State.cardScanned, hn]
  | some n =>
    rw [State.cardScanned, hn]
    dsimp only
    split
    · split
      · exact finishScan_mem s p _
      · rfl
    · rfl

theorem cardMarked_mem : s.cardMarked.mem = s.mem := by
  cases hm : s.seq.marking with
  | none => rw [State.cardMarked, hm]
  | some m =>
    rw [State.cardMarked, hm]
    exact (outer_progressMarking _).1

theorem finishScanRead_mem (p : Profile) (slot : Fin 8) (frame card : Nat) (error : Option Nat) :
    (s.finishScanRead p slot frame card error).mem = s.mem := by
  rw [State.finishScanRead]
  split
  · exact (outer_fault _ _ _).1.trans (outer_endScan s).1
  · exact cardScanned_mem s p slot frame card _

theorem profileWordLost_mem (index : Nat) : (s.profileWordLost index).mem = s.mem := by
  rw [State.profileWordLost]
  split <;> rfl

theorem finishProfileRead_mem (index : Nat) (error : Option Nat) : (s.finishProfileRead index error).mem = s.mem := by
  rw [State.finishProfileRead]
  split
  · exact (outer_fault _ _ _).1.trans (profileWordLost_mem s index)
  · exact (outer_profileWordRead s _).1

theorem finishPlainRead_mem (p : Port) (a : Nat) (error : Option Nat) : (s.finishPlainRead p a error).mem = s.mem := by
  rw [State.finishPlainRead]
  split <;> simp

theorem finishViewRead_mem (pr : Profile) (p : Port) (t : Target) (staged : Option StagedWord) (error : Option Nat) :
    (s.finishViewRead pr p t staged error).mem = s.mem := by
  rw [State.finishViewRead]
  split <;> simp

theorem initFailed_mem (p : Port) (purpose : InitFor) (a : Nat) : (s.initFailed p purpose a).1.mem = s.mem := by
  unfold State.initFailed
  split
  · rfl
  · simp
  · split <;> simp

theorem finishDemandInit_mem (pr : Profile) (p : Port) (frame card : Nat) (purpose : InitFor) (error : Option Nat) :
    (s.finishDemandInit pr p frame card purpose error).mem =
      ((Bus.start s.mem error).writes (initWrites pr frame card)).mem := by
  unfold State.finishDemandInit
  dsimp only
  split
  · exact (outer_fault _ _ _).1.trans (initFailed_mem _ p purpose _)
  · exact (outer_addToInitSet _ frame card).1

theorem finishWrite_mem (p : Port) (a : Nat) (data : Word) (enables : Enables) (isProfile : Bool) (error : Option Nat) :
    (s.finishWrite p a data enables isProfile error).mem = (writeAccesses (Bus.start s.mem error) a data enables).2.mem := by
  rw [State.finishWrite]
  split
  · exact (removeHead_fields _ p).1
  · split
    · exact (outer_handOver _ p a _).1.trans (removeHead_fields _ p).1
    · exact (removeHead_fields _ p).1

theorem recordWritten_mem (p : Profile) (w : RecordWrite) : (s.recordWritten p w).mem = s.mem := by
  rw [State.recordWritten]
  split
  · rfl
  · exact (outer_updateLatch _).1

theorem finishRecord_mem {w : RecordWrite} (p : Profile) (error : Option Nat) (hw : s.rep.writing = some w) :
    (s.finishRecord p error).mem = ((Bus.start s.mem error).writes (recordWrites w)).mem := by
  rw [State.finishRecord, hw]
  dsimp only
  split
  · exact (outer_fault _ _ _).1
  · exact recordWritten_mem _ p w

theorem finishStatus_mem (index : Nat) (value : Word) (error : Option Nat) :
    (s.finishStatus index value error).mem = ((Bus.start s.mem error).write (s.statusAddress index) value).mem := by
  rw [State.finishStatus]
  dsimp only
  split
  · exact (outer_fault _ _ _).1
  · rfl

theorem makePass_mem {pr : Profile} (hp : s.cmd.profile = some pr) (p : Port) (slot : Fin 8) (frame card : Nat)
    (carried : Staged) (data : Word) (error : Option Nat) :
    (s.makePass p slot frame card carried data error).mem =
      (passAccesses (Bus.start s.mem error) pr slot frame card carried).2.2.mem := by
  rw [State.makePass, hp]
  dsimp only
  generalize passAccesses (Bus.start s.mem error) pr slot frame card carried = accesses
  obtain ⟨u, hu, -⟩ := foldl_produce_rep (passReports p (pr.slots.get slot) slot frame card data accesses.1
    (maskedRecord (pr.slots.get slot) carried accesses.1) accesses.2.2.failed accesses.2.1) { s with mem := accesses.2.2.mem }
  rw [hu]

end Ends

/-! ## Any unit of work (R88, R89) -/

section Held

variable {s : State} {w : Work} {n : Nat}

theorem writesTo_read (m : Memory) (n : Nat) : writesTo m (([none] : List (Option (Nat × Word))).take n |>.filterMap id) = m := by
  cases n <;> simp [writesTo]

/-- A unit of work that exists with an active profile only is its accesses, and without one nothing. -/
theorem finishWith_accesses {f : Profile → State} (hnone : s.cmd.profile = none → heldAccesses s w = [none])
    (hsome : ∀ pr, s.cmd.profile = some pr →
      (f pr).mem = writesTo s.mem (((heldAccesses s w).take n).filterMap id)) :
    (s.finishWith f).mem = writesTo s.mem (((heldAccesses s w).take n).filterMap id) := by
  cases hp : s.cmd.profile with
  | none =>
    rw [State.finishWith, hp, hnone hp]
    exact (writesTo_read s.mem n).symm
  | some pr =>
    rw [State.finishWith, hp]
    exact hsome pr hp

/-- The new word 0 of a card that the marking pass checks. -/
theorem markingChange_eq : markingChange = fun read =>
    if cardState read = 14 ∨ cardState read = 15 then none
    else some (recordWord0 14 9 (cardCount read) (cardMarks read) (cardGeneration read)) := by
  funext read
  by_cases hend : cardState read = 14 ∨ cardState read = 15
  · rw [markingChange_end hend, if_pos hend]
  · rw [markingChange_working (fun h => hend (.inl h)) (fun h => hend (.inr h)), if_neg hend]
    rfl

/-- A card initialisation by the Ring Sequencer. -/
theorem finishInit_mem (s : State) (pr : Profile) (f c n : Nat) :
    (s.finishInit pr f c (some n)).mem = writesTo s.mem ((((initWrites pr f c).map some).take n).filterMap id) :=
  (ownUnit_mem s _ _ fun t => (outer_addToInitSet t f c).1).trans (cut_writes s.mem n _).mem

theorem finishRecord_accesses (s : State) (pr : Profile) (n : Nat) :
    (s.finishRecord pr (some n)).mem =
      writesTo s.mem ((((s.rep.writing.toList.flatMap recordWrites).map some).take n).filterMap id) := by
  cases hw : s.rep.writing with
  | none =>
    rw [State.finishRecord, hw]
    exact (Bus.cut_start s.mem n).mem
  | some w =>
    have hlist : (some w).toList.flatMap recordWrites = recordWrites w := List.append_nil _
    rw [finishRecord_mem s pr (some n) hw, hlist]
    exact (cut_writes s.mem n _).mem

/-- A pass reads before it writes, and without a profile it makes no access. -/
theorem makePass_accesses (p : Port) (i : Fin 8) (f c : Nat) (carried : Staged) (data : Word) :
    ((s.removeHead p).makePass p i f c carried data (some n)).mem =
      writesTo s.mem (((heldAccesses s (.pass p i f c carried data)).take n).filterMap id) := by
  obtain ⟨hmem, hprofile⟩ : (s.removeHead p).mem = s.mem ∧ (s.removeHead p).cmd.profile = s.cmd.profile := by simp
  cases hp : s.cmd.profile with
  | none =>
    have hnone : heldAccesses s (.pass p i f c carried data) = [none] := by
      unfold heldAccesses
      rw [hp]
    rw [State.makePass, hprofile, hp, hnone, writesTo_read]
    exact hmem
  | some pr =>
    rw [makePass_mem (s.removeHead p) (hprofile.trans hp), hmem]
    exact (cut_pass n hp p i f c carried data).mem

/-- The end of a unit of work leaves the accesses that were answered OK, and changes memory no further (R88, R89). -/
theorem finishWork_mem (s : State) (w : Work) (n : Nat) :
    (s.finishWork w (some n)).mem = writesTo s.mem (((heldAccesses s w).take n).filterMap id) := by
  cases w with
  | cardInit f c =>
    refine finishWith_accesses (fun hp => by simp only [heldAccesses, hp]) fun pr hp => ?_
    simp only [heldAccesses, hp]
    exact finishInit_mem s pr f c n
  | markInit f c =>
    refine finishWith_accesses (fun hp => by simp only [heldAccesses, hp]) fun pr hp => ?_
    simp only [heldAccesses, hp]
    exact finishInit_mem s pr f c n
  | demandInit p f c purpose =>
    refine finishWith_accesses (fun hp => by simp only [heldAccesses, hp]) fun pr hp => ?_
    simp only [heldAccesses, hp]
    exact (finishDemandInit_mem s pr p f c purpose _).trans (cut_writes s.mem n _).mem
  | cardCheck i f c =>
    refine finishWith_accesses (fun hp => by simp only [heldAccesses, hp]) fun pr hp => ?_
    simp only [heldAccesses, hp]
    exact (ownUnit_mem s _ _ fun t => (outer_cardExamined t pr c _).1).trans (cut_check n s _ (departureChange (pr.slots.get i) i)).mem
  | judge f c =>
    refine finishWith_accesses (fun hp => by simp only [heldAccesses, hp]) fun pr hp => ?_
    simp only [heldAccesses, hp]
    exact (ownUnit_mem s _ _ fun t => (outer_cardJudged t pr f c _).1).trans (cut_check n s _ _).mem
  | markCheck f c =>
    refine finishWith_accesses (fun hp => by simp only [heldAccesses, hp]) fun pr hp => ?_
    simp only [heldAccesses, hp, ← markingChange_eq]
    exact (ownUnit_mem s _ _ cardMarked_mem).trans (cut_check n s _ markingChange).mem
  | record =>
    refine finishWith_accesses (fun hp => by simp only [heldAccesses, hp]) fun pr hp => ?_
    simp only [heldAccesses, hp]
    exact finishRecord_accesses s pr n
  | lateRead i f c =>
    refine finishWith_accesses (fun _ => rfl) fun pr _ => ?_
    exact (finishScanRead_mem s pr i f c _).trans (writesTo_read s.mem n).symm
  | viewRead p g staged =>
    refine finishWith_accesses (fun _ => rfl) fun pr _ => ?_
    exact (finishViewRead_mem s pr p g staged _).trans (writesTo_read s.mem n).symm
  | pass p i f c carried data => exact makePass_accesses p i f c carried data
  | status k v =>
    refine (finishStatus_mem s k v _).trans ?_
    rw [statusAddress_eq]
    exact (cut_write s.mem n _ v).mem
  | readPointer => exact (ownUnit_mem s _ _ fun _ => rfl).trans (cut_write s.mem n _ 1).mem
  | outcome o => exact (ownUnit_mem s _ _ fun _ => rfl).trans (cut_write s.mem n _ _).mem
  | profileRead k => exact (finishProfileRead_mem s k _).trans (writesTo_read s.mem n).symm
  | write p a data enables isProfile =>
    exact (finishWrite_mem s p a data enables isProfile _).trans (cut_writeAccesses s.mem n a data enables).mem
  | plainRead p a => exact (finishPlainRead_mem s p a _).trans (writesTo_read s.mem n).symm

end Held

/-- RESET with a unit under its hold leaves the accesses completed so far (R89). -/
theorem cutMemory_held {s : State} {w : Work} (h : s.arb.hold = some w) (n : Nat) :
    s.cutMemory n = writesTo s.mem (((heldAccesses s w).take n).filterMap id) := by
  have hreleased : heldAccesses s.release w = heldAccesses s w := rfl
  rw [State.cutMemory, State.endHold, h]
  exact (finishWork_mem s.release w n).trans (by rw [hreleased]; rfl)

theorem cutMemory_free {s : State} (h : s.arb.hold = none) (n : Nat) : s.cutMemory n = s.mem := by
  rw [State.cutMemory, State.endHold, h]

theorem exec_deviceReset {s : State} (h : s.inReset = false) (n : Nat) :
    exec (.deviceReset n) s = .next (s.afterReset (s.cutMemory n)) :=
  congrArg Host.Outcome.next (if_neg (by simp [h]))

theorem exec_resetRelease {s : State} (h : s.inReset = true) (straps : BitVec 4) :
    exec (.resetRelease straps) s = .next { s with
      inReset := false, psel := straps, portA := s.portA.released, portB := s.portB.released } :=
  congrArg Host.Outcome.next (if_pos h)

/-- Settles O13: the release samples the straps, and RESET keeps the accesses completed so far and nothing else. -/
theorem resetAndRelease : Obligations.ResetAndRelease := by
  refine ⟨fun straps s hreset => ⟨_, exec_resetRelease hreset straps, rfl, rfl⟩, fun n s hreset =>
    ⟨_, exec_deviceReset hreset n, cutMemory_free (n := n), fun w hw => cutMemory_held hw n, ?_⟩⟩
  generalize s.cutMemory n = m
  have hviews (i : Fin 8) : (s.afterReset m).view.get i = Station.reset := by fin_cases i <;> rfl
  have hdesks (r : Requester) : (s.afterReset m).arb.desk r = { request := none, passed := 0 } := by cases r <;> rfl
  have hdeadlines (i : Fin 8) : (s.afterReset m).time.deadlines.get i = .disarmed := get_allDisarmed i
  simp only [hviews, hdesks, hdeadlines]
  simp [State.afterReset, PortState.reset, Station.reset, Arbiter.reset, Sequencer.reset, TimeBase.reset, Discharge.reset,
    CommandUnit.reset, ReportUnit.reset, Pins.reset]

end Sys2Proof.Machine
end
